-- ==== Sys2Proof/Word.lean ====
section
/-! DEFINITION. The word types of the Tsula and bit-field access to record images. -/

namespace Sys2Proof

/-- A byte of memory (R4). -/
abbrev Byte := BitVec 8

/-- A 64-bit scalar register, address or special register (R85). -/
abbrev Word := BitVec 64

/-- One 32-bit lane element (R35). -/
abbrev Elem := BitVec 32

/-- The 22-bit index of a lane word (R141). -/
abbrev LIdx := BitVec 22

end Sys2Proof
end

