-- ==== Sys2Proof/Config.lean ====
section
/-! DEFINITION. What an implementation fixes and what the spec leaves open: constants without a body, so that nothing
rests on their values. -/

namespace Sys2Proof.Config

/-- The cycles that the clock of a unit counts in a step of the machine: cores 0 to 255 (R177), 256 + q the stack controllers of quarter q
(R308), 260 the device (R344). The spec gives no cycle counts. DESIGN CHOICE, log entry 3. -/
opaque stepCycles : Nat → Nat → Nat

/-- Whether a device number belongs to the load-store domain (R97). DESIGN CHOICE, log entry 4. -/
opaque inDomain : Nat → Bool

/-- The device's own number in its domain (R97, R352). DESIGN CHOICE, log entry 4. -/
opaque deviceNo : Nat

/-- The redundant lanes of a bridge module (R354). DESIGN CHOICE, log entry 5. -/
opaque redundantLanes : Nat

/-- The LMS keys of the device and of the vendor (R374): a key's identifier, the secret from which a chain of a leaf starts, and the
randomizer of a signature with a leaf over a message. DESIGN CHOICE, log entry 6. -/
opaque lmsId : Bool → BitVec 128
opaque lmsSecret : Bool → Nat → Nat → BitVec 256
opaque lmsRandom : Bool → Nat → List (BitVec 8) → BitVec 256

/-- The leaf with which the vendor signed the configuration record (R374, R378). DESIGN CHOICE, log entry 6. -/
opaque vendorLeaf : List (BitVec 8) → BitVec 20

/-- The faults that the self-test of a start finds: array, core or quarter, and unit (R343, R372). DESIGN CHOICE, log entry 113. -/
opaque selfTest : Nat → List (Nat × Nat × Nat)

/-- The SHA-256 of the firmware image that start-up step 2 or 3 measures (R372). DESIGN CHOICE, log entry 6. -/
opaque firmwareDigest : Nat → BitVec 256

/-- Whether a step of start-up fails at a power-on, for the causes the state does not hold (R372). DESIGN CHOICE, log entry 7. -/
opaque startFails : Nat → Nat → Bool

/-- The rail groups that do not train at a power-on (R372). DESIGN CHOICE, log entry 7. -/
opaque untrained : Nat → BitVec 9

/-- The ECC syndrome that a code word with these bits inverted gives (R341): the spec gives no code. DESIGN CHOICE, log entry 8. -/
opaque syndrome : BitVec 64 → BitVec 16

/-- The clock of a core in MHz under its rated cap and its guard-band steps (R377, R379): the spec gives no step size. DESIGN CHOICE,
log entry 7. -/
opaque coreClock : Nat → Nat → Nat

/-- The row of an array that holds a unit, and the bank of an array that holds it (R343, R344): the spec gives no geometry.
DESIGN CHOICE, log entry 15. -/
opaque rowOf : Nat → Nat → Nat
opaque bankOf : Nat → Nat → Nat

/-- The line above the usable size in which the controllers of a quarter hold a line of a removed bank group (R99). DESIGN CHOICE, log entry
93. -/
opaque redirect : Nat → Nat → Nat

/-- The bits that a reader would find in a value the spec leaves open. DESIGN CHOICE, log entry 9. -/
opaque freeBits : Nat → BitVec 64

end Sys2Proof.Config
end

