-- ==== Sys2Proof/Machine/Num.lean ====
section
/-! DEFINITION. Number formats, exact values, rounding, the correctly rounded functions and the keyed generator
(R34 to R61). Every operation computes exactly on rational magnitudes and rounds once at its end. -/

namespace Sys2Proof.Machine

/-- The sticky flags of STATUS, bit for bit (R50): NV 0, DZ 1, OF 2, UF 3, NX 4, SATF 5, BNDF 6. -/
abbrev Flags := BitVec 7

def fNV : Flags := 1
def fDZ : Flags := 2
def fOF : Flags := 4
def fUF : Flags := 8
def fNX : Flags := 16
def fSATF : Flags := 32
def fBNDF : Flags := 64
def noFlags : Flags := 0

/-- An exact value (R37, R47): a NaN (signalling or not), a signed infinity, a signed zero, or a sign with the
non-zero magnitude num / den. -/
inductive Val where
  | nan (sig : Bool)
  | inf (neg : Bool)
  | zero (neg : Bool)
  | fin (neg : Bool) (num den : Nat)
  deriving DecidableEq, Repr

/-- How a floating format uses its top codes (R36). -/
inductive FKind where
  | ieee | e4m3 | e2m1 | e3m5
  deriving DecidableEq, Repr

/-- A floating format (R36, R55). -/
structure Fmt where
  kind : FKind
  ebits : Nat
  fbits : Nat
  bias : Nat
  deriving DecidableEq, Repr

def fmtF16 : Fmt := ⟨.ieee, 5, 10, 15⟩
def fmtBF16 : Fmt := ⟨.ieee, 8, 7, 127⟩
def fmtF32 : Fmt := ⟨.ieee, 8, 23, 127⟩
def fmtF64 : Fmt := ⟨.ieee, 11, 52, 1023⟩
def fmtE4M3 : Fmt := ⟨.e4m3, 4, 3, 7⟩
def fmtE5M2 : Fmt := ⟨.ieee, 5, 2, 15⟩
def fmtE2M1 : Fmt := ⟨.e2m1, 2, 1, 1⟩
def fmtE3M5 : Fmt := ⟨.e3m5, 3, 5, 3⟩
/-- The accumulator element (R55). -/
def fmtAcc : Fmt := ⟨.ieee, 10, 37, 511⟩

/-- The bits of a format's sign; e3m5 has none. -/
def Fmt.signBits (f : Fmt) : Nat := if f.kind = .e3m5 then 0 else 1

def Fmt.width (f : Fmt) : Nat := f.signBits + f.ebits + f.fbits

/-- The sign of a code. -/
def fmtSign (f : Fmt) (c : Nat) : Bool := f.signBits = 1 && (c >>> (f.ebits + f.fbits)) % 2 = 1

/-- m × 2^ex as a fraction. -/
def scaleQ (m : Nat) (ex : Int) : Nat × Nat :=
  if 0 ≤ ex then (m * 2 ^ ex.toNat, 1) else (m, 2 ^ (-ex).toNat)

/-- Decode(c) (R37): the exact value of a code. An accumulator element has no signalling NaN (R38). -/
def decodeF (f : Fmt) (c : Nat) : Val :=
  let s := fmtSign f c
  let e := (c >>> f.fbits) % 2 ^ f.ebits
  let m := c % 2 ^ f.fbits
  let top := 2 ^ f.ebits - 1
  let special : Option Val :=
    match f.kind with
    | .ieee => if e = top then some (if m = 0 then .inf s else .nan (decide (f ≠ fmtAcc ∧ m < 2 ^ (f.fbits - 1)))) else none
    | .e4m3 => if e = top ∧ m = 7 then some (.nan false) else none
    | .e2m1 => none
    | .e3m5 => if e = top ∧ m = 31 then some (.nan false) else none
  match special with
  | some v => v
  | none =>
    if e = 0 then
      if m = 0 then .zero s
      else
        let q := scaleQ m (1 - (f.bias : Int) - f.fbits)
        .fin s q.1 q.2
    else
      let q := scaleQ (2 ^ f.fbits + m) ((e : Int) - f.bias - f.fbits)
      .fin s q.1 q.2

/-- The magnitude code of the largest finite value (R36). -/
def maxCode (f : Fmt) : Nat :=
  match f.kind with
  | .ieee => (2 ^ f.ebits - 1) * 2 ^ f.fbits - 1
  | .e4m3 => 0x7E
  | .e2m1 => 0x7
  | .e3m5 => 0xFE

/-- The exponent of the largest finite value. -/
def maxExp (f : Fmt) : Int :=
  match f.kind with
  | .ieee => (2 ^ f.ebits : Int) - 2 - f.bias
  | _ => (2 ^ f.ebits : Int) - 1 - f.bias

/-- The canonical quiet NaN of a format (R38); e2m1 gives +0 and e3m5 0xFF, which are not NaNs (R47). -/
def canonNaN (f : Fmt) : Nat :=
  match f.kind with
  | .ieee => (2 ^ f.ebits - 1) * 2 ^ f.fbits + 2 ^ (f.fbits - 1)
  | .e4m3 => 0x7F
  | .e2m1 => 0
  | .e3m5 => 0xFF

def signCode (f : Fmt) (neg : Bool) (mag : Nat) : Nat :=
  if neg ∧ f.signBits = 1 then mag + 2 ^ (f.ebits + f.fbits) else mag

/-- floor(log2(n / d)) for positive n and d. -/
def flog2Q (n d : Nat) : Int :=
  let k : Int := (Nat.log2 n : Int) - (Nat.log2 d : Int)
  let ge := if 0 ≤ k then decide (d * 2 ^ k.toNat ≤ n) else decide (d ≤ n * 2 ^ (-k).toNat)
  if ge then k else k - 1

/-- Whether a magnitude q + r/d, with 0 < r < d, goes up to q + 1 in mode m (R46); u is the SR draw. -/
def roundsUp (m : Nat) (neg : Bool) (q r d u : Nat) : Bool :=
  if m = 1 then decide (d < 2 * r) || (decide (2 * r = d) && decide (q % 2 = 1))
  else if m = 3 then !neg
  else if m = 4 then neg
  else if m = 5 then decide (d ≤ 2 * r)
  else if m = 6 then decide (u < 2 ^ 32 * r / d)
  else false

/-- A code with the flags that giving it sets. -/
abbrev Rounded := Nat × Flags

/-- Overflow(s, T, m, …) (R48); exact says that the value was an exact infinity. -/
def overflowTo (f : Fmt) (m : Nat) (neg exact : Bool) : Rounded :=
  let outward := exact || m = 1 || m = 5 || m = 6 || (m = 3 && !neg) || (m = 4 && neg)
  match f.kind with
  | .ieee => if outward then (signCode f neg ((2 ^ f.ebits - 1) * 2 ^ f.fbits), 0) else (signCode f neg (maxCode f), 0)
  | .e4m3 => if outward then (canonNaN f, fNV) else (signCode f neg (maxCode f), 0)
  | .e2m1 => (signCode f neg (maxCode f), if exact then fNV else 0)
  | .e3m5 => if outward then (0xFF, fNV) else (0xFE, 0)

/-- RoundTo(v, T, m) for a mode m of 1 to 6 (R47, R48); u is the draw of SR (R45). -/
def roundTo (f : Fmt) (m u : Nat) (v : Val) : Rounded :=
  match v with
  | .nan _ => (canonNaN f, if f.kind = .e2m1 ∨ f.kind = .e3m5 then fNV else 0)
  | .zero neg => (signCode f neg 0, 0)
  | .inf neg => if f.kind = .e3m5 ∧ neg then (0xFF, fNV) else overflowTo f m neg true
  | .fin neg n d =>
    if f.kind = .e3m5 ∧ neg then (0xFF, fNV)
    else
      let e := flog2Q n d
      let emin : Int := 1 - (f.bias : Int)
      let ge := min (max e emin) (maxExp f) - f.fbits
      let N := if 0 ≤ ge then n else n * 2 ^ (-ge).toNat
      let D := if 0 ≤ ge then d * 2 ^ ge.toNat else d
      let q := N / D
      let r := N % D
      let q' := if r = 0 then q else if roundsUp m neg q r D u then q + 1 else q
      let mag := (ge + f.bias + f.fbits - 1).toNat * 2 ^ f.fbits + q'
      if mag > maxCode f then
        let o := overflowTo f m neg false
        (o.1, o.2 ||| fOF ||| fNX)
      else
        (signCode f neg mag, if r = 0 then 0 else fNX ||| (if e < emin then fUF else 0))

/-- RoundTo followed by the clamp of SAT = 1 (R48): an infinity, the NaN of an e4m3 overflow and the ±6 that e2m1 gives
for an infinity become ±Max with SATF, and the NV of the overflow is not set. -/
def roundSat (f : Fmt) (m u : Nat) (sat : Bool) (v : Val) : Rounded :=
  let r := roundTo f m u v
  if !sat then r
  else
    let isNaN := match v with | .nan _ => true | _ => false
    let isInf := match v with | .inf _ => true | _ => false
    let neg := match v with | .inf s => s | .zero s => s | .fin s _ _ => s | .nan _ => false
    let hit :=
      match f.kind with
      | .ieee => !isNaN && decide (r.1 % 2 ^ (f.ebits + f.fbits) = (2 ^ f.ebits - 1) * 2 ^ f.fbits)
      | .e4m3 => !isNaN && decide (r.1 = canonNaN f)
      | .e2m1 => isInf
      | .e3m5 => false
    if hit then (signCode f neg (maxCode f), (r.2 &&& ~~~ fNV) ||| fSATF) else r

/-! ### Exact operations -/

/-- The exact value of an integer. -/
def ofInt (i : Int) : Val := if i = 0 then .zero false else .fin (decide (i < 0)) i.natAbs 1

def isSig (v : Val) : Bool := match v with | .nan s => s | _ => false

def isNan (v : Val) : Bool := match v with | .nan _ => true | _ => false

def sigFlag (v : Val) : Flags := if isSig v then fNV else 0

def negV : Val → Val
  | .nan s => .nan s
  | .inf s => .inf (!s)
  | .zero s => .zero (!s)
  | .fin s n d => .fin (!s) n d

def absV : Val → Val
  | .nan s => .nan s
  | .inf _ => .inf false
  | .zero _ => .zero false
  | .fin _ n d => .fin false n d

/-- A signed numerator over a denominator, as a value; rdn gives the sign of an exact zero of opposite signs (R49). -/
def ofQ (rdn : Bool) (i : Int) (d : Nat) : Val :=
  if i = 0 then .zero rdn else .fin (decide (i < 0)) i.natAbs d

def signedNum (s : Bool) (n : Nat) : Int := if s then -(n : Int) else n

/-- a + b, exact (R49); the flags are those of an invalid sum. -/
def addV (rdn : Bool) : Val → Val → Val × Flags
  | .nan s, b => (.nan false, (if s then fNV else 0) ||| sigFlag b)
  | a, .nan s => (.nan false, (if s then fNV else 0) ||| sigFlag a)
  | .inf s, .inf t => if s = t then (.inf s, 0) else (.nan false, fNV)
  | .inf s, _ => (.inf s, 0)
  | _, .inf t => (.inf t, 0)
  | .zero s, .zero t => (.zero (if s = t then s else rdn), 0)
  | .zero _, b => (b, 0)
  | a, .zero _ => (a, 0)
  | .fin s n d, .fin t m e =>
    let g := Nat.gcd d e
    (ofQ rdn (signedNum s n * (e / g : Nat) + signedNum t m * (d / g : Nat)) (d / g * e), 0)

/-- a × b, exact. -/
def mulV : Val → Val → Val × Flags
  | .nan s, b => (.nan false, (if s then fNV else 0) ||| sigFlag b)
  | a, .nan s => (.nan false, (if s then fNV else 0) ||| sigFlag a)
  | .inf s, .inf t => (.inf (s != t), 0)
  | .inf s, .fin t _ _ => (.inf (s != t), 0)
  | .fin s _ _, .inf t => (.inf (s != t), 0)
  | .inf _, .zero _ => (.nan false, fNV)
  | .zero _, .inf _ => (.nan false, fNV)
  | .zero s, .zero t => (.zero (s != t), 0)
  | .zero s, .fin t _ _ => (.zero (s != t), 0)
  | .fin s _ _, .zero t => (.zero (s != t), 0)
  | .fin s n d, .fin t m e => (.fin (s != t) (n * m) (d * e), 0)

/-- a ÷ b, exact, with the special cases of IEEE 754 division. -/
def divV : Val → Val → Val × Flags
  | .nan s, b => (.nan false, (if s then fNV else 0) ||| sigFlag b)
  | a, .nan s => (.nan false, (if s then fNV else 0) ||| sigFlag a)
  | .inf _, .inf _ => (.nan false, fNV)
  | .inf s, .zero t => (.inf (s != t), 0)
  | .inf s, .fin t _ _ => (.inf (s != t), 0)
  | .zero s, .inf t => (.zero (s != t), 0)
  | .fin s _ _, .inf t => (.zero (s != t), 0)
  | .zero _, .zero _ => (.nan false, fNV)
  | .fin s _ _, .zero t => (.inf (s != t), fDZ)
  | .zero s, .fin t _ _ => (.zero (s != t), 0)
  | .fin s n d, .fin t m e => (.fin (s != t) (n * e) (d * m), 0)

def isInfV (neg : Bool) (v : Val) : Bool := match v with | .inf s => s = neg | _ => false
def isNegZero (v : Val) : Bool := match v with | .zero s => s | _ => false

/-- The exact sum of a list, whatever its order. An exact zero of it is −0 when every term is −0, or in RDN; +0 otherwise
(R57, R239). Infinities of both signs and signalling NaNs set NV. -/
def sumV (rdn : Bool) (l : List Val) : Val × Flags :=
  let both := l.any (isInfV true) && l.any (isInfV false)
  let fl := l.foldl (fun f v => f ||| sigFlag v) (if both then fNV else 0)
  if both || l.any isNan then (.nan false, fl)
  else
    match l.foldl (fun acc v => (addV rdn acc v).1) (.zero false) with
    | .zero _ => (.zero (rdn || (!l.isEmpty && l.all isNegZero)), fl)
    | v => (v, fl)

/-- a < b for two values that are no NaN; −0 and +0 are equal. -/
def ltV (a b : Val) : Bool :=
  match a, b with
  | .inf s, .inf t => s && !t
  | .inf s, _ => s
  | _, .inf t => !t
  | .zero _, .zero _ => false
  | .zero _, .fin t _ _ => !t
  | .fin s _ _, .zero _ => s
  | .fin s n d, .fin t m e => decide (signedNum s n * (e : Int) < signedNum t m * (d : Int))
  | _, _ => false

def eqV (a b : Val) : Bool :=
  !isNan a && !isNan b && !ltV a b && !ltV b a

def signV : Val → Bool
  | .nan _ => false
  | .inf s => s
  | .zero s => s
  | .fin s _ _ => s

/-! ### Integers -/

/-- The signed reading of the low w bits. -/
def toSigned (w n : Nat) : Int :=
  let m := n % 2 ^ w
  if m ≥ 2 ^ (w - 1) then (m : Int) - 2 ^ w else m

/-- The low w bits of an integer. -/
def wrapInt (w : Nat) (i : Int) : Nat := (i % (2 ^ w : Int)).toNat

def minOf (w : Nat) (signed : Bool) : Int := if signed then -(2 ^ (w - 1) : Int) else 0
def maxOf (w : Nat) (signed : Bool) : Int := if signed then 2 ^ (w - 1) - 1 else 2 ^ w - 1

def clampInt (w : Nat) (signed : Bool) (i : Int) : Int := max (minOf w signed) (min (maxOf w signed) i)

/-- An integer result under SAT (R34): wrapped, or clamped with SATF. -/
def intResult (w : Nat) (signed sat : Bool) (i : Int) : Rounded :=
  if sat then
    let c := clampInt w signed i
    (wrapInt w c, if c = i then 0 else fSATF)
  else (wrapInt w i, 0)

/-- The rounding of an exact value to an integer (R49). -/
def roundInt (m u : Nat) (neg : Bool) (n d : Nat) : Int :=
  let q := n / d
  let r := n % d
  signedNum neg (if r = 0 then q else if roundsUp m neg q r d u then q + 1 else q)

/-- The conversion of R49 to an integer type of width w. -/
def convInt (w : Nat) (signed : Bool) (m u : Nat) (v : Val) : Rounded :=
  match v with
  | .nan _ => (0, fNV)
  | .inf s => (wrapInt w (if s then minOf w signed else maxOf w signed), fNV)
  | .zero _ => (0, 0)
  | .fin s n d =>
    let i := roundInt m u s n d
    let c := clampInt w signed i
    if c = i then (wrapInt w i, if n % d = 0 then 0 else fNX) else (wrapInt w c, fNV)

/-! ### Correctly rounded functions (R58)

Where the exact value is irrational the definition brackets it between two neighbours q / 2^K and (q + 1) / 2^K, with K far
beyond every boundary that a rounding of R46 tests, and rounds their midpoint, which lies on the same side of each boundary. -/

/-- The integer square root, from bit k down. -/
def isqrtFrom (n : Nat) : Nat → Nat → Nat
  | 0, r => r
  | k + 1, r => let t := r + 2 ^ k; isqrtFrom n k (if t * t ≤ n then t else r)

def isqrt (n : Nat) : Nat := isqrtFrom n (Nat.log2 n / 2 + 1) 0

/-- √(n/d), exact when it is rational with the bracket's denominator, else the midpoint of its bracket. -/
def sqrtQ (n d : Nat) : Nat × Nat :=
  let k := 200 + Nat.log2 d
  let t := n * 2 ^ (2 * k) / d
  let q := isqrt t
  if n * 2 ^ (2 * k) % d = 0 ∧ q * q = t then (q, 2 ^ k) else (2 * q + 1, 2 ^ (k + 1))

/-- The working precision of the series below, in fraction bits. -/
def serBits : Nat := 320

/-- 2·atanh(a/b) in fixed point, by its series, with i the odd index: Σ 2·z^i / i. -/
def atanhLoop (zz : Nat) : Nat → Nat → Nat → Nat → Nat
  | 0, _, _, acc => acc
  | fuel + 1, p, i, acc => atanhLoop zz fuel (p * zz / 2 ^ serBits) (i + 2) (acc + 2 * p / i)

def atanhFix (a b : Nat) : Nat :=
  let z := a * 2 ^ serBits / b
  atanhLoop (z * z / 2 ^ serBits) 120 z 1 0

/-- ln 2 in fixed point. -/
def ln2Fix : Nat := atanhFix 1 3

/-- exp(x) for 0 ≤ x < 1 in fixed point. -/
def expLoop (x : Nat) : Nat → Nat → Nat → Nat → Nat
  | 0, _, _, acc => acc
  | fuel + 1, t, i, acc => let t' := t * x / 2 ^ serBits / i; expLoop x fuel t' (i + 1) (acc + t')

def expFix (x : Nat) : Nat := expLoop x 80 (2 ^ serBits) 1 (2 ^ serBits)

/-- The midpoint of the bracket of q / 2^serBits with the low 64 bits of the series dropped. -/
def bracket (q : Nat) : Nat × Nat := (2 * (q / 2 ^ 64) + 1, 2 ^ (serBits - 64 + 1))

/-- 2^x for x = ±n/d (R58). -/
def exp2V (v : Val) : Val × Flags :=
  match v with
  | .nan s => (.nan false, if s then fNV else 0)
  | .inf s => (if s then .zero false else .inf false, 0)
  | .zero _ => (.fin false 1 1, 0)
  | .fin s n d =>
    -- far beyond every f32 exponent the value only decides overflow or underflow
    if n / d ≥ 1024 then (if s then .fin false 1 (2 ^ 1024) else .fin false (2 ^ 1024 + 1) 1, 0)
    else
      let i : Int := (signedNum s n).fdiv d
      let r : Nat := ((signedNum s n).fmod d).toNat
      let m := if r = 0 then (1, 1) else bracket (expFix (r * ln2Fix / d))
      let q := scaleQ 1 i
      (.fin false (m.1 * q.1) (m.2 * q.2), 0)

/-- log2 of a positive n/d: the exponent plus the logarithm of the significand. -/
def log2Q (n d : Nat) : Val :=
  let e := flog2Q n d
  let a := if 0 ≤ e then n else n * 2 ^ (-e).toNat
  let b := if 0 ≤ e then d * 2 ^ e.toNat else d
  if a = b then ofInt e
  else
    let m := bracket (atanhFix (a - b) (a + b) * 2 ^ serBits / ln2Fix)
    ofQ false (e * (m.2 : Int) + m.1) m.2

/-- The five functions of R58 and R227. -/
inductive RFun where
  | rcp | rsq | sqrt | exp2 | log2
  deriving DecidableEq, Repr

def evalRFun (f : RFun) (v : Val) : Val × Flags :=
  match f with
  | .rcp => divV (.fin false 1 1) v
  | .rsq =>
    match v with
    | .nan s => (.nan false, if s then fNV else 0)
    | .zero s => (.inf s, fDZ)
    | .inf s => if s then (.nan false, fNV) else (.zero false, 0)
    | .fin s n d => if s then (.nan false, fNV) else let q := sqrtQ d n; (.fin false q.1 q.2, 0)
  | .sqrt =>
    match v with
    | .nan s => (.nan false, if s then fNV else 0)
    | .zero s => (.zero s, 0)
    | .inf s => if s then (.nan false, fNV) else (.inf false, 0)
    | .fin s n d => if s then (.nan false, fNV) else let q := sqrtQ n d; (.fin false q.1 q.2, 0)
  | .exp2 => exp2V v
  | .log2 =>
    match v with
    | .nan s => (.nan false, if s then fNV else 0)
    | .zero _ => (.inf true, fDZ)
    | .inf s => if s then (.nan false, fNV) else (.inf false, 0)
    | .fin s n d => if s then (.nan false, fNV) else (log2Q n d, 0)

/-- exp of a value at most 0, for the weights of R299. -/
def expV (v : Val) : Val :=
  match v with
  | .nan _ => .nan false
  | .inf s => if s then .zero false else .inf false
  | .zero _ => .fin false 1 1
  | .fin s n d =>
    if n / d ≥ 1024 then (if s then .fin false 1 (2 ^ 1024) else .inf false)
    else
      -- exp(x) = 2^i · exp(r) with x = i·ln2 + r and 0 ≤ r < ln2
      let x : Int := (signedNum s (n * 2 ^ serBits)).fdiv d
      let i := x.fdiv ln2Fix
      let r := (x.fmod ln2Fix).toNat
      let m := bracket (expFix r)
      let q := scaleQ 1 i
      .fin false (m.1 * q.1) (m.2 * q.2)

/-! ### Fixed point (R59, R61) -/

/-- Whether an fx image value N lies in the range of I and F. -/
def fxFits (I F : Nat) (N : Int) : Bool := decide (-(2 ^ (I + F) : Int) ≤ N) && decide (N < 2 ^ (I + F))

/-- ToFixed(v): the integer N, or none where R61 raises RANGE. -/
def toFixed (I F : Nat) (v : Val) : Option Int :=
  match v with
  | .nan _ => none
  | .inf _ => none
  | .zero _ => some 0
  | .fin s n d =>
    if n * 2 ^ F % d = 0 then
      let N := signedNum s (n * 2 ^ F / d)
      if fxFits I F N then some N else none
    else none

/-- The exact value of N × 2^−F; a fixed-point zero is +0. -/
def fixedVal (F : Nat) (N : Int) : Val := if N = 0 then .zero false else .fin (decide (N < 0)) N.natAbs (2 ^ F)

/-- The product of two fixed-point values, tested on its own for range and for bits below 2^−F. -/
def fxMul (I F : Nat) (a b : Int) : Option Int :=
  if a * b % (2 ^ F : Int) = 0 then
    let p := a * b / (2 ^ F : Int)
    if fxFits I F p then some p else none
  else none

/-- Certifies(RES, NA, NX, NB, tol) (R79), with tol a value: the outcome, and the NV of a tolerance that is no tolerance. -/
def certifies (F : Nat) (res na nx nb : Int) (tol : Val) : Bool × Flags :=
  match tol with
  | .nan _ => (false, fNV)
  | .inf _ => (false, fNV)
  | .zero _ => (decide (res = 0), 0)
  | .fin true _ _ => (false, fNV)
  | .fin false n d =>
    -- |RES|·2^−F ≤ (n/d)·(NA·NX·2^−2F + NB·2^−F), both sides times d·2^2F
    (decide ((res.natAbs : Int) * 2 ^ F * d ≤ n * (na * nx + nb * 2 ^ F)), 0)

/-! ### The keyed counter generator (R43 to R45) -/

/-- One round of Gen on the words x0 to x3. -/
def genRound (k0 k1 : BitVec 32) (rnd : Nat) (ra rb : Nat) (x : BitVec 32 × BitVec 32 × BitVec 32 × BitVec 32) :
    BitVec 32 × BitVec 32 × BitVec 32 × BitVec 32 :=
  let a := k0 + BitVec.ofNat 32 (rnd * 0xA4D35E27)
  let b := k1 + BitVec.ofNat 32 (rnd * 0x6C1B93F5)
  let x0 := x.1 + x.2.1 + a
  let x1 := x.2.1.rotateLeft ra ^^^ x0
  let x2 := x.2.2.1 + x.2.2.2 + b
  let x3 := x.2.2.2.rotateLeft rb ^^^ x2
  (x0, x3, x2, x1)

/-- Gen(key, counter), the counter given as its words x3 down to x0. -/
def gen (key : BitVec 64) (x3 x2 x1 x0 : BitVec 32) : BitVec 128 :=
  let k0 := key.extractLsb' 0 32
  let k1 := key.extractLsb' 32 32
  let r0 := genRound k0 k1 0 13 19 (x0, x1, x2, x3)
  let r1 := genRound k0 k1 1 7 11 r0
  let r2 := genRound k0 k1 2 25 5 r1
  let r3 := genRound k0 k1 3 18 29 r2
  (r3.2.2.2 ^^^ k0) ++ (r3.2.2.1 + k1) ++ (r3.2.1 ^^^ k1) ++ (r3.1 + k0)

/-- DeriveKey(SEED, STREAM) (R44). -/
def deriveKey (seed : BitVec 64) (stream : BitVec 32) : BitVec 64 :=
  (gen seed 0x4B455931 0 0 stream).extractLsb' 0 64

/-! ### The Hadamard step (R42) -/

def parity (n : Nat) : Nat := (List.range 8).foldl (fun a i => a + n / 2 ^ i % 2) 0 % 2

/-- The sign word of run (r, q) under key hseed. -/
def hadSigns (hseed : BitVec 64) (r q : BitVec 32) : BitVec 32 :=
  (gen hseed 0x48414431 0 r q).extractLsb' 0 32

/-- One output of the step before its rounding: the forward or inverse sum for index i. The inverse step's factor s(i) = −1 negates an exact
zero too, as a product would. DESIGN CHOICE, log entry 103. -/
def hadOut (inverse : Bool) (W : BitVec 32) (x : List Val) (i : Nat) : Val × Flags :=
  let terms := x.zipIdx.map (fun p =>
    let flip := (parity (i &&& p.2) = 1) != (!inverse && W.getLsbD p.2)
    if flip then negV p.1 else p.1)
  let s := sumV false terms
  let scaled := (mulV s.1 (.fin false 1 (if inverse then 4 else 8))).1
  (if inverse ∧ W.getLsbD i then negV scaled else scaled, s.2)

/-! ### Types (R34 to R36, R146) -/

/-- The width in bits of a type code. -/
def tyWidth (ty : Nat) : Nat :=
  match ty with
  | 0 => 8 | 1 => 16 | 2 => 32 | 3 => 64
  | 4 => 8 | 5 => 16 | 6 => 32 | 7 => 64
  | 8 => 16 | 9 => 16 | 10 => 32 | 11 => 64
  | 12 => 8 | 13 => 8 | 14 => 4 | 15 => 192 | 16 => 8
  | _ => 32

def tyInt (ty : Nat) : Bool := decide (ty < 8)
def tySigned (ty : Nat) : Bool := decide (ty < 4)

/-- The format of a floating type code. -/
def tyFmt (ty : Nat) : Fmt :=
  match ty with
  | 8 => fmtF16 | 9 => fmtBF16 | 11 => fmtF64 | 12 => fmtE4M3 | 13 => fmtE5M2 | 14 => fmtE2M1 | 16 => fmtE3M5
  | _ => fmtF32

/-- Narrow(T) (R62). -/
def narrowTy (ty : Nat) : Bool := ty = 8 || ty = 9 || ty = 12 || ty = 13 || ty = 14 || ty = 16

/-- Whether a type takes a register pair (R35). -/
def tyPair (ty : Nat) : Bool := ty = 3 || ty = 7 || ty = 11

/-- The number of sub-elements in one element of the type. -/
def tySubs (ty : Nat) : Nat := if tyWidth ty < 32 then 32 / tyWidth ty else 1

/-- Sub-element j of an element's bits. -/
def subOf (ty : Nat) (bits j : Nat) : Nat := bits / 2 ^ (tyWidth ty * j) % 2 ^ tyWidth ty

/-- An element from its sub-elements, sub-element 0 first. -/
def packSubs (w : Nat) (l : List Nat) : Nat := l.foldr (fun x acc => x % 2 ^ w + 2 ^ w * acc) 0

/-- The exact value of a code of type ty. -/
def valOf (ty c : Nat) : Val :=
  if tyInt ty then ofInt (if tySigned ty then toSigned (tyWidth ty) c else (c % 2 ^ tyWidth ty : Nat)) else decodeF (tyFmt ty) c

end Sys2Proof.Machine
end

