-- ==== Sys2Proof/Syntax.lean ====
section
/-! DEFINITION. The instructions and events of the Tsula: one constructor per row of the table of operations. -/

namespace Sys2Proof

/-- The fields of the general lane word (R142), all but OP. -/
structure LWord where
  vd : BitVec 8
  va : BitVec 8
  vb : BitVec 8
  vc : BitVec 8
  ty : BitVec 5
  rm : BitVec 3
  sat : BitVec 2
  pn : BitVec 1
  pk : BitVec 3
  wt : BitVec 8
  tg : BitVec 2
  bk : BitVec 2
  ck : BitVec 2
  mod8 : BitVec 8
  imm : BitVec 20
  deriving DecidableEq, Repr

/-- The fields of LBR's own layout (R250). -/
structure LbrWord where
  tgt : LIdx
  pn : BitVec 1
  pk : BitVec 3
  wt : BitVec 8
  tg : BitVec 2
  rpc : LIdx
  deriving DecidableEq, Repr

/-- The fields of GENBEG's own layout (R276). -/
structure GenbegWord where
  cent : LIdx
  pfb : BitVec 2
  cfb : BitVec 2
  capm1 : BitVec 8
  hi : BitVec 8
  wt : BitVec 8
  xpc : LIdx
  deriving DecidableEq, Repr

/-- A group is named by its task and its place in the grid (R23, R24). -/
structure GroupKey where
  task : Nat
  cluster : Nat
  block : Nat
  group : Nat
  deriving DecidableEq, Repr

/-- The ordering kind of an access (R119): the page kinds S, R and U, and on-die SRAM,
which is ordered as R but never enters a core point. -/
inductive PKind where
  | s | r | u | sram
  deriving DecidableEq, Repr

/-- One rail flit as it arrives (R352): the image, or none when it does not arrive. -/
abbrev RailFlit := Option Nat

/-- A step of a DCOR's pass (R305): the command, the part of the pass (an array of which it reads an element, the finish of a row, the write of a
line of images, or all the rest), and the element, row or line. -/
structure PassStep where
  cmd : Nat
  part : Nat
  k : Nat
  deriving DecidableEq, Repr

/-- The kinds of a remote request (R356). -/
inductive RemoteKind where
  | load | store | atomic | reduce
  deriving DecidableEq, Repr

/-- A request that crosses the Ulfer Link (R352, R356): its kind, the address in the
target's local DRAM, its width in bytes, the operation and type codes of R208, the bytes of a store or of an operand, the compare value,
and a tag and a poison bit for each 32 bytes. -/
structure RemoteReq where
  kind : RemoteKind
  addr : Nat
  size : Nat
  opn : BitVec 3
  typ : BitVec 3
  data : List Byte
  cmp : Word
  marks : List (Bool × Bool)
  deriving DecidableEq, Repr

/-- A unit that a wear amendment or a guard-band step names (R378, R379). -/
inductive WearKind where
  | core | bankGroup | rail | spareRow
  deriving DecidableEq, Repr

/-- An instruction word of either stream, or one of the device's events. A scalar field is
named as R139 names it; a lane word carries its fields as R142 places them. -/
inductive Instr where
  -- SALU (R155, R165)
  | sadd (sd sa sb : BitVec 6)
  | ssub (sd sa sb : BitVec 6)
  | sand (sd sa sb : BitVec 6)
  | sor (sd sa sb : BitVec 6)
  | sxor (sd sa sb : BitVec 6)
  | sshl (sd sa sb : BitVec 6)
  | sshr (sd sa sb : BitVec 6)
  | ssra (sd sa sb : BitVec 6)
  | smul (sd sa sb : BitVec 6)
  | smulhI (sd sa sb : BitVec 6)
  | smulhN (sd sa sb : BitVec 6)
  | sdivI (sd sa sb : BitVec 6)
  | sdivN (sd sa sb : BitVec 6)
  | sremI (sd sa sb : BitVec 6)
  | sremN (sd sa sb : BitVec 6)
  | sminI (sd sa sb : BitVec 6)
  | smaxI (sd sa sb : BitVec 6)
  | sminN (sd sa sb : BitVec 6)
  | smaxN (sd sa sb : BitVec 6)
  | sceq (sd sa sb : BitVec 6)
  | scne (sd sa sb : BitVec 6)
  | scltI (sd sa sb : BitVec 6)
  | scltN (sd sa sb : BitVec 6)
  | scleI (sd sa sb : BitVec 6)
  | scleN (sd sa sb : BitVec 6)
  | spopc (sd sa : BitVec 6)
  | sclz (sd sa : BitVec 6)
  | sctz (sd sa : BitVec 6)
  -- immediates (R164, R166)
  | saddi (sd sa : BitVec 6) (imm : BitVec 14)
  | sandi (sd sa : BitVec 6) (imm : BitVec 14)
  | sori (sd sa : BitVec 6) (imm : BitVec 14)
  | sxori (sd sa : BitVec 6) (imm : BitVec 14)
  | sshli (sd sa : BitVec 6) (n : BitVec 6)
  | sshri (sd sa : BitVec 6) (n : BitVec 6)
  | ssrai (sd sa : BitVec 6) (n : BitVec 6)
  | sli (sd : BitVec 6) (imm : BitVec 20)
  | slui (sd : BitVec 6) (imm : BitVec 20)
  | scmpi (sd sa : BitVec 6) (cond : BitVec 4) (m : BitVec 10)
  | ssel (sd sa sb sc : BitVec 6)
  -- memory (R168, R170)
  | sldw (sd sa : BitVec 6) (imm : BitVec 14)
  | sldd (sd sa : BitVec 6) (imm : BitVec 14)
  | sstw (sd sa : BitVec 6) (imm : BitVec 14)
  | sstd (sd sa : BitVec 6) (imm : BitVec 14)
  | sldk (sd sa : BitVec 6) (imm : BitVec 14)
  -- control (R171, R172)
  | br (cond : BitVec 4) (sa : BitVec 6) (off : BitVec 16)
  | call (sd : BitVec 6) (imm : BitVec 20)
  | jmpr (sd sa : BitVec 6)
  | lissue (nm1 : BitVec 4) (index : LIdx)
  | lrun (index : LIdx)
  | lwait
  -- special registers, barriers (R175, R178, R179)
  | smfs (sd : BitVec 6) (id : BitVec 12)
  | smts (sa : BitVec 6) (id : BitVec 12)
  | barSync (sa : BitVec 6) (level : BitVec 3) (num : BitVec 4)
  | barArrive (sa : BitVec 6) (level : BitVec 3) (num : BitVec 4)
  | barWait (sa : BitVec 6) (level : BitVec 3) (num : BitVec 4)
  | yld
  -- futures, engines (R184, R190 to R214)
  | ftest (sd sa : BitVec 6)
  | fcancel (sa : BitVec 6)
  | fpass (sd sa : BitVec 6)
  | copy (sa : BitVec 6) (tok : BitVec 3)
  | copymm (sa : BitVec 6) (tile : BitVec 4) (tok : BitVec 3)
  | fixline (sa : BitVec 6) (chan : BitVec 1) (tok : BitVec 3)
  | taglk (sd sa : BitVec 6)
  | tagset (sd sa : BitVec 6)
  | taginv (sd sa : BitVec 6)
  | satom (sd sa sb : BitVec 6) (space : BitVec 1) (opn : BitVec 3) (ret : BitVec 1) (typ : BitVec 3)
  | fenceAcq (scope : BitVec 3)
  | fenceRel (scope : BitVec 3)
  | fenceAcqrel (scope : BitVec 3)
  | fenceAll (scope : BitVec 3)
  | tlwait (sd sa sb : BitVec 6)
  | tladv (sd sa : BitVec 6)
  | dcor (sd sa : BitVec 6)
  | pkq (sd sa : BitVec 6)
  | nmop (sd sa : BitVec 6)
  | spg (sd sa : BitVec 6)
  | kick (sd sa : BitVec 6)
  | trap (code : BitVec 14)
  | eret
  | sysAsidbase (sd sa : BitVec 6)
  | sysGenstep (sd sa : BitVec 6)
  | sysTinv (sd sa : BitVec 6)
  | sysTinvall (sd sa : BitVec 6)
  | endGroup
  | sltag (sd sa : BitVec 6)
  | sltagMem (sd sa : BitVec 6)
  | sltagSp (sd sa : BitVec 6)
  -- lane words 0x01 to 0x21 (R219, R223, R228 to R234)
  | vadd (w : LWord)
  | vsub (w : LWord)
  | vmul (w : LWord)
  | vmulh (w : LWord)
  | vmad (w : LWord)
  | vand (w : LWord)
  | vor (w : LWord)
  | vxor (w : LWord)
  | vshl (w : LWord)
  | vshr (w : LWord)
  | vsra (w : LWord)
  | vmin (w : LWord)
  | vmax (w : LWord)
  | vcmp (w : LWord)
  | vsel (w : LWord)
  | vmovi (w : LWord)
  | fadd (w : LWord)
  | fsub (w : LWord)
  | fmul (w : LWord)
  | ffma (w : LWord)
  | fmin (w : LWord)
  | fmax (w : LWord)
  | fcmp (w : LWord)
  | frcp (w : LWord)
  | frsq (w : LWord)
  | fsqrt (w : LWord)
  | fexp2 (w : LWord)
  | flog2 (w : LWord)
  | vcvt (w : LWord)
  | vqnt (w : LWord)
  | vdq (w : LWord)
  | vhad (w : LWord)
  | vrng (w : LWord)
  -- lane words 0x22 to 0x34 (R237 to R260)
  | vshf (w : LWord)
  | vred (w : LWord)
  | vscan (w : LWord)
  | vbal (w : LWord)
  | vxts (w : LWord)
  | vld (w : LWord)
  | vst (w : LWord)
  | vlds (w : LWord)
  | vsts (w : LWord)
  | vatom (w : LWord)
  | vrds (w : LWord)
  | lbr (w : LbrWord)
  | lend (w : LWord)
  | lmask (w : LWord)
  | vprop (w : LWord)
  | vtag (w : LWord)
  | dacc (w : LWord)
  | dsum (w : LWord)
  | dapply (w : LWord)
  -- lane words 0x35 to 0x40 (R263 to R283)
  | mma (w : LWord)
  | mzero (w : LWord)
  | mrda (w : LWord)
  | mwra (w : LWord)
  | mtld (w : LWord)
  | mspl (w : LWord)
  | mfil (w : LWord)
  | genbeg (w : GenbegWord)
  | yield (w : LWord)
  | gstep (w : LWord)
  | cpop (w : LWord)
  | genend (w : LWord)
  -- steps of the ordering machine (R113); k is a place in the queue, oldest 0
  | loadPerforms (g : GroupKey) (k : Nat)
  | writeLeaves (g : GroupKey) (k : Nat)
  | writeDrains (g : GroupKey) (kind : PKind) (k : Nat)
  | corePointDrains (k : Nat)
  | homePerforms (k : Nat)
  | placePerforms (g : GroupKey) (k : Nat)
  | markerPerforms (g : GroupKey) (k : Nat)
  -- translation (R106)
  | tableWalk (core asid gen : Nat) (va : Word)
  -- engines; cmd is a command's number in the device's list of commands
  | copyEngineStep (cmd k : Nat) (reading : Bool)
  | copyCompletes (cmd : Nat)
  | copymmFollowOn (cmd : Nat)
  | fixedLineAnchor (cmd : Nat)
  | sparseGatherStep (cmd : Nat)
  | engineCommandCompletes (cmd : Nat)
  | stackRecordRead (cmd : Nat)
  | afterSatisfied (cmd : Nat)
  | gemvColumnAccess (cmd bank : Nat)
  | gemvRowBlockCombine (cmd : Nat)
  | allBankSliceEnd (cmd : Nat)
  | adamElementUpdate (cmd : Nat)
  | dcorPass (p : PassStep)
  | dcorExternWait (cmd : Nat)
  | dcorDeadlineExpiry (cmd : Nat)
  | pkqQuery (cmd : Nat)
  | pkqScatter (cmd : Nat)
  -- launch and scheduling (R315 to R324); rec is the bind record's image (R320)
  | kickRegisterWrite (slot : Nat) (patch : Word)
  | taskAdmit (task : Nat)
  | bindLaunch (rec : Nat)
  | bindRestore (rec : Nat)
  | bindSave (rec : Nat)
  | memberMessageDelivery (k : Nat)
  | starvationBound (g : GroupKey)
  -- tests of rows (R343, R347); lasting is what the test finds
  | rowTest (core e : Nat) (lasting : Bool)
  | dramRowTest (q e : Nat) (lasting : Bool)
  -- host (R345 to R350)
  | hostMemRead (addr size : Nat)
  | hostMemWrite (addr : Nat) (bytes : List Byte) (poison : Bool)
  | hostAtomic (addr size : Nat) (opn typ : BitVec 3) (data cmp : Word)
  | hostChanWrite (set : Nat) (anchor : Word)
  | errorLogFree (q e : Nat)
  | linkStatusClear (g : Nat) (ones : Word)
  | registerWrite (off size : Nat) (v : Option Word)
  -- service core (R376)
  | svcAttest
  | svcConditionReport
  | svcReadConfig
  | svcReadAmendment (arg : BitVec 32)
  | svcBadOperation (op : BitVec 8)
  | svcCommandDone
  -- links (R351 to R358)
  | groupFlitReceive (rg dir : Nat) (flits : List RailFlit)
  | nakReceive (rg dir : Nat) (nseq : BitVec 8)
  | laneFailure (rg rail : Nat)
  | repairPauseEnd (rg rail : Nat)
  | railLost (rg rail : Nat)
  | remoteRequest (src : Nat) (num : BitVec 16) (r : RemoteReq)
  | remoteResponse (k : Nat) (data : Word) (prop poison : Bool)
  | targetUnreachable (dev : Nat)
  | releaseMessage (dev : Nat) (stream : BitVec 32)
  -- power and wear (R372 to R382)
  | powerOn
  | leafIndexWritten
  | wearAmendmentWrite
  | powerLoss
  | guardBandStep (q : Nat) (kind : WearKind) (index : Nat) (wear : BitVec 16) (mark : Bool)
  | droopResponse (q : Nat) (kind : WearKind) (index : Nat)
  -- words that are no instruction, errors, host completions
  | notAnInstruction (lane : Bool) (w : BitVec 96)
  | softError (array core addr : Nat) (bits : Word)
  | hostCxlCompletion (k : Nat)
  deriving DecidableEq, Repr

end Sys2Proof
end

