-- ==== Sys2Proof/Machine/Rows.lean ====
section
/-! DEFINITION. The encoding rows of the lane words: which fields each opcode takes, and which registers it names
(R143 to R152, R219, R223, R228 to R234, R237, R243, R247, R250 to R257, R263 to R283). -/

namespace Sys2Proof.Machine

/-- A run of lane registers that a word names: the field, how many registers, and whether it must be even (R35). -/
structure RegUse where
  reg : Nat
  count : Nat
  even : Bool
  deriving DecidableEq, Repr

/-- One operand of type ty in a lane register field. -/
def regOfTy (r : BitVec 8) (ty : Nat) : RegUse :=
  if tyPair ty then ⟨r.toNat, 2, true⟩ else ⟨r.toNat, 1, false⟩

def isScalarField (r : BitVec 8) : Bool := r.toNat < 64
def isPredField (r : BitVec 8) : Bool := r.toNat < 8
def isPredDst (r : BitVec 8) : Bool := 1 ≤ r.toNat && r.toNat < 8
def isTileField (r : BitVec 8) : Bool := r.toNat < 16
def isFxField (r : BitVec 8) : Bool := r.toNat < 4

/-- Operand B under BK: whether a lane register, a broadcast scalar and an immediate are accepted (R144). -/
def opBOk (lane scalar imm : Bool) (w : LWord) : Bool :=
  if w.bk = 0 then lane
  else if w.bk = 1 then scalar && isScalarField w.vb
  else if w.bk = 2 then imm && w.vb = 0
  else false

/-- Operand C under CK. -/
def opCOk (lane scalar imm : Bool) (w : LWord) : Bool :=
  if w.ck = 0 then lane
  else if w.ck = 1 then scalar && isScalarField w.vc
  else if w.ck = 2 then imm && w.vc = 0
  else false

/-- Operand B unused: its field zero and its kind 00. -/
def noB (w : LWord) : Bool := w.bk = 0 && w.vb = 0
def noC (w : LWord) : Bool := w.ck = 0 && w.vc = 0

/-- An immediate stands in the word. -/
def hasImm (w : LWord) : Bool := w.bk = 2 || w.ck = 2

/-- IMM20 as R145 takes it: zero without an immediate; a bf16 leaves bits [19:16] zero. -/
def immOk (floating : Bool) (w : LWord) : Bool :=
  if hasImm w then (if floating then w.imm.extractLsb' 16 4 = 0 else true) else w.imm = 0

/-- MOD8 as a bound slot when SAT = 2, and zero otherwise. -/
def slotOk (w : LWord) : Bool := w.mod8.toNat < 16 && (w.sat = 2 || w.mod8 = 0)

def satIn (l : List Nat) (w : LWord) : Bool := l.contains w.sat.toNat
def tyIn (l : List Nat) (w : LWord) : Bool := l.contains w.ty.toNat

def tysInt : List Nat := [0, 1, 2, 3, 4, 5, 6, 7]
def tysMove : List Nat := [0, 1, 2, 3, 4, 5, 6, 7, 8, 9, 10, 11, 12, 13, 14, 16]
def tysCross : List Nat := [2, 3, 6, 7, 10, 11]

/-- The fields that every general word shares: RM, SAT, TG, and no two immediates (R144, R147, R148, R66). -/
def commonOk (w : LWord) : Bool :=
  w.rm ≠ 7 && w.sat ≠ 3 && w.tg ≠ 3 && !(w.bk = 2 && w.ck = 2) && w.bk ≠ 3 && w.ck ≠ 3

/-- The operation codes of an atomic word with its type (R247). -/
def laneAtomOk (ret : Bool) (w : LWord) : Bool :=
  let opn := (w.mod8.extractLsb' 4 3).toNat
  w.mod8.extractLsb' 0 4 = 0 && !(opn = 7 && w.ty ≠ 10) && !(w.ty = 10 && opn < 5) && (ret || (opn ≠ 5 && opn ≠ 6))

/-- The number of values per lane and the sub-elements of the narrower type (R228). -/
def cvtV (s d : Nat) : Nat :=
  if tyWidth s ≤ 32 ∧ tyWidth d ≤ 32 then 32 / max (tyWidth s) (tyWidth d) else 1
def cvtN (s d : Nat) : Nat :=
  let m := min (tyWidth s) (tyWidth d)
  if m = 64 then 1 else 32 / m

/-- A word without predicate, type, rounding or saturation. -/
def plain (w : LWord) : Bool := w.ty = 0 && w.rm = 0 && w.sat = 0
def noPred (w : LWord) : Bool := w.pn = 0 && w.pk = 0

/-- VRED and VSCAN share their checks but for EXCL (R237). -/
def reduceOk (exclBit : Bool) (w : LWord) : Bool :=
  let o := (w.mod8.extractLsb' 0 3).toNat
  let fl := w.ty.toNat ≥ 8
  tyIn tysCross w && noB w && noC w && w.imm = 0 &&
  (if exclBit then w.mod8.toNat < 16 else w.mod8.toNat < 8) &&
  (if fl then o ≤ 2 else o ≤ 5) &&
  (w.rm = 0 || (fl && o = 0)) && (w.sat = 0 || (w.sat = 1 && o = 0))

/-- Every fixed and restricted field of the general layout, by opcode; the lane registers' own checks stand in laneRegs. -/
def rowOk (op : Nat) (w : LWord) : Bool :=
  let fl := w.ty.toNat ≥ 8
  commonOk w &&
  match op with
  | 0x01 | 0x02 | 0x03 => tyIn tysInt w && opBOk true true true w && noC w && slotOk w && w.rm = 0 && immOk false w
  | 0x04 => tyIn tysInt w && opBOk true true true w && noC w && w.mod8 = 0 && w.rm = 0 && w.sat = 0 && immOk false w
  | 0x05 => tyIn tysInt w && opBOk true true true w && opCOk true true true w && slotOk w && w.rm = 0 && immOk false w
  | 0x06 | 0x07 | 0x08 | 0x09 | 0x0A | 0x0B =>
    tyIn tysInt w && opBOk true true true w && noC w && w.mod8 = 0 && w.rm = 0 && w.sat = 0 && immOk false w
  | 0x0C | 0x0D => tyIn tysInt w && opBOk true true true w && noC w && slotOk w && w.rm = 0 && satIn [0, 2] w && immOk false w
  | 0x0E => tyIn [2, 3, 6, 7] w && isPredDst w.vd && opBOk true true true w && noC w && w.mod8.toNat < 6 && w.rm = 0 && w.sat = 0 &&
      immOk false w
  | 0x0F => tyIn tysMove w && opBOk true true true w && w.ck = 0 && isPredField w.vc && slotOk w && w.rm = 0 && satIn [0, 2] w &&
      immOk fl w
  | 0x10 => tyIn tysMove w && w.va = 0 && opBOk true true true w && noC w && slotOk w && w.rm = 0 && satIn [0, 2] w && immOk fl w
  | 0x11 | 0x12 | 0x13 => tyIn [8, 9, 10, 11] w && opBOk true true true w && noC w && slotOk w && immOk true w
  | 0x14 => tyIn [8, 9, 10, 11] w && opBOk true true true w && opCOk true true true w && slotOk w && immOk true w
  | 0x15 | 0x16 => tyIn [8, 9, 10, 11] w && opBOk true true true w && noC w && slotOk w && w.rm = 0 && satIn [0, 2] w && immOk true w
  | 0x17 => tyIn [10, 11] w && isPredDst w.vd && opBOk true true true w && noC w && w.mod8.toNat < 8 && w.rm = 0 && w.sat = 0 &&
      immOk true w
  | 0x18 | 0x19 | 0x1A | 0x1B | 0x1C => tyIn [10] w && noB w && noC w && slotOk w && w.imm = 0
  | 0x1D =>
    let s := (w.mod8.extractLsb' 0 5).toNat
    let part := (w.mod8.extractLsb' 5 3).toNat
    tyIn tysMove w && tysMove.contains s && noB w && noC w && w.imm = 0 && satIn [0, 1] w &&
    (w.rm = 0 || !(tyInt s && tyInt w.ty.toNat)) && part * cvtV s w.ty.toNat + cvtV s w.ty.toNat ≤ cvtN s w.ty.toNat
  | 0x1E =>
    let had := w.mod8.getLsbD 4
    tyIn [12, 13, 14] w && opBOk true true true w && (w.mod8 = 0 || w.mod8 = 16) &&
    (if had then w.ck = 1 && w.vc.toNat ≤ 62 else noC w) && satIn [0, 1] w && immOk true w
  | 0x1F => tyIn [12, 13, 14] w && opBOk true true true w && noC w && slotOk w && immOk true w
  | 0x20 => tyIn [10] w && w.bk = 1 && w.vb.toNat ≤ 62 && noC w && w.imm = 0 && w.rm = 0 && satIn [0, 2] w && w.mod8.toNat < 32 &&
      (w.sat = 2 || w.mod8.extractLsb' 0 4 = 0)
  | 0x21 => tyIn [6, 7, 10] w && w.va = 0 && noB w && noC w && w.mod8 = 0 && w.imm = 0 && w.rm = 0 && w.sat = 0
  | 0x22 => tyIn tysMove w && opBOk true true true w && noC w && w.mod8.toNat < 5 && w.rm = 0 && w.sat = 0 && immOk false w
  | 0x23 => isScalarField w.vd && reduceOk false w
  | 0x24 => reduceOk true w
  | 0x25 => w.ty = 0 && isPredField w.va && noB w && noC w && w.imm = 0 && w.mod8.toNat < 3 && w.rm = 0 && w.sat = 0
  | 0x26 => tyIn tysCross w && isScalarField w.vd && opBOk false true true w && noC w && w.mod8 = 0 && w.rm = 0 && w.sat = 0 &&
      immOk false w
  | 0x27 | 0x29 => tyIn tysMove w && isScalarField w.va && opBOk true true false w && noC w && w.mod8 = 0 && w.rm = 0 && w.sat = 0
  | 0x28 | 0x2A => tyIn tysMove w && w.vd = 0 && isScalarField w.va && opBOk true true false w && opCOk true true false w && slotOk w &&
      w.rm = 0 && satIn [0, 2] w
  | 0x2B => tyIn [2, 3, 6, 7, 10] w && isScalarField w.va && opBOk true true false w && opCOk true true true w && w.rm = 0 && w.sat = 0 &&
      laneAtomOk true w && (w.ck ≠ 2 || immOk fl w)
  | 0x2C => tyIn [2, 3, 6, 7, 10] w && w.vd = 0 && isScalarField w.va && opBOk true true false w && opCOk true true true w && w.rm = 0 &&
      w.sat = 0 && laneAtomOk false w && (w.ck ≠ 2 || immOk fl w)
  | 0x2E => w.vd = 0 && w.va = 0 && noB w && noC w && plain w && noPred w && w.tg = 0 && w.mod8 = 0 && w.imm = 0
  | 0x2F => w.vd = 0 && plain w && noPred w && w.tg = 0 && noC w && w.mod8.toNat < 16 && w.mod8.getLsbD 1 = false &&
      (if w.mod8.getLsbD 0 then isPredField w.va && noB w && w.imm = 0 else w.va = 0 && opBOk false true true w && immOk false w)
  | 0x30 => tyIn tysMove w && noB w && noC w && w.mod8 = 0 && w.imm = 0 && w.rm = 0 && w.sat = 0
  | 0x31 => isPredDst w.vd && noB w && noC w && w.imm = 0 && w.rm = 0 && w.sat = 0 && w.mod8.toNat < 4 &&
      (if w.mod8 = 0 then tyIn [2, 3] w
       else w.ty = 0 && (if w.mod8 = 1 then isPredField w.va else if w.mod8 = 2 then isTileField w.va else w.va = 0))
  | 0x32 => tyIn [2, 3, 10, 11] w && isFxField w.vd && opBOk true true true w && opCOk true true true w && w.mod8.toNat < 2 &&
      w.rm = 0 && w.sat = 0 && immOk fl w
  | 0x33 => tyIn [2, 3, 10, 11] w && isFxField w.va && noB w && noC w && w.imm = 0 && w.mod8.toNat < 24 && w.sat = 0
  | 0x34 => tyIn [10, 11] w && isFxField w.va && opBOk true true true w && noC w && w.mod8.toNat < 2 && w.rm = 0 && w.sat = 0 &&
      w.tg ≠ 1 && immOk true w
  | 0x35 => tyIn [8, 9, 12, 13, 14] w && noPred w && isTileField w.vd && w.bk = 1 && isScalarField w.vb && w.ck = 0 && w.sat = 0 &&
      w.mod8.toNat < 8 && w.imm = 0
  | 0x36 => noPred w && isTileField w.vd && w.va = 0 && noB w && noC w && plain w && w.mod8.toNat < 16 && w.imm = 0 &&
      w.vd.toNat + w.mod8.toNat ≤ 15
  | 0x37 => noPred w && tyIn [8, 9, 10, 11] w && isTileField w.va && noC w && w.mod8.toNat < 64 &&
      (if w.mod8.getLsbD 4 then opBOk false true true w else noB w) && (w.sat = 2 || w.mod8.extractLsb' 0 4 = 0) && immOk true w
  | 0x38 => noPred w && tyIn [8, 9, 10, 11] w && isTileField w.vd && noB w && noC w && w.mod8 = 0 && w.imm = 0 && w.sat = 0
  | 0x39 => noPred w && w.vd = 0 && opBOk false true true w && noC w && plain w && w.mod8 = 0 && immOk false w &&
      (w.bk ≠ 2 || w.imm.extractLsb' 7 13 = 0)
  | 0x3A => noPred w && w.vd = 0 && isTileField w.va && w.bk = 1 && isScalarField w.vb && noC w && plain w && w.tg ≠ 2 &&
      w.mod8.extractLsb' 0 7 = 0 && w.imm = 0
  | 0x3B => noPred w && isTileField w.vd && w.va = 0 && w.bk = 1 && isScalarField w.vb && noC w && plain w && w.tg ≠ 2 &&
      w.mod8.extractLsb' 0 7 = 0 && w.imm = 0
  | 0x3D =>
    let nops := (w.mod8.extractLsb' 2 2).toNat + 1
    w.vd = 0 && w.bk = 0 && w.ck = 0 && plain w && w.mod8.toNat < 16 && nops ≤ 3 && (nops ≥ 2 || w.vb = 0) && (nops ≥ 3 || w.vc = 0) &&
    w.imm = 0
  | 0x3E => w.vd = 0 && w.va = 0 && noB w && noC w && plain w && w.tg = 0 && w.mod8 = 0 && w.imm = 0
  | 0x3F => w.va = 0 && noB w && noC w && plain w && noPred w && w.tg = 0 && w.mod8.toNat < 4 && w.imm = 0
  | 0x40 => w.vd = 0 && w.va = 0 && noB w && noC w && plain w && noPred w && w.tg = 0 && w.mod8 = 0 && w.imm = 0
  | _ => false

/-- Operand B or C as a lane register of type ty, when its kind says so. -/
def bReg (w : LWord) (ty : Nat) : List RegUse := if w.bk = 0 then [regOfTy w.vb ty] else []
def cReg (w : LWord) (ty : Nat) : List RegUse := if w.ck = 0 then [regOfTy w.vc ty] else []

/-- The lane registers that a word names in its fields (R143); MMA's A and scale operands depend on a shape record and
are checked with it (R266). -/
def laneRegs (op : Nat) (w : LWord) : List RegUse :=
  let ty := w.ty.toNat
  let d := regOfTy w.vd ty
  let a := regOfTy w.va ty
  match op with
  | 0x01 | 0x02 | 0x03 | 0x04 | 0x06 | 0x07 | 0x08 | 0x09 | 0x0A | 0x0B | 0x0C | 0x0D => d :: a :: bReg w ty
  | 0x05 | 0x14 => d :: a :: (bReg w ty ++ cReg w ty)
  | 0x0E | 0x17 => a :: bReg w ty
  | 0x0F => d :: a :: bReg w ty
  | 0x10 => d :: bReg w ty
  | 0x11 | 0x12 | 0x13 | 0x15 | 0x16 => d :: a :: bReg w ty
  | 0x18 | 0x19 | 0x1A | 0x1B | 0x1C => [d, a]
  | 0x1D => [d, regOfTy w.va (w.mod8.extractLsb' 0 5).toNat]
  | 0x1E => ⟨w.vd.toNat, if ty = 14 then 2 else 1, false⟩ :: ⟨w.va.toNat, 1, false⟩ :: bReg w 10
  | 0x1F => ⟨w.vd.toNat, 1, false⟩ :: ⟨w.va.toNat, if ty = 14 then 2 else 1, false⟩ :: bReg w 10
  | 0x20 => [d, a]
  | 0x21 => [d]
  | 0x22 => d :: a :: bReg w 6
  | 0x23 | 0x26 => [a]
  | 0x24 => [d, a]
  | 0x25 => [⟨w.vd.toNat, 1, false⟩]
  | 0x27 | 0x29 => d :: bReg w 6
  | 0x28 | 0x2A => bReg w 6 ++ cReg w ty
  | 0x2B => d :: (bReg w 6 ++ cReg w ty)
  | 0x2C => bReg w 6 ++ cReg w ty
  | 0x30 => [d, a]
  | 0x31 => if w.mod8 = 0 then [a] else []
  | 0x32 => a :: (bReg w ty ++ cReg w ty)
  | 0x33 => [d]
  | 0x34 => d :: bReg w 10
  | 0x37 => [⟨w.vd.toNat, if ty = 10 then 32 else if ty = 11 then 64 else 16, ty = 11⟩]
  | 0x38 => [⟨w.va.toNat, if ty = 10 then 32 else if ty = 11 then 64 else 16, ty = 11⟩]
  | 0x39 => [⟨w.va.toNat, 16, false⟩]
  | 0x3D =>
    let n := (w.mod8.extractLsb' 0 2).toNat + 1
    let nops := (w.mod8.extractLsb' 2 2).toNat + 1
    ⟨w.va.toNat, n, false⟩ :: ((if nops ≥ 2 then [⟨w.vb.toNat, n, false⟩] else []) ++ (if nops ≥ 3 then [⟨w.vc.toNat, n, false⟩] else []))
  | 0x3F => [⟨w.vd.toNat, (w.mod8.extractLsb' 0 2).toNat + 1, false⟩]
  | _ => []

/-- A register use that no state can make good: odd for a pair, or past v255. -/
def RegUse.ok (u : RegUse) : Bool := u.reg + u.count ≤ 256 && (!u.even || u.reg % 2 = 0)

/-- The tiles that a word names other than through a shape record: first and count. -/
def laneTiles (op : Nat) (w : LWord) : List (Nat × Nat) :=
  match op with
  | 0x31 => if w.mod8 = 2 then [(w.va.toNat, 1)] else []
  | 0x36 => [(w.vd.toNat, w.mod8.toNat + 1)]
  | 0x37 | 0x3A => [(w.va.toNat, 1)]
  | 0x35 | 0x38 | 0x3B => [(w.vd.toNat, 1)]
  | _ => []

/-- The general layout's whole row check. -/
def lwordOk (op : Nat) (w : LWord) : Bool := rowOk op w && (laneRegs op w).all RegUse.ok

/-- The scalar registers that a general word reads (R144, R230, R243). -/
def laneSReads (op : Nat) (w : LWord) : List Nat :=
  (if w.bk = 1 then (if op = 0x20 then [w.vb.toNat, w.vb.toNat + 1] else [w.vb.toNat]) else []) ++
  (if w.ck = 1 then (if op = 0x1E then [w.vc.toNat, w.vc.toNat + 1] else [w.vc.toNat]) else []) ++
  (if 0x27 ≤ op ∧ op ≤ 0x2C then [w.va.toNat] else [])

/-- The predicate registers that a general word reads: its predicate, and those that its row names as operands. A word whose predicate is
"never" reads none for it, and k0 is no register (R64, R149). -/
def lanePReads (op : Nat) (w : LWord) : List Nat :=
  [w.pk.toNat, if op = 0x0F then w.vc.toNat else if op = 0x25 ∨ (op = 0x31 ∧ w.mod8 = 1) ∨ (op = 0x2F ∧ w.mod8.getLsbD 0) then w.va.toNat
    else 0].filter (· ≠ 0)

/-- The scalar register that a general word writes. -/
def laneSWrites (op : Nat) (w : LWord) : List Nat :=
  if op = 0x23 ∨ op = 0x26 then [w.vd.toNat] else []

/-- LBR's own row (R250). -/
def lbrOk (w : LbrWord) : Bool := w.tg.toNat < 2

/-- GENBEG's own row (R276). -/
def genbegOk (w : GenbegWord) : Bool :=
  w.pfb ≠ 0 && w.cfb ≠ 0 && w.pfb ≠ w.cfb && w.hi.toNat ≤ w.capm1.toNat + 1

/-- SATOM's combinations (R208). -/
def satomOk (sd : BitVec 6) (opn : BitVec 3) (ret : BitVec 1) (typ : BitVec 3) : Bool :=
  typ.toNat ≤ 4 && !(opn = 7 && typ ≠ 4) && !(typ = 4 && opn.toNat < 5) && !((opn = 5 || opn = 6) && ret = 0) &&
  (ret = 1 || sd = 0)

end Sys2Proof.Machine
end

