-- ==== Sys2Proof/WellFormed.lean ====
section
/-! DEFINITION. Well-formed instructions: the ones that some word encodes (R151). -/

namespace Sys2Proof

open Machine

/-- The opcode and fields of a lane word of the general layout. -/
def Instr.general : Instr → Option (Nat × LWord)
  | .vadd w => some (0x01, w)
  | .vsub w => some (0x02, w)
  | .vmul w => some (0x03, w)
  | .vmulh w => some (0x04, w)
  | .vmad w => some (0x05, w)
  | .vand w => some (0x06, w)
  | .vor w => some (0x07, w)
  | .vxor w => some (0x08, w)
  | .vshl w => some (0x09, w)
  | .vshr w => some (0x0A, w)
  | .vsra w => some (0x0B, w)
  | .vmin w => some (0x0C, w)
  | .vmax w => some (0x0D, w)
  | .vcmp w => some (0x0E, w)
  | .vsel w => some (0x0F, w)
  | .vmovi w => some (0x10, w)
  | .fadd w => some (0x11, w)
  | .fsub w => some (0x12, w)
  | .fmul w => some (0x13, w)
  | .ffma w => some (0x14, w)
  | .fmin w => some (0x15, w)
  | .fmax w => some (0x16, w)
  | .fcmp w => some (0x17, w)
  | .frcp w => some (0x18, w)
  | .frsq w => some (0x19, w)
  | .fsqrt w => some (0x1A, w)
  | .fexp2 w => some (0x1B, w)
  | .flog2 w => some (0x1C, w)
  | .vcvt w => some (0x1D, w)
  | .vqnt w => some (0x1E, w)
  | .vdq w => some (0x1F, w)
  | .vhad w => some (0x20, w)
  | .vrng w => some (0x21, w)
  | .vshf w => some (0x22, w)
  | .vred w => some (0x23, w)
  | .vscan w => some (0x24, w)
  | .vbal w => some (0x25, w)
  | .vxts w => some (0x26, w)
  | .vld w => some (0x27, w)
  | .vst w => some (0x28, w)
  | .vlds w => some (0x29, w)
  | .vsts w => some (0x2A, w)
  | .vatom w => some (0x2B, w)
  | .vrds w => some (0x2C, w)
  | .lend w => some (0x2E, w)
  | .lmask w => some (0x2F, w)
  | .vprop w => some (0x30, w)
  | .vtag w => some (0x31, w)
  | .dacc w => some (0x32, w)
  | .dsum w => some (0x33, w)
  | .dapply w => some (0x34, w)
  | .mma w => some (0x35, w)
  | .mzero w => some (0x36, w)
  | .mrda w => some (0x37, w)
  | .mwra w => some (0x38, w)
  | .mtld w => some (0x39, w)
  | .mspl w => some (0x3A, w)
  | .mfil w => some (0x3B, w)
  | .yield w => some (0x3D, w)
  | .gstep w => some (0x3E, w)
  | .cpop w => some (0x3F, w)
  | .genend w => some (0x40, w)
  | _ => none

/-- An instruction that stands in the lane stream. -/
def Instr.isLane (i : Instr) : Bool :=
  i.general.isSome || (match i with | .lbr _ => true | .genbeg _ => true | _ => false)

/-- A device event rather than an instruction word. -/
def Instr.isEvent : Instr → Bool
  | .loadPerforms .. | .writeLeaves .. | .writeDrains .. | .corePointDrains .. | .homePerforms .. | .placePerforms ..
  | .markerPerforms .. | .tableWalk .. | .copyEngineStep .. | .copyCompletes .. | .copymmFollowOn .. | .fixedLineAnchor ..
  | .sparseGatherStep .. | .engineCommandCompletes .. | .stackRecordRead .. | .afterSatisfied .. | .gemvColumnAccess ..
  | .gemvRowBlockCombine .. | .allBankSliceEnd .. | .adamElementUpdate .. | .dcorPass .. | .dcorExternWait ..
  | .dcorDeadlineExpiry .. | .pkqQuery .. | .pkqScatter .. | .kickRegisterWrite .. | .taskAdmit .. | .bindLaunch ..
  | .bindRestore .. | .bindSave .. | .memberMessageDelivery .. | .starvationBound .. | .rowTest .. | .dramRowTest ..
  | .hostMemRead .. | .hostMemWrite .. | .hostAtomic .. | .hostChanWrite .. | .errorLogFree .. | .linkStatusClear ..
  | .registerWrite .. | .svcAttest | .svcConditionReport | .svcReadConfig | .svcReadAmendment .. | .svcBadOperation ..
  | .svcCommandDone | .groupFlitReceive .. | .nakReceive .. | .laneFailure .. | .repairPauseEnd .. | .railLost ..
  | .remoteRequest .. | .remoteResponse .. | .targetUnreachable .. | .releaseMessage .. | .powerOn | .leafIndexWritten
  | .wearAmendmentWrite | .powerLoss | .guardBandStep .. | .droopResponse .. | .notAnInstruction .. | .softError ..
  | .hostCxlCompletion .. => true
  | _ => false

/-- Well-formed: every field holds a value that the encoding admits. An event has no encoding and no check. -/
def Instr.wf (i : Instr) : Bool :=
  match i with
  | .scmpi _ _ cond _ => cond.toNat ≤ 9
  | .br cond sa _ => cond.toNat ≤ 6 && (cond ≠ 0 || sa = 0)
  | .barSync _ level _ => level.toNat ≤ 4
  | .barArrive _ level _ => level.toNat ≤ 4
  | .barWait _ level _ => level.toNat ≤ 4
  | .satom sd _ _ _ opn ret typ => satomOk sd opn ret typ
  | .fenceAcq s => s.toNat ≤ 4
  | .fenceRel s => s.toNat ≤ 4
  | .fenceAcqrel s => s.toNat ≤ 4
  | .fenceAll s => s.toNat ≤ 4
  | .lbr w => lbrOk w
  | .genbeg w => genbegOk w
  | i => match i.general with | some (op, w) => lwordOk op w | none => true

end Sys2Proof
end

