-- ==== Sys2Proof/Decode.lean ====
section
/-! DEFINITION. Decoding of scalar and lane words, total on any bits and bytes, and the encoder (R138 to R159). -/

namespace Sys2Proof

open Machine

/-- Why bits are no instruction (R151): the scalar word of all zeros, any other pattern, or too few bytes. -/
inductive DecodeError where
  | zeroWord | illegal | short
  deriving DecidableEq, Repr

/-- Keeps an instruction whose fields its encoding admits. -/
def accept (i : Instr) : Except DecodeError Instr := if i.wf then .ok i else .error .illegal

/-! ### Scalar words -/

/-- Fields of a scalar word (R139). -/
def fSd (w : BitVec 32) : BitVec 6 := w.extractLsb' 20 6
def fSa (w : BitVec 32) : BitVec 6 := w.extractLsb' 14 6
def fSb (w : BitVec 32) : BitVec 6 := w.extractLsb' 8 6
def fFn (w : BitVec 32) : BitVec 8 := w.extractLsb' 0 8
def fImm14 (w : BitVec 32) : BitVec 14 := w.extractLsb' 0 14
def fImm20 (w : BitVec 32) : BitVec 20 := w.extractLsb' 0 20

/-- Keeps the instruction when a must-be-zero test holds. -/
def need (c : Bool) (i : Instr) : Except DecodeError Instr := if c then accept i else .error .illegal

/-- SALU, by fn (R155). -/
def decodeSalu (w : BitVec 32) : Except DecodeError Instr :=
  let d := fSd w
  let a := fSa w
  let b := fSb w
  match (fFn w).toNat with
  | 0x00 => accept (.sadd d a b)
  | 0x01 => accept (.ssub d a b)
  | 0x02 => accept (.sand d a b)
  | 0x03 => accept (.sor d a b)
  | 0x04 => accept (.sxor d a b)
  | 0x05 => accept (.sshl d a b)
  | 0x06 => accept (.sshr d a b)
  | 0x07 => accept (.ssra d a b)
  | 0x08 => accept (.smul d a b)
  | 0x09 => accept (.smulhI d a b)
  | 0x0A => accept (.smulhN d a b)
  | 0x0B => accept (.sdivI d a b)
  | 0x0C => accept (.sdivN d a b)
  | 0x0D => accept (.sremI d a b)
  | 0x0E => accept (.sremN d a b)
  | 0x0F => accept (.sminI d a b)
  | 0x10 => accept (.smaxI d a b)
  | 0x11 => accept (.sminN d a b)
  | 0x12 => accept (.smaxN d a b)
  | 0x13 => accept (.sceq d a b)
  | 0x14 => accept (.scne d a b)
  | 0x15 => accept (.scltI d a b)
  | 0x16 => accept (.scltN d a b)
  | 0x17 => accept (.scleI d a b)
  | 0x18 => accept (.scleN d a b)
  | 0x19 => need (b = 0) (.spopc d a)
  | 0x1A => need (b = 0) (.sclz d a)
  | 0x1B => need (b = 0) (.sctz d a)
  | _ => .error .illegal

/-- SSHI, by kind (R157). -/
def decodeSshi (w : BitVec 32) : Except DecodeError Instr :=
  let d := fSd w
  let a := fSa w
  let n : BitVec 6 := w.extractLsb' 0 6
  let z : Bool := w.extractLsb' 6 6 = 0
  match (w.extractLsb' 12 2 : BitVec 2).toNat with
  | 0 => need z (.sshli d a n)
  | 1 => need z (.sshri d a n)
  | 2 => need z (.ssrai d a n)
  | _ => .error .illegal

/-- BAR, by kind (R178). -/
def decodeBar (w : BitVec 32) : Except DecodeError Instr :=
  let a := fSa w
  let level : BitVec 3 := w.extractLsb' 11 3
  let num : BitVec 4 := w.extractLsb' 0 4
  let z : Bool := fSd w = 0 && w.extractLsb' 4 5 = 0
  match (w.extractLsb' 9 2 : BitVec 2).toNat with
  | 0 => need z (.barSync a level num)
  | 1 => need z (.barArrive a level num)
  | 2 => need z (.barWait a level num)
  | _ => .error .illegal

/-- FENCE, by kind (R210). -/
def decodeFence (w : BitVec 32) : Except DecodeError Instr :=
  let s : BitVec 3 := w.extractLsb' 2 3
  let z : Bool := fSd w = 0 && fSa w = 0 && w.extractLsb' 5 9 = 0
  match (w.extractLsb' 0 2 : BitVec 2).toNat with
  | 0 => need z (.fenceAcq s)
  | 1 => need z (.fenceRel s)
  | 2 => need z (.fenceAcqrel s)
  | _ => need z (.fenceAll s)

/-- SYS, by code (R214). -/
def decodeSys (w : BitVec 32) : Except DecodeError Instr :=
  let d := fSd w
  let a := fSa w
  match (fImm14 w).toNat with
  | 1 => accept (.sysAsidbase d a)
  | 2 => accept (.sysGenstep d a)
  | 3 => accept (.sysTinv d a)
  | 4 => accept (.sysTinvall d a)
  | _ => .error .illegal

/-- SLTAG, by fn (R211). -/
def decodeSltag (w : BitVec 32) : Except DecodeError Instr :=
  let d := fSd w
  let a := fSa w
  let z : Bool := fSb w = 0
  match (fFn w).toNat with
  | 0 => need z (.sltag d a)
  | 1 => need z (.sltagMem d a)
  | 2 => need z (.sltagSp d a)
  | _ => .error .illegal

/-- A scalar word's instruction, by its opcode (R154). -/
def decodeScalar (w : BitVec 32) : Except DecodeError Instr :=
  let d := fSd w
  let a := fSa w
  let b := fSb w
  let i := fImm14 w
  let i20 := fImm20 w
  let ix : LIdx := w.extractLsb' 0 22
  match (w.extractLsb' 26 6 : BitVec 6).toNat with
  | 0x00 => .error (if w = 0 then .zeroWord else .illegal)
  | 0x01 => decodeSalu w
  | 0x02 => accept (.saddi d a i)
  | 0x03 => accept (.sandi d a i)
  | 0x04 => accept (.sori d a i)
  | 0x05 => accept (.sxori d a i)
  | 0x06 => decodeSshi w
  | 0x07 => accept (.sli d i20)
  | 0x08 => accept (.slui d i20)
  | 0x09 => accept (.scmpi d a (w.extractLsb' 10 4) (w.extractLsb' 0 10))
  | 0x0A => need (w.extractLsb' 6 2 = 0) (.ssel d a b (w.extractLsb' 0 6))
  | 0x0B => accept (.sldw d a i)
  | 0x0C => accept (.sldd d a i)
  | 0x0D => accept (.sstw d a i)
  | 0x0E => accept (.sstd d a i)
  | 0x0F => accept (.sldk d a i)
  | 0x10 => accept (.br (w.extractLsb' 22 4) (w.extractLsb' 16 6) (w.extractLsb' 0 16))
  | 0x11 => accept (.call d i20)
  | 0x12 => need (i = 0) (.jmpr d a)
  | 0x13 => accept (.lissue (w.extractLsb' 22 4) ix)
  | 0x14 => need (w.extractLsb' 22 4 = 0) (.lrun ix)
  | 0x15 => need (w.extractLsb' 0 26 = 0) .lwait
  | 0x16 => need (a = 0 && w.extractLsb' 12 2 = 0) (.smfs d (w.extractLsb' 0 12))
  | 0x17 => need (d = 0 && w.extractLsb' 12 2 = 0) (.smts a (w.extractLsb' 0 12))
  | 0x18 => decodeBar w
  | 0x19 => need (w.extractLsb' 0 26 = 0) .yld
  | 0x1A => need (i = 0) (.ftest d a)
  | 0x1B => need (d = 0 && i = 0) (.fcancel a)
  | 0x1C => need (i = 0) (.fpass d a)
  | 0x1D => need (d = 0 && w.extractLsb' 3 11 = 0) (.copy a (w.extractLsb' 0 3))
  | 0x1E => need (d = 0 && w.extractLsb' 7 7 = 0) (.copymm a (w.extractLsb' 3 4) (w.extractLsb' 0 3))
  | 0x1F => need (d = 0 && w.extractLsb' 4 10 = 0) (.fixline a (w.extractLsb' 3 1) (w.extractLsb' 0 3))
  | 0x20 => need (i = 0) (.taglk d a)
  | 0x21 => need (i = 0) (.tagset d a)
  | 0x22 => need (i = 0) (.taginv d a)
  | 0x23 => accept (.satom d a b (w.extractLsb' 7 1) (w.extractLsb' 4 3) (w.extractLsb' 3 1) (w.extractLsb' 0 3))
  | 0x24 => decodeFence w
  | 0x25 => need (fFn w = 0) (.tlwait d a b)
  | 0x26 => need (i = 0) (.tladv d a)
  | 0x27 => need (i = 0) (.dcor d a)
  | 0x28 => need (i = 0) (.pkq d a)
  | 0x29 => need (i = 0) (.nmop d a)
  | 0x2A => need (i = 0) (.spg d a)
  | 0x2B => need (i = 0) (.kick d a)
  | 0x2C => need (d = 0 && a = 0) (.trap i)
  | 0x2D => need (w.extractLsb' 0 26 = 0) .eret
  | 0x2E => decodeSys w
  | 0x2F => need (w.extractLsb' 0 26 = 0) .endGroup
  | 0x30 => decodeSltag w
  | _ => .error .illegal

/-! ### Lane words -/

/-- The fields of the general layout (R142). -/
def laneFields (w : BitVec 96) : LWord :=
  { vd := w.extractLsb' 80 8, va := w.extractLsb' 72 8, vb := w.extractLsb' 64 8, vc := w.extractLsb' 56 8,
    ty := w.extractLsb' 51 5, rm := w.extractLsb' 48 3, sat := w.extractLsb' 46 2, pn := w.extractLsb' 45 1,
    pk := w.extractLsb' 42 3, wt := w.extractLsb' 34 8, tg := w.extractLsb' 32 2, bk := w.extractLsb' 30 2,
    ck := w.extractLsb' 28 2, mod8 := w.extractLsb' 20 8, imm := w.extractLsb' 0 20 }

/-- LBR's layout (R250). -/
def lbrFields (w : BitVec 96) : LbrWord :=
  { tgt := w.extractLsb' 66 22, pn := w.extractLsb' 45 1, pk := w.extractLsb' 42 3, wt := w.extractLsb' 34 8,
    tg := w.extractLsb' 32 2, rpc := w.extractLsb' 0 22 }

/-- GENBEG's layout (R276). -/
def genbegFields (w : BitVec 96) : GenbegWord :=
  { cent := w.extractLsb' 66 22, pfb := w.extractLsb' 64 2, cfb := w.extractLsb' 62 2, capm1 := w.extractLsb' 54 8,
    hi := w.extractLsb' 46 8, wt := w.extractLsb' 34 8, xpc := w.extractLsb' 0 22 }

/-- A lane word's instruction, by its opcode (R158). -/
def decodeLane (w : BitVec 96) : Except DecodeError Instr :=
  let f := laneFields w
  match (w.extractLsb' 88 8 : BitVec 8).toNat with
  | 0x01 => accept (.vadd f)
  | 0x02 => accept (.vsub f)
  | 0x03 => accept (.vmul f)
  | 0x04 => accept (.vmulh f)
  | 0x05 => accept (.vmad f)
  | 0x06 => accept (.vand f)
  | 0x07 => accept (.vor f)
  | 0x08 => accept (.vxor f)
  | 0x09 => accept (.vshl f)
  | 0x0A => accept (.vshr f)
  | 0x0B => accept (.vsra f)
  | 0x0C => accept (.vmin f)
  | 0x0D => accept (.vmax f)
  | 0x0E => accept (.vcmp f)
  | 0x0F => accept (.vsel f)
  | 0x10 => accept (.vmovi f)
  | 0x11 => accept (.fadd f)
  | 0x12 => accept (.fsub f)
  | 0x13 => accept (.fmul f)
  | 0x14 => accept (.ffma f)
  | 0x15 => accept (.fmin f)
  | 0x16 => accept (.fmax f)
  | 0x17 => accept (.fcmp f)
  | 0x18 => accept (.frcp f)
  | 0x19 => accept (.frsq f)
  | 0x1A => accept (.fsqrt f)
  | 0x1B => accept (.fexp2 f)
  | 0x1C => accept (.flog2 f)
  | 0x1D => accept (.vcvt f)
  | 0x1E => accept (.vqnt f)
  | 0x1F => accept (.vdq f)
  | 0x20 => accept (.vhad f)
  | 0x21 => accept (.vrng f)
  | 0x22 => accept (.vshf f)
  | 0x23 => accept (.vred f)
  | 0x24 => accept (.vscan f)
  | 0x25 => accept (.vbal f)
  | 0x26 => accept (.vxts f)
  | 0x27 => accept (.vld f)
  | 0x28 => accept (.vst f)
  | 0x29 => accept (.vlds f)
  | 0x2A => accept (.vsts f)
  | 0x2B => accept (.vatom f)
  | 0x2C => accept (.vrds f)
  | 0x2D => need (w.extractLsb' 46 20 = 0 && w.extractLsb' 22 10 = 0) (.lbr (lbrFields w))
  | 0x2E => accept (.lend f)
  | 0x2F => accept (.lmask f)
  | 0x30 => accept (.vprop f)
  | 0x31 => accept (.vtag f)
  | 0x32 => accept (.dacc f)
  | 0x33 => accept (.dsum f)
  | 0x34 => accept (.dapply f)
  | 0x35 => accept (.mma f)
  | 0x36 => accept (.mzero f)
  | 0x37 => accept (.mrda f)
  | 0x38 => accept (.mwra f)
  | 0x39 => accept (.mtld f)
  | 0x3A => accept (.mspl f)
  | 0x3B => accept (.mfil f)
  | 0x3C => need (w.extractLsb' 42 4 = 0 && w.extractLsb' 32 2 = 0 && w.extractLsb' 22 10 = 0) (.genbeg (genbegFields w))
  | 0x3D => accept (.yield f)
  | 0x3E => accept (.gstep f)
  | 0x3F => accept (.cpop f)
  | 0x40 => accept (.genend f)
  | _ => .error .illegal

/-! ### Bytes -/

/-- The little-endian value of a list of bytes (R4). -/
def leNat : List Byte → Nat
  | [] => 0
  | b :: t => b.toNat + 256 * leNat t

/-- The n bytes of a value, the low byte first. -/
def leBytes : Nat → Nat → List Byte
  | 0, _ => []
  | n + 1, v => BitVec.ofNat 8 v :: leBytes n (v / 256)

/-- A scalar word at the head of a list of bytes, and the bytes after it (R138). -/
def decodeScalarBytes (l : List Byte) : Except DecodeError (Instr × List Byte) :=
  if l.length < 4 then .error .short
  else
    match decodeScalar (BitVec.ofNat 32 (leNat (l.take 4))) with
    | .ok i => .ok (i, l.drop 4)
    | .error e => .error e

/-- A lane word at the head of a list of bytes, and the bytes after it (R141). -/
def decodeLaneBytes (l : List Byte) : Except DecodeError (Instr × List Byte) :=
  if l.length < 12 then .error .short
  else
    match decodeLane (BitVec.ofNat 96 (leNat (l.take 12))) with
    | .ok i => .ok (i, l.drop 12)
    | .error e => .error e

/-- The instruction of a table word: up to 32 bits stand for a scalar word, more for a lane word. -/
def decodeTableWord (nbits w : Nat) : Option Instr :=
  if nbits ≤ 32 then
    match decodeScalarBytes (leBytes 4 w) with
    | .ok r => some r.1
    | .error _ => none
  else
    match decodeLaneBytes (leBytes 12 w) with
    | .ok r => some r.1
    | .error _ => none

/-! ### The encoder -/

/-- Formats of R139. -/
def encSR (op : BitVec 6) (d a b : BitVec 6) (fn : BitVec 8) : BitVec 32 := op ++ d ++ a ++ b ++ fn
def encSI (op : BitVec 6) (d a : BitVec 6) (imm : BitVec 14) : BitVec 32 := op ++ d ++ a ++ imm
def encSB (op : BitVec 6) (cond : BitVec 4) (a : BitVec 6) (off : BitVec 16) : BitVec 32 := op ++ cond ++ a ++ off
def encSL (op : BitVec 6) (d : BitVec 6) (imm : BitVec 20) : BitVec 32 := op ++ d ++ imm
def encSQ (op : BitVec 6) (n : BitVec 4) (ix : LIdx) : BitVec 32 := op ++ n ++ ix

/-- The code of BAR (R178). -/
def barCode (level : BitVec 3) (kind : BitVec 2) (num : BitVec 4) : BitVec 14 := level ++ kind ++ (0 : BitVec 5) ++ num

/-- The word of a scalar instruction; none for any other. -/
def encodeScalar : Instr → Option (BitVec 32)
  | .sadd d a b => some (encSR 0x01 d a b 0x00)
  | .ssub d a b => some (encSR 0x01 d a b 0x01)
  | .sand d a b => some (encSR 0x01 d a b 0x02)
  | .sor d a b => some (encSR 0x01 d a b 0x03)
  | .sxor d a b => some (encSR 0x01 d a b 0x04)
  | .sshl d a b => some (encSR 0x01 d a b 0x05)
  | .sshr d a b => some (encSR 0x01 d a b 0x06)
  | .ssra d a b => some (encSR 0x01 d a b 0x07)
  | .smul d a b => some (encSR 0x01 d a b 0x08)
  | .smulhI d a b => some (encSR 0x01 d a b 0x09)
  | .smulhN d a b => some (encSR 0x01 d a b 0x0A)
  | .sdivI d a b => some (encSR 0x01 d a b 0x0B)
  | .sdivN d a b => some (encSR 0x01 d a b 0x0C)
  | .sremI d a b => some (encSR 0x01 d a b 0x0D)
  | .sremN d a b => some (encSR 0x01 d a b 0x0E)
  | .sminI d a b => some (encSR 0x01 d a b 0x0F)
  | .smaxI d a b => some (encSR 0x01 d a b 0x10)
  | .sminN d a b => some (encSR 0x01 d a b 0x11)
  | .smaxN d a b => some (encSR 0x01 d a b 0x12)
  | .sceq d a b => some (encSR 0x01 d a b 0x13)
  | .scne d a b => some (encSR 0x01 d a b 0x14)
  | .scltI d a b => some (encSR 0x01 d a b 0x15)
  | .scltN d a b => some (encSR 0x01 d a b 0x16)
  | .scleI d a b => some (encSR 0x01 d a b 0x17)
  | .scleN d a b => some (encSR 0x01 d a b 0x18)
  | .spopc d a => some (encSR 0x01 d a 0 0x19)
  | .sclz d a => some (encSR 0x01 d a 0 0x1A)
  | .sctz d a => some (encSR 0x01 d a 0 0x1B)
  | .saddi d a i => some (encSI 0x02 d a i)
  | .sandi d a i => some (encSI 0x03 d a i)
  | .sori d a i => some (encSI 0x04 d a i)
  | .sxori d a i => some (encSI 0x05 d a i)
  | .sshli d a n => some (encSI 0x06 d a ((0 : BitVec 2) ++ (0 : BitVec 6) ++ n))
  | .sshri d a n => some (encSI 0x06 d a ((1 : BitVec 2) ++ (0 : BitVec 6) ++ n))
  | .ssrai d a n => some (encSI 0x06 d a ((2 : BitVec 2) ++ (0 : BitVec 6) ++ n))
  | .sli d i => some (encSL 0x07 d i)
  | .slui d i => some (encSL 0x08 d i)
  | .scmpi d a c m => some (encSI 0x09 d a (c ++ m))
  | .ssel d a b c => some (encSR 0x0A d a b ((0 : BitVec 2) ++ c))
  | .sldw d a i => some (encSI 0x0B d a i)
  | .sldd d a i => some (encSI 0x0C d a i)
  | .sstw d a i => some (encSI 0x0D d a i)
  | .sstd d a i => some (encSI 0x0E d a i)
  | .sldk d a i => some (encSI 0x0F d a i)
  | .br c a o => some (encSB 0x10 c a o)
  | .call d i => some (encSL 0x11 d i)
  | .jmpr d a => some (encSR 0x12 d a 0 0)
  | .lissue n ix => some (encSQ 0x13 n ix)
  | .lrun ix => some (encSQ 0x14 0 ix)
  | .lwait => some (encSI 0x15 0 0 0)
  | .smfs d id => some (encSI 0x16 d 0 ((0 : BitVec 2) ++ id))
  | .smts a id => some (encSI 0x17 0 a ((0 : BitVec 2) ++ id))
  | .barSync a l n => some (encSI 0x18 0 a (barCode l 0 n))
  | .barArrive a l n => some (encSI 0x18 0 a (barCode l 1 n))
  | .barWait a l n => some (encSI 0x18 0 a (barCode l 2 n))
  | .yld => some (encSI 0x19 0 0 0)
  | .ftest d a => some (encSI 0x1A d a 0)
  | .fcancel a => some (encSI 0x1B 0 a 0)
  | .fpass d a => some (encSR 0x1C d a 0 0)
  | .copy a t => some (encSI 0x1D 0 a ((0 : BitVec 11) ++ t))
  | .copymm a m t => some (encSI 0x1E 0 a ((0 : BitVec 7) ++ m ++ t))
  | .fixline a c t => some (encSI 0x1F 0 a ((0 : BitVec 10) ++ c ++ t))
  | .taglk d a => some (encSR 0x20 d a 0 0)
  | .tagset d a => some (encSR 0x21 d a 0 0)
  | .taginv d a => some (encSR 0x22 d a 0 0)
  | .satom d a b s o r y => some (encSR 0x23 d a b (s ++ o ++ r ++ y))
  | .fenceAcq s => some (encSI 0x24 0 0 ((0 : BitVec 9) ++ s ++ (0 : BitVec 2)))
  | .fenceRel s => some (encSI 0x24 0 0 ((0 : BitVec 9) ++ s ++ (1 : BitVec 2)))
  | .fenceAcqrel s => some (encSI 0x24 0 0 ((0 : BitVec 9) ++ s ++ (2 : BitVec 2)))
  | .fenceAll s => some (encSI 0x24 0 0 ((0 : BitVec 9) ++ s ++ (3 : BitVec 2)))
  | .tlwait d a b => some (encSR 0x25 d a b 0)
  | .tladv d a => some (encSR 0x26 d a 0 0)
  | .dcor d a => some (encSI 0x27 d a 0)
  | .pkq d a => some (encSI 0x28 d a 0)
  | .nmop d a => some (encSI 0x29 d a 0)
  | .spg d a => some (encSI 0x2A d a 0)
  | .kick d a => some (encSI 0x2B d a 0)
  | .trap c => some (encSI 0x2C 0 0 c)
  | .eret => some (encSI 0x2D 0 0 0)
  | .sysAsidbase d a => some (encSI 0x2E d a 1)
  | .sysGenstep d a => some (encSI 0x2E d a 2)
  | .sysTinv d a => some (encSI 0x2E d a 3)
  | .sysTinvall d a => some (encSI 0x2E d a 4)
  | .endGroup => some (encSI 0x2F 0 0 0)
  | .sltag d a => some (encSR 0x30 d a 0 0)
  | .sltagMem d a => some (encSR 0x30 d a 0 1)
  | .sltagSp d a => some (encSR 0x30 d a 0 2)
  | _ => none

/-- A word of the general layout (R142). -/
def encGeneral (op : BitVec 8) (w : LWord) : BitVec 96 :=
  op ++ w.vd ++ w.va ++ w.vb ++ w.vc ++ w.ty ++ w.rm ++ w.sat ++ w.pn ++ w.pk ++ w.wt ++ w.tg ++ w.bk ++ w.ck ++ w.mod8 ++ w.imm

def encLbr (w : LbrWord) : BitVec 96 :=
  (0x2D : BitVec 8) ++ w.tgt ++ (0 : BitVec 20) ++ w.pn ++ w.pk ++ w.wt ++ w.tg ++ (0 : BitVec 10) ++ w.rpc

def encGenbeg (w : GenbegWord) : BitVec 96 :=
  (0x3C : BitVec 8) ++ w.cent ++ w.pfb ++ w.cfb ++ w.capm1 ++ w.hi ++ (0 : BitVec 4) ++ w.wt ++ (0 : BitVec 2) ++ (0 : BitVec 10) ++
    w.xpc

/-- The word of a lane instruction; none for any other. -/
def encodeLane (i : Instr) : Option (BitVec 96) :=
  match i with
  | .lbr w => some (encLbr w)
  | .genbeg w => some (encGenbeg w)
  | i =>
    match i.general with
    | some (op, w) => some (encGeneral (BitVec.ofNat 8 op) w)
    | none => none

/-- The bytes of an instruction as they stand in memory; an event has none. -/
def encode (i : Instr) : List Byte :=
  match encodeScalar i with
  | some w => leBytes 4 w.toNat
  | none =>
    match encodeLane i with
    | some w => leBytes 12 w.toNat
    | none => []

end Sys2Proof
end

