-- ==== Sys2Proof/Machine/Store.lean ====
section
/-! DEFINITION. Sparse stores: a list of (key, value) pairs in one canonical form, with strictly rising keys and no entry
equal to the value that an unlisted key reads as. Memory, tags and register files are held so. -/

namespace Sys2Proof.Machine

/-- A sparse store. Memory is the store of bytes, whose entries are the host's cells. -/
abbrev Store (α : Type) := List (Nat × α)

/-- The value at key a; d is what an unlisted key reads as. -/
def sget {α : Type} (d : α) : Store α → Nat → α
  | [], _ => d
  | (k, v) :: t, a => if a = k then v else if a < k then d else sget d t a

/-- Puts v at key a, keeping the canonical form. -/
def sset {α : Type} [DecidableEq α] (d : α) : Store α → Nat → α → Store α
  | [], a, v => if v = d then [] else [(a, v)]
  | (k, w) :: t, a, v =>
    if a = k then (if v = d then t else (a, v) :: t)
    else if a < k then (if v = d then (k, w) :: t else (a, v) :: (k, w) :: t)
    else (k, w) :: sset d t a v

/-- Puts every pair of a list, in order. -/
def ssetMany {α : Type} [DecidableEq α] (d : α) (m : Store α) (l : List (Nat × α)) : Store α :=
  l.foldl (fun m p => sset d m p.1 p.2) m

/-- Every key of the store is above b, and no entry equals d. -/
def swfAbove {α : Type} [DecidableEq α] (d : α) : Option Nat → Store α → Bool
  | _, [] => true
  | lo, (k, v) :: t => (match lo with | none => true | some b => decide (b < k)) && decide (v ≠ d) && swfAbove d (some k) t

/-- The canonical form. -/
def swf {α : Type} [DecidableEq α] (d : α) (m : Store α) : Bool := swfAbove d none m

/-- Drops every entry whose key fails p. -/
def sfilter {α : Type} (p : Nat → Bool) (m : Store α) : Store α := m.filter (fun e => p e.1)

end Sys2Proof.Machine
end

