-- ==== Sys2Proof/Machine/GroupTypes.lean ====
section
/-! DEFINITION. The state of one group: registers, paths, runs, special registers, queues and frames (R8 to R31, R85,
R111, R176, R275, R325). -/

namespace Sys2Proof.Machine

/-- A lane path (R18). -/
structure Path where
  pc : LIdx
  mask : BitVec 32
  p : Bool
  deriving DecidableEq, Repr

/-- A divergence entry (R19). -/
structure DivEntry where
  rpc : LIdx
  qpc : LIdx
  qv : Bool
  qp : Bool
  p : Bool
  qmask : BitVec 32
  dmask : BitVec 32
  deriving DecidableEq, Repr

/-- The special registers that a run captures at its enqueue (R17, R176). -/
structure Caps where
  mode : Word
  lscale : BitVec 32
  lscaleTag : Bool
  rgn : Word
  drange : Word
  dctl : Word
  shape : Store Word
  bnd : Store Word
  deriving DecidableEq, Repr

/-- One run of the run queue (R13, R325): its first word, its next word, the words left of a LISSUE run. -/
structure Run where
  lrun : Bool
  started : Bool
  first : LIdx
  next : LIdx
  left : Nat
  cap : Caps
  deriving DecidableEq, Repr

/-- The future state of a scalar register (R181), a resolved one with its command's number and context (R184, R325); busy is a register that
TLADV has still to write (R189). -/
inductive RegFut where
  | none
  | pending (cmd : Nat)
  | resolved (w : Word) (num ctx : Nat)
  | busy
  deriving DecidableEq, Repr

/-- A token: the copies bound to it, its status and the fault address it keeps (R194), and the tiles that the COPYMMs bound to it hold
until it completes (R195). -/
structure Token where
  count : Nat
  status : Nat
  faddr : Word
  tiles : List Nat
  deriving DecidableEq, Repr

/-- The contents of a fixed-point accumulator in one lane: the images as integers in units of 2^−F, and SYS (R256). -/
structure DElem where
  res : Int
  na : Int
  nx : Int
  nb : Int
  sys : Bool
  deriving DecidableEq, Repr

/-- A cairn entry: four words with their tags (R275, R278). -/
structure CairnEntry where
  words : List (Elem × Bool)
  deriving DecidableEq, Repr

/-- A suspended producer path with its EXMASK and entries (R282). -/
structure Susp where
  path : Path
  exmask : BitVec 32
  stack : List DivEntry
  deriving DecidableEq, Repr

/-- The generator loop: GENST and the hidden fields of R275. body 0 is closed; exiting is an exit decided but not yet
closed; popped says that the consumer step has issued its CPOP. -/
structure GenLoop where
  body : Nat
  done : BitVec 32
  cap : Nat
  hi : Nat
  gpc : LIdx
  cent : LIdx
  xpc : LIdx
  pfb : Nat
  cfb : Nat
  xmask : BitVec 32
  pp : Bool
  pc : Bool
  popped : Bool
  exiting : Bool
  susp : Option Susp
  cairn : List CairnEntry
  deriving DecidableEq, Repr

/-- What an entry of an issue queue is (R111, R116 to R118). -/
inductive EKind where
  | load
  | store
  | atomic
  | reduce
  | fence (acq rel all : Bool) (scope : Nat)
  | tladv (amount : Word) (sd : BitVec 6)
  | command (cmd : Nat)
  deriving DecidableEq, Repr

/-- Where an access that its stream has gone past puts what it returns (R16, R114): a scalar register, with the tag that the word gives its
result; a scalar register that takes a unit's mark (R211); n lane registers from r on, in lanes that each add a number to the value and
have a tag (R123); an element of a tile, the access's lane in number (R274). -/
inductive LateDst where
  | sreg (n : Nat) (tag : Bool)
  | mark (n : Nat)
  | vreg (r n : Nat) (lanes : List (Nat × Nat × Bool))
  | tile (t : Nat)
  deriving DecidableEq, Repr

/-- An entry of IQ(a) (R112). addr is the access's place in the home memory, va the address that a trap reports, wr the
bytes of a store. member is set on an access to a
cluster member's scratchpad by message (R89). late is set on an access that its stream has gone past. -/
structure Entry where
  kind : EKind
  pk : PKind
  addr : Nat
  size : Nat
  va : Word
  wr : List (Nat × Byte)
  prop : Bool
  poison : Bool
  opn : Nat
  typ : Nat
  data : Word
  cmp : Word
  lane : Nat
  lw : Bool
  member : Option Nat
  late : Option LateDst
  deriving DecidableEq, Repr

/-- A write that has left its issue queue: the bytes that it puts into one unit (R71, R121). -/
structure Write where
  grp : GroupKey
  core : Nat
  pk : PKind
  va : Word
  wr : List (Nat × Byte)
  prop : Bool
  poison : Bool
  member : Option Nat
  deriving DecidableEq, Repr

/-- What one access of a waiting word returned; down says that its peer cannot be reached (R357), and va is the address that a trap reports. -/
structure LaneRes where
  lane : Nat
  val : Word
  prop : Bool
  poison : Bool
  down : Bool
  va : Word
  deriving DecidableEq, Repr

/-- A word whose accesses have entered and not all performed: its stream waits for it. -/
structure Pend where
  w : Instr
  need : Nat
  got : List LaneRes
  deriving DecidableEq, Repr

/-- A trap: its cause, its TRAPADDR, and whether its reader is one to which R339 applies. -/
structure Trap where
  cause : Nat
  addr : Word
  restart : Bool
  deriving DecidableEq, Repr

/-- What an entry into a handler interrupted and its frame has no place for. resume is TRAPPC as the entry set it, and bar a barrier
wait: the arrival that it made stands, so a return to that word only waits (R162, R163). mword is the MMA that was interrupted
between two steps, with its lane word and whether it had arrived (R268, R269); slot and kept are LaneCtl's. -/
structure Held where
  resume : Word
  bar : Option Pend
  mword : Option (LIdx × LWord)
  mgo : Bool
  slot : Bool
  kept : Bool
  deriving DecidableEq, Repr

/-- Where a group is bound, and the windows and registers it is granted (R9, R86, R320). bid names its block. -/
structure Place where
  q : Nat
  core : Nat
  slot : Nat
  bound : Bool
  bid : Nat
  spBase : Nat
  spSlots : Nat
  tsBase : Nat
  tsFr : Nat
  bsBase : Nat
  bsu : Nat
  lrBase : Nat
  lregs : Nat
  tmask : BitVec 16
  deriving DecidableEq, Repr

/-- The register files (R85); each store's unlisted entries read zero, settled. -/
structure Regs where
  sreg : Store Word
  stag : Store Bool
  fut : Store RegFut
  vreg : Store Elem
  vtag : Store Bool
  kreg : Store (BitVec 32)
  ktag : Store Bool
  tile : Store (BitVec 48)
  ttag : Store Bool
  dreg : Store DElem
  src : Store (BitVec 32)
  tok : Store Token
  bad : List (Nat × Nat)
  deriving DecidableEq, Repr

/-- The special registers that are not captured, and the privileged ones (R176). launchEx is EXMASK's launch value, lcb the
task's lane-code base, ulcb and plcb those of its handlers, args the argument block with its tags per 8 bytes. elapsed is ELAPSED as it stood
at the step since, from which the core has counted on (R83). -/
structure Specials where
  status : Word
  exmask : BitVec 32
  launchEx : BitVec 32
  coord : Word
  ucause : Word
  uaddr : Word
  seed : Word
  stream : Word
  dstat : Word
  elapsed : Nat
  since : Nat
  fcause : Nat
  ftok : Nat
  trapc : Word
  trappc : Word
  traplpc : Word
  trapaddr : Word
  vbase : Word
  bivbase : Word
  ctxaddr : Word
  asid : Word
  gen : Word
  lcb : Word
  ulcb : Word
  plcb : Word
  args : List Byte
  argTag : Store Bool
  deriving DecidableEq, Repr

/-- The lane stream's control state (R18 to R22, R268). stack holds the innermost entry first, and biv counts the entries that stand in
the bivouac area; slot is the PC slot that issues next, and kept says that a deterministic group has chosen it until it parks
(R31). mword is the word of an MMA under way with its index, which is not fetched or decoded again; mslot is its slot, and mgo says that a
cooperative one has arrived. late holds, oldest first, the lane registers that finished runs still have to be given by accesses which the stream
has gone past: such a run has issued its last word and is not finished (R13, R15). -/
structure LaneCtl where
  l0 : Option Path
  l1 : Option Path
  slot : Bool
  kept : Bool
  stack : List DivEntry
  biv : Nat
  runs : List Run
  gl : GenLoop
  mstep : Nat
  mword : Option (LIdx × LWord)
  mslot : Bool
  mgo : Bool
  late : List (List Nat)
  deriving DecidableEq, Repr

/-- The group's part of the ordering machine (R111), its three write queues as one list in the order of joining, the words that wait for their
accesses, and the lane registers, by element, that an access which its stream has gone past has still to write. -/
structure Queues where
  iq : List Entry
  wq : List Write
  pendS : Option Pend
  pendL : Option Pend
  lateV : List Nat
  deriving DecidableEq, Repr

/-- A group (R8 to R31). endStep is the step of R30 that END has reached; barLast holds LAST + 1 per barrier, 0 for none;
seq is its launch order; replay its replay list of cancelled copies (R324); holds marks the group that issues on its core in deterministic
mode (R31); met is the cause that a scalar word has met while runs before it go on (R162). -/
structure Group where
  key : GroupKey
  place : Place
  r : Regs
  cap : Caps
  sp : Specials
  pc : Word
  ln : LaneCtl
  qs : Queues
  held1 : Option Held
  held2 : Option Held
  barLast : Store Nat
  endStep : Nat
  seq : Nat
  passed : Nat
  replay : List Nat
  holds : Bool
  met : Option Trap
  deriving DecidableEq, Repr

end Sys2Proof.Machine
end

