-- ==== Sys2Proof/Machine/DeviceTypes.lean ====
section
/-! DEFINITION. The state outside the groups: tasks and replays, engine commands, links, the host's registers, error logs
and the service core (R105, R186, R187, R286 to R320, R341 to R358, R372 to R381). -/

namespace Sys2Proof.Machine

/-- One barrier instance: its place, the phases completed, the members arrived and the copy arrivals counted (R26, R27). -/
structure Bar where
  level : Nat
  cluster : Nat
  block : Nat
  group : Nat
  num : Nat
  phase : Nat
  arr : List GroupKey
  copies : Nat
  deriving DecidableEq, Repr

/-- A cooperative MMA's arrival: its block and the values that must agree (R269). -/
structure ClArrival where
  cluster : Nat
  block : Nat
  vals : List Nat
  deriving DecidableEq, Repr

/-- The phase of a task in the range matcher (R319): waiting, admitted, stopped by a double fault with its cause until its accesses are
performed (R334), retired, or dropped unrun (R318). -/
inductive TaskPhase where
  | waiting | admitted | retired | dropped
  | stopped (cause : Nat)
  deriving DecidableEq, Repr

/-- A task (R312 to R319): its node record with the replay's patches, its place in the
order of admission, its argument block, its groups (gone holds the levels at which step 2 of R30 has made a group's arrivals, retired
those whose slot is released), barriers, counters
(tl, by TLID), the blocks whose windows stand in their save record (R326), last command numbers (ctxNum) and completed numbers above a counter
(ctxDone), and its half-key region with its offset in the SRAM of each quarter. -/
structure Task where
  id : Nat
  replay : Nat
  node : Nat
  img : Nat
  q : Nat
  asid : Nat
  gen : Nat
  cls : Nat
  seed : Word
  phase : TaskPhase
  adm : Nat
  args : List Byte
  argTag : Store Bool
  launched : List GroupKey
  gone : List (Nat × GroupKey)
  retired : List GroupKey
  bars : List Bar
  cl : List ClArrival
  clGo : List ClArrival
  saved : List Nat
  tl : Store Nat
  ctxNum : Store Nat
  ctxDone : List (Nat × Nat)
  hk : List Byte
  hkAt : Store Nat
  hkTag : Store Bool
  hkPoison : Store Bool
  deriving DecidableEq, Repr

/-- A patch table entry (R317), with the tag of the line it was read from. -/
structure Patch where
  node : Nat
  tgt : Nat
  ofs : Nat
  val : Word
  prop : Bool
  deriving DecidableEq, Repr

/-- A replay (R315 to R318): the kick slot or the KICK command that started it, and the cause that
stopped it early, with its address. -/
structure Replay where
  id : Nat
  slot : Option Nat
  cmd : Option Nat
  cls : Nat
  asid : Nat
  gen : Nat
  q : Nat
  seed : Word
  nodes : List Nat
  patches : List Patch
  stopped : Option (Nat × Word)
  ended : Bool
  deriving DecidableEq, Repr

/-- The kinds of engine commands (R190 to R206); hostLine is a fixed line of a host channel set (R350). -/
inductive CmdKind where
  | copy
  | copymm (tile : Nat)
  | fixline (chan : Nat)
  | hostLine (set : Nat)
  | dcor | pkq | nmop | spg | kick
  deriving DecidableEq, Repr

/-- The stages of a command (R125, R287). -/
inductive CStage where
  | issued      -- its entry stands in IQ(a)
  | queued      -- it has entered EQ(e)
  | after       -- record read and checked
  | running
  | extern      -- DCOR: the wait of CORR = EXTERN
  | followOn    -- COPYMM: the copy is complete
  | draining    -- its end is decided; mailbox and completion follow
  | stopping    -- FCANCEL has asked it to stop
  deriving DecidableEq, Repr

/-- A piece that a copy has read and not yet written. -/
structure CopyBuf where
  piece : Nat
  bytes : List Byte
  prop : Bool
  poison : Bool
  deriving DecidableEq, Repr

/-- A finished row of a DCOR's pass (R305): its residual, its absolute sum, its diagonal, |b|, and whether it is derived from poison. -/
structure DRow where
  res : Int
  rs : Int
  dg : Int
  nb : Int
  poison : Bool
  deriving DecidableEq, Repr

/-- What a running command keeps between its steps; each engine says what it holds there. tile and ttag are a group's tiles as they stood
before a follow-on MMA (R195). -/
structure Prog where
  a : Nat
  b : Nat
  c : Nat
  d : Nat
  flag : Bool
  prop : Bool
  anchor : Nat
  solve : Nat
  norm1 : Int
  norm2 : Int
  bufs : List CopyBuf
  written : Store Bool
  acc : Store Nat
  pois : Store Bool
  rows : List (Nat × DRow)
  tile : Store (BitVec 48)
  ttag : Store Bool
  deriving DecidableEq, Repr

/-- An engine command: who issued it and with which windows, address space and captured registers; its record; its token
or handle register; its context and number; its stage, progress and outcome. mailed says that its mailbox has been written (R183); entered is the
step at which it was accepted into its context (R286). -/
structure Cmd where
  id : Nat
  kind : CmdKind
  owner : GroupKey
  place : Place
  asid : Nat
  gen : Nat
  priv : Bool
  cap : Caps
  addr : Word
  img : Nat
  recProp : Bool
  tok : Nat
  reg : Option Nat
  ctx : Option Nat
  num : Nat
  stage : CStage
  stat : Nat
  cause : Nat
  value : Nat
  faddr : Word
  poisoned : Bool
  mailed : Bool
  entered : Nat
  since : Nat
  pr : Prog
  deriving DecidableEq, Repr

/-- Bytes that an engine has read, with the tag and the poison of the units they came from; clean counts the bytes before the first that is
poisoned. -/
structure EngRead where
  bytes : List Byte
  prop : Bool
  poison : Bool
  clean : Nat
  deriving DecidableEq, Repr

/-- A sector that an engine's step has read, or with got none a line that it has written, in slow turns that have not ended the step (R125). -/
structure Early where
  cmd : Nat
  va : Word
  size : Nat
  got : Option EngRead
  deriving DecidableEq, Repr

/-- An access that has left for a peer device or, with dev none, for host memory, and is not yet answered; cmd is the
engine command that made it, if one did. -/
structure OutReq where
  grp : GroupKey
  cmd : Option Nat
  dev : Option Nat
  num : Nat
  entry : Entry
  deriving DecidableEq, Repr

/-- A cached translation (R105): its page's level and its leaf, in the first cache of its core or in the second. -/
structure TlbEntry where
  second : Bool
  core : Nat
  asid : Nat
  gen : Nat
  page : Nat
  level : Nat
  leaf : Nat
  deriving DecidableEq, Repr

/-- A level-0 to level-2 entry that a walker of a quarter keeps (R105): page is the part of the address that leads to it. -/
structure WalkEntry where
  q : Nat
  walker : Nat
  asid : Nat
  gen : Nat
  level : Nat
  page : Nat
  pte : Nat
  deriving DecidableEq, Repr

/-- A group flit as it is sent (R352): KIND, SEQ, ACK, NSEQ and the group payload of 976 bytes as a number. msgs holds the requests and responses
of which it carries a part. -/
structure GroupFlit where
  kind : Nat
  seq : Nat
  ack : Nat
  nseq : Nat
  pay : Nat
  msgs : List (List Byte)
  deriving DecidableEq, Repr

/-- One direction of a rail group (R352, R353): the last SEQ accepted, whether a replay is awaited, the payloads accepted,
and the sender's next SEQ, its replay buffer, the group flits that it has put on the wire, replays among them, and the messages that wait for a
flit. -/
structure LinkDir where
  last : Nat
  awaiting : Bool
  accepted : List Nat
  txNext : Nat
  txBuf : List GroupFlit
  wire : List GroupFlit
  queue : List (List Byte)
  deriving DecidableEq, Repr

/-- A rail group (R351 to R355). -/
structure RailGroup where
  crce : Nat
  rebuilt : Nat
  replays : Nat
  down : Bool
  half : BitVec 5
  lost : BitVec 5
  paused : BitVec 5
  repairs : Store Nat
  d0 : LinkDir
  d1 : LinkDir
  deriving DecidableEq, Repr

/-- A request that this device performed for a peer, with its response (R356): its bytes, and a tag and a poison bit per 32 of them. -/
structure Served where
  src : Nat
  num : Nat
  data : List Byte
  marks : List (Bool × Bool)
  deriving DecidableEq, Repr

/-- What a group has sent to a peer since its last SYSTEM release, and its first dropped address (R357, R358). -/
structure SentTo where
  grp : GroupKey
  dev : Nat
  deriving DecidableEq, Repr

/-- A latent error of an array element (R340, R342): the bits inverted and whether it was injected. -/
structure Latent where
  array : Nat
  core : Nat
  addr : Nat
  bits : Word
  inj : Bool
  deriving DecidableEq, Repr

/-- A past error of a row, for the threshold of R344. -/
structure RowErr where
  array : Nat
  core : Nat
  row : Nat
  tick : Nat
  deriving DecidableEq, Repr

/-- The test of a row that is still owed to an error whose record is gone or was never made (R343): its log (a core, or 256 and its quarter),
its array and unit, and whether it was injected. -/
structure RowTest where
  log : Nat
  array : Nat
  addr : Nat
  inj : Bool
  deriving DecidableEq, Repr

/-- A unit that a mark names: quarter, kind and index as R378 gives them. -/
structure DevUnit where
  q : Nat
  kind : Nat
  index : Nat
  deriving DecidableEq, Repr

/-- The configuration record (R378). sig is none where the record carries the signature that the vendor made over it, else the bytes that
stand in its place. -/
structure CfgRec where
  serial : Nat
  cores : Nat
  caps : Store Nat
  spareS : Nat
  spareD : Nat
  spares : List Nat
  sig : Option (List Byte)
  deriving DecidableEq, Repr

/-- A wear amendment (R378): its entry block is kept as its bytes, its signature's leaf as sig (none when UNSIGNED). spares counts the spare
rows used of each bank, which its entries of kind 3 list without their core. DESIGN CHOICE, log entry 117. -/
structure Amend where
  seq : Nat
  units : List DevUnit
  spares : Store Nat
  block : List Byte
  sig : Option Nat
  deriving DecidableEq, Repr

/-- The service core and package flash (R372 to R381). leafA and leafB are the flash copies of the leaf index, each with
its sequence number, or none for one that is not valid; leafBusy is an index write that flash has not yet reported complete; signFor is the
leaf reserved for the running command; coresAt is the step at which the cores started (R177). -/
structure Svc where
  powered : Bool
  stage : Nat
  ready : Bool
  err : Bool
  busy : Bool
  code : Nat
  op : Nat
  arg : Nat
  len : Nat
  buf : Store Byte
  ms : Store Nat
  leafA : Option (Nat × Nat)
  leafB : Option (Nat × Nat)
  leafBusy : Option Nat
  signFor : Option Nat
  cfg : CfgRec
  amends : List Amend
  marks : List DevUnit
  bootMarks : List DevUnit
  due : Bool
  coreCount : Nat
  usable : Store Nat
  wear : Store Nat
  guard : Store Nat
  powerOns : Nat
  lasting : Nat
  transient : Nat
  coresAt : Nat
  slowed : Store Nat
  deriving DecidableEq, Repr

/-- The registers that the host reaches (R315, R348, R350), and what its last access returned; unsupported is the CXL response of R346. -/
structure HostRegs where
  seedr : Word
  kick : Store Word
  hdm : Store Word
  chan : Store Word
  resp : List Byte
  respPoison : Bool
  unsupported : Bool
  deriving DecidableEq, Repr

/-- Error logs, injection and error bookkeeping (R341 to R344, R347). -/
structure Errs where
  coreLog : Store Word
  dramLog : Store Word
  seq : Store Nat
  inj : Store Word
  latent : List Latent
  rows : List RowErr
  tests : List RowTest
  spareUsed : Store Nat
  deriving DecidableEq, Repr

/-- Links and remote accesses (R351 to R358). down lists peers without a route; dropped holds each group's first dropped
address. -/
structure Links where
  rg : List RailGroup
  served : List Served
  numTo : Store Nat
  sent : List SentTo
  down : List Nat
  dropped : List (GroupKey × Word)
  deriving DecidableEq, Repr

end Sys2Proof.Machine
end

