-- ==== Sys2Proof/Machine/State.lean ====
section
/-! DEFINITION. The state of the device, the reasons a step can stop, and the state after power-on. -/

namespace Sys2Proof.Machine

/-- A fault: the machine stops. -/
inductive Fault where
  /-- Raised by `step` when the device has no power: nothing runs (R375). Safe. -/
  | poweredOff
  deriving DecidableEq, Repr

/-- A refusal: the model has no meaning to give. -/
inductive Refusal where
  /-- Answered by an arm of `exec` for an instruction that has no meaning yet. Safe. -/
  | notModelled (mnemonic : String)
  deriving DecidableEq, Repr

/-- One choice of the schedule that the spec leaves open (R18, R31, R109, R114): issue a scalar word, issue a lane word from a
PC slot, go on past the accesses that a stream waits for, turn to another group, or take an event; in a slow turn the accesses that enter
stand in their issue queue, the messages that leave wait for others to be packed with them, and an engine's step comes to one sector that it
reads or one line that it writes (R114, R125, R352). -/
inductive Turn where
  | scalar
  | lane (slot : Bool)
  | focus (g : GroupKey)
  | ahead (lane : Bool)
  | event (i : Instr)
  | slow (t : Turn)
  deriving DecidableEq, Repr

/-- A turn that all-bank mode holds back in a quarter, with the group in focus; old says that it waited when the GEMV's slice began (R289). -/
structure Barred where
  q : Nat
  grp : GroupKey
  turn : Turn
  old : Bool
  deriving DecidableEq, Repr

/-- The device (R1 to R382). g is the group whose streams issue now and rest holds the others. mem holds every byte by its
place: below 2^52 the physical address of R97, from 2^52 up a block's on-die windows (blockBase). utag and upoison hold a
unit's tag and poison at the unit's first byte. cp holds the writes in the core points, homeQ those that have arrived at
their home, msgs those on their way to a cluster member. tagTab holds the scratchpad tag tables, bindTab the bind
records of the slot tables. turns is the schedule;
tick counts steps; uid is the next unused name; seen holds, within a step, the units read at home while a GEMV is in all-bank
mode (R289), and hold says, within a step, that its turn is a slow one. early holds what engines' steps have read and written in slow turns,
and barred the turns that all-bank mode holds back. -/
structure State where
  g : Group
  rest : List Group
  tasks : List Task
  replays : List Replay
  mem : Store Byte
  utag : Store Bool
  upoison : Store Bool
  cp : List Write
  homeQ : List Write
  msgs : List Write
  tagTab : Store Word
  bindTab : Store Nat
  cmds : List Cmd
  outs : List OutReq
  tlb : List TlbEntry
  wcache : List WalkEntry
  asidBase : Nat
  genCopy : Store Nat
  links : Links
  host : HostRegs
  errs : Errs
  svc : Svc
  turns : List Turn
  tick : Nat
  uid : Nat
  seen : List Nat
  hold : Bool
  early : List Early
  barred : List Barred
  deriving DecidableEq, Repr

/-! ### Reset -/

/-- A group slot that holds no group. -/
def Place.none : Place :=
  { q := 0, core := 0, slot := 0, bound := false, bid := 0, spBase := 0, spSlots := 0, tsBase := 0, tsFr := 0, bsBase := 0,
    bsu := 0, lrBase := 0, lregs := 0, tmask := 0 }

/-- Register files of a launch: everything zero and settled; k0 reads as ones by its accessor (R11). -/
def Regs.zero : Regs :=
  { sreg := [], stag := [], fut := [], vreg := [], vtag := [], kreg := [], ktag := [], tile := [], ttag := [], dreg := [],
    src := [], tok := [], bad := [] }

/-- Captured registers at their reset values: DRANGE 0x5F60 (R60), DCTL with G 2 and GROWTH 0x3F80 (R82), MODE with RND 1
(R51), the others zero. -/
def Caps.reset : Caps :=
  { mode := 1, lscale := 0, lscaleTag := false, rgn := 0, drange := 0x5F60, dctl := 0x203F800000, shape := [], bnd := [] }

def GenLoop.closed : GenLoop :=
  { body := 0, done := 0, cap := 0, hi := 32, gpc := 0, cent := 0, xpc := 0, pfb := 0, cfb := 0, xmask := 0,
    pp := false, pc := false, popped := false, exiting := false, susp := Option.none, cairn := [] }

def Specials.reset : Specials :=
  { status := 0, exmask := 0, launchEx := 0, coord := 0, ucause := 0, uaddr := 0, seed := 0, stream := 0, dstat := 0,
    elapsed := 0, since := 0, fcause := 0, ftok := 0, trapc := 0, trappc := 0, traplpc := 0, trapaddr := 0, vbase := 0, bivbase := 0,
    ctxaddr := 0, asid := 0, gen := 0, lcb := 0, ulcb := 0, plcb := 0, args := [], argTag := [] }

def LaneCtl.empty : LaneCtl :=
  { l0 := Option.none, l1 := Option.none, slot := false, kept := false, stack := [], biv := 0, runs := [], gl := GenLoop.closed, mstep := 0,
    mword := Option.none, mslot := false, mgo := false, late := [] }

def Queues.empty : Queues :=
  { iq := [], wq := [], pendS := Option.none, pendL := Option.none, lateV := [] }

def GroupKey.zero : GroupKey := ⟨0, 0, 0, 0⟩

/-- No group: the focus of a device to which nothing is bound. -/
def Group.idle : Group :=
  { key := GroupKey.zero, place := Place.none, r := Regs.zero, cap := Caps.reset, sp := Specials.reset, pc := 0,
    ln := LaneCtl.empty, qs := Queues.empty, held1 := Option.none, held2 := Option.none,
    barLast := [], endStep := 0, seq := 0, passed := 0, replay := [], holds := false, met := Option.none }

def LinkDir.reset : LinkDir := { last := 0xFFFF, awaiting := false, accepted := [], txNext := 0, txBuf := [], wire := [], queue := [] }

def RailGroup.reset : RailGroup :=
  { crce := 0, rebuilt := 0, replays := 0, down := false, half := 0, lost := 0, paused := 0, repairs := [],
    d0 := LinkDir.reset, d1 := LinkDir.reset }

/-- The bytes of a quarter's DRAM (R97). -/
def quarterSize : Nat := 0x1800000000

/-- The device right after power is applied: measurement registers zero and no stage reached (R372, R373), no group bound,
no register written, every special register at its reset value. Package flash holds a record of 64 cores and no
amendment; memory lists nothing. -/
def State.reset : State :=
  { g := Group.idle, rest := [], tasks := [], replays := [], mem := [], utag := [], upoison := [], cp := [], homeQ := [],
    msgs := [], tagTab := [], bindTab := [], cmds := [], outs := [], tlb := [], wcache := [], asidBase := 0, genCopy := [],
    links := { rg := List.replicate 9 RailGroup.reset, served := [], numTo := [], sent := [], down := [], dropped := [] },
    host := { seedr := 0, kick := [], hdm := [], chan := [], resp := [], respPoison := false, unsupported := false },
    errs := { coreLog := [], dramLog := [], seq := [], inj := [], latent := [], rows := [], tests := [], spareUsed := [] },
    svc := { powered := true, stage := 0, ready := false, err := false, busy := false, code := 0, op := 0, arg := 0, len := 0,
             buf := [], ms := [], leafA := some (0, 1), leafB := some (0, 0), leafBusy := Option.none, signFor := Option.none,
             cfg := { serial := 0, cores := 64, caps := [], spareS := 2, spareD := 4, spares := [], sig := Option.none },
             amends := [], marks := [], bootMarks := [], due := false, coreCount := 0, usable := [], wear := [], guard := [], powerOns := 0,
             lasting := 0, transient := 0, coresAt := 0, slowed := [] },
    turns := [], tick := 0, uid := 1, seen := [], hold := false, early := [], barred := [] }

end Sys2Proof.Machine
end

