-- ==== Sys2Proof/Machine/Mem.lean ====
section
/-! DEFINITION. Home memory with its tags and poison, the view of a group, and translation (R71, R72, R85 to R108, R113,
R337). -/

namespace Sys2Proof.Machine

/-! ### Trap causes (R331) -/

def cILLEGAL : Nat := 0x01
def cZEROWORD : Nat := 0x02
def cPRIV : Nat := 0x03
def cALIGN : Nat := 0x04
def cPAGE : Nat := 0x05
def cPROT : Nat := 0x06
def cSTALEGEN : Nat := 0x07
def cPOISON : Nat := 0x08
def cBOUND : Nat := 0x09
def cRANGE : Nat := 0x0A
def cNONCONV : Nat := 0x0B
def cPROPCTL : Nat := 0x0C
def cPROPUSE : Nat := 0x0D
def cDIVSTACK : Nat := 0x0E
def cDETVIOL : Nat := 0x0F
def cBARRIER : Nat := 0x10
def cFUTURE : Nat := 0x11
def cTOKEN : Nat := 0x12
def cCAIRN : Nat := 0x13
def cSWTRAP : Nat := 0x14
def cINTDIV : Nat := 0x15
def cLINKDOWN : Nat := 0x16
def cMMASHAPE : Nat := 0x17

/-- Causes that go to the user handler (R331). -/
def userCause (c : Nat) : Bool := [0x09, 0x0A, 0x0B, 0x0C, 0x0D, 0x11, 0x14, 0x15].contains c

/-! ### Bits of natural numbers -/

/-- Bits hi down to lo of n. -/
def bits (n hi lo : Nat) : Nat := n / 2 ^ lo % 2 ^ (hi + 1 - lo)

/-- n with bits hi down to lo replaced by v. -/
def setBits (n hi lo v : Nat) : Nat :=
  n / 2 ^ (hi + 1) * 2 ^ (hi + 1) + v % 2 ^ (hi + 1 - lo) * 2 ^ lo + n % 2 ^ lo

def bit1 (n i : Nat) : Bool := n / 2 ^ i % 2 = 1

/-- The cycles that a unit's clock has counted between two steps. -/
def cyclesOver (unit first last : Nat) : Nat := (List.range (last - first)).foldl (fun a i => a + Config.stepCycles unit (first + i)) 0

/-! ### Places in the home memory (R85, R94, R95, R97) -/

/-- The first place above the physical address space. -/
def onDie : Nat := 2 ^ 52

/-- A block's name: its task and its place in the grid (R23). -/
def blockId (task cluster block : Nat) : Nat := task * 2 ^ 27 + cluster * 8 + block

/-- Where a block's windows stand: scratchpad first, tile store 1 MiB above, B-slice store 2 MiB above. Windows move with
their block, so a place names a window offset and not a core (R86, R326). -/
def blockBase (bid : Nat) : Nat := onDie + bid * 2 ^ 22
def spPlace (bid ofs : Nat) : Nat := blockBase bid + ofs
def tsPlace (bid ofs : Nat) : Nat := blockBase bid + 2 ^ 20 + ofs
def bsPlace (bid slice loc : Nat) : Nat := blockBase bid + 2 ^ 21 + slice * 2 ^ 15 + loc

/-- The unit that holds a place: a 64-byte line in memory, a 32-byte sector on die (R71). -/
def unitSize (a : Nat) : Nat := if a < onDie then 64 else 32
def unitOf (a : Nat) : Nat := a / unitSize a * unitSize a

/-- The region of a physical address (R97). -/
def region (a : Nat) : Nat := a / 2 ^ 48

/-- The quarter that a local address lies in. -/
def homeQuarter (a : Nat) : Nat := a / quarterSize

/-! ### Writes at home -/

/-- The tag of a unit after a write (R71). -/
def tagAfter (old prop whole : Bool) : Bool := if prop then true else if whole then false else old

/-- The poison of a unit after a write (R337). -/
def poisonAfter (old carries whole : Bool) : Bool := if carries then true else if whole then false else old

/-- Whether a write covers its whole unit. -/
def coversUnit (wr : List (Nat × Byte)) : Bool :=
  match wr with
  | [] => false
  | p :: _ => wr.length = unitSize p.1

/-- The sector of an array that a place on die belongs to, as R342 counts them, on the core that holds the window. -/
def sectorOf (pl : Place) (a : Nat) : Nat × Nat :=
  let o := a - blockBase pl.bid
  if o < 2 ^ 20 then (0x07, (pl.spBase * 1024 + o) / 32)
  else if o < 2 ^ 21 then (0x08, (pl.tsBase * 2048 + (o - 2 ^ 20)) / 32)
  else
    let b := o - 2 ^ 21
    (0x09, b / 2 ^ 15 * 1024 + (pl.bsBase * 1024 + b % 2 ^ 15) / 32)

/-- Every group of the device, the focus first. -/
def State.groups (s : State) : List Group := s.g :: s.rest

/-- The place of the block that holds an on-die place, with the core it stands on now. -/
def placeOf (s : State) (a : Nat) : Option Place :=
  (s.groups.find? (fun g => g.place.bound && g.place.bid = (a - onDie) / 2 ^ 22)).map (·.place)

/-- The core of a place, counted over the device. -/
def Place.coreNo (p : Place) : Nat := p.q * 64 + p.core

/-- The array, core and index of a unit, for error logs (R342, R347); the core of a DRAM line is its quarter. -/
def unitName (s : State) (a : Nat) : Option (Nat × Nat × Nat) :=
  if a < onDie then some (0x10, homeQuarter a, a % quarterSize / 64)
  else (placeOf s a).map (fun p => let x := sectorOf p a; (x.1, p.coreNo, x.2))

/-- An armed injection fires at the write of its unit (R342): the code word becomes a latent error, unless no bit is inverted. -/
def fireInj (s : State) (a : Nat) : State :=
  match unitName s a with
  | none => s
  | some (arr, core, idx) =>
    let ctl := (sget 0 s.errs.inj (core * 3)).toNat
    if arr ≠ 0x10 ∧ bit1 ctl 15 ∧ bits ctl 7 0 = arr ∧ (sget 0 s.errs.inj (core * 3 + 1)).toNat = idx then
      { s with errs := { s.errs with
          inj := sset 0 s.errs.inj (core * 3) (BitVec.ofNat 64 (setBits ctl 15 15 0)),
          latent := s.errs.latent ++ (if sget 0 s.errs.inj (core * 3 + 2) = 0 then [] else [⟨arr, core, idx, sget 0 s.errs.inj (core * 3 + 2), true⟩]) } }
    else s

/-- A write to a unit replaces its code word, so an error not yet read is gone when the whole unit is written. -/
def dropLatent (s : State) (a : Nat) (whole : Bool) : State :=
  if s.errs.latent.isEmpty || !whole then s
  else
    match unitName s a with
    | none => s
    | some (arr, core, idx) =>
      { s with errs := { s.errs with latent := s.errs.latent.filter (fun l => !(l.array = arr && l.core = core && l.addr = idx)) } }

/-- H(u) applies one write: its bytes, its tag change and its poison, in one step (R71, R113, R337). -/
def applyWrite (s : State) (wr : List (Nat × Byte)) (prop poison : Bool) : State :=
  match wr with
  | [] => s
  | p :: _ =>
    let u := unitOf p.1
    let whole := coversUnit wr
    let s1 := { s with
      mem := ssetMany 0 s.mem wr
      utag := sset false s.utag u (tagAfter (sget false s.utag u) prop whole)
      upoison := sset false s.upoison u (poisonAfter (sget false s.upoison u) poison whole) }
    fireInj (dropLatent s1 u whole) u

/-- Performs every write that has arrived at its home, in order. -/
def settle (s : State) : State :=
  { s.homeQ.foldl (fun s w => applyWrite s w.wr w.prop w.poison) s with homeQ := [] }

/-- A byte at home: the youngest write that has arrived there, or memory. -/
def homeByte (s : State) (a : Nat) : Byte :=
  match s.homeQ.reverse.findSome? (fun w => (w.wr.find? (fun p => p.1 = a)).map (·.2)) with
  | some b => b
  | none => sget 0 s.mem a

/-- The tag and the poison mark at home of the unit that holds a place. -/
def homeTag (s : State) (a : Nat) : Bool :=
  let u := unitOf a
  s.homeQ.foldl (fun t w => match w.wr with
    | [] => t
    | p :: _ => if unitOf p.1 = u then tagAfter t w.prop (coversUnit w.wr) else t) (sget false s.utag u)

def homePoison (s : State) (a : Nat) : Bool :=
  let u := unitOf a
  s.homeQ.foldl (fun t w => match w.wr with
    | [] => t
    | p :: _ => if unitOf p.1 = u then poisonAfter t w.poison (coversUnit w.wr) else t) (sget false s.upoison u)

/-- n bytes at home, as a little-endian number. -/
def homeNat (s : State) (a n : Nat) : Nat := leNat ((List.range n).map (fun i => homeByte s (a + i)))

/-- Whether any unit of n bytes at a place satisfies a test. -/
def anyUnit (f : Nat → Bool) (a n : Nat) : Bool :=
  (List.range (n / 32 + 2)).any (fun i => let x := min (a + 32 * i) (a + n - 1); n ≠ 0 && f x)

/-! ### A group's view (R72, R113) -/

/-- The writes through which a group reads: its core's core point, its messages, its write queues; youngest last. -/
def ownWrites (s : State) (g : Group) : List Write :=
  s.cp.filter (fun w => w.core = g.place.coreNo) ++ s.msgs.filter (fun w => w.grp = g.key) ++ g.qs.wq

/-- The byte that a load of a group reads. A load on an S page reads home only. -/
def viewByte (s : State) (g : Group) (k : PKind) (a : Nat) : Byte :=
  if k = .s then homeByte s a
  else
    match (ownWrites s g).reverse.findSome? (fun w => (w.wr.find? (fun p => p.1 = a)).map (·.2)) with
    | some b => b
    | none => homeByte s a

/-- The tag of a unit once writes held for it are applied in their order over a tag (R71, R72). -/
def tagOver (u : Nat) (ws : List Write) (t : Bool) : Bool :=
  ws.foldl (fun t w => match w.wr with
    | [] => t
    | p :: _ => if unitOf p.1 = u then tagAfter t w.prop (coversUnit w.wr) else t) t

/-- A write that the group holds supplies a byte. -/
def heldByte (s : State) (g : Group) (k : PKind) (a : Nat) : Bool := k ≠ .s && (ownWrites s g).any (fun w => w.wr.any (fun p => p.1 = a))

/-- The writes through which a group reads that are its own: they alone change the tag and the mark that it finds (R72). -/
def tagWrites (s : State) (g : Group) : List Write := (ownWrites s g).filter (fun w => w.grp = g.key)

/-- The tag of a unit as a group would find it with its own held writes applied (R72, R211). -/
def viewUnitTag (s : State) (g : Group) (k : PKind) (a : Nat) : Bool :=
  if k = .s then homeTag s a else tagOver (unitOf a) (tagWrites s g) (homeTag s a)

/-- The tag that a byte of a load carries: its unit's, with the group's own held writes applied when a held write supplies the byte
(R72). -/
def viewTag (s : State) (g : Group) (k : PKind) (a : Nat) : Bool := if heldByte s g k a then viewUnitTag s g k a else homeTag s a

/-- A byte carries poison when it comes from a poisoned unit and no held write supplies it. -/
def viewPoison (s : State) (g : Group) (k : PKind) (a : Nat) : Bool :=
  homePoison s a && !heldByte s g k a

/-- The poison mark of a unit once writes held for it are applied in their order over a mark (R337). -/
def poisonOver (u : Nat) (ws : List Write) (t : Bool) : Bool :=
  ws.foldl (fun t w => match w.wr with
    | [] => t
    | p :: _ => if unitOf p.1 = u then poisonAfter t w.poison (coversUnit w.wr) else t) t

/-- The poison mark of a unit as a group would find it with its own held writes applied (R211, R337). -/
def viewUnitPoison (s : State) (g : Group) (k : PKind) (a : Nat) : Bool :=
  if k = .s then homePoison s a
  else
    poisonOver (unitOf a) (tagWrites s g) (homePoison s a)

/-! ### Page tables (R100 to R107) -/

/-- What an access is, for the checks of R103. -/
inductive Acc where
  | load | store | atomic | reduce | fetch
  deriving DecidableEq, Repr

/-- A translated access. -/
structure Xlat where
  pa : Nat
  pk : PKind
  atom : Nat
  tdef : Bool
  level : Nat
  leaf : Nat
  deriving DecidableEq, Repr

/-- Whether an address lies in usable local DRAM (R97, R99). -/
def localOk (s : State) (pa : Nat) : Bool :=
  pa < 4 * quarterSize && pa % quarterSize < sget 0 s.svc.usable (homeQuarter pa)

/-- The page size of a leaf's level, in bits (R101). -/
def pageBits (level : Nat) : Nat := if level = 1 then 30 else if level = 2 then 26 else if level = 3 then 21 else 16

/-- The size of a level's node. -/
def nodeSize (level : Nat) : Nat := if level ≤ 1 then 2 ^ 18 else if level = 2 then 128 else 256

/-- The index of a level in a virtual address. -/
def vaIndex (level va : Nat) : Nat :=
  match level with
  | 0 => bits va 59 45
  | 1 => bits va 44 30
  | 2 => bits va 29 26
  | 3 => bits va 25 21
  | _ => bits va 20 16

/-- The frame checks of R97, R103 and R349 on a leaf. -/
def leafFrameOk (s : State) (pa atom : Nat) : Bool :=
  match region pa with
  | 0 => localOk s pa && atom ≠ 2
  | 1 => bits pa 47 46 = 0 && bits pa 39 39 = 0 && Config.inDomain (bits pa 45 40) && atom ≠ 2
  | 2 => atom ≠ 1
  | 3 => atom ≠ 2
  | _ => false

/-- Whether a word is a leaf that maps a page at this level. -/
def leafOk (s : State) (level pte : Nat) : Bool :=
  level ≥ 1 && bits pte 63 62 = 0 && bits pte 61 60 ≠ 3 && bits pte 59 58 ≠ 3 && bits pte 55 52 = 0 && bits pte 6 6 = 0 &&
  bits pte 15 7 = 0 && bits pte 51 0 % 2 ^ pageBits level / 2 ^ 16 = 0 &&
  leafFrameOk s (bits pte 51 16 * 2 ^ 16) (bits pte 59 58)

/-- Whether a word is a pointer to a node of the next level. -/
def pointerOk (s : State) (level pte : Nat) : Bool :=
  level ≤ 3 && bits pte 63 52 = 0 && bits pte 6 2 = 0 && bits pte 51 7 * 128 % nodeSize (level + 1) = 0 &&
  localOk s (bits pte 51 7 * 128)

/-- The walk from a node, fuel counting the levels left: the leaf with its level, or the cause that ends it. -/
def walkFrom (s : State) (va : Nat) : Nat → Nat → Nat → Except Nat (Nat × Nat)
  | 0, _, _ => .error cPAGE
  | fuel + 1, level, node =>
    let a := node + 8 * vaIndex level va
    if homePoison s a then .error cPOISON
    else
      let pte := homeNat s a 8
      if !bit1 pte 0 then .error cPAGE
      else if bit1 pte 1 then (if leafOk s level pte then .ok (level, pte) else .error cPAGE)
      else if pointerOk s level pte then walkFrom s va fuel (level + 1) (bits pte 51 7 * 128)
      else .error cPAGE

/-- The root of an address space (R100, R103). An entry of the ASID table that lies outside the usable local DRAM ends the walk in PAGE.
DESIGN CHOICE, log entry 99. -/
def rootOf (s : State) (asid : Nat) : Except Nat Nat :=
  let e := s.asidBase + 8 * asid
  if !localOk s e then .error cPAGE
  else if homePoison s e then .error cPOISON
  else
    let ent := homeNat s e 8
    let root := bits ent 51 18 * 2 ^ 18
    if !bit1 ent 0 || !localOk s root then .error cPAGE else .ok root

/-- A walk in an address space (R100 to R103, R106). -/
def walk (s : State) (asid va : Nat) : Except Nat (Nat × Nat) :=
  match rootOf s asid with
  | .error c => .error c
  | .ok root => walkFrom s va 5 0 root

/-- The generation that the controllers hold for an address space (R104): the copy that a GENSTEP left, else the table's. -/
def ctlGen (s : State) (asid : Nat) : Nat :=
  let c := sget 0 s.genCopy asid
  if c = 0 then bits (homeNat s (s.asidBase + 8 * asid) 8) 15 8 else c - 1

/-- A cached translation of this core that carries the ASID and GEN (R105). -/
def tlbFind (s : State) (core asid gen va : Nat) : Option (Nat × Nat) :=
  (s.tlb.find? (fun e => e.core = core && e.asid = asid && e.gen = gen && e.page = va / 2 ^ pageBits e.level)).map
    (fun e => (e.level, e.leaf))

/-- The permission and generation checks on a leaf (R103, R104), in the order PROT, STALEGEN. A page of region 0x3 counts as one with
PRIV = 1 (R97): an access in user mode raises PROT whatever its leaf says. DESIGN CHOICE, log entry 100. -/
def checkLeaf (s : State) (asid gen : Nat) (priv : Bool) (acc : Acc) (level pte va : Nat) : Except Nat Xlat :=
  let frame := bits pte 51 16 * 2 ^ 16
  let pa := frame + va % 2 ^ pageBits level
  let atom := bits pte 59 58
  let mmio := region frame = 3
  let okAcc := match acc with
    | .load => bit1 pte 2
    | .store => bit1 pte 3
    | .reduce => bit1 pte 3 && !mmio
    | .atomic => bit1 pte 2 && bit1 pte 3 && atom ≠ 0 && !mmio
    | .fetch => bit1 pte 4
  if !okAcc || (!priv && (bit1 pte 5 || mmio)) then .error cPROT
  else if bit1 pte 56 && gen ≠ ctlGen s asid then .error cSTALEGEN
  else
    .ok { pa := pa, pk := (match bits pte 61 60 with | 0 => .s | 1 => .r | _ => .u), atom := atom, tdef := bit1 pte 57,
          level := level, leaf := pte }

/-- Translates a global address for an access (R96, R103 to R108). -/
def translate (s : State) (core asid gen : Nat) (priv : Bool) (acc : Acc) (va : Word) : Except Nat Xlat :=
  if va.toNat ≥ 2 ^ 60 then .error cPAGE
  else
    match tlbFind s core asid gen va.toNat with
    | some (level, pte) => checkLeaf s asid gen priv acc level pte va.toNat
    | none =>
      match walk s asid va.toNat with
      | .error c => .error c
      | .ok (level, pte) => checkLeaf s asid gen priv acc level pte va.toNat

end Sys2Proof.Machine
end

