-- ==== Sys2Proof/Machine/Order.lean ====
section
/-! DEFINITION. When an entry of an issue queue may leave, and what a release waits for (R110 to R118, R122 to R124). -/

namespace Sys2Proof.Machine

/-- Places by the memory that holds them (R97, R115). -/
def isDie (a : Nat) : Bool := onDie ≤ a
def isLocal (a : Nat) : Bool := a < onDie && region a = 0
def isPeer (a : Nat) : Bool := a < onDie && region a = 1
def isHost (a : Nat) : Bool := a < onDie && region a = 2
def isMmio (a : Nat) : Bool := a < onDie && region a = 3

def EKind.isAccess : EKind → Bool
  | .load | .store | .atomic | .reduce => true
  | _ => false

/-- A release with its scope (R116): a fence with a release part, TLADV, a command entry. -/
def EKind.release : EKind → Option Nat
  | .fence _ rel _ scope => if rel then some scope else none
  | .tladv .. => some 3
  | .command _ => some 3
  | _ => none

def EKind.isAcquire : EKind → Bool
  | .fence acq _ _ _ => acq
  | _ => false

def EKind.isAll : EKind → Bool
  | .fence _ _ all _ => all
  | _ => false

/-- Loads and atomics with a returned value. -/
def EKind.isRead : EKind → Bool
  | .load | .atomic => true
  | _ => false

/-- The first place of an entry's bytes, and whether it touches a place. -/
def Entry.place (e : Entry) : Nat :=
  match e.kind, e.wr with
  | .store, p :: _ => p.1
  | _, _ => e.addr

def Entry.touches (e : Entry) (a : Nat) : Bool :=
  match e.kind with
  | .store => e.wr.any (fun p => p.1 = a)
  | _ => e.addr ≤ a && a < e.addr + e.size

def Entry.overlaps (x y : Entry) : Bool :=
  match x.kind with
  | .store => x.wr.any (fun p => y.touches p.1)
  | _ => (List.range x.size).any (fun i => y.touches (x.addr + i))

/-- The first place of a write. -/
def Write.place (w : Write) : Nat := match w.wr with | [] => 0 | p :: _ => p.1

/-- Whether a write that waits in some queue goes to the unit of a place. -/
def Write.toUnit (w : Write) (a : Nat) : Bool := unitOf w.place = unitOf a

/-- The group's writes that have left its issue queue and are not yet performed at home. -/
def heldWrites (s : State) (g : Group) : List Write :=
  g.qs.wq ++ s.cp.filter (fun w => w.grp = g.key) ++ s.msgs.filter (fun w => w.grp = g.key) ++
    s.homeQ.filter (fun w => w.grp = g.key)

/-- The group's accesses that wait for a peer or the host. -/
def groupOuts (s : State) (g : Group) : List OutReq := s.outs.filter (fun o => o.grp = g.key && o.cmd.isNone)

/-- Two accesses to one unit that are performed there in issue order: reduction stores, and what changes a peer's memory (R124, R132). -/
def sameUnitOrder (x y : Entry) : Bool :=
  unitOf x.place = unitOf y.place && x.kind.isAccess && y.kind.isAccess && x.kind ≠ .load && y.kind ≠ .load &&
    ((x.kind = .reduce && y.kind = .reduce) || isPeer x.place)

/-- One row of R114 between two entries of one queue: may y leave while x still stands before it? -/
def mayPass (x y : Entry) : Bool :=
  !(x.kind.isAccess && y.kind.isAccess && x.overlaps y) && !sameUnitOrder x y &&
  !(x.kind.isAccess && y.kind.isAccess && x.pk = .s && y.pk = .s) &&
  !x.kind.isAcquire &&
  !(x.kind.isRead && y.kind.release.isSome) &&
  !(x.kind.isRead && y.kind.isAcquire) &&
  !(x.kind = .store && x.pk ≠ .u && y.kind.release.isSome) &&
  !(x.kind = .reduce && y.kind.release.isSome) &&
  !(x.kind = .store && y.kind.isAll) &&
  !((match x.kind with | .fence _ true _ _ => true | _ => false) &&
    (match y.kind with | .store | .atomic | .reduce => true | _ => false))

/-- Whether a write in a queue has passed the point of a scope (R115). -/
def wqPassed (scope : Nat) : Bool := scope = 0
def cpPassed (scope : Nat) : Bool := scope ≤ 1
def homePassed (scope : Nat) (w : Write) : Bool := scope = 0 || (scope ≤ 1 && isLocal w.place)

/-- The writes that have left the queue allow a release of this scope (R114, R115). U-page writes count for FENCE.ALL. -/
def writesAllow (s : State) (g : Group) (scope : Nat) (all : Bool) : Bool :=
  (g.qs.wq.all (fun w => (w.pk = .u && !all) || (wqPassed scope && !(w.pk = .u)))) &&
  ((s.cp.filter (fun w => w.grp = g.key)).all (fun w => if w.pk = .u then !all else cpPassed scope)) &&
  ((s.msgs.filter (fun w => w.grp = g.key)).all (fun _ => scope = 0)) &&
  ((s.homeQ.filter (fun w => w.grp = g.key)).all (fun w => if w.pk = .u then !all else homePassed scope w)) &&
  ((groupOuts s g).all (fun o => match o.entry.kind with
    | .store => (if o.entry.pk = .u then !all else scope ≤ 3)
    | .reduce => false
    | .load => false
    | .atomic => false
    | _ => true))

/-- Every load and atomic that is out has returned. -/
def readsBack (s : State) (g : Group) : Bool := (groupOuts s g).all (fun o => !o.entry.kind.isRead)

/-- A release of the group that would stand at the end of its queue may perform (R114, R116). -/
def releaseOk (s : State) (g : Group) (scope : Nat) : Bool :=
  g.qs.iq.all (fun x => !(x.kind.isRead || x.kind.isAcquire || (x.kind = .store && x.pk ≠ .u) || x.kind = .reduce)) &&
  writesAllow s g scope false

/-- Every access that the group entered has been performed or acknowledged (R135). -/
def drained (s : State) (g : Group) : Bool :=
  g.qs.iq.isEmpty && (heldWrites s g).isEmpty && (groupOuts s g).isEmpty

/-- Entry k of the group's issue queue may leave (R114). A command's entry waits for every earlier S and R write to be performed at its home,
a peer's and the host's too (R125). -/
def canLeave (s : State) (g : Group) (k : Nat) : Bool :=
  match g.qs.iq[k]? with
  | none => false
  | some y =>
    (g.qs.iq.take k).all (fun x => mayPass x y) &&
    (if y.kind.isAccess then
      (groupOuts s g).all (fun o => !((o.entry.kind = .atomic || o.entry.kind = .reduce) && o.entry.overlaps y) &&
        !(o.entry.pk = .s && y.pk = .s)) &&
      (match y.kind with
        | .atomic | .reduce => (heldWrites s g).all (fun w => !w.toUnit y.place) &&
            (groupOuts s g).all (fun o => !(o.entry.kind = .store && unitOf o.entry.place = unitOf y.place))
        | _ => true) &&
      (y.pk ≠ .s || (heldWrites s g).all (fun w => w.pk ≠ .s))
    else true) &&
    (match y.kind.release with
      | some scope => writesAllow s g scope y.kind.isAll
      | none => true) &&
    (match y.kind with
      | .command _ => (groupOuts s g).all (fun o => o.entry.kind ≠ .store || o.entry.pk = .u)
      | _ => true) &&
    (!y.kind.isAcquire || readsBack s g)

end Sys2Proof.Machine
end

