-- ==== Sys2Proof/Machine/Bank.lean ====
section
/-! DEFINITION. The banks of local DRAM: which of them a GEMV holds in all-bank mode, and where the lines of a removed bank group stand (R98,
R99, R204, R289, R293). -/

namespace Sys2Proof.Machine

def ceilDiv (a b : Nat) : Nat := (a + b - 1) / b

/-! ### The quarter of a command (R199, R200) -/

/-- The quarter that a header names (R200). -/
def hdrQtr (h : Nat) : Nat := bits h 9 8

/-- Whether the header of a kind names a quarter. -/
def CmdKind.aimed : CmdKind → Bool
  | .dcor | .pkq | .nmop => true
  | _ => false

/-- The quarter whose engine runs a command: the one that its header names once that is read, or its group's. -/
def Cmd.quarter (c : Cmd) : Nat := if c.kind.aimed && c.img ≠ 0 then hdrQtr c.img else c.place.q

/-! ### The GEMV of an NMOP record (R204, R293) -/

def nmOp (i : Nat) : Nat := bits i 263 256
def nmRows (i : Nat) : Nat := bits i 543 512
def nmCols (i : Nat) : Nat := bits i 575 544

/-- Stripes, stripes per bank, row blocks and banks of a GEMV (R293). -/
def gvStripes (i : Nat) : Nat := ceilDiv (nmCols i) 16
def gvU (i : Nat) : Nat := ceilDiv (gvStripes i) 2048
def gvBlocks (i : Nat) : Nat := ceilDiv (nmRows i) 16
def gvBanks (i : Nat) : Nat := min (gvStripes i) 2048

def isGemv (c : Cmd) : Bool := c.kind = .nmop && nmOp c.img = 1 && c.stage = .running

/-! ### Banks, pseudo-channels and bank groups (R98, R99) -/

/-- The bank of a line within its quarter (R98, R293), its pseudo-channel with its channel, and its bank group (R99, R381). -/
def lineBank (o : Nat) : Nat := bits o 16 13 + 16 * bits o 12 12 + 32 * bits o 11 6
def linePc (o : Nat) : Nat := lineBank o / 16
def lineGroup (o : Nat) : Nat := bits o 11 6 * 8 + bits o 12 12 * 4 + bits o 16 15

/-- A bank group that the start-up of a quarter removed. -/
def groupRemoved (s : State) (q g : Nat) : Bool := s.svc.bootMarks.contains { q := q, kind := 1, index := g }

/-- The lines of a removed group stand in lines above the usable size, by a map that is fixed until power-off (R99). DESIGN CHOICE, log entry
93. -/
def standsAtLine (s : State) (q o : Nat) : Nat := if groupRemoved s q (lineGroup o) then Config.redirect q (o / 64) * 64 else o

/-- The lines of a bank group below an offset. -/
def groupLines (g lim : Nat) : List Nat := ((List.range (lim / 64)).map (· * 64)).filter (fun o => lineGroup o = g)

/-- The pseudo-channels of a quarter in which lines of a removed group stand. -/
def movedPcs (s : State) (q g : Nat) : List Nat := (groupLines g (sget 0 s.svc.usable q)).map (fun o => linePc (standsAtLine s q o))

/-- The pseudo-channels that a GEMV of n banks holds: those of its banks, and those in which lines of their removed groups stand (R99, R289). -/
def pcHeld (s : State) (q n pc : Nat) : Bool :=
  decide (16 * pc < n) ||
  (s.svc.bootMarks.filter (fun m => m.q = q && m.kind = 1 && decide (16 * (m.index / 4) < n))).any (fun m => (movedPcs s q m.index).contains pc)

/-! ### What all-bank mode holds (R289) -/

/-- A GEMV in all-bank mode holds a place: the pseudo-channel in which its line stands serves only the GEMV. -/
def gvHolds (s : State) (c : Cmd) (a : Nat) : Bool :=
  isLocal a && homeQuarter a = c.quarter && pcHeld s c.quarter (gvBanks c.img) (linePc (standsAtLine s c.quarter (a % quarterSize)))

/-- Some GEMV is in all-bank mode. -/
def State.watching (s : State) : Bool := s.cmds.any (fun c => isGemv c && c.pr.flag)

/-- The GEMVs that hold all-bank mode, but for one command. -/
def gvHolders (s : State) (own : Option Nat) : List Cmd := s.cmds.filter (fun c => isGemv c && c.pr.flag && some c.id ≠ own)

/-- All-bank mode holds a place. -/
def bankHeld (s : State) (a : Nat) : Bool := s.watching && s.cmds.any (fun c => isGemv c && c.pr.flag && gvHolds s c a)

/-- No read is watched: no code word has an error that a read has still to meet, and no GEMV is in all-bank mode. -/
def State.quiet (s : State) : Bool := s.errs.latent.isEmpty && !s.watching

end Sys2Proof.Machine
end

