-- ==== Sys2Proof/Machine/Frame.lean ====
section
/-! DEFINITION. The formats of paths, divergence entries and runs in memory, and what a group reads and writes in its own bivouac
area and trap frames (R19, R21, R325, R327, R332). -/

namespace Sys2Proof.Machine

/-! ### Formats (R19, R325) -/

def zeroBytes (n : Nat) : List Byte := List.replicate n 0

def bitNat (b : Bool) : Nat := if b then 1 else 0

/-- A path slot, and its reading. -/
def pathWord : Option Path → Nat
  | none => 0
  | some p => 2 ^ 63 + bitNat p.p * 2 ^ 62 + p.pc.toNat * 2 ^ 32 + p.mask.toNat
def savedPath (w : Nat) : Option Path :=
  if bit1 w 63 then some { pc := BitVec.ofNat 22 (bits w 53 32), mask := BitVec.ofNat 32 w, p := bit1 w 62 } else none

/-- A divergence entry in the format of R19, and its reading. -/
def divWord (e : DivEntry) : Nat :=
  e.rpc.toNat * 2 ^ 106 + e.qpc.toNat * 2 ^ 84 + bitNat e.qv * 2 ^ 83 + bitNat e.qp * 2 ^ 82 + bitNat e.p * 2 ^ 81 + e.qmask.toNat * 2 ^ 32 + e.dmask.toNat
def savedDiv (w : Nat) : DivEntry :=
  { rpc := BitVec.ofNat 22 (bits w 127 106), qpc := BitVec.ofNat 22 (bits w 105 84), qv := bit1 w 83, qp := bit1 w 82, p := bit1 w 81
    qmask := BitVec.ofNat 32 (bits w 63 32), dmask := BitVec.ofNat 32 w }

/-- The captured registers at a run's enqueue: bytes 8 to 208 of its entry. -/
def capBytes (c : Caps) : List Byte :=
  ([c.mode.toNat, c.lscale.toNat, c.rgn.toNat, c.drange.toNat, c.dctl.toNat] ++ (List.range 4).map (fun i => (sget 0 c.shape i).toNat) ++
    (List.range 16).map (fun i => (sget 0 c.bnd i).toNat)).flatMap (leBytes 8) ++ [BitVec.ofNat 8 (bitNat c.lscaleTag)]

/-- A run queue entry of 256 bytes. -/
def runBytes (r : Run) : List Byte :=
  let n := if r.lrun then 0 else r.next.toNat + r.left - r.first.toNat - 1
  leBytes 8 (2 ^ 63 + bitNat r.started * 2 ^ 62 + bitNat r.lrun * 2 ^ 61 + n % 16 * 2 ^ 57 + r.next.toNat * 2 ^ 32 + r.first.toNat) ++ capBytes r.cap ++
    zeroBytes 47

/-- The frame's control word: the paths, the depth, and an MMA between two steps (R325, R332). -/
def frameControl (g : Group) : Nat :=
  g.pc.toNat * 2 ^ 448 + pathWord g.ln.l1 * 2 ^ 320 + pathWord g.ln.l0 * 2 ^ 256 + (g.ln.stack.length + g.ln.biv) % 512 * 2 ^ 103 +
    g.ln.mstep % 256 * 2 ^ 95 + bitNat g.ln.mslot * 2 ^ 94

/-- The divergence stack, entry 0 at the bottom, and the run queue, the oldest run first. -/
def stackBytes (l : LaneCtl) : List Byte :=
  (List.range 16).flatMap (fun i => leBytes 16 (match l.stack.reverse[i]? with | some e => divWord e | none => 0))
def queueBytes (l : LaneCtl) : List Byte :=
  (List.range 4).flatMap (fun i => match l.runs[i]? with | some r => runBytes r | none => zeroBytes 256)

/-- The outer trap registers at 0x0580. -/
def trapBytes (p : Specials) : List Byte :=
  [p.trapc, p.trappc, p.traplpc, p.trapaddr, p.vbase].flatMap (fun w => leBytes 8 w.toNat) ++ zeroBytes 24

/-- What a trap entry writes, by offset in the frame (R327, R332). -/
def frameParts (g : Group) : List (Nat × List Byte) :=
  [(0x0000, leBytes 64 (frameControl g)), (0x0390, leBytes 4 g.sp.exmask.toNat), (0x0580, trapBytes g.sp), (0x0700, stackBytes g.ln),
   (0x0800, queueBytes g.ln)]

/-- The address of a byte of the frame of a level. -/
def frameAddr (g : Group) (lvl o : Nat) : Word := g.sp.ctxaddr + BitVec.ofNat 64 (0x40000 + 0xC00 * (lvl - 1) + o)

/-- A record that has been read. -/
abbrev RecBytes := List Byte
def recNat (b : RecBytes) (o n : Nat) : Nat := leNat ((b.drop o).take n)

/-- The writable and hardware-written bits of the special registers that a record holds: reserved bits are ignored on read (R5). -/
def definedBits (id : Nat) : Word :=
  match id with
  | 0x000 => 0xE7
  | 0x001 => 0x7F
  | 0x003 => 0xFFFFFF07F007007F
  | 0x004 => 0x1F04FF
  | 0x007 => 0xFFFFFFFF
  | 0x009 => 0xFFFFFFFFFFFFFFFD
  | 0x00A => 0xFFFF
  | 0x00D => 0xFFFFFFF0FFFFFFFD
  | 0x00E => 0xFFFFF007
  | 0x010 | 0x011 | 0x012 | 0x013 => 0x03FFFFFFF8FFF00F
  | 0x100 => 0x1F37FF
  | 0x102 => 0xC0000000003FFFFF
  | 0x104 => 0xFFFFFFFFFFFFFFC0
  | _ => 0xFFFFFFFFFFFFFFFF

/-- The captured registers of a run, or of a group. -/
def savedCap (b : RecBytes) (o : Nat) (tag : Bool) : Caps :=
  let w := fun i => BitVec.ofNat 64 (recNat b (o + 8 * i) 8)
  { mode := w 0 &&& definedBits 0x000, lscale := (w 1).setWidth 32, lscaleTag := tag, rgn := w 2 &&& definedBits 0x009
    drange := w 3 &&& definedBits 0x00A, dctl := w 4 &&& definedBits 0x00D
    shape := ssetMany 0 [] ((List.range 4).map (fun i => (i, w (5 + i) &&& definedBits 0x010))), bnd := ssetMany 0 [] ((List.range 16).map (fun i => (i, w (9 + i)))) }

/-- One run of a run queue. -/
def savedRun (b : RecBytes) (o : Nat) : Option Run :=
  let w := recNat b o 8
  if !bit1 w 63 then none
  else
    let first := bits w 21 0
    let next := bits w 53 32
    some { lrun := bit1 w 61, started := bit1 w 62, first := BitVec.ofNat 22 first, next := BitVec.ofNat 22 next
           left := if bit1 w 61 then 0 else first + bits w 60 57 + 1 - next, cap := savedCap b (o + 8) (bit1 (recNat b (o + 208) 1) 0) }

/-- The lane stream of a record or frame: paths, the top entries of the stack, the entries left in the bivouac area, runs, MSTEP. -/
def savedLane (b : RecBytes) (l : LaneCtl) : LaneCtl :=
  let ctl := recNat b 0 64
  let depth := bits ctl 111 103
  { l with
    l1 := savedPath (bits ctl 383 320), l0 := savedPath (bits ctl 319 256)
    stack := ((List.range (min 16 depth)).map (fun i => savedDiv (recNat b (0x700 + 16 * i) 16))).reverse, biv := depth - 16
    runs := (List.range 4).filterMap (fun i => savedRun b (0x800 + 256 * i))
    mstep := bits ctl 102 95, mslot := bit1 ctl 94 }

/-! ### A group's own areas (R21, R327) -/

/-- The bytes of a list at consecutive places. -/
def cellsAt (a : Nat) (b : List Byte) : List (Nat × Byte) := b.zipIdx.map (fun p => (a + p.2, p.1))

/-- Where the hardware of a group reaches its own areas: privileged, in the group's address space. An area that does not translate to
local or host memory takes no write and reads free values. DESIGN CHOICE, log entry 25. -/
def ownPlace (s : State) (g : Group) (acc : Acc) (va : Word) : Option Xlat :=
  match translate s g.place.coreNo g.sp.asid.toNat g.sp.gen.toNat true acc va with
  | .ok x => if isMmio x.pa || isPeer x.pa then none else some x
  | .error _ => none

/-- Writes bytes that lie in one line, settled, at home, after what has arrived there. -/
def ownWrite (s : State) (g : Group) (va : Word) (b : List Byte) : State :=
  match ownPlace s g .store va with
  | some x => applyWrite (settle s) (cellsAt x.pa b) false false
  | none => s

/-- Reads n bytes that lie in one line as the group sees them, with the first that carries poison. -/
def ownRead (s : State) (g : Group) (va : Word) (n : Nat) : List Byte × Option Nat :=
  match ownPlace s g .load va with
  | some x => ((List.range n).map (fun i => viewByte s g x.pk (x.pa + i)), (List.range n).find? (fun i => viewPoison s g x.pk (x.pa + i)))
  | none => ((List.range n).map (fun i => BitVec.ofNat 8 (Config.freeBits (s.uid + i)).toNat), none)

/-- Writes bytes line by line. -/
def ownWriteAll (s : State) (g : Group) (va : Word) (b : List Byte) : State :=
  (List.range ((b.length + 63) / 64)).foldl (fun s i => ownWrite s g (va + BitVec.ofNat 64 (64 * i)) ((b.drop (64 * i)).take 64)) s

/-- A trap entry writes the frame of a level. -/
def writeFrame (s : State) (g : Group) (lvl : Nat) : State :=
  (frameParts g).foldl (fun s p => ownWriteAll s g (frameAddr g lvl p.1) p.2) s

/-- The lines of a frame that a return reads, and the bytes of each that belong to it: first byte and number. -/
def frameLines : List (Nat × Nat × Nat) :=
  [(0x0000, 0, 64), (0x0380, 16, 4), (0x0580, 0, 32)] ++ (List.range 20).map (fun i => (0x0700 + 64 * i, 0, 64))

/-- The bytes of a frame, those that it does not use zero. -/
def frameBytes (s : State) (g : Group) (lvl : Nat) : RecBytes :=
  (List.range 48).flatMap (fun k => if frameLines.any (fun l => l.1 = 64 * k) then (ownRead s g (frameAddr g lvl (64 * k)) 64).1 else zeroBytes 64)

/-- The first byte of a frame that carries poison. -/
def framePoison (s : State) (g : Group) (lvl : Nat) : Option Word :=
  frameLines.findSome? (fun l => let a := frameAddr g lvl (l.1 + l.2.1); ((ownRead s g a l.2.2).2).map (fun i => a + BitVec.ofNat 64 i))

/-- A write to a frame that the group has entered and that has still to leave its issue queue: the return waits for it (R12). -/
def frameBusy (s : State) (g : Group) (lvl : Nat) : Bool :=
  frameLines.any (fun l =>
    match ownPlace s g .load (frameAddr g lvl l.1) with
    | some x => g.qs.iq.any (fun e => e.kind.isAccess && !e.kind.isRead && unitOf e.place = unitOf x.pa)
    | none => false)

end Sys2Proof.Machine
end

