-- ==== Sys2Proof/Machine/Ops.lean ====
section
/-! DEFINITION. The named operations over registers, paths, queues and memory, taking a trap and returning from one, and
what every scalar word shares (R11 to R30, R161 to R163, R181, R327 to R341). -/

namespace Sys2Proof.Machine

abbrev Out := Host.Outcome State Fault Refusal

/-! ### Registers (R85, R140, R181) -/

def Group.sval (g : Group) (n : Nat) : Word := if n = 0 then 0 else sget 0 g.r.sreg n
def Group.stag (g : Group) (n : Nat) : Bool := if n = 0 then false else sget false g.r.stag n
def Group.fut (g : Group) (n : Nat) : RegFut := if n = 0 then .none else sget .none g.r.fut n

/-- A write of elements mends those that were bad (R337). Entries of array 0x100 + a are armed injections, which the write
fires: they become entries of array 0x200 + a (R342); entries of array 0x300 + a mark errors that no read has met. -/
def mend (bad : List (Nat × Nat)) (hit : Nat → Nat → Bool) : List (Nat × Nat) :=
  (bad.filter (fun b => !(hit b.1 b.2 || (b.1 / 256 = 3 && hit (b.1 - 0x300) b.2)))).map (fun b => if b.1 / 256 = 1 && hit (b.1 - 256) b.2 then (b.1 + 256, b.2) else b)

/-- Writes a scalar register with its tag. A write to s0 is discarded (R140); a write to a RESOLVED register frees its
handle (R181); a write mends a bad element (R337). -/
def Group.setS (g : Group) (n : Nat) (v : Word) (t : Bool) : Group :=
  if n = 0 then g
  else { g with r := { g.r with
    sreg := sset 0 g.r.sreg n v, stag := sset false g.r.stag n t, fut := sset .none g.r.fut n .none,
    bad := mend g.r.bad (fun a i => a = 0x02 && i = n) } }

/-- Puts a register in a future state; s0 keeps no handle. -/
def Group.setFut (g : Group) (n : Nat) (f : RegFut) : Group :=
  if n = 0 then g else { g with r := { g.r with fut := sset .none g.r.fut n f } }

def Group.velem (g : Group) (r l : Nat) : Elem := sget 0 g.r.vreg (r * 32 + l)
def Group.vtag (g : Group) (r l : Nat) : Bool := sget false g.r.vtag (r * 32 + l)

/-- Writes one lane element with its tag. -/
def Group.setV (g : Group) (r l : Nat) (v : Elem) (t : Bool) : Group :=
  { g with r := { g.r with vreg := sset 0 g.r.vreg (r * 32 + l) v, vtag := sset false g.r.vtag (r * 32 + l) t,
                           bad := mend g.r.bad (fun a i => a = 0x01 && i = r * 32 + l) } }

/-- k0 is all ones and settled (R11, R64). -/
def Group.pred (g : Group) (k : Nat) : BitVec 32 := if k = 0 then 0xFFFFFFFF else sget 0 g.r.kreg k
def Group.ptag (g : Group) (k : Nat) : Bool := if k = 0 then false else sget false g.r.ktag k
def Group.setK (g : Group) (k : Nat) (v : BitVec 32) (t : Bool) : Group :=
  if k = 0 then g
  else { g with r := { g.r with kreg := sset 0 g.r.kreg k v, ktag := sset false g.r.ktag k t,
                                bad := mend g.r.bad (fun a i => a = 0x03 && i = k) } }

def Group.tileEl (g : Group) (t e : Nat) : BitVec 48 := sget 0 g.r.tile (t * 1024 + e)
def Group.tileTag (g : Group) (t : Nat) : Bool := sget false g.r.ttag t
/-- Writes a whole tile, its 1,024 elements in order. -/
def Group.setTile (g : Group) (t : Nat) (els : List (BitVec 48)) (tag : Bool) : Group :=
  { g with r := { g.r with
    tile := ssetMany 0 g.r.tile (els.zipIdx.map (fun p => (t * 1024 + p.2, p.1))), ttag := sset false g.r.ttag t tag,
    bad := mend g.r.bad (fun a i => a = 0x04 && i / 1024 = t) } }

def DElem.zero : DElem := { res := 0, na := 0, nx := 0, nb := 0, sys := false }
def Group.dElem (g : Group) (n l : Nat) : DElem := sget DElem.zero g.r.dreg (n * 32 + l)
def Group.setD (g : Group) (n l : Nat) (d : DElem) : Group :=
  { g with r := { g.r with dreg := sset DElem.zero g.r.dreg (n * 32 + l) d,
                           bad := mend g.r.bad (fun a i => a = 0x05 && i = l * 4 + n) } }

def Token.ok : Token := { count := 0, status := 0, faddr := 0, tiles := [] }
def Group.tok (g : Group) (t : Nat) : Token := sget Token.ok g.r.tok t
def Group.setTok (g : Group) (t : Nat) (k : Token) : Group := { g with r := { g.r with tok := sset Token.ok g.r.tok t k } }

/-- The draw count of a lane (R45). -/
def Group.srcCount (g : Group) (l : Nat) : BitVec 32 := sget 0 g.r.src l
def Group.bumpSrc (g : Group) (l : Nat) : Group := { g with r := { g.r with src := sset 0 g.r.src l (g.srcCount l + 1) } }

/-- The handles that a group holds (R181). -/
def Group.handles (g : Group) : Nat :=
  (g.r.fut.filter (fun e => match e.2 with | .pending _ => true | .resolved .. => true | _ => false)).length

/-! ### Modes (R51, R329) -/

def Group.lvl (g : Group) : Nat := bits g.sp.trapc.toNat 9 8
def Group.priv (g : Group) : Bool := g.lvl = 2
def Group.det (g : Group) : Bool := bit1 g.cap.mode.toNat 5

/-- Fields of COORD (R24). -/
def coordNblk (c : Word) : Nat := bits c.toNat 34 32
def coordNgrp (c : Word) : Nat := bits c.toNat 31 28

/-! ### Updates of the focus group -/

def State.setG (s : State) (g : Group) : State := { s with g := g }
def State.upG (s : State) (f : Group → Group) : State := { s with g := f s.g }

/-- Updates the group of a key, wherever it stands. -/
def State.upGroup (s : State) (k : GroupKey) (f : Group → Group) : State :=
  if s.g.key = k then { s with g := f s.g } else { s with rest := s.rest.map (fun h => if h.key = k then f h else h) }

def State.findGroup (s : State) (k : GroupKey) : Option Group := s.groups.find? (fun g => g.key = k)
def State.findTask (s : State) (t : Nat) : Option Task := s.tasks.find? (fun x => x.id = t)
def State.upTask (s : State) (t : Nat) (f : Task → Task) : State :=
  { s with tasks := s.tasks.map (fun x => if x.id = t then f x else x) }
def State.findCmd (s : State) (c : Nat) : Option Cmd := s.cmds.find? (fun x => x.id = c)
def State.upCmd (s : State) (c : Nat) (f : Cmd → Cmd) : State :=
  { s with cmds := s.cmds.map (fun x => if x.id = c then f x else x) }

def Group.setPc (g : Group) (pc : Word) : Group := { g with pc := pc }
def Group.addIq (g : Group) (e : List Entry) : Group := { g with qs := { g.qs with iq := g.qs.iq ++ e } }

/-! ### Error logs (R341, R347) -/

/-- The record that takes a new error: the lowest with V = 0 among n, if any. -/
def freeRecord (log : Store Word) (base n : Nat) : Option Nat :=
  (List.range n).find? (fun e => !bit1 (sget 0 log (base + 4 * e)).toNat 63)

/-- How far the sequence number of record e stands behind the log's next one: numbers count modulo 2^32. -/
def recordAge (log : Store Word) (base seq e : Nat) : Nat :=
  (seq % 2 ^ 32 + 2 ^ 32 - 1 - bits (sget 0 log (base + 4 * e)).toNat 31 0) % 2 ^ 32

/-- The record in use with the newest sequence number, when seq is the next one. -/
def newestRecord (log : Store Word) (base n seq : Nat) : Nat :=
  (List.range n).foldl (fun b e => if recordAge log base seq e < recordAge log base seq b then e else b) 0

/-- Adds a record to a log, or counts it as missed in the newest record. w0 lacks V and SEQ. -/
def logAdd (log : Store Word) (base n seq w0 w1 w2 w3 : Nat) : Store Word :=
  match freeRecord log base n with
  | some e =>
    ssetMany 0 log [(base + 4 * e, BitVec.ofNat 64 (2 ^ 63 + w0 + seq % 2 ^ 32)), (base + 4 * e + 1, BitVec.ofNat 64 w1),
      (base + 4 * e + 2, BitVec.ofNat 64 w2), (base + 4 * e + 3, BitVec.ofNat 64 w3)]
  | none =>
    let e := newestRecord log base n seq
    let w := (sget 0 log (base + 4 * e)).toNat
    sset 0 log (base + 4 * e) (BitVec.ofNat 64 (setBits w 47 40 (min 255 (bits w 47 40 + 1))))

/-- Word 3 of a record that names a group (R341). -/
def logWho (g : Group) : Nat :=
  bits g.sp.asid.toNat 15 0 * 2 ^ 48 + bits g.sp.gen.toNat 7 0 * 2 ^ 40 + g.key.cluster % 2 ^ 24 * 2 ^ 16 + g.key.block % 8 * 2 ^ 13 +
    g.key.group % 16 * 2 ^ 9 + g.place.slot % 16 * 2 ^ 5 + 16

/-- Word 0 of a record: UE, CLS, INJ and ARRAY. -/
def logWord0 (ue : Bool) (cls : Nat) (inj : Bool) (array : Nat) : Nat :=
  (if ue then 2 ^ 62 else 0) + cls * 2 ^ 60 + (if inj then 2 ^ 59 else 0) + array * 2 ^ 32

/-- An error of an array counts for its row, unless it was injected (R344). -/
def noteRow (s : State) (array core w0 addr : Nat) : List RowErr :=
  if bit1 w0 59 || array = 0 || array ≥ 0x14 then s.errs.rows else s.errs.rows ++ [⟨array, core, Config.rowOf array addr, s.tick⟩]

/-- The row test that an unclassed error asks for, of a core's arrays or of DRAM (R343, R347). -/
def rowTestOf (log w0 addr : Nat) : List RowTest :=
  let a := bits w0 39 32
  if bits w0 61 60 = 0 && ((1 ≤ a && a ≤ 0x0B) || a = 0x10) then [⟨log, a, addr, bit1 w0 59⟩] else []

/-- Records an error in a core's log. -/
def logCore (s : State) (core : Nat) (w0 addr synd w3 : Nat) : State :=
  { s with errs := { s.errs with
    coreLog := logAdd s.errs.coreLog (core * 64) 16 (sget 0 s.errs.seq core) w0 addr synd w3
    seq := sset 0 s.errs.seq core (sget 0 s.errs.seq core + 1)
    rows := noteRow s (bits w0 39 32) core w0 addr
    tests := s.errs.tests ++ (if (freeRecord s.errs.coreLog (core * 64) 16).isSome then [] else rowTestOf core w0 addr) } }

/-- Records an error in a quarter's window (R347). -/
def logDram (s : State) (q : Nat) (w0 addr synd w3 : Nat) : State :=
  { s with errs := { s.errs with
    dramLog := logAdd s.errs.dramLog (q * 2048) 512 (sget 0 s.errs.seq (256 + q)) w0 addr synd w3
    seq := sset 0 s.errs.seq (256 + q) (sget 0 s.errs.seq (256 + q) + 1)
    rows := noteRow s (bits w0 39 32) q w0 addr
    tests := s.errs.tests ++ (if (freeRecord s.errs.dramLog (q * 2048) 512).isSome then [] else rowTestOf (256 + q) w0 addr) } }

/-- The test that is still owed when a record is freed (R341, R343). -/
def freedTest (log w0 addr : Nat) : List RowTest := if bit1 w0 63 then rowTestOf log w0 addr else []

/-! ### Errors met by a read of memory (R337, R340 to R342) -/

/-- Logs an error of an array element that is read; who is word 3 of its record. -/
def logRead (s : State) (who : Nat) (l : Latent) : State :=
  let ue := decide ((List.range 64).countP (fun i => l.bits.getLsbD i) ≥ 2)
  let w0 := logWord0 ue 0 l.inj l.array
  let synd := (Config.syndrome l.bits).toNat
  if l.array < 0x10 then logCore s l.core w0 l.addr synd who else logDram s l.core w0 l.addr synd who

def bitCount (w : Word) : Nat := (List.range 64).countP (fun i => w.getLsbD i)

/-- A read of a unit meets its latent errors: a corrected one is written back corrected, an uncorrectable one poisons the
unit; both are logged (R337, R340, R341). It is noted while a GEMV is in all-bank mode (R289). -/
def touchBy (s0 : State) (who : Nat) (a : Nat) : State :=
  if s0.quiet then s0
  else
    let s := if s0.watching then { s0 with seen := unitOf a :: s0.seen } else s0
    match unitName s a with
    | none => s
    | some (arr, core, idx) =>
      let hit := s.errs.latent.filter (fun l => l.array = arr && l.core = core && l.addr = idx)
      let s1 := hit.foldl (fun s l =>
        let s2 := logRead s who l
        if (List.range 64).countP (fun i => l.bits.getLsbD i) ≥ 2 then
          { s2 with upoison := sset false s2.upoison (unitOf a) true } else s2) s
      { s1 with errs := { s1.errs with
        latent := s1.errs.latent.filter (fun l => !(l.array = arr && l.core = core && l.addr = idx)) } }

/-- A read by a group. -/
def touchUnit (s : State) (g : Group) (a : Nat) : State := touchBy s (logWho g) a

/-- The lines that a walk reads are touched. -/
def touchWalk (s : State) (va : Nat) : Nat → Nat → Nat → State
  | 0, _, _ => s
  | f + 1, level, node =>
    let a := node + 8 * vaIndex level va
    let s1 := touchBy s 0 (unitOf a)
    let pte := homeNat s1 a 8
    if bit1 pte 0 && !bit1 pte 1 && pointerOk s1 level pte then touchWalk s1 va f (level + 1) (bits pte 51 7 * 128) else s1

/-- A walk for a virtual address, unless the core has its page cached (R105, R337). -/
def walkTouched (s : State) (core asid gen : Nat) (va : Word) : State :=
  if s.quiet || va.toNat ≥ 2 ^ 60 || (tlbFind s core asid gen va.toNat).isSome then s
  else
    let e := s.asidBase + 8 * asid
    let s1 := touchBy s 0 (unitOf e)
    touchWalk s1 va.toNat 5 0 (bits (homeNat s1 e 8) 51 18 * 2 ^ 18)

/-- A group's hardware reads the unit of a virtual address: the walk and the unit meet their errors. -/
def touchVa (s : State) (g : Group) (priv : Bool) (acc : Acc) (va : Word) : State :=
  if s.quiet then s
  else
    let s1 := walkTouched s g.place.coreNo g.sp.asid.toNat g.sp.gen.toNat va
    match translate s1 g.place.coreNo g.sp.asid.toNat g.sp.gen.toNat priv acc va with
    | .ok x => touchUnit s1 g x.pa
    | .error _ => s1

/-! ### Ending replays and tasks (R315, R318, R319, R334) -/

/-- A command's end is decided: its mailbox and its completion follow (R182, R287). -/
def Cmd.finish (c : Cmd) (stat cause value : Nat) (faddr : Word) : Cmd :=
  { c with stage := .draining, stat := stat, cause := cause, value := value, faddr := faddr }

/-- Ends a replay: KDONE of its slot advances, or its KICK command ends (R206, R315, R318). -/
def endReplay (s : State) (r : Replay) : State :=
  let s1 := { s with replays := s.replays.map (fun x => if x.id = r.id then { x with ended := true } else x) }
  let s2 := match r.slot with
    | some i => { s1 with host := { s1.host with kick := sset 0 s1.host.kick (4 * i + 3) (sget 0 s1.host.kick (4 * i + 3) + 1) } }
    | none => s1
  match r.cmd with
  | some c => s2.upCmd c (fun k => match r.stopped with
      | some (cause, a) => k.finish 3 cause 0 a
      | none => k.finish (if k.stage = .stopping then 2 else 0) 0 (s.tasks.countP (fun t => t.replay = r.id && t.phase = .retired)) 0)
  | none => s2

/-- A replay ends when every task of it has retired or been dropped. -/
def checkReplay (s : State) (rid : Nat) : State :=
  match s.replays.find? (fun r => r.id = rid && !r.ended) with
  | none => s
  | some r =>
    if (s.tasks.filter (fun t => t.replay = rid)).all (fun t => t.phase = .retired || t.phase = .dropped) then endReplay s r else s

/-- Every group of a task has had its accesses performed or acknowledged (R135). -/
def taskDrained (s : State) (t : Nat) : Bool := (s.groups.filter (fun g => g.key.task = t)).all (drained s)

/-- The end of a task that a double fault stopped: its groups are gone, it ends without saving, and its replay stops early (R318, R334). -/
def endTask (s : State) (t : Nat) (cause : Nat) : State :=
  let mine := fun (k : GroupKey) => k.task = t
  let s2 := { s with
    g := if mine s.g.key then Group.idle else s.g
    rest := s.rest.filter (fun g => !mine g.key)
    tasks := s.tasks.map (fun x => if x.id = t then { x with phase := .retired } else x) }
  match s.findTask t with
  | none => s2
  | some task =>
    let s3 := { s2 with
      replays := s2.replays.map (fun r => if r.id = task.replay then { r with stopped := some (r.stopped.getD (cause, 0)) } else r)
      tasks := s2.tasks.map (fun x => if x.replay = task.replay ∧ x.phase = .waiting then { x with phase := .dropped } else x) }
    checkReplay s3 task.replay

/-- Ends the stopped tasks whose accesses are all performed. -/
def endStopped (s : State) : State :=
  s.tasks.foldl (fun s t => match t.phase with
    | .stopped cause => if taskDrained s t.id then endTask s t.id cause else s
    | _ => s) s

/-- The dispatch hardware stops every group of a task and cancels its copies; the accesses that stand are still performed (R324, R334). -/
def stopTask (s : State) (t : Nat) (cause : Nat) : State :=
  let s1 := { s with
    cmds := s.cmds.filter (fun c => !(c.owner.task = t && (match c.kind with | .copy | .copymm _ | .fixline _ => true | _ => false)))
    tasks := s.tasks.map (fun x => if x.id = t then { x with phase := .stopped cause } else x) }
  endStopped s1

/-- The task of a group has been stopped. -/
def isStopped (s : State) (g : Group) : Bool :=
  match s.findTask g.key.task with
  | some t => (match t.phase with | .stopped _ => true | _ => false)
  | none => false

/-! ### Taking a trap (R327 to R334, R339) -/

/-- What raised a trap: a scalar word, or a lane word with its PC slot, index, lane, and the RGN it saw. -/
structure TrapSrc where
  lw : Bool
  slot : Bool
  word : LIdx
  lane : Nat
  rgn : Word
  deriving DecidableEq, Repr

def mkTrap (cause : Nat) (addr : Word := 0) : Trap := { cause := cause, addr := addr, restart := false }

/-- The vector block (R328): PENTRY, PLCB, UENTRY, ULCB, or none when it cannot be read. -/
def readVector (s : State) (g : Group) : Option (Word × Word × Word × Word) :=
  if g.sp.vbase = 0 then none
  else
    match translate s g.place.coreNo g.sp.asid.toNat g.sp.gen.toNat true .load g.sp.vbase with
    | .error _ => none
    | .ok x =>
      let a := x.pa / 64 * 64
      if homePoison s a || homeNat s (a + 32) 32 ≠ 0 then none
      else some (BitVec.ofNat 64 (homeNat s a 8), BitVec.ofNat 64 (homeNat s (a + 8) 8), BitVec.ofNat 64 (homeNat s (a + 16) 8),
                 BitVec.ofNat 64 (homeNat s (a + 24) 8))

/-- A double fault: the core logs it and the task is stopped (R334). -/
def doubleFault (s : State) (cause : Nat) : State :=
  stopTask (logCore s s.g.place.coreNo (logWord0 false 3 false 0) 0 0 (logWho s.g)) s.g.key.task cause

/-- TRAPC with its fields (R329). -/
def trapcOf (cause lvl lane rcnt : Nat) (lw : Bool) : Word :=
  BitVec.ofNat 64 (cause + lvl * 2 ^ 8 + (if lw then 2 ^ 10 else 0) + rcnt * 2 ^ 12 + lane * 2 ^ 16)

/-- TRAPLPC (R330). -/
def traplpcOf (src : TrapSrc) : Word :=
  if src.lw then BitVec.ofNat 64 (2 ^ 63 + (if src.slot then 2 ^ 62 else 0) + src.word.toNat) else 0

/-- A barrier wait, which a trap or a pre-emption interrupts (R163). -/
def Pend.isBar (p : Pend) : Bool := match p.w with | .barSync .. => true | .barWait .. => true | _ => false

/-- The barrier wait that the scalar stream stands in. -/
def Group.barWaiting (g : Group) : Option Pend := g.qs.pendS.filter Pend.isBar

/-- A wait that is no access: it stands not completed, and its word is executed again (R163). -/
def Pend.isWait (p : Pend) : Bool := p.isBar || (match p.w with | .tlwait .. => true | _ => false)

/-- The scalar stream waits for an access that has entered. -/
def Group.accWaiting (g : Group) : Bool := g.qs.pendS.any (fun p => !p.isWait)

/-- What an entry into a handler keeps of the interrupted group beside its frame. -/
def Group.heldNow (g : Group) (resume : Word) : Held :=
  { resume := resume, bar := g.barWaiting, mword := g.ln.mword, mgo := g.ln.mgo, slot := g.ln.slot, kept := g.ln.kept }

/-- A lane stream with no path, no stack entry and no run (R332). -/
def LaneCtl.emptied (l : LaneCtl) : LaneCtl :=
  { l with l0 := none, l1 := none, slot := false, kept := false, stack := [], biv := 0, runs := [], mstep := 0, mword := none, mgo := false }

/-- No word of either stream waits any more, and no cause is held back. -/
def Group.noWait (g : Group) : Group := { g with qs := { g.qs with pendS := none, pendL := none }, met := none }

/-- The entry into a handler of level new, once its frame is written and its vector block is read (R327). resume is TRAPPC. -/
def enterHandler (g : Group) (t : Trap) (src : TrapSrc) (resume : Word) (new : Nat) (v : Word × Word × Word × Word) : Group :=
  let rcnt := bits g.sp.trapc.toNat 13 12
  let tc := trapcOf t.cause new src.lane rcnt src.lw
  { g.noWait with
    pc := if new = 1 then v.2.2.1 else v.1
    held1 := if new = 1 then some (g.heldNow resume) else g.held1
    held2 := if new = 2 then some (g.heldNow resume) else g.held2
    ln := g.ln.emptied
    sp := { g.sp with
      exmask := 0xFFFFFFFF, trapc := tc, trappc := resume, traplpc := traplpcOf src, trapaddr := t.addr
      ucause := if new = 1 then trapcOf t.cause 0 src.lane 0 src.lw else g.sp.ucause
      uaddr := if new = 1 then t.addr else g.sp.uaddr
      plcb := v.2.1, ulcb := v.2.2.2 } }

/-- The restart of an idempotent region (R339). -/
def restartRegion (g : Group) (rgn : Word) : Group :=
  { g.noWait with
    pc := rgn &&& ~~~(3 : Word)
    ln := { g.ln.emptied with gl := { g.ln.gl with body := 0, done := 0, cairn := [], susp := none, exiting := false } }
    sp := { g.sp with
      exmask := g.sp.launchEx
      trapc := BitVec.ofNat 64 (setBits g.sp.trapc.toNat 13 12 (bits g.sp.trapc.toNat 13 12 + 1)) } }

/-- Taking a trap: the one operation that every trap goes through. resume is the scalar address of R330. -/
def takeTrap (s : State) (t : Trap) (src : TrapSrc) (resume : Word) : State :=
  let g := s.g
  if t.restart ∧ t.cause = cPOISON ∧ g.lvl = 0 ∧ bit1 src.rgn.toNat 0 ∧ bits g.sp.trapc.toNat 13 12 < 2 then
    s.setG (restartRegion g src.rgn)
  else if g.lvl = 2 then doubleFault s t.cause
  else
    let s1 := touchVa s g true .load g.sp.vbase
    match readVector s1 g with
    | none => doubleFault s1 t.cause
    | some v =>
      let new := if g.lvl = 0 ∧ userCause t.cause ∧ v.2.2.1 ≠ 0 then 1 else 2
      (writeFrame s1 g new).setG (enterHandler g t src resume new v)

/-- Resumes a path at a word: the run that executes, or the path of its slot (R333). A word past the end of a LISSUE run
finishes that run. -/
def resumeAt (l : LaneCtl) (slot : Bool) (word : LIdx) : LaneCtl :=
  match l.runs with
  | [] => l
  | r :: rest =>
    if r.lrun then
      if slot then { l with l1 := l.l1.map (fun p => { p with pc := word }) } else { l with l0 := l.l0.map (fun p => { p with pc := word }) }
    else
      let last := r.next.toNat + r.left
      if word.toNat ≥ last then { l with runs := rest }
      else { l with runs := { r with next := word, left := last - word.toNat } :: rest }

/-- The lane word at which the slot of an MMA stands. -/
def LaneCtl.standsAt (l : LaneCtl) : Option LIdx :=
  match l.runs with
  | [] => none
  | r :: _ => if r.lrun then (if l.mslot then l.l1 else l.l0).map (·.pc) else some r.next

/-- The lane stream that a return resumes: the frame's, and its MMA when the stream stands at that word again. -/
def resumedLane (g : Group) (b : RecBytes) (h : Held) : LaneCtl :=
  let tl := g.sp.traplpc.toNat
  let l0 := savedLane b g.ln
  let l := if bit1 tl 63 then resumeAt l0 (bit1 tl 62) (BitVec.ofNat 22 tl) else l0
  let same := decide (h.mword.isSome ∧ h.mword.map (·.1) = l.standsAt)
  { l with slot := h.slot, kept := h.kept, mstep := if same then l.mstep else 0, mword := if same then h.mword else none, mgo := h.mgo && same }

/-- The return from a handler (R333): the frame b of the current level is reloaded and both streams resume. A TRAPPC that is no multiple of 4
is taken as it stands. DESIGN CHOICE, log entry 95. -/
def returnFrom (g : Group) (b : RecBytes) (h : Held) : Group :=
  let w := fun i => BitVec.ofNat 64 (recNat b (0x580 + 8 * i) 8)
  { g with
    pc := g.sp.trappc
    held1 := if g.lvl = 1 then none else g.held1
    held2 := if g.lvl = 2 then none else g.held2
    ln := resumedLane g b h
    qs := { g.qs with pendS := if g.sp.trappc = h.resume then h.bar else none }
    sp := { g.sp with
      exmask := BitVec.ofNat 32 (recNat b 0x390 4), trapc := w 0 &&& definedBits 0x100, trappc := w 1, traplpc := w 2 &&& definedBits 0x102
      trapaddr := w 3 } }

/-! ### Bivouac entries (R21) -/

/-- Where bivouac entry j stands. -/
def bivAddr (g : Group) (j : Nat) : Word := g.sp.bivbase + BitVec.ofNat 64 (16 * j)

/-- A push onto a full stack first moves the bottom entry to the bivouac area. -/
def spillDiv (s : State) : State :=
  match s.g.ln.stack.getLast? with
  | some e =>
    if s.g.ln.stack.length ≥ 16 then
      (ownWrite s s.g (bivAddr s.g s.g.ln.biv) (leBytes 16 (divWord e))).upG (fun g =>
        { g with ln := { g.ln with stack := g.ln.stack.dropLast, biv := g.ln.biv + 1 } })
    else s
  | none => s

/-- A stack with room takes the innermost bivouac entry back to its bottom; one that is read with poison stays, and its address is
answered. -/
def reloadDiv (s : State) : State × Option Word :=
  let g := s.g
  if g.ln.biv = 0 || g.ln.stack.length ≥ 16 then (s, none)
  else
    let a := bivAddr g (g.ln.biv - 1)
    let s1 := touchVa s g true .load a
    match ownRead s1 g a 16 with
    | (_, some i) => (s1, some (a + BitVec.ofNat 64 i))
    | (b, none) => (s1.upG (fun g => { g with ln := { g.ln with stack := g.ln.stack ++ [savedDiv (leNat b)], biv := g.ln.biv - 1 } }), none)

/-! ### Lane code and the scoreboard (R12, R16, R141) -/

/-- The lane-code base of the mode (R328). -/
def Group.lcbNow (g : Group) : Word := if g.lvl = 0 then g.sp.lcb else if g.lvl = 1 then g.sp.ulcb else g.sp.plcb

/-- Fetches n bytes of code at a virtual address: at home, with EX on each page; poison is met last, at the first byte that carries it
(R138, R141, R331). A line is fetched as it stands at home, so never an old one after a store to it has been performed. DESIGN CHOICE, log
entry 106. -/
def fetchCode (s : State) (g : Group) (va : Word) (n : Nat) : Except Trap Nat :=
  let at_ := fun (v : Word) => translate s g.place.coreNo g.sp.asid.toNat g.sp.gen.toNat g.priv .fetch v
  match at_ va with
  | .error c => .error (mkTrap c va)
  | .ok x =>
    let inFirst := 2 ^ pageBits x.level - va.toNat % 2 ^ pageBits x.level
    let second := if inFirst < n then va + BitVec.ofNat 64 inFirst else va
    match at_ second with
    | .error c => .error (mkTrap c second)
    | .ok y =>
      let place := fun i => if i < inFirst then x.pa + i else y.pa + (i - inFirst)
      match (List.range n).find? (fun i => homePoison s (place i)) with
      | some i => .error (mkTrap cPOISON (va + BitVec.ofNat 64 i))
      | none => .ok (leNat ((List.range n).map (fun i => homeByte s (place i))))

/-- Lane word i (R12). -/
def fetchLane (s : State) (g : Group) (i : LIdx) : Except Trap (BitVec 96) :=
  match fetchCode s g (g.lcbNow + BitVec.ofNat 64 (12 * i.toNat)) 12 with
  | .error t => .error t
  | .ok n => .ok (BitVec.ofNat 96 n)

/-- The scalar registers that lane word i of a run reads and writes; a word that cannot be fetched or decoded has none. -/
def wordUses (s : State) (g : Group) (i : LIdx) : List Nat × List Nat :=
  match fetchLane s g i with
  | .error _ => ([], [])
  | .ok w =>
    match decodeLane w with
    | .error _ => ([], [])
    | .ok ins => match ins.general with
      | some (op, f) => (laneSReads op f, laneSWrites op f)
      | none => ([], [])

/-- The words that may follow lane word i of a lane program: its two ways at a branch, the bodies of a generator loop. -/
def wordNext (s : State) (g : Group) (i : LIdx) : List LIdx :=
  match fetchLane s g i with
  | .error _ => []
  | .ok w =>
    match decodeLane w with
    | .error _ => []
    | .ok (.lbr b) => [i + 1, b.tgt, b.rpc]
    | .ok (.genbeg b) => [i + 1, b.cent, b.xpc]
    | .ok (.lend _) => []
    | .ok _ => [i + 1]

/-- The words that a lane program may come to from some words. A program has 2^22 words, each with at most three that follow it, so the fuel of
runWords is never spent. -/
def reachable (s : State) (g : Group) : Nat → List LIdx → List LIdx → List LIdx
  | 0, _, seen => seen
  | _ + 1, [], seen => seen
  | n + 1, i :: rest, seen => if seen.contains i then reachable s g n rest seen else reachable s g n (wordNext s g i ++ rest) (i :: seen)

/-- The divergence entries of a group that stand in its bivouac area, as it reads them (R21). -/
def bivEntries (s : State) (g : Group) : List DivEntry :=
  (List.range g.ln.biv).map (fun j => savedDiv (leNat (ownRead s g (bivAddr g j) 16).1))

/-- Where an LRUN stands: at its first word, or at its paths, the ends and displaced paths of its divergences, those in the bivouac area
among them, and the bodies of an open loop. -/
def runStands (s : State) (g : Group) (r : Run) : List LIdx :=
  if !r.started then [r.first]
  else
    let p := fun (x : Option Path) => (x.map (·.pc)).toList
    p g.ln.l0 ++ p g.ln.l1 ++ (g.ln.stack ++ bivEntries s g).flatMap (fun e => e.rpc :: (if e.qv then [e.qpc] else [])) ++
      (if g.ln.gl.body = 0 then [] else [g.ln.gl.gpc + 1, g.ln.gl.cent, g.ln.gl.xpc]) ++ p (g.ln.gl.susp.map (·.path))

/-- The words that a run has still to execute, as far as they are known: a LISSUE run's words, and the words that an LRUN may come to. -/
def runWords (s : State) (g : Group) (r : Run) : List LIdx :=
  if r.lrun then reachable s g (2 ^ 24) (runStands s g r) [] else (List.range r.left).map (fun k => r.next + BitVec.ofNat 22 k)

/-- A run that has still to read or write a register that a scalar word reads or writes (R16). An LRUN counts for the registers that
the words it may come to name. DESIGN CHOICE, log entry 11. -/
def runHolds (s : State) (g : Group) (reads writes : List Nat) (r : Run) : Bool :=
  !(reads ++ writes).isEmpty &&
  (runWords s g r).any (fun i =>
    let u := wordUses s g i
    u.2.any (fun x => reads.contains x || writes.contains x) || u.1.any (fun x => writes.contains x))

def scoreboardHolds (s : State) (reads writes : List Nat) : Bool :=
  let r := reads.filter (· ≠ 0)
  let w := writes.filter (· ≠ 0)
  s.g.ln.runs.any (runHolds s s.g r w)

/-! ### Errors met by a read of registers (R337, R340, R342) -/

/-- The element of a group that a register array's index names, as the group's list of bad elements counts it. Where the index of
R342 names no slot, the lowest slot that has the element is meant. -/
def elementOf (g : Group) (array addr : Nat) : Option Nat :=
  let mine := fun (n : Nat) => if addr / n = g.place.slot then some (addr % n) else none
  match array with
  | 0x01 => if addr / 32 < g.place.lregs then some addr else none
  | 0x02 => mine 64
  | 0x03 => mine 8
  | 0x04 => if addr < 16384 && g.place.tmask.getLsbD (addr / 1024) then some addr else none
  | 0x05 => if addr < 128 then some addr else none
  | 0x06 => (mine 256).filter (· < g.ln.gl.cairn.length)
  | 0x0B => (mine 16).filter (· < g.ln.stack.length)
  | _ => none

/-- The element of a group that a latent error stands in, when p says that it is read. -/
def latentElem (g : Group) (p : Nat → Nat → Bool) (l : Latent) : Option Nat :=
  if l.core = g.place.coreNo then (elementOf g l.array l.addr).filter (p l.array) else none

/-- A latent error that is met is logged once. A marker, an entry of array 0x300 + a, says that the element has not been written
since the error struck it. -/
def logMet (g : Group) (p : Nat → Nat → Bool) (s : State) (l : Latent) : State :=
  match latentElem g p l with
  | some i => if s.g.r.bad.contains (0x300 + l.array, i) then logRead s (logWho s.g) l else s
  | none => s

/-- A read of register elements meets their errors. -/
def touchRegs (s : State) (p : Nat → Nat → Bool) : State :=
  if s.errs.latent.isEmpty then s
  else
    let s1 := s.errs.latent.foldl (logMet s.g p) s
    { s1 with
      errs := { s1.errs with latent := s1.errs.latent.filter (fun l => (latentElem s.g p l).isNone) }
      g := { s1.g with r := { s1.g.r with bad := s1.g.r.bad.filter (fun b => !(b.1 / 256 = 3 && p (b.1 - 0x300) b.2)) } } }

/-- A read of register elements of any group. -/
def touchRegsOf (s : State) (k : GroupKey) (p : Nat → Nat → Bool) : State :=
  match s.findGroup k with
  | none => s
  | some h =>
    if s.g.key = k then touchRegs s p
    else
      let s1 := touchRegs { s with g := h } p
      { s1 with g := s.g, rest := s1.rest.map (fun x => if x.key = k then s1.g else x) }

/-! ### Injections into register arrays (R342) -/

/-- The armed injection of a core: its array, unit and bits. -/
def armedInj (s : State) (core : Nat) : Option (Nat × Nat × Word) :=
  let ctl := (sget 0 s.errs.inj (core * 3)).toNat
  if bit1 ctl 15 then some (bits ctl 7 0, (sget 0 s.errs.inj (core * 3 + 1)).toNat, sget 0 s.errs.inj (core * 3 + 2)) else none

/-- A group without its marks of armed and fired injections. -/
def Group.unmarked (g : Group) : Group := { g with r := { g.r with bad := g.r.bad.filter (fun b => b.1 < 0x100 || b.1 ≥ 0x300) } }

/-- Marks in a group the element that an armed injection of its core waits for. An element that is not there yet, such as a cairn
entry still to be written, is waited for by its number. -/
def armGroup (s : State) (g : Group) : Group :=
  match armedInj s g.place.coreNo with
  | none => g
  | some (a, u, _) =>
    let mine := fun (n : Nat) => if u / n = g.place.slot then some (u % n) else none
    let i := match a with
      | 0x02 => mine 64
      | 0x03 => mine 8
      | 0x06 => mine 256
      | 0x0B => mine 16
      | 0x01 | 0x04 | 0x05 => some u
      | _ => none
    match i with
    | none => g
    | some i => let h := g.unmarked; { h with r := { h.r with bad := h.r.bad ++ [(0x100 + a, i)] } }

/-- A write of every register element of a group, at a launch or a restore: an injection that waits for one of them fires. -/
def armWritten (s : State) (g : Group) : Group :=
  let h := armGroup s g
  { h with r := { h.r with bad := h.r.bad.map (fun b => if b.1 / 256 = 1 then (b.1 + 256, b.2) else b) } }

/-- Arms the groups that are bound, when an injection waits. -/
def armFocus (s : State) : State :=
  if s.errs.inj.isEmpty then s
  else
    let arm := fun (g : Group) => if g.place.bound then armGroup s g else g
    { s with g := arm s.g, rest := s.rest.map arm }

/-- An injection that a write of a group fired is disarmed, and its element has the error, unless no bit is inverted. -/
def fireGroup (s : State) (g : Group) : State :=
  match g.r.bad.find? (fun b => b.1 / 256 = 2), armedInj s g.place.coreNo with
  | some b, some (a, u, w) =>
    let ctl := (sget 0 s.errs.inj (g.place.coreNo * 3)).toNat
    let s1 := { s with errs := { s.errs with
      inj := sset 0 s.errs.inj (g.place.coreNo * 3) (BitVec.ofNat 64 (setBits ctl 15 15 0))
      latent := s.errs.latent ++ (if w = 0 then [] else [(⟨a, g.place.coreNo, u, w, true⟩ : Latent)]) } }
    if w = 0 then s1
    else s1.upGroup g.key (fun g => { g with
      r := { g.r with bad := g.r.bad ++ ((0x300 + a, b.2) :: if bitCount w < 2 then [] else [(a, b.2)]) } })
  | _, _ => s

/-- Ends a step: the injections that its writes fired act, and the marks are gone. -/
def fireFocus (s : State) : State :=
  if s.errs.inj.isEmpty then s
  else s.groups.foldl fireGroup { s with g := s.g.unmarked, rest := s.rest.map Group.unmarked }

/-! ### Scalar words (R161, R162, R181) -/

/-- What a scalar word comes to: done in a state, a trap that changes no state, a trap once its accesses have performed in
a state, or not yet able to issue. -/
inductive SRes where
  | ok (s : State)
  | trap (t : Trap)
  | trapIn (s : State) (t : Trap)
  | wait

/-- A register whose value cannot be read or written yet. -/
def Group.blocked (g : Group) (n : Nat) : Bool :=
  match g.fut n with | .pending _ => true | .busy => true | _ => false

/-- An ordinary read of a RESOLVED register takes its completion word and frees the handle (R181). -/
def Group.consume (g : Group) (n : Nat) : Group :=
  match g.fut n with | .resolved w _ _ => g.setS n w false | _ => g

/-- Raises FUTURE when a word would write a PENDING register (R181), waits for a busy one, and goes on otherwise. -/
def guardDst (s : State) (n : Nat) (k : SRes) : SRes :=
  match s.g.fut n with
  | .pending _ => .trap (mkTrap cFUTURE)
  | .busy => .wait
  | _ => k

/-- A bad scalar register among the ones a word reads is consumed data (R337, R338, R342). -/
def badScalar (g : Group) (reads : List Nat) : Option Nat := reads.find? (fun n => n ≠ 0 && g.r.bad.contains (0x02, n))

def regPoison (array idx : Nat) : Word := BitVec.ofNat 64 (0xE000000000000000 + array * 2 ^ 48 + idx)

/-- Where a scalar word's trap resumes: at the word, and after it for SWTRAP (R330). -/
def scalarResume (g : Group) (t : Trap) : Word := if t.cause = cSWTRAP then g.pc + 4 else g.pc

def scalarSrc (g : Group) : TrapSrc := { lw := false, slot := false, word := 0, lane := 0, rgn := g.cap.rgn }

/-- The number by which the list of the lane registers still to be written names an element of a tile, and whether a tile has one there. -/
def lateTileKey (t e : Nat) : Nat := 2 ^ 20 + t * 1024 + e
def Group.tileLate (g : Group) (t : Nat) : Bool := g.qs.lateV.any (fun x => x / 1024 = 1024 + t)

/-- Writes one element of a tile, whose tag a proposal sets. -/
def Group.fillTile (g : Group) (t e : Nat) (v : BitVec 48) (prop : Bool) : Group :=
  { g with r := { g.r with
      tile := sset 0 g.r.tile (t * 1024 + e) v
      ttag := if prop then sset false g.r.ttag t true else g.r.ttag
      bad := mend g.r.bad (fun a i => a = 0x04 && i = t * 1024 + e) } }

/-- The runs that are outstanding (R13, R15). -/
def LaneCtl.outstanding (l : LaneCtl) : Nat := l.runs.length + l.late.length

/-- The runs enqueued before a scalar word are finished, so that its trap may be entered (R15, R162). -/
def Group.lanesDone (g : Group) : Bool := g.ln.runs.isEmpty && g.qs.pendL.isNone && g.qs.lateV.isEmpty

/-- A scalar word no longer waits for accesses. -/
def Group.noPendS (g : Group) : Group := { g with qs := { g.qs with pendS := none } }

/-- Enters the handler for a scalar word's trap. -/
def scalarTrap (s : State) (t : Trap) : State := takeTrap (s.upG Group.noPendS) t (scalarSrc s.g) (scalarResume s.g t)

/-- A cause that a scalar word has met is kept while the runs before it go on; it is reported unless a lane word traps first (R162). -/
def Group.meet (g : Group) (t : Trap) : Group := { g.noPendS with met := some t }

/-- A scalar word's trap: the handler is entered only when the runs enqueued before the word are finished (R162). -/
def meetTrap (s : State) (t : Trap) : State := if s.g.lanesDone then scalarTrap s t else s.upG (fun g => g.meet t)

/-- Turns a scalar word's result into an outcome. -/
def scalarEnd (s : State) : SRes → Out
  | .ok s' => .next s'
  | .wait => .next s
  | .trap t => .next (meetTrap s t)
  | .trapIn s' t => .next (meetTrap s' t)

/-- What every scalar word shares: it waits for the accesses of the word before it, for the scoreboard and for pending
registers, consumes the handles that it reads, and then has its own effect (R16, R161, R181). Where a register that it reads is bad and
it meets another cause of class 4, the other is reported. DESIGN CHOICE, log entry 96. -/
def scalarWord (reads writes : List Nat) (f : State → SRes) (s : State) : Out :=
  if s.g.qs.pendS.isSome || scoreboardHolds s reads writes || reads.any s.g.blocked then .next s
  else
    let s0 := touchRegs s (fun a i => a = 0x02 && reads.contains i)
    let s1 := s0.upG (fun g => reads.foldl Group.consume g)
    match badScalar s0.g reads, f s1 with
    | some n, .ok _ => scalarEnd s0 (.trap { cause := cPOISON, addr := regPoison 0x02 (s.g.place.slot * 64 + n), restart := true })
    | _, r => scalarEnd s0 r

/-- The next scalar word. -/
def State.advance (s : State) : State := s.upG (fun g => g.setPc (g.pc + 4))

/-- Writes a scalar result and goes to the next word. -/
def State.putS (s : State) (n : Nat) (v : Word) (t : Bool) : State := (s.upG (fun g => g.setS n v t)).advance

end Sys2Proof.Machine
end

