-- ==== Sys2Proof/Machine/Access.lean ====
section
/-! DEFINITION. Accesses of a group: address checks, entry into the issue queue, and their performing at a place
(R87 to R89, R112 to R124, R137, R208, R209, R337, R340, R346). -/

namespace Sys2Proof.Machine

/-! ### Registers of the MMIO space, as they read (R315, R346 to R350, R355, R376) -/

/-- Word 0 of a link status record (R355). -/
def linkStatus (r : RailGroup) : Word :=
  BitVec.ofNat 64 (r.crce * 2 ^ 48 + r.rebuilt * 2 ^ 32 + r.replays * 2 ^ 16 + (if r.down then 2 ^ 10 else 0) + r.half.toNat * 2 ^ 5 +
    r.lost.toNat)

/-- SVCSTAT (R376). -/
def svcStat (v : Svc) : Word :=
  BitVec.ofNat 64 (v.stage * 2 ^ 12 + v.code * 2 ^ 4 + (if v.ready then 4 else 0) + (if v.err then 2 else 0) + (if v.busy then 1 else 0))

/-- The 8 bytes at an aligned offset of the MMIO space. -/
def mmioRead (s : State) (off : Nat) : Word :=
  if off = 0 then s.host.seedr
  else if 0x1000 ≤ off ∧ off < 0x1800 then sget 0 s.host.kick ((off - 0x1000) / 8)
  else if 0x2000 ≤ off ∧ off < 0x2800 then
    let r := (off - 0x2000) / 8
    if r % 4 = 1 ∨ r % 4 = 2 then sget 0 s.host.chan r else 0
  else if 0x4000 ≤ off ∧ off < 0x4100 then
    let r := (off - 0x4000) / 8
    if r % 8 ≤ 2 then sget 0 s.host.hdm r else 0
  else if 0x10000 ≤ off ∧ off < 0x10240 then
    if (off - 0x10000) % 64 = 0 then (match s.links.rg[(off - 0x10000) / 64]? with | some r => linkStatus r | none => 0) else 0
  else if 0x20000 ≤ off ∧ off < 0x30000 then sget 0 s.errs.dramLog ((off - 0x20000) / 8)
  else if off = 0x100008 then svcStat s.svc
  else if off = 0x100010 then BitVec.ofNat 64 s.svc.len
  else if 0x110000 ≤ off ∧ off < 0x120000 then
    BitVec.ofNat 64 (leNat ((List.range 8).map (fun i => sget 0 s.svc.buf (off - 0x110000 + i))))
  else 0

/-- The offset in the MMIO space of a place in region 0x3; the space holds 16 MiB. -/
def mmioOff (a : Nat) : Nat := a % 2 ^ 48

/-! ### Address checks -/

/-- Whether every group of a block has reached step 3 of R30 (R89). -/
def blockRetired (s : State) (task cluster block : Nat) : Bool :=
  match s.findTask task with
  | none => false
  | some t =>
    let n := bits t.img 1290 1287 + 1
    (List.range n).all (fun i => t.gone.contains (4, ⟨task, cluster, block, i⟩))

/-- A scratchpad access of n bytes at a 24-bit address (R87, R89): its place and the member it names, or PROT. -/
def spCheck (s : State) (a n : Nat) : Except Nat (Nat × Option Nat) :=
  let g := s.g
  let ofs := a % 2 ^ 20
  if ofs + n > g.place.spSlots * 1024 then .error cPROT
  else if bit1 a 23 then .ok (spPlace g.place.bid ofs, none)
  else
    let m := bits a 22 20
    if m > coordNblk g.sp.coord ∨ blockRetired s g.key.task g.key.cluster m then .error cPROT
    else .ok (spPlace (blockId g.key.task g.key.cluster m) ofs, some m)

/-- A global access of the focus group. -/
def globalCheck (s : State) (acc : Acc) (va : Word) : Except Nat Xlat :=
  translate s s.g.place.coreNo s.g.sp.asid.toNat s.g.sp.gen.toNat s.g.priv acc va

/-- Where an access goes, once checked. -/
structure Target where
  addr : Nat
  pk : PKind
  member : Option Nat
  va : Word
  deriving DecidableEq, Repr

def globalTarget (s : State) (acc : Acc) (va : Word) : Except Trap Target :=
  match globalCheck s acc va with
  | .error c => .error (mkTrap c va)
  | .ok x => .ok { addr := x.pa, pk := x.pk, member := none, va := va }

/-- A scratchpad address supplied by a register: bits [63:24] must be zero (R87). -/
def spTarget (s : State) (n : Nat) (va : Word) : Except Trap Target :=
  if va.toNat ≥ 2 ^ 24 then .error (mkTrap cPROT va)
  else
    match spCheck s va.toNat n with
    | .error c => .error (mkTrap c va)
    | .ok (p, m) => .ok { addr := p, pk := .sram, member := m, va := va }

/-- The target of a scalar load or store (R167): alignment first, then the space that A[63:60] names. -/
def scalarTarget (s : State) (acc : Acc) (a : Word) (n : Nat) : Except Trap Target :=
  if a.toNat % n ≠ 0 then .error (mkTrap cALIGN a)
  else if a.toNat / 2 ^ 60 = 0 then globalTarget s acc a
  else if a.toNat / 2 ^ 60 = 15 then
    if bits a.toNat 59 24 ≠ 0 then .error (mkTrap cPROT a)
    else
      match spCheck s (a.toNat % 2 ^ 24) n with
      | .error c => .error (mkTrap c a)
      | .ok (p, m) => .ok { addr := p, pk := .sram, member := m, va := a }
  else .error (mkTrap cPAGE a)

/-! ### Entries -/

def Target.entry (t : Target) (kind : EKind) (size : Nat) : Entry :=
  { kind := kind, pk := t.pk, addr := t.addr, size := size, va := t.va, wr := [], prop := false, poison := false, opn := 0, typ := 0,
    data := 0, cmp := 0, lane := 0, lw := false, member := t.member, late := none }

/-- The bytes of a value at consecutive places. -/
def placeBytes (a n v : Nat) : List (Nat × Byte) := cellsAt a (leBytes n v)

/-- A store of n bytes. -/
def Target.store (t : Target) (n v : Nat) (prop : Bool) : Entry :=
  { t.entry .store n with wr := placeBytes t.addr n v, prop := prop }

/-- Adds the bytes of a write to a sorted list of bytes; a later byte stands over an earlier one. -/
def mergeBytes (old new : List (Nat × Byte)) : List (Nat × Byte) := ssetMany (256 : Nat) (old.map (fun p => (p.1, p.2.toNat)))
    (new.map (fun p => (p.1, p.2.toNat))) |>.map (fun p => (p.1, BitVec.ofNat 8 p.2))

/-- Joins the stores to the first one's unit, and goes on with the others. -/
def mergeFuel : Nat → List Entry → List Entry
  | 0, l => l
  | _, [] => []
  | n + 1, e :: t =>
    let same := fun (x : Entry) => unitOf x.place = unitOf e.place && x.pk = e.pk
    (t.filter same).foldl (fun a x => { a with wr := mergeBytes a.wr x.wr, prop := a.prop || x.prop }) e ::
      mergeFuel n (t.filter (fun x => !same x))

/-- Lanes that write one unit reach it as one write: a store joins the first store of its word to that unit (R121, R246). -/
def mergeStores (l : List Entry) : List Entry := mergeFuel l.length l

/-! ### Performing -/

/-- The width in bytes of an atomic's type (R208). -/
def atomWidth (typ : Nat) : Nat := if typ = 2 ∨ typ = 3 then 8 else 4

/-- The new value of an atomic (R209), on w-byte codes. -/
def atomNew (opn typ old b cmp : Nat) : Nat :=
  let w := 8 * atomWidth typ
  let sg := typ = 0 ∨ typ = 2
  let lt : Bool := if sg then decide (toSigned w old < toSigned w b) else decide (old < b)
  match opn with
  | 0 => (old + b) % 2 ^ w
  | 1 => old &&& b
  | 2 => old ||| b
  | 3 => if lt then old else b
  | 4 => if lt then b else old
  | 5 => b
  | 6 => if old = cmp then b else old
  | _ => (roundTo fmtF32 1 0 (addV false (decodeF fmtF32 old) (decodeF fmtF32 b)).1).1

/-- An atomic or reduction store at its place, in one step: nothing is written to a poisoned unit (R74, R137, R209). The
result is the old value with the unit's tag and poison as they stood. -/
def performAtomic (s : State) (e : Entry) : State × LaneRes :=
  let s1 := settle s
  let w := atomWidth e.typ
  let old := homeNat s1 e.addr w
  let prop := homeTag s1 e.addr
  let poi := homePoison s1 e.addr
  let res : LaneRes := { lane := e.lane, val := BitVec.ofNat 64 old, prop := prop, poison := poi, down := false, va := e.va }
  if poi then (s1, res)
  else
    let new := atomNew e.opn e.typ old (e.data.toNat % 2 ^ (8 * w)) (e.cmp.toNat % 2 ^ (8 * w))
    (applyWrite s1 (placeBytes e.addr w new) (prop || e.prop) e.poison, res)

/-- The byte that a load of a group reads; one of an MMIO place that no held write supplies comes from its register, which an access of 8 bytes
alone reads (R119, R346). -/
def loadByte (s : State) (g : Group) (e : Entry) (i : Nat) : Byte :=
  if isMmio e.addr && !heldByte s g e.pk (e.addr + i) then
    (if e.size = 8 then BitVec.ofNat 8 ((mmioRead s (mmioOff e.addr)).toNat / 256 ^ i) else 0)
  else viewByte s g e.pk (e.addr + i)

/-- The first byte of an access that satisfies a test, as an address; the access's own when none does (R331). -/
def Entry.firstAt (e : Entry) (p : Nat → Bool) : Word := e.va + BitVec.ofNat 64 (((List.range e.size).find? p).getD 0)

/-- A load at its place, from the group's view (R113, R72). SLTAG's load, marked by opn = 8, takes its unit's mark (R211). -/
def performLoad (s : State) (g : Group) (e : Entry) : LaneRes :=
  let poi := fun i => viewPoison s g e.pk (e.addr + i)
  { lane := e.lane
    val := BitVec.ofNat 64 (leNat ((List.range e.size).map (loadByte s g e)))
    prop := if e.opn = 8 then viewUnitTag s g e.pk e.addr else (List.range e.size).any (fun i => viewTag s g e.pk (e.addr + i))
    poison := if e.opn = 8 then viewUnitPoison s g e.pk e.addr else (List.range e.size).any poi
    down := false
    va := e.firstAt poi }

/-- A member block can be reached when it is bound (R89); the group's own block always can. -/
def memberReady (s : State) (e : Entry) : Bool :=
  match e.member with
  | none => true
  | some _ => isDie e.addr && (placeOf s e.addr).isSome

/-- A load that leaves for another agent takes with it the bytes that its agent's own held writes supply (R113, R119): wr holds them,
prop and poison the tag that they leave on a settled and on a proposal unit, cmp the same of the unit's poison mark. -/
def Entry.withOwn (e : Entry) (s : State) (g : Group) : Entry :=
  if e.kind ≠ .load || e.pk = .s then e
  else
    let u := unitOf e.addr
    let ws := tagWrites s g
    let p := fun (t : Bool) => bitNat (poisonOver u ws t)
    { e with
      wr := (List.range e.size).filterMap (fun i => if heldByte s g e.pk (e.addr + i) then some (e.addr + i, viewByte s g e.pk (e.addr + i)) else none)
      prop := tagOver u ws false, poison := tagOver u ws true, cmp := BitVec.ofNat 64 (p false + 2 * p true) }

/-- What a load that was sent out returns, from what its home answered and the bytes that it took with it (R72, R113). -/
def Entry.answered (e : Entry) (val : Word) (prop poison : Bool) : LaneRes :=
  let byte := fun i => (e.wr.find? (fun p => p.1 = e.addr + i)).map (·.2)
  let fromHome := (List.range e.size).any (fun i => (byte i).isNone)
  let written := if prop then e.poison else e.prop
  if e.kind ≠ .load || (e.wr.isEmpty && e.opn ≠ 8) then { lane := e.lane, val := val, prop := prop, poison := poison, down := false, va := e.va }
  else
    { lane := e.lane
      val := BitVec.ofNat 64 (leNat ((List.range e.size).map (fun i => (byte i).getD (BitVec.ofNat 8 (val.toNat / 256 ^ i)))))
      prop := if e.opn = 8 && e.pk ≠ .s then written else (fromHome && prop) || (!e.wr.isEmpty && written)
      poison := if e.opn = 8 && e.pk ≠ .s then bit1 e.cmp.toNat (bitNat poison) else fromHome && poison
      down := false, va := e.firstAt (fun i => (byte i).isNone) }

/-- The accesses that leave for another agent: a peer's memory, or the host's (R113, R132, R349). -/
def isRemote (a : Nat) : Bool := isPeer a || isHost a

/-- Its trap (R338, R357). -/
def LaneRes.trap (r : LaneRes) : Trap :=
  if r.down then mkTrap cLINKDOWN r.va else { cause := cPOISON, addr := r.va, restart := true }

/-- The number of the next request to a peer (R356). -/
def takeNum (s : State) (dev : Nat) : State × Nat :=
  let n := sget 0 s.links.numTo dev
  ({ s with links := { s.links with numTo := sset 0 s.links.numTo dev ((n + 1) % 65536) } }, n)

/-- The peer that a place names. -/
def peerOf (a : Nat) : Nat := bits a 45 40


/-- Updates a rail group. -/
def State.upRail (s : State) (g : Nat) (f : RailGroup → RailGroup) : State :=
  { s with links := { s.links with rg := s.links.rg.zipIdx.map (fun x => if x.2 = g then f x.1 else x.1) } }

/-! ### Requests and responses on the links (R351 to R357) -/

/-- A bit for each 32 bytes. -/
def markBits (l : List Bool) : Nat := l.zipIdx.foldl (fun a x => if x.1 then a + 2 ^ x.2 else a) 0

/-- A request or response on a link: the 16-byte header of R352, a request's address, and the body, in whole 16 bytes. The spec names the
header's fields and gives no places, and it names no place for the address. DESIGN CHOICE, log entry 115. -/
def linkMsg (src tgt num kind sub len : Nat) (tags poisons : List Bool) (addr : Option Nat) (body : List Byte) : List Byte :=
  let m := leBytes 1 src ++ leBytes 1 tgt ++ leBytes 2 num ++ leBytes 1 kind ++ leBytes 1 sub ++ leBytes 2 len ++ leBytes 4 (markBits tags) ++
    leBytes 4 (markBits poisons) ++ (match addr with | some a => leBytes 8 a | none => []) ++ body
  m ++ List.replicate ((16 - m.length % 16) % 16) 0

/-- The body of an access: a store's byte mask within its unit and the unit's bytes; an atomic's operands. -/
def entryBody (e : Entry) : List Byte :=
  match e.kind with
  | .store => leBytes 8 (e.wr.foldl (fun a p => a + 2 ^ (p.1 % 64)) 0) ++
      (List.range 64).map (fun i => ((e.wr.find? (fun p => p.1 % 64 = i)).map (·.2)).getD 0)
  | .atomic | .reduce => leBytes 8 e.data.toNat ++ (if e.opn = 6 then leBytes 8 e.cmp.toNat else [])
  | _ => []

/-- A mark of each 32 bytes of an access's data: those that it writes have it. -/
def entryMarks (e : Entry) (b : Bool) : List Bool :=
  match e.kind with
  | .store => (List.range 2).map (fun i => b && e.wr.any (fun p => p.1 % 64 / 32 = i))
  | .atomic | .reduce => [b]
  | _ => []

/-- The codes of the kinds of requests; a release message is 4 and a response 128. -/
def EKind.linkCode : EKind → Nat
  | .load => 0 | .store => 1 | .atomic => 2 | .reduce => 3 | _ => 4

def entryMsg (src tgt num : Nat) (e : Entry) : List Byte :=
  linkMsg src tgt num e.kind.linkCode (e.opn + 16 * e.typ) e.size (entryMarks e e.prop) (entryMarks e e.poison) (some e.place) (entryBody e)

/-- A response as it is sent, and the source, target, number and kind that a message names. -/
def answerMsg (src tgt : Nat) (x : Served) : List Byte :=
  linkMsg src tgt x.num 128 0 x.data.length (x.marks.map (·.1)) (x.marks.map (·.2)) none x.data
def msgField (m : List Byte) (o n : Nat) : Nat := leNat ((m.drop o).take n)

/-- A response is kept; of each source the last 4,096 (R356). -/
def keepServed (l : List Served) (x : Served) : List Served :=
  let mine := (l.filter (fun y => y.src = x.src)) ++ [x]
  l.filter (fun y => y.src ≠ x.src) ++ mine.drop (mine.length - 4096)

/-- A direction of a rail group. -/
def RailGroup.dir (r : RailGroup) (d : Nat) : LinkDir := if d = 0 then r.d0 else r.d1
def RailGroup.setDir (r : RailGroup) (d : Nat) (x : LinkDir) : RailGroup := if d = 0 then { r with d0 := x } else { r with d1 := x }

/-- A payload goes out in a direction, with the messages of which it carries a part: its group flit acknowledges what the other direction has
accepted, and enters the replay buffer, which keeps the last 128 (R352, R353). -/
def RailGroup.send (r : RailGroup) (d pay : Nat) (msgs : List (List Byte)) : RailGroup :=
  let x := r.dir d
  let f : GroupFlit := { kind := 0, seq := x.txNext, ack := (r.dir (1 - d)).last, nseq := 0, pay := pay, msgs := msgs }
  let b := x.txBuf ++ [f]
  r.setDir d { x with txNext := (x.txNext + 1) % 65536, txBuf := b.drop (b.length - 128), wire := x.wire ++ [f] }

/-- Where each of a list of messages begins when they are packed end to end. -/
def packStarts : Nat → List (List Byte) → List (Nat × List Byte)
  | _, [] => []
  | o, m :: t => (o, m) :: packStarts (o + m.length) t

/-- The group payloads of 976 bytes that messages packed end to end fill, each with the messages of which it carries a part (R352). -/
def packed (l : List (List Byte)) : List (Nat × List (List Byte)) :=
  let b := l.flatten
  (List.range ((b.length + 975) / 976)).map (fun k => (leNat ((b.drop (976 * k)).take 976),
    ((packStarts 0 l).filter (fun x => x.1 < 976 * (k + 1) && 976 * k < x.1 + x.2.length)).map (·.2)))

/-- The messages that wait in a direction go out. -/
def RailGroup.flush (r : RailGroup) (d : Nat) : RailGroup :=
  let r1 := (packed (r.dir d).queue).foldl (fun r p => r.send d p.1 p.2) r
  r1.setDir d { r1.dir d with queue := [] }

/-- Ends a step: the messages that it has put on the links go out in group flits. -/
def flushLinks (s : State) : State :=
  if s.links.rg.all (fun r => r.d0.queue.isEmpty && r.d1.queue.isEmpty) then s
  else { s with links := { s.links with rg := s.links.rg.map (fun r => (r.flush 0).flush 1) } }

/-- A message waits for a flit in a direction of a rail group. -/
def sendOn (s : State) (g d : Nat) (m : List Byte) : State :=
  s.upRail g (fun r => let x := r.dir d; r.setDir d { x with queue := x.queue ++ [m] })

/-- A rail group carries traffic. -/
def railUp (s : State) (g : Nat) : Bool := match s.links.rg[g]? with | some r => !r.down | none => false

/-- A message leaves for a peer on the first Ulfer rail group that is up (R354). -/
def sendFlit (s : State) (m : List Byte) : State :=
  match [6, 7, 8].find? (railUp s) with
  | some g => sendOn s g 0 m
  | none => s

/-- The bridge of two quarters (R355), and the direction of it that leads from a to b: 0 from the lower quarter. -/
def bridgeOf (a b : Nat) : Nat :=
  match min a b, max a b with
  | 0, 1 => 0 | 0, 2 => 1 | 0, 3 => 2 | 1, 2 => 3 | 1, 3 => 4 | _, _ => 5
def bridgeDir (a b : Nat) : Nat := if a < b then 0 else 1

/-- The way from a quarter to another: their bridge, or two bridges through a third quarter when it is down (R354). -/
def routeOf (s : State) (a b : Nat) : Option (List (Nat × Nat)) :=
  if railUp s (bridgeOf a b) then some [(a, b)]
  else ((List.range 4).find? (fun c => c ≠ a && c ≠ b && railUp s (bridgeOf a c) && railUp s (bridgeOf c b))).map (fun c => [(a, c), (c, b)])

/-- A message goes from a quarter to another. -/
def sendBridge (s : State) (a b : Nat) (m : List Byte) : State :=
  ((routeOf s a b).getD []).foldl (fun s h => sendOn s (bridgeOf h.1 h.2) (bridgeDir h.1 h.2) m) s

/-- Where the numbers of a pair of quarters are counted, beside those of the devices. -/
def quarterPair (a b : Nat) : Nat := 64 + 4 * a + b

/-- What the other quarter answers to an access that has crossed a bridge: the bytes and marks of its home. -/
def crossAnswer (s : State) (src num : Nat) (e : Entry) : Served :=
  { src := src, num := num
    data := if e.kind.isRead then (List.range e.size).map (fun i => homeByte s (e.addr + i)) else []
    marks := if e.kind.isRead then (List.range ((e.size + 31) / 32)).map (fun i => (homeTag s (e.addr + 32 * i), homePoison s (e.addr + 32 * i))) else [] }

/-- An access from a quarter to the memory of another crosses a bridge with the next number of their pair; the other quarter keeps the number
with its response, which goes back (R356). -/
def crossing (s : State) (q : Nat) (e : Entry) : State :=
  let b := homeQuarter e.place
  if !isLocal e.place || q = b then s
  else
    let r := takeNum s (quarterPair q b)
    let y := crossAnswer s (quarterPair q b) r.2 e
    let t := sendBridge r.1 q b (entryMsg q b r.2 e)
    sendBridge { t with links := { t.links with served := keepServed t.links.served y } } b q (answerMsg b q y)

/-- No route leads from a quarter to a place: its device cannot be reached, every Ulfer rail group is down, or no way leads to its quarter
(R357). -/
def noRoute (s : State) (q a : Nat) : Bool :=
  (isPeer a && (s.links.down.contains (peerOf a) || [6, 7, 8].all (fun g => !railUp s g))) ||
  (isLocal a && q ≠ homeQuarter a && (routeOf s q (homeQuarter a)).isNone)

/-- A source never has more than 4,096 unanswered requests to one target (R356): a peer, or the other quarter of a pair. -/
def peerRoom (s : State) (a : Nat) : Bool := (s.outs.filter (fun o => o.dev = some (peerOf a))).length < 4096
def bridgeRoom (s : State) (q a : Nat) : Bool :=
  (s.homeQ.filter (fun w => w.core / 64 = q && isLocal w.place && homeQuarter w.place = homeQuarter a)).length < 4096

/-- A request may be sent from a quarter to a place. -/
def routeRoom (s : State) (q a : Nat) : Bool :=
  if isPeer a then peerRoom s a else !isLocal a || q = homeQuarter a || bridgeRoom s q a

/-- Sends an access to a peer or to the host. A group that sends a write notes the peer for its release messages (R358). -/
def sendOut (s : State) (g : GroupKey) (e : Entry) : State :=
  if isPeer e.place then
    let d := peerOf e.place
    let t := takeNum s d
    let r := (sendFlit t.1 (entryMsg Config.deviceNo d t.2 e), t.2)
    { r.1 with
      outs := r.1.outs ++ [{ grp := g, cmd := none, dev := some d, num := r.2, entry := e }]
      links := { r.1.links with
        sent := if e.kind = .load ∨ r.1.links.sent.contains ⟨g, d⟩ then r.1.links.sent else r.1.links.sent ++ [⟨g, d⟩] } }
  else { s with outs := s.outs ++ [{ grp := g, cmd := none, dev := none, num := 0, entry := e }] }

/-- Removes entry k of an issue queue. -/
def Group.dropIq (g : Group) (k : Nat) : Group := { g with qs := { g.qs with iq := g.qs.iq.eraseIdx k } }

/-- Gives a returned value to the word that waits for it. -/
def Group.give (g : Group) (lw : Bool) (r : LaneRes) : Group :=
  if lw then { g with qs := { g.qs with pendL := g.qs.pendL.map (fun p => { p with got := p.got ++ [r] }) } }
  else { g with qs := { g.qs with pendS := g.qs.pendS.map (fun p => { p with got := p.got ++ [r] }) } }

/-- The value of a scalar register that an access returns: loads of 4 bytes and i32 atomics are sign-extended (R168, R209). -/
def Entry.scalarVal (e : Entry) (v : Word) : Word :=
  if (e.kind = .load && e.size = 4) || (e.kind = .atomic && e.typ = 0) then (v.setWidth 32).signExtend 64 else v

/-- The lane registers that are still to be written, without those of a list; a run that waits for none is finished. -/
def Group.arrived (g : Group) (l : List Nat) : Group :=
  let left := fun (x : List Nat) => x.filter (fun y => !l.contains y)
  { g with qs := { g.qs with lateV := left g.qs.lateV }, ln := { g.ln with late := (g.ln.late.map left).filter (fun x => !x.isEmpty) } }

/-- What an access returns to a word that its stream has gone past goes into its registers (R16, R114, R123, R211). -/
def Group.putLate (g : Group) (e : Entry) (d : LateDst) (r : LaneRes) : Group :=
  match d with
  | .sreg n t => (g.setFut n .none).setS n (e.scalarVal r.val) (r.prop || t)
  | .mark n => (g.setFut n .none).setS n ((if r.prop then 1 else 0) + (if r.poison then 2 else 0)) false
  | .vreg v n lanes =>
    let put := fun (g : Group) (x : Nat × Nat × Bool) => (List.range n).foldl (fun g i =>
      g.setV (v + i) x.1 (BitVec.ofNat 32 ((r.val.toNat + x.2.1) % 2 ^ (32 * n) / 2 ^ (32 * i))) (r.prop || x.2.2)) g
    (lanes.foldl put g).arrived (lanes.flatMap (fun x => (List.range n).map (fun i => (v + i) * 32 + x.1)))
  | .tile t => (g.fillTile t e.lane (r.val.setWidth 48) r.prop).arrived [lateTileKey t e.lane]

/-- Gives what an access returned to its word. -/
def Group.answer (g : Group) (e : Entry) (r : LaneRes) : Group :=
  match e.late with
  | some d => g.putLate e d r
  | none => g.give e.lw r

/-- A word that its stream has gone past cannot trap any more (R331): an access of it that R114 kept back until poison had come to its place is
not performed while the poison stands. DESIGN CHOICE, log entry 20. -/
def Entry.heldBack (e : Entry) (r : LaneRes) : Bool := e.late.isSome && (r.poison || r.down) && e.opn ≠ 8

/-- A load or atomic of a group, entry k of its queue, leaves: it performs at its place, or it is sent to a peer or the
host, which answer later. It waits while all-bank mode holds its bank (R289). -/
def leaveRead (s : State) (key : GroupKey) (k : Nat) : State :=
  match s.findGroup key with
  | none => s
  | some g =>
    match g.qs.iq[k]? with
    | none => s
    | some e =>
      if !canLeave s g k || !memberReady s e || !e.kind.isRead || bankHeld s e.addr then s
      else if noRoute s g.place.q e.addr then
        let r : LaneRes := { lane := e.lane, val := 0, prop := false, poison := false, down := true, va := e.va }
        if e.heldBack r then s else s.upGroup key (fun g => (g.dropIq k).answer e r)
      else if !routeRoom s g.place.q e.addr then s
      else if isRemote e.addr then sendOut (s.upGroup key (fun g => g.dropIq k)) key (e.withOwn s g)
      else
        let s1 := touchUnit s g e.addr
        let s2 := crossing s1 g.place.q e
        let x := if e.kind = .load then (s2, performLoad s1 g e) else performAtomic s2 e
        if e.heldBack x.2 then s1 else x.1.upGroup key (fun g => (g.dropIq k).answer e x.2)

/-- The first entry of a stream's waiting word that may leave now. -/
def readyRead (s : State) (lw : Bool) : Option Nat :=
  (List.range s.g.qs.iq.length).find? (fun k =>
    match s.g.qs.iq[k]? with
    | some e => e.kind.isRead && e.lw = lw && canLeave s s.g k && memberReady s e && routeRoom s s.g.place.q e.addr && !bankHeld s e.addr
    | none => false)

/-- Performs the accesses of a stream's waiting word that may leave, as far as they go. -/
def performReady (lw : Bool) : Nat → State → State
  | 0, s => s
  | n + 1, s =>
    match readyRead s lw with
    | none => s
    | some k => performReady lw n (leaveRead s s.g.key k)

/-- A word enters its loads or atomics and waits for them; those that may perform do so at once, unless the turn is a slow one. -/
def startReads (s : State) (lw : Bool) (w : Instr) (es : List Entry) : State :=
  let p : Pend := { w := w, need := es.length, got := [] }
  let s1 := s.upG (fun g =>
    let g1 := g.addIq es
    if lw then { g1 with qs := { g1.qs with pendL := some p } } else { g1 with qs := { g1.qs with pendS := some p } })
  if s1.hold then s1 else performReady lw es.length s1

def Group.clearPend (g : Group) (lw : Bool) : Group :=
  if lw then { g with qs := { g.qs with pendL := none } } else { g with qs := { g.qs with pendS := none } }

/-- Every access of a waiting word has performed. -/
def Pend.done (p : Pend) : Bool := p.need ≤ p.got.length

/-- The access that met poison, or whose peer cannot be reached, in the lowest lane. -/
def firstPoison (l : List LaneRes) : Option LaneRes :=
  l.foldl (fun b r => if !(r.poison || r.down) then b else match b with
    | none => some r
    | some x => if r.lane < x.lane then some r else some x) none

end Sys2Proof.Machine
end

