-- ==== Sys2Proof/Machine/Operands.lean ====
section
/-! DEFINITION. Operands of lane words: the context that a word issues in, register fields and their renaming, broadcast
scalars, immediates, and the sources whose tags and errors a word meets (R10, R17, R18, R35, R63, R143 to R145, R149, R277, R342). -/

namespace Sys2Proof.Machine

/-! ### The context of a lane word -/

/-- What a lane word issues in: whether its run is an LRUN, its slot and index, its path, the registers captured by its run,
and the running body's frame base ÷ 64 (0 outside generator loops). -/
structure LCtx where
  lrun : Bool
  slot : Bool
  idx : LIdx
  path : Path
  cap : Caps
  fb : Nat
  deriving DecidableEq, Repr

def fullMask : BitVec 32 := 0xFFFFFFFF

/-- A path with every lane (R13, R18). -/
def Path.full (pc : LIdx) : Path := { pc := pc, mask := fullMask, p := false }

/-- An LRUN begins with one full path in L0 when it comes to the head of the queue (R18). -/
def LaneCtl.startRun (l : LaneCtl) : LaneCtl :=
  match l.runs with
  | r :: rest =>
    if r.lrun && !r.started then { l with runs := { r with started := true } :: rest, l0 := some (Path.full r.first), l1 := none, slot := false }
    else l
  | [] => l

def Group.startRun (g : Group) : Group := { g with ln := g.ln.startRun }

/-- The frame base of the running body (R277). -/
def GenLoop.fb (l : GenLoop) : Nat := if l.body = 1 then l.pfb else if l.body = 0 then 0 else l.cfb

/-- The path that issues: that of the chosen slot, or of the other one when the chosen slot is empty. -/
def LaneCtl.path (l : LaneCtl) : Path × Bool :=
  match l.slot, l.l0, l.l1 with
  | true, _, some p => (p, true)
  | true, some p, none => (p, false)
  | false, some p, _ => (p, false)
  | false, none, some p => (p, true)
  | _, none, none => (Path.full 0, false)

/-- The context of the group's next lane word. Without a run the current registers and a full path stand. A handler runs no
body, so its words are not renamed. DEDUCED, log entry 12. -/
def laneCtx (g : Group) : LCtx :=
  match g.ln.runs with
  | [] => { lrun := false, slot := false, idx := 0, path := Path.full 0, cap := g.cap, fb := 0 }
  | r :: _ =>
    if r.lrun then
      let p := g.ln.path
      { lrun := true, slot := p.2, idx := p.1.pc, path := p.1, cap := r.cap, fb := if g.lvl = 0 then g.ln.gl.fb else 0 }
    else { lrun := false, slot := false, idx := r.next, path := Path.full r.next, cap := r.cap, fb := 0 }

/-- A register field under the renaming of generator bodies (R277). -/
def LCtx.rn (c : LCtx) (r : Nat) : Nat := if c.fb ≠ 0 ∧ r < 64 then 64 * c.fb + r else r

/-- A named run of registers lies in the allocation, and in its frame (R10, R277). -/
def RegUse.allocated (u : RegUse) (c : LCtx) (lregs : Nat) : Bool :=
  (c.fb = 0 || u.reg ≥ 64 || u.reg + u.count ≤ 64) && c.rn u.reg + u.count ≤ lregs

/-- Active lanes (R18), predicated-true lanes (R149), and the lanes that a word works on. -/
def actMask (g : Group) (c : LCtx) : BitVec 32 := g.sp.exmask &&& c.path.mask
def predMask (g : Group) (pn : BitVec 1) (pk : BitVec 3) : BitVec 32 :=
  if pk = 0 then (if pn = 0 then fullMask else 0) else if pn = 0 then g.pred pk.toNat else ~~~ g.pred pk.toNat

/-- The tag of a word's predicate; "never" reads no register (R64, R149). -/
def predTag (g : Group) (pk : BitVec 3) : Bool := pk ≠ 0 && g.ptag pk.toNat

/-- The lanes of a mask, ascending, and the lowest one. -/
def lanesOf (m : BitVec 32) : List Nat := (List.range 32).filter (fun i => m.getLsbD i)
def lowLane (m : BitVec 32) : Nat := ((List.range 32).find? (fun i => m.getLsbD i)).getD 0

/-! ### Element values -/

/-- The bits of an operand of type ty in a lane register: an element, or a pair's 64 bits (R35). -/
def elemBits (g : Group) (ty r l : Nat) : Nat :=
  if tyPair ty then (g.velem r l).toNat + 2 ^ 32 * (g.velem (r + 1) l).toNat else (g.velem r l).toNat

/-- The register values that hold an operand's bits. -/
def toElems (ty bits : Nat) : List Elem :=
  if tyPair ty then [BitVec.ofNat 32 bits, BitVec.ofNat 32 (bits / 2 ^ 32)] else [BitVec.ofNat 32 bits]

/-- A broadcast scalar's bits (R144). -/
def scalarBits (g : Group) (ty n : Nat) : Nat := if tyPair ty then (g.sval n).toNat else (g.sval n).toNat % 2 ^ 32

/-- IMM20 sign-extended. -/
def immInt (w : LWord) : Int := w.imm.toInt

/-- A code repeated in every sub-element of an element. -/
def repeatSub (ty code : Nat) : Nat := packSubs (tyWidth ty) (List.replicate (tySubs ty) code)

/-- A bf16 code in a floating type: exact in f32 and f64, payload kept; rounded under RNE elsewhere (R145). -/
def bf16In (ty code : Nat) : Nat :=
  if ty = 10 then code * 2 ^ 16
  else if ty = 11 then
    (if bits code 14 7 = 255 ∧ bits code 6 0 ≠ 0 then bits code 15 15 * 2 ^ 63 + 2047 * 2 ^ 52 + bits code 6 0 * 2 ^ 45
     else (roundTo fmtF64 1 0 (decodeF fmtBF16 code)).1)
  else (roundTo (tyFmt ty) 1 0 (decodeF fmtBF16 code)).1

/-- The immediate of a type (R145), as the bits of an element or pair. -/
def immBits (ty : Nat) (w : LWord) : Nat :=
  if tyInt ty then repeatSub ty (wrapInt (tyWidth ty) (immInt w)) else repeatSub ty (bf16In ty (w.imm.toNat % 2 ^ 16))

/-- Operand B and operand C of type ty in a lane (R144). -/
def opB (g : Group) (c : LCtx) (w : LWord) (ty l : Nat) : Nat :=
  if w.bk = 0 then elemBits g ty (c.rn w.vb.toNat) l else if w.bk = 1 then scalarBits g ty w.vb.toNat else immBits ty w
def opC (g : Group) (c : LCtx) (w : LWord) (ty l : Nat) : Nat :=
  if w.ck = 0 then elemBits g ty (c.rn w.vc.toNat) l else if w.ck = 1 then scalarBits g ty w.vc.toNat else immBits ty w
def opA (g : Group) (c : LCtx) (w : LWord) (ty l : Nat) : Nat := elemBits g ty (c.rn w.va.toNat) l
def opD (g : Group) (c : LCtx) (w : LWord) (ty l : Nat) : Nat := elemBits g ty (c.rn w.vd.toNat) l

/-! ### Sources: what a result reads, for tags and for errors of the arrays (R64, R337, R342) -/

inductive Src where
  | v (r l : Nat)
  | s (n : Nat)
  | k (n : Nat)
  | t (n : Nat)
  | d (n l : Nat)
  | lscale
  deriving DecidableEq, Repr

def Src.tag (g : Group) (c : LCtx) : Src → Bool
  | .v r l => g.vtag r l
  | .s n => g.stag n
  | .k n => g.ptag n
  | .t n => g.tileTag n
  | .d n l => (g.dElem n l).sys
  | .lscale => c.cap.lscaleTag

/-- The POISON address of a source that is bad, if it is (R342). -/
def Src.bad (g : Group) : Src → Option Word
  | .v r l => if g.r.bad.contains (0x01, r * 32 + l) then some (regPoison 0x01 (r * 32 + l)) else none
  | .s n => if n ≠ 0 && g.r.bad.contains (0x02, n) then some (regPoison 0x02 (g.place.slot * 64 + n)) else none
  | .k n => if n ≠ 0 && g.r.bad.contains (0x03, n) then some (regPoison 0x03 (g.place.slot * 8 + n)) else none
  | .t n => (g.r.bad.find? (fun b => b.1 = 0x04 && b.2 / 1024 = n)).map (fun b => regPoison 0x04 b.2)
  | .d n l => if g.r.bad.contains (0x05, l * 4 + n) then some (regPoison 0x05 (l * 4 + n)) else none
  | .lscale => none

/-- The sources of an operand of type ty in a lane register. -/
def srcReg (ty r l : Nat) : List Src := if tyPair ty then [.v r l, .v (r + 1) l] else [.v r l]

def srcA (c : LCtx) (w : LWord) (ty l : Nat) : List Src := srcReg ty (c.rn w.va.toNat) l
def srcD (c : LCtx) (w : LWord) (ty l : Nat) : List Src := srcReg ty (c.rn w.vd.toNat) l
def srcB (c : LCtx) (w : LWord) (ty l : Nat) : List Src :=
  if w.bk = 0 then srcReg ty (c.rn w.vb.toNat) l else if w.bk = 1 then [.s w.vb.toNat] else []
def srcC (c : LCtx) (w : LWord) (ty l : Nat) : List Src :=
  if w.ck = 0 then srcReg ty (c.rn w.vc.toNat) l else if w.ck = 1 then [.s w.vc.toNat] else []

/-- The first bad source of a list. -/
def firstBad (g : Group) (l : List Src) : Option Word := l.findSome? (Src.bad g)

end Sys2Proof.Machine
end

