-- ==== Sys2Proof/Machine/Flags.lean ====
section
/-! DEFINITION. STATUS, the rounding mode and draw of a word, and the bound check (R45, R46, R50, R52 to R54). -/

namespace Sys2Proof.Machine

/-- ORs flags into STATUS (R50). -/
def Group.orStatus (g : Group) (f : Flags) : Group := { g with sp := { g.sp with status := g.sp.status ||| f.zeroExtend 64 } }

/-- The mode of a rounding: RM, or MODE.RND as captured (R46). -/
def rndMode (c : LCtx) (w : LWord) : Nat := if w.rm = 0 then bits c.cap.mode.toNat 2 0 else w.rm.toNat

/-- Whether the word draws random bits for its rounding. -/
def drawsSR (c : LCtx) (w : LWord) : Bool := rndMode c w = 6

/-- Gen of the group's key, with the counter words COORD, count and last (R44, R45). -/
def groupGen (g : Group) (count last : BitVec 32) : BitVec 128 :=
  gen (deriveKey g.sp.seed (g.sp.stream.setWidth 32)) (g.sp.coord.extractLsb' 32 32) (g.sp.coord.extractLsb' 0 32) count last

/-- The draw of element j of lane l (R45). -/
def drawSR (g : Group) (l j : Nat) : Nat := ((groupGen g (g.srcCount l) (BitVec.ofNat 32 (l + 32 * j))).extractLsb' 0 32).toNat

/-- A written result as an exact value (R54). -/
def resultVal (ty code : Nat) : Val := valOf ty code

/-- A bound as the destination takes it: LO under RUP or ceiling, HI under RDN or floor. The flags of that rounding are not raised: BNDF
alone is set. DESIGN CHOICE, log entry 102. -/
def boundCode (ty m : Nat) (v : Val) : Nat :=
  if tyInt ty then (convInt (tyWidth ty) (tySigned ty) m 0 v).1 else (roundTo (tyFmt ty) m 0 v).1

/-- The check of one result against a bound register (R53, R54): the code written and its flag, or none for BOUND. -/
def boundCheck (bnd : Word) (ty code : Nat) : Option Rounded :=
  let b := bnd.toNat
  let act := b % 4
  let lo := decodeF fmtF32 (bits b 31 2 * 4)
  let hi := decodeF fmtF32 (bits b 63 32)
  let v := resultVal ty code
  let low := isNan v || ltV v lo
  let every := isNan lo || isNan hi || ltV hi lo
  if act = 0 || !(every || low || ltV hi v) then some (code, 0)
  else if act = 3 then none
  else if act = 1 then some (code, fBNDF)
  else if isNan lo && isNan hi then
    (let r := roundTo (tyFmt ty) 1 0 (.nan false)
     some (if tyInt ty then 0 else r.1, if tyInt ty then fBNDF else fBNDF ||| r.2))
  else if isNan lo then some (boundCode ty 4 hi, fBNDF)
  else if every || low then some (boundCode ty 3 lo, fBNDF)
  else some (boundCode ty 4 hi, fBNDF)

/-- SAT = 2: the check of a word's slot, after the result's own flags. -/
def satBound (c : LCtx) (w : LWord) (ty : Nat) (r : Rounded) : Option Rounded :=
  if w.sat = 2 then
    (boundCheck (sget 0 c.cap.bnd (w.mod8.toNat % 16)) ty r.1).map (fun b => (b.1, r.2 ||| b.2))
  else some r

/-- A word of packed sub-elements: f for each, in order, with the flags of all; none when one is out of bounds under ACT 3 (R216). -/
def eachSub (ty : Nat) (f : Nat → Option Rounded) : Option Rounded :=
  ((List.range (tySubs ty)).mapM f).map (fun l => (packSubs (tyWidth ty) (l.map (·.1)), l.foldl (fun a r => a ||| r.2) 0))

end Sys2Proof.Machine
end

