-- ==== Sys2Proof/Machine/Barrier.lean ====
section
/-! DEFINITION. Barriers, timeline identifiers, and what a task's node record declares (R26 to R30, R186 to R188, R312). -/

namespace Sys2Proof.Machine

/-! ### Fields of a node record (R312) -/

def recNclus (r : Nat) : Nat := bits r 1335 1312
def recNblk (r : Nat) : Nat := bits r 1293 1291 + 1
def recNgrp (r : Nat) : Nat := bits r 1290 1287 + 1
def recNgb (r : Nat) : Nat := bits r 1295 1294
def recGridBar (r : Nat) : Nat := bits r 1286 1284
def recCor (r : Nat) : Bool := bit1 r 1283
def recDet (r : Nat) : Bool := bit1 r 1282
def recBlockMask (r b : Nat) : Nat := bits r (24 * b + 2199) (24 * b + 2184)
def recBlockCopies (r b : Nat) : Nat := bits r (24 * b + 2183) (24 * b + 2176)
def recGroupCopies (r b : Nat) : Nat := bits r (1303 + 8 * b) (1296 + 8 * b)
def recClusterBlocks (r c : Nat) : Nat := bits r (24 * c + 2007) (24 * c + 2000)
def recClusterGroups (r c : Nat) : Nat := bits r (24 * c + 1999) (24 * c + 1984)

/-- Every group of a task's grid (R23). -/
def taskGroups (t : Task) : List GroupKey :=
  (List.range (recNclus t.img)).flatMap (fun c => (List.range (recNblk t.img)).flatMap (fun b =>
    (List.range (recNgrp t.img)).map (fun g => ⟨t.id, c, b, g⟩)))

/-! ### Barrier instances (R26 to R28) -/

/-- The number of barriers of a level. -/
def levelCount (level : Nat) : Nat :=
  match level with | 0 => 2 | 1 => 16 | 2 => 8 | 3 => 4 | _ => 1

/-- Whether a task declared a barrier of a level (R27, R314). -/
def barDeclared (r level num : Nat) : Bool :=
  match level with
  | 0 => num < recNgb r
  | 1 => num < 16 && recBlockMask r num ≠ 0
  | 2 => num < 8 && recClusterBlocks r num ≠ 0 && recClusterGroups r num ≠ 0
  | 3 => num < recGridBar r && recCor r
  | _ => num = 0 && recDet r

/-- Whether a group is a member. -/
def barMember (r level num : Nat) (k : GroupKey) : Bool :=
  match level with
  | 1 => bit1 (recBlockMask r num) k.group
  | 2 => bit1 (recClusterBlocks r num) k.block && bit1 (recClusterGroups r num) k.group
  | _ => true

/-- The copy arrivals that a phase needs (R26). -/
def barCopies (r level num : Nat) : Nat :=
  match level with | 0 => recGroupCopies r num | 1 => recBlockCopies r num | _ => 0

/-- The instance that a group reaches: a place's fields that its level does not use are zero. -/
def barOf (level num : Nat) (k : GroupKey) : Bar :=
  { level := level, cluster := if level = 3 then 0 else k.cluster, block := if level ≤ 1 then k.block else 0,
    group := if level = 0 then k.group else 0, num := num, phase := 0, arr := [], copies := 0 }

def Bar.same (a b : Bar) : Bool :=
  a.level = b.level && a.cluster = b.cluster && a.block = b.block && a.group = b.group && a.num = b.num

def findBar (t : Task) (b : Bar) : Bar := (t.bars.find? (fun x => x.same b)).getD b
def putBar (t : Task) (b : Bar) : Task := { t with bars := b :: t.bars.filter (fun x => !x.same b) }

/-- The members of an instance. -/
def barMembers (t : Task) (b : Bar) : List GroupKey :=
  (match b.level with
    | 0 => [(⟨t.id, b.cluster, b.block, b.group⟩ : GroupKey)]
    | 1 => (List.range (recNgrp t.img)).map (fun g => ⟨t.id, b.cluster, b.block, g⟩)
    | 3 => taskGroups t
    | _ => (List.range (recNblk t.img)).flatMap (fun k => (List.range (recNgrp t.img)).map (fun g => ⟨t.id, b.cluster, k, g⟩))).filter
    (fun k => barMember t.img b.level b.num k)

/-- A phase completes when every member has arrived, a retired one counting as arrived, and every copy arrival is made;
extra copy arrivals carry over (R27, R28, R193). -/
def completeBar (t : Task) (b : Bar) : Bar :=
  if (barMembers t b).all (fun k => b.arr.contains k || t.gone.contains (b.level, k)) && barCopies t.img b.level b.num ≤ b.copies && !b.arr.isEmpty
  then { b with phase := b.phase + 1, arr := [], copies := b.copies - barCopies t.img b.level b.num }
  else b

/-- Counts an arrival of a group. -/
def barArriveGroup (t : Task) (b : Bar) (k : GroupKey) : Task :=
  let x := findBar t b
  putBar t (completeBar t { x with arr := x.arr ++ [k] })

/-- Counts the arrival of a copy (R126). -/
def barArriveCopy (t : Task) (b : Bar) : Task :=
  let x := findBar t b
  putBar t (completeBar t { x with copies := x.copies + 1 })

/-- Every group of a cluster counts as arrived on the chain, from step 2 of its retirement on (R28, R30). -/
def clusterRetired (t : Task) (c : Nat) : Bool :=
  (List.range (recNblk t.img)).all (fun b => (List.range (recNgrp t.img)).all (fun g => t.gone.contains (4, ⟨t.id, c, b, g⟩)))

/-- Whether a waiter of a phase may go on: the phase has completed, and on the chain every cluster before has arrived in it
(R28, R178, R323). -/
def barPassed (t : Task) (b : Bar) (phase : Nat) : Bool :=
  (findBar t b).phase > phase &&
  (b.level ≠ 4 || (List.range b.cluster).all (fun c => clusterRetired t c || (findBar t { b with cluster := c }).phase > phase))

/-- The group counts as arrived from now on in every barrier of a level of which it is a member (R28): the phases that its retirement
completes are completed. -/
def goneAt (t : Task) (level : Nat) (k : GroupKey) : Task :=
  let t1 := { t with gone := t.gone ++ [(level, k)] }
  { t1 with bars := t1.bars.map (completeBar t1) }

/-! ### Timeline identifiers (R186 to R188) -/

def tlKind (id : Nat) : Nat := bits id 63 60
def tlCluster (id : Nat) : Nat := bits id 55 32
def tlGroup (task id : Nat) : GroupKey := ⟨task, bits id 55 32, bits id 6 4, bits id 3 0⟩

/-- Whether a TLID names a counter of the task (R186, R188). -/
def tlOk (t : Task) (id : Nat) : Bool :=
  bits id 59 56 = 0 && bits id 31 14 = 0 && bits id 7 7 = 0 &&
  match tlKind id with
  | 0 | 1 | 2 => bits id 13 8 = 0 && tlCluster id < recNclus t.img && bits id 6 4 < recNblk t.img && bits id 3 0 < recNgrp t.img
  | 3 => bits id 55 32 = 0 && bits id 13 10 = 0 && bits id 6 0 = 0
  | 4 => bits id 55 32 = 0 && bits id 13 10 = 0 && bits id 6 2 = 0
  | 5 => bits id 55 32 = 0 && bits id 6 0 = 0
  | 6 => bits id 55 32 = 0 && bits id 13 8 = 0 && bits id 6 0 = 0
  | _ => false

/-- A group's own identifier of a kind (R186). -/
def tlOfGroup (kind : Nat) (k : GroupKey) : Nat := kind * 2 ^ 60 + k.cluster % 2 ^ 24 * 2 ^ 32 + k.block % 8 * 16 + k.group % 16
def tlOfQuarter (kind q sub : Nat) : Nat := kind * 2 ^ 60 + q % 4 * 2 ^ 8 + sub % 4
def tlOfPeer (dev : Nat) : Nat := 5 * 2 ^ 60 + dev % 64 * 2 ^ 8
def tlOfKick : Nat := 6 * 2 ^ 60

def tlValue (t : Task) (id : Nat) : Nat := sget 0 t.tl id
def tlSet (t : Task) (id v : Nat) : Task := { t with tl := sset 0 t.tl id v }

/-- A command completes in its context: TL advances to n at the first step at which commands 1 to n have all completed (R125). -/
def ctxAdvance (id : Nat) : Nat → Task → Task
  | 0, t => t
  | f + 1, t =>
    let v := tlValue t id + 1
    if t.ctxDone.contains (id, v) then ctxAdvance id f (tlSet { t with ctxDone := t.ctxDone.filter (· ≠ (id, v)) } id v) else t

def ctxComplete (t : Task) (id num : Nat) : Task :=
  let t1 := { t with ctxDone := t.ctxDone ++ [(id, num)] }
  ctxAdvance id t1.ctxDone.length t1

/-- A command takes the next number of its context (R125). -/
def ctxTake (t : Task) (id : Nat) : Task × Nat :=
  let n := sget 0 t.ctxNum id + 1
  ({ t with ctxNum := sset 0 t.ctxNum id n }, n)

end Sys2Proof.Machine
end

