-- ==== Sys2Proof/Machine/ScalarControl.lean ====
section
/-! DEFINITION. Scalar control: branches, runs, barriers, yielding, retirement, traps and their return (R138, R171 to R174,
R178 to R180, R212, R213). -/

namespace Sys2Proof.Machine

/-! ### Transfers (R138, R171) -/

/-- The conditions of BR on a signed 64-bit value (R156). -/
def taken (cond : Nat) (a : Word) : Bool :=
  match cond with
  | 0 => true
  | 1 => a = 0
  | 2 => a ≠ 0
  | 3 => a.slt 0
  | 4 => !a.slt 0
  | 5 => a.slt 0 || a = 0
  | _ => !(a.slt 0 || a = 0)

/-- A transfer to a target: ALIGN, then PAGE, at the transferring word (R138). -/
def transfer (s : State) (t : Word) (k : State → State) : SRes :=
  if t.toNat % 4 ≠ 0 then .trap (mkTrap cALIGN t)
  else if t.toNat ≥ 2 ^ 60 then .trap (mkTrap cPAGE t)
  else .ok ((k s).upG (fun g => g.setPc t))

/-- R171: BR. -/
def execBr (cond : BitVec 4) (sa : BitVec 6) (off : BitVec 16) (s : State) : Out :=
  scalarWord [sa.toNat] [] (fun s =>
    if s.g.stag sa.toNat ∧ cond ≠ 0 then .trap (mkTrap cPROPCTL)
    else if taken cond.toNat (s.g.sval sa.toNat) then transfer s (s.g.pc + (off.signExtend 64) * 4) id
    else .ok s.advance) s

/-- R171: CALL; the link is settled and written when the transfer takes place. -/
def execCall (sd : BitVec 6) (imm : BitVec 20) (s : State) : Out :=
  scalarWord [] [sd.toNat] (fun s =>
    let link := s.g.pc + 4
    let t := s.g.pc + (imm.signExtend 64) * 4
    if t.toNat ≥ 2 ^ 60 then .trap (mkTrap cPAGE t)
    else guardDst s sd.toNat (transfer s t (fun s => s.upG (fun g => g.setS sd.toNat link false)))) s

/-- R171: JMPR; the target is read before the link is written. -/
def execJmpr (sd sa : BitVec 6) (s : State) : Out :=
  scalarWord [sa.toNat] [sd.toNat] (fun s =>
    let link := s.g.pc + 4
    let t := s.g.sval sa.toNat
    if s.g.stag sa.toNat then .trap (mkTrap cPROPCTL)
    else if t.toNat % 4 ≠ 0 then .trap (mkTrap cALIGN t)
    else if t.toNat ≥ 2 ^ 60 then .trap (mkTrap cPAGE t)
    else guardDst s sd.toNat (transfer s t (fun s => s.upG (fun g => g.setS sd.toNat link false)))) s

/-! ### Runs (R13, R172 to R174) -/

/-- Enqueues a run with the registers that it captures (R173). -/
def Group.enqueue (g : Group) (r : Run) : Group := { g with ln := { g.ln with runs := g.ln.runs ++ [r] } }

/-- R173: a straight run of n − 1 + 1 words; it stalls while four runs are outstanding. -/
def execLissue (nm1 : BitVec 4) (index : LIdx) (s : State) : Out :=
  scalarWord [] [] (fun s =>
    if index.toNat + nm1.toNat > 2 ^ 22 - 1 then .trap (mkTrap cILLEGAL)
    else if s.g.ln.outstanding ≥ 4 then .wait
    else .ok ((s.upG (fun g => g.enqueue
      { lrun := false, started := false, first := index, next := index, left := nm1.toNat + 1, cap := g.cap })).advance)) s

/-- R173: a lane program. -/
def execLrun (index : LIdx) (s : State) : Out :=
  scalarWord [] [] (fun s =>
    if s.g.ln.outstanding ≥ 4 then .wait
    else .ok ((s.upG (fun g => g.enqueue
      { lrun := true, started := false, first := index, next := index, left := 0, cap := g.cap })).advance)) s

/-- R174: waits for every run enqueued before it. -/
def execLwait (s : State) : Out :=
  scalarWord [] [] (fun s => if s.g.lanesDone then .ok s.advance else .wait) s

/-! ### Barriers (R27, R178) -/

/-- The key of a barrier in the group's LAST. -/
def barKey (level num : Nat) : Nat := level * 16 + num

/-- A BAR's checks of R27 and R178: the instance, or the trap. -/
def barCheck (s : State) (sa : BitVec 6) (level : BitVec 3) (num : BitVec 4) : Except Trap (Task × Bar × Nat) :=
  let b := (s.g.sval sa.toNat + num.zeroExtend 64).toNat
  let bad : Except Trap (Task × Bar × Nat) := .error (mkTrap cBARRIER (BitVec.ofNat 64 (level.toNat * 16 + b)))
  if s.g.stag sa.toNat then .error (mkTrap cPROPCTL)
  else
    match s.findTask s.g.key.task with
    | none => bad
    | some t =>
      if b ≥ levelCount level.toNat || !barDeclared t.img level.toNat b || !barMember t.img level.toNat b s.g.key ||
         (level = 4 && !s.g.det) then bad
      else .ok (t, barOf level.toNat b s.g.key, b)

/-- The scope of a level's release (R26). -/
def barScope (level : Nat) : Nat := match level with | 0 => 0 | 1 => 1 | 2 => 2 | _ => 3

/-- Makes the group's arrival in the current phase: LAST takes the phase (R178). -/
def makeArrival (s : State) (t : Task) (b : Bar) (num : Nat) : State :=
  (s.upTask t.id (fun t => barArriveGroup t b s.g.key)).upG (fun g =>
    { g with barLast := sset 0 g.barLast (barKey b.level num) ((findBar t b).phase + 1) })

/-- The wait of a BAR: until the phase LAST has completed (R178). -/
def barWaitFor (s : State) (b : Bar) (num : Nat) : SRes :=
  match s.findTask s.g.key.task with
  | none => .wait
  | some t =>
    if barPassed t b (sget 0 s.g.barLast (barKey b.level num) - 1) then .ok ((s.upG Group.noPendS).advance) else .wait

/-- A BAR that has arrived and waits holds its stream; it is marked so, since its arrival stands across a restore (R163). -/
def barHold (s : State) (w : Instr) (b : Bar) (num : Nat) : SRes :=
  let s1 := s.upG (fun g => { g with qs := { g.qs with pendS := some { w := w, need := 1, got := [] } } })
  match barWaitFor s1 b num with
  | .ok s2 => .ok s2
  | _ => .ok s1

/-- Issued again while it waits, a BAR only waits (R163). -/
def barAgain (sa : BitVec 6) (level : BitVec 3) (num : BitVec 4) (s : State) : Out :=
  match barCheck s sa level num with
  | .error _ => .next s
  | .ok (_, b, n) => scalarEnd s (barWaitFor s b n)

/-- R178: arrives and waits. -/
def execBarSync (sa : BitVec 6) (level : BitVec 3) (num : BitVec 4) (s : State) : Out :=
  match s.g.qs.pendS with
  | some p => if p.w = .barSync sa level num then barAgain sa level num s else .next s
  | none =>
    scalarWord [sa.toNat] [] (fun s =>
      match barCheck s sa level num with
      | .error t => .trap t
      | .ok (t, b, n) =>
        if (findBar t b).arr.contains s.g.key then .trap (mkTrap cBARRIER (BitVec.ofNat 64 (level.toNat * 16 + n)))
        else if !releaseOk s s.g (barScope level.toNat) then .wait
        else barHold (makeArrival s t b n) (.barSync sa level num) b n) s

/-- R178: arrives without waiting. -/
def execBarArrive (sa : BitVec 6) (level : BitVec 3) (num : BitVec 4) (s : State) : Out :=
  scalarWord [sa.toNat] [] (fun s =>
    match barCheck s sa level num with
    | .error t => .trap t
    | .ok (t, b, n) =>
      if (findBar t b).arr.contains s.g.key then .trap (mkTrap cBARRIER (BitVec.ofNat 64 (level.toNat * 16 + n)))
      else if !releaseOk s s.g (barScope level.toNat) then .wait
      else .ok ((makeArrival s t b n).advance)) s

/-- R178: waits for the phase of its last arrival. -/
def execBarWait (sa : BitVec 6) (level : BitVec 3) (num : BitVec 4) (s : State) : Out :=
  match s.g.qs.pendS with
  | some p => if p.w = .barWait sa level num then barAgain sa level num s else .next s
  | none =>
    scalarWord [sa.toNat] [] (fun s =>
      match barCheck s sa level num with
      | .error t => .trap t
      | .ok (_, b, n) =>
        if sget 0 s.g.barLast (barKey b.level n) = 0 then .trap (mkTrap cBARRIER (BitVec.ofNat 64 (level.toNat * 16 + n)))
        else barHold s (.barWait sa level num) b n) s

/-! ### Choice of groups (R31, R179) -/

/-- The logical wave index (R31). -/
def waveIndex (k : GroupKey) : Nat := k.group + 16 * (k.block + 8 * k.cluster)

/-- Turns the focus to another group. -/
def focusOn (s : State) (k : GroupKey) : State :=
  match s.rest.find? (fun g => g.key = k) with
  | none => s
  | some g => { s with g := g, rest := s.g :: s.rest.filter (fun h => h.key ≠ k) }

/-- The phase that a waiting BAR of a group waits for has completed (R178). -/
def barOver (s : State) (g : Group) (sa : BitVec 6) (level : BitVec 3) (num : BitVec 4) : Bool :=
  let n := (g.sval sa.toNat + num.zeroExtend 64).toNat
  match s.findTask g.key.task with
  | none => false
  | some t => barPassed t (barOf level.toNat n g.key) (sget 0 g.barLast (barKey level.toNat n) - 1)

/-- A group that could issue: bound, not retired or stopped, and waiting at no barrier. -/
def State.ready (s : State) (g : Group) : Bool :=
  g.place.bound && !isStopped s g &&
  match g.qs.pendS with
  | none => true
  | some p =>
    match p.w with
    | .barSync sa level num => barOver s g sa level num
    | .barWait sa level num => barOver s g sa level num
    | _ => true

/-- The groups of a core that are ready and take turns with the focus: those in deterministic mode, but for class 0 (R31). -/
def coreMates (s : State) : List Group := s.rest.filter (fun g => s.ready g && g.det && g.place.slot ≠ 15 && g.place.coreNo = s.g.place.coreNo)

/-- The member of a list with the least wave index; of groups of different tasks with the same, the first of the list. DESIGN CHOICE, log entry
123. -/
def leastWave (l : List Group) : Option Group :=
  l.foldl (fun b g => match b with | none => some g | some x => if waveIndex g.key < waveIndex x.key then some g else some x) none

/-- A core goes to one of its groups: no other group of the core holds it (R31). -/
def giveCore (s : State) (h : Group) : State :=
  let mark := fun (g : Group) => if g.place.coreNo = h.place.coreNo then { g with holds := decide (g.key = h.key) } else g
  { s with g := mark s.g, rest := s.rest.map mark }

/-- The next group to issue takes the core and the focus (R179). -/
def yieldTo (s : State) (h : Group) : State := focusOn (giveCore s h) h.key

/-- R179: in deterministic mode, the next ready group above, or else the lowest one, takes the core; otherwise no effect. -/
def execYld (s : State) : Out :=
  scalarWord [] [] (fun s =>
    let s1 := s.advance
    if !s.g.det then .ok s1
    else
      let mates := coreMates s
      let above := mates.filter (fun g => waveIndex g.key > waveIndex s.g.key)
      match leastWave above with
      | some g => .ok (yieldTo s1 g)
      | none => (match leastWave mates with
        | some g => .ok (yieldTo s1 g)
        | none => .ok s1)) s

/-! ### Retirement (R28, R30, R180, R319) -/

/-- The generator loop is open from GENBEG until GENEND (R275, R283). -/
def GenLoop.isOpen (l : GenLoop) : Bool := l.body ≠ 0 || l.exiting

/-- Every token of the group is complete. -/
def Group.tokensDone (g : Group) : Bool := g.r.tok.all (fun e => e.2.count = 0)

/-- A task retires when its last group retires; a replay ends when its tasks have (R315, R319). -/
def checkTask (s : State) (tid : Nat) : State :=
  match s.findTask tid with
  | none => s
  | some t =>
    if (taskGroups t).all t.retired.contains then
      checkReplay (s.upTask tid (fun t => { t with phase := .retired })) t.replay
    else s

/-- A release of SYSTEM scope sends one release message to each peer that the group has written to since the last: what it had sent is
covered (R358). The message carries STREAM.ID. -/
def sendReleases (s : State) (k : GroupKey) : State :=
  let id := match s.findGroup k with | some g => bits g.sp.stream.toNat 31 0 | none => 0
  let s1 := (s.links.sent.filter (fun x => x.grp = k && !s.links.down.contains x.dev)).foldl (fun s x =>
    let r := takeNum s x.dev
    sendFlit r.1 (linkMsg Config.deviceNo x.dev r.2 4 0 0 [] [] none (leBytes 4 id))) s
  { s1 with links := { s1.links with sent := s1.links.sent.filter (fun x => x.grp ≠ k) } }

/-- The slot and what it holds are released, and the group is gone (R30). -/
def releaseSlot (s : State) : State :=
  let k := s.g.key
  let s1 := (sendReleases s k).upTask k.task (fun t => { t with retired := t.retired ++ [k] })
  checkTask { s1 with g := Group.idle } k.task

/-- The block whose window holds a place on die. -/
def bidOf (a : Nat) : Nat := (a - onDie) / 2 ^ 22

/-- No access addressed to a block as a member is still to be performed there (R89). -/
def membersQuiet (s : State) (bid : Nat) : Bool :=
  s.msgs.all (fun w => bidOf w.place ≠ bid) && s.homeQ.all (fun w => w.member.isNone || bidOf w.place ≠ bid) &&
  s.groups.all (fun g => g.qs.wq.all (fun w => w.member.isNone || bidOf w.place ≠ bid) &&
    g.qs.iq.all (fun e => e.member.isNone || bidOf e.place ≠ bid))

/-- The windows of a block go with its last group, once its members' accesses are performed (R89). -/
def windowsFree (s : State) : Bool := s.rest.any (fun g => g.place.bid = s.g.place.bid) || membersQuiet s s.g.place.bid

/-- Step 2 of R30: the arrivals level by level, each once the release at its own scope may perform (R26, R116); endStep − 1 levels are
done. -/
def endArrivals : Nat → State → State
  | 0, s => s
  | n + 1, s =>
    let level := s.g.endStep - 1
    if level ≤ 4 && releaseOk s s.g (barScope level) then
      endArrivals n ((s.upG (fun g => { g with endStep := g.endStep + 1 })).upTask s.g.key.task (fun t => goneAt t level s.g.key))
    else s

/-- R180: the retirement of R30, step by step; endStep says how far it has come. -/
def execEndGroup (s : State) : Out :=
  scalarWord [] [] (fun s =>
    if s.g.endStep = 0 then
      if s.g.ln.gl.isOpen then .trap (mkTrap cCAIRN)
      else if s.g.lanesDone && s.g.tokensDone then .ok (endArrivals 5 (s.upG (fun g => { g with endStep := 1 })))
      else .wait
    else if s.g.endStep ≤ 5 then .ok (endArrivals 5 s)
    else if drained s s.g && windowsFree s then .ok (releaseSlot s)
    else .wait) s

/-! ### TRAP and ERET (R212, R213, R333) -/

/-- R212: raises SWTRAP with the code. -/
def execTrap (code : BitVec 14) (s : State) : Out :=
  scalarWord [] [] (fun _ => .trap (mkTrap cSWTRAP (code.zeroExtend 64))) s

/-- The lines of a frame are read and meet their errors (R337). -/
def touchFrame (s : State) (lvl : Nat) : State :=
  if s.quiet then s else frameLines.foldl (fun s l => touchVa s s.g true .load (frameAddr s.g lvl l.1)) s

/-- R213, R333: returns from the handler; outside one it raises PRIV. -/
def execEret (s : State) : Out :=
  scalarWord [] [] (fun s =>
    if s.g.lvl = 0 then .trap (mkTrap cPRIV)
    else if !s.g.lanesDone then .wait
    else
      let lvl := s.g.lvl
      let s1 := touchFrame s lvl
      if frameBusy s1 s1.g lvl then .wait
      else
        match framePoison s1 s1.g lvl with
        | some a => .trapIn s1 (mkTrap cPOISON a)
        | none =>
          let held := (if lvl = 1 then s1.g.held1 else s1.g.held2).getD ⟨0, none, none, false, false, false⟩
          .ok (s1.upG (fun g => returnFrom g (frameBytes s1 s1.g lvl) held))) s

end Sys2Proof.Machine
end

