-- ==== Sys2Proof/Machine/ScalarSystem.lean ====
section
/-! DEFINITION. Special registers, futures, timeline counters, fences, the tag table and SYS (R175 to R177, R181 to R189,
R207, R210, R214). -/

namespace Sys2Proof.Machine

/-! ### Special registers (R175 to R177) -/

/-- Whether the table of R176 lists an id. -/
def srListed (id : Nat) : Bool :=
  id ≤ 0x13 || (0x20 ≤ id && id ≤ 0x2F) || (0x100 ≤ id && id ≤ 0x107) || (0x180 ≤ id && id ≤ 0x1FF)

/-- The registers that an SMTS may not write (R175, R176, R341, R342). -/
def srReadOnly (id : Nat) : Bool :=
  [0x003, 0x004, 0x005, 0x006, 0x007, 0x00B, 0x00F, 0x105, 0x106, 0x107].contains id ||
  (0x180 ≤ id && id ≤ 0x1BF && id % 4 ≠ 0) || (0x1C3 ≤ id && id ≤ 0x1FF)

/-- The registers that wait for the runs (R17). -/
def srWaits (id : Nat) : Bool := [0x001, 0x002, 0x00B, 0x00C, 0x00E].contains id

/-- GENST as it reads (R275): one HI, which keeps the threshold of a loop that has closed. DEDUCED, log entry 13. -/
def genst (l : GenLoop) : Word :=
  BitVec.ofNat 64 (l.done.toNat * 2 ^ 32 + l.body * 2 ^ 30 + l.cap * 2 ^ 18 + l.hi * 2 ^ 9 + l.cairn.length)

/-- TOKST as it reads (R194). -/
def tokst (g : Group) : Word :=
  BitVec.ofNat 64 ((List.range 8).foldl (fun a i =>
    a + ((if (g.tok i).count = 0 then 0 else 8) + (g.tok i).status) * 2 ^ (4 * i)) 0 + g.sp.ftok * 2 ^ 32 + g.sp.fcause * 2 ^ 40)

/-- CYC: the cycles of the core since it started (R177). -/
def cycNow (s : State) (core : Nat) : Word := BitVec.ofNat 64 (cyclesOver core s.svc.coresAt s.tick)

/-- The value of a special register (R176). -/
def srRead (s : State) (id : Nat) : Word :=
  let g := s.g
  match id with
  | 0x000 => g.cap.mode
  | 0x001 => g.sp.status
  | 0x002 => g.sp.exmask.zeroExtend 64
  | 0x003 => g.sp.coord
  | 0x004 => g.sp.ucause
  | 0x005 => cycNow s g.place.coreNo
  | 0x006 => g.sp.seed
  | 0x007 => g.sp.stream
  | 0x008 => g.cap.lscale.zeroExtend 64
  | 0x009 => g.cap.rgn
  | 0x00A => g.cap.drange
  | 0x00B => tokst g
  | 0x00C => genst g.ln.gl
  | 0x00D => g.cap.dctl
  | 0x00E => g.sp.dstat
  | 0x00F => g.sp.uaddr
  | 0x100 => g.sp.trapc
  | 0x101 => g.sp.trappc
  | 0x102 => g.sp.traplpc
  | 0x103 => g.sp.trapaddr
  | 0x104 => g.sp.vbase
  | 0x105 => g.sp.bivbase
  | 0x106 => g.sp.asid
  | 0x107 => g.sp.gen
  | id =>
    if 0x010 ≤ id ∧ id ≤ 0x013 then sget 0 g.cap.shape (id - 0x010)
    else if 0x020 ≤ id ∧ id ≤ 0x02F then sget 0 g.cap.bnd (id - 0x020)
    else if 0x180 ≤ id ∧ id ≤ 0x1BF then sget 0 s.errs.coreLog (g.place.coreNo * 64 + (id - 0x180))
    else if 0x1C0 ≤ id ∧ id ≤ 0x1C2 then sget 0 s.errs.inj (g.place.coreNo * 3 + (id - 0x1C0))
    else 0

/-- A value that the register's layout refuses (R50 to R53, R60, R82, R262, R275, R329, R342). -/
def srRefuses (s : State) (id : Nat) (v : Nat) : Bool :=
  match id with
  | 0x00A => bits v 15 8 + bits v 7 0 + 1 > 192
  | 0x00C => s.g.ln.gl.isOpen || bits v 17 9 = 0 || bits v 17 9 > 256
  | 0x00D =>
    (match decodeF fmtBF16 (bits v 31 16) with | .fin false _ _ => false | _ => true) || bits v 15 2 * 64 + 320 > 2 ^ 20
  | 0x00E => bits v 2 0 ≥ 5
  | 0x100 => bits v 9 8 = 3
  | 0x1C0 => bit1 v 15 && (bits v 7 0 = 0 || bits v 7 0 > 0x0B)
  | id => if 0x010 ≤ id ∧ id ≤ 0x013 then bits v 28 27 = 3 else false

/-- Bits of a mask from v, the others from old. -/
def maskIn (old v mask : Word) : Word := (old &&& ~~~mask) ||| (v &&& mask)

def State.upCap (s : State) (f : Caps → Caps) : State := s.upG (fun g => { g with cap := f g.cap })
def State.upSp (s : State) (f : Specials → Specials) : State := s.upG (fun g => { g with sp := f g.sp })

/-- Word i of the core's injection registers (R342). -/
def State.setInj (s : State) (i : Nat) (v : Word) : State :=
  let k := s.g.place.coreNo * 3 + i
  { s with errs := { s.errs with inj := sset 0 s.errs.inj k v } }

/-- Writes a special register; reserved and read-only fields keep their values (R175). -/
def srWrite (s : State) (id : Nat) (v : Word) (tag : Bool) : State :=
  match id with
  | 0x000 =>
    let r : Word := if v &&& 7 = 0 ∨ v &&& 7 = 7 then 1 else v
    s.upCap (fun c => { c with mode := maskIn c.mode r 7 })
  | 0x001 => s.upSp (fun p => { p with status := maskIn p.status v 0x7F })
  | 0x002 => s.upSp (fun p => { p with exmask := v.setWidth 32 })
  | 0x008 => s.upCap (fun c => { c with lscale := v.setWidth 32, lscaleTag := tag })
  | 0x009 => (s.upCap (fun c => { c with rgn := maskIn c.rgn v 0xFFFFFFFFFFFFFFFD })).upSp (fun p => { p with trapc := maskIn p.trapc 0 0x3000 })
  | 0x00A => s.upCap (fun c => { c with drange := maskIn c.drange v 0xFFFF })
  | 0x00C => s.upG (fun g => { g with ln := { g.ln with gl := { g.ln.gl with hi := bits v.toNat 17 9 } } })
  | 0x00D => s.upCap (fun c => { c with dctl := maskIn c.dctl v 0xFFFFFFF0FFFFFFFD })
  | 0x00E => s.upSp (fun p => { p with dstat := maskIn p.dstat v 0xFFFFF007 })
  | 0x100 => s.upSp (fun p => { p with trapc := maskIn p.trapc v 0x1F37FF })
  | 0x101 => s.upSp (fun p => { p with trappc := v })
  | 0x102 => s.upSp (fun p => { p with traplpc := maskIn p.traplpc v 0xC0000000003FFFFF })
  | 0x103 => s.upSp (fun p => { p with trapaddr := v })
  | 0x104 => s.upSp (fun p => { p with vbase := maskIn p.vbase v 0xFFFFFFFFFFFFFFC0 })
  | 0x1C0 => s.setInj 0 (maskIn (sget 0 s.errs.inj (s.g.place.coreNo * 3)) v 0x80FF)
  | 0x1C1 => s.setInj 1 v
  | 0x1C2 => s.setInj 2 v
  | id =>
    if 0x010 ≤ id ∧ id ≤ 0x013 then
      s.upCap (fun c => { c with shape := sset 0 c.shape (id - 0x010) (maskIn (sget 0 c.shape (id - 0x010)) v 0x03FFFFFFF8FFF00F) })
    else if 0x020 ≤ id ∧ id ≤ 0x02F then s.upCap (fun c => { c with bnd := sset 0 c.bnd (id - 0x020) v })
    else if 0x180 ≤ id ∧ id ≤ 0x1BF then
      -- word 0 of a log record: writing V = 0 frees it, other bits are ignored
      if v.getLsbD 63 then s
      else
        let k := s.g.place.coreNo * 64 + (id - 0x180)
        let w := sget 0 s.errs.coreLog k &&& 0x7FFFFFFFFFFFFFFF
        let test := freedTest s.g.place.coreNo (sget 0 s.errs.coreLog k).toNat (sget 0 s.errs.coreLog (k + 1)).toNat
        { s with errs := { s.errs with coreLog := sset 0 s.errs.coreLog k w, tests := s.errs.tests ++ test } }
    else s

/-- The class 1 causes of an id (R151, R175). -/
def srIdTrap (s : State) (id : Nat) : Option Trap :=
  if id ≥ 0x100 ∧ !s.g.priv then some (mkTrap cPRIV) else if !srListed id then some (mkTrap cILLEGAL) else none

/-- R175: SMFS; settled, but LSCALE gives its tag. SMFS of CYC violates determinism (R335). -/
def execSmfs (sd : BitVec 6) (id : BitVec 12) (s : State) : Out :=
  scalarWord [] [sd.toNat] (fun s =>
    match srIdTrap s id.toNat with
    | some t => .trap t
    | none =>
      if id = 0x005 ∧ s.g.det then .trap (mkTrap cDETVIOL)
      else if srWaits id.toNat && !s.g.lanesDone then .wait
      else guardDst s sd.toNat (.ok (s.putS sd.toNat (srRead s id.toNat) (id = 0x008 && s.g.cap.lscaleTag)))) s

/-- R175: SMTS; a refused id or value is ILLEGAL before a proposal source is PROPCTL. Whether GENST's loop is open is known once the runs before
the word are finished (R17, R275). -/
def execSmts (sa : BitVec 6) (id : BitVec 12) (s : State) : Out :=
  scalarWord [sa.toNat] [] (fun s =>
    match srIdTrap s id.toNat with
    | some t => .trap t
    | none =>
      let v := s.g.sval sa.toNat
      if id = 0x00C && !s.g.lanesDone then .wait
      else if srReadOnly id.toNat || srRefuses s id.toNat v.toNat then .trap (mkTrap cILLEGAL)
      else if s.g.stag sa.toNat ∧ id ≠ 0x008 then .trap (mkTrap cPROPCTL)
      else if srWaits id.toNat && !s.g.lanesDone then .wait
      else .ok ((srWrite s id.toNat v (s.g.stag sa.toNat)).advance)) s

/-! ### Futures (R181 to R185) -/

/-- The checks of R184 on the handle register: DETVIOL, PROPCTL. -/
def futCheck (s : State) (detBad : Bool) (sa : BitVec 6) : Option Trap :=
  if detBad && s.g.det then some (mkTrap cDETVIOL)
  else if s.g.fut sa.toNat = .none && s.g.stag sa.toNat then some (mkTrap cPROPCTL)
  else none

/-- A word that reads or writes a handle register without an ordinary read: the scoreboard holds it, and a future does not (R16, R184). -/
def handleWordOf (peeks writes : List Nat) (f : State → SRes) (s : State) : Out :=
  if scoreboardHolds s peeks writes then .next s else scalarWord [] [] f s

/-- R184: 0 while PENDING, else 1; a RESOLVED handle stays so. -/
def execFtest (sd sa : BitVec 6) (s : State) : Out :=
  handleWordOf [sa.toNat] [sd.toNat] (fun s =>
    match futCheck s true sa with
    | some t => .trap t
    | none =>
      match s.g.fut sa.toNat with
      | .busy => .wait
      | .pending _ => guardDst s sd.toNat (.ok (s.putS sd.toNat 0 false))
      | _ => guardDst s sd.toNat (.ok (s.putS sd.toNat 1 false))) s

/-- Tasks of a replay that have not begun are dropped (R184); whether any was. -/
def dropUnbegun (s : State) (rid : Nat) : State × Bool :=
  let hit := s.tasks.any (fun t => t.replay = rid && t.phase = .waiting)
  ({ s with tasks := s.tasks.map (fun t => if t.replay = rid ∧ t.phase = .waiting then { t with phase := .dropped } else t) }, hit)

/-- Stops a command between two of its accesses: writes already performed stand (R127, R288, R310). A KICK drops the tasks
that have not begun and ends when its running tasks have. A command whose entry has not performed, or whose end is
decided, goes on. -/
def stopCommand (s : State) (c : Nat) : State :=
  match s.findCmd c with
  | none => s
  | some k =>
    match k.stage with
    | .issued => s
    | .draining => s
    | .stopping => s
    | _ =>
      if k.kind = .kick then
        match s.replays.find? (fun r => r.cmd = some c && !r.ended) with
        | none => s
        | some r =>
          let d := dropUnbegun s r.id
          let s1 := if d.2 then d.1.upCmd c (fun k => { k with stage := .stopping }) else d.1
          checkReplay s1 r.id
      else if k.kind = .dcor ∧ k.pr.flag then s.upCmd c (fun k => { k with stage := .stopping })
      else s.upCmd c (fun k => k.finish 2 0 k.value 0)

/-- R184: asks a PENDING command to stop and waits until its handle is RESOLVED. -/
def execFcancel (sa : BitVec 6) (s : State) : Out :=
  handleWordOf [sa.toNat] [sa.toNat] (fun s =>
    match futCheck s true sa with
    | some t => .trap t
    | none =>
      match s.g.fut sa.toNat with
      | .none => .trap (mkTrap cFUTURE)
      | .busy => .wait
      | .resolved .. => .ok s.advance
      | .pending c => .ok (stopCommand s c)) s

/-- R184: gives up a handle for its command's number. It may write a PENDING sd, whose handle is then dropped (R181). -/
def execFpass (sd sa : BitVec 6) (s : State) : Out :=
  handleWordOf [sa.toNat] [sd.toNat, sa.toNat] (fun s =>
    let pass := fun (s : State) (n : Nat) =>
      let s1 := s.upG (fun g => g.setS sa.toNat 0 false)
      match s1.g.fut sd.toNat with
      | .busy => SRes.wait
      | _ => .ok (s1.putS sd.toNat (BitVec.ofNat 64 n) false)
    match futCheck s false sa with
    | some t => .trap t
    | none =>
      match s.g.fut sa.toNat with
      | .none => .trap (mkTrap cFUTURE)
      | .busy => .wait
      | .resolved _ n _ => pass s n
      | .pending c =>
        match s.findCmd c with
        | none => .wait
        | some k => if k.stage = .issued then .wait else pass (s.upCmd c (fun k => { k with reg := none })) k.num) s

/-! ### Timeline counters (R186 to R189) -/

/-- A TLWAIT that has been checked: it takes the counter once that reads at or above n, and holds its stream until then. -/
def tlHold (w : Instr) (sd : BitVec 6) (id n : Nat) (s : State) : SRes :=
  match s.findTask s.g.key.task with
  | none => .wait
  | some t =>
    if tlValue t id < n then .ok (s.upG (fun g => { g with qs := { g.qs with pendS := some { w := w, need := 1, got := [] } } }))
    else .ok ((s.upG Group.noPendS).putS sd.toNat (BitVec.ofNat 64 (tlValue t id)) false)

/-- R188: checks the counter once, and waits until it reads at or above n. -/
def execTlwait (sd sa sb : BitVec 6) (s : State) : Out :=
  match s.g.qs.pendS with
  | some p =>
    if p.w = .tlwait sd sa sb then scalarEnd s (tlHold p.w sd (s.g.sval sa.toNat).toNat (s.g.sval sb.toNat).toNat s) else .next s
  | none =>
    scalarWord [sa.toNat, sb.toNat] [sd.toNat] (fun s =>
      let id := (s.g.sval sa.toNat).toNat
      let n := (s.g.sval sb.toNat).toNat
      if s.g.stag sa.toNat || s.g.stag sb.toNat then .trap (mkTrap cPROPCTL)
      else
        match s.findTask s.g.key.task with
        | none => .trap (mkTrap cFUTURE)
        | some t =>
          if !tlOk t id || (tlKind id = 0 && t.retired.contains (tlGroup t.id id) && tlValue t id < n) then .trap (mkTrap cFUTURE)
          else guardDst s sd.toNat (tlHold (.tlwait sd sa sb) sd id n s)) s

/-- R189: a DEVICE release that advances the group's counter when it performs; sd is written then. -/
def execTladv (sd sa : BitVec 6) (s : State) : Out :=
  scalarWord [sa.toNat] [sd.toNat] (fun s =>
    if s.g.stag sa.toNat then .trap (mkTrap cPROPCTL)
    else
      let e : Entry := { kind := .tladv (s.g.sval sa.toNat) sd, pk := .r, addr := 0, size := 0, va := 0, wr := [], prop := false,
                         poison := false, opn := 0, typ := 0, data := 0, cmp := 0, lane := 0, lw := false, member := none, late := none }
      guardDst s sd.toNat (.ok ((s.upG (fun g => (g.setFut sd.toNat .busy).addIq [e])).advance))) s

/-! ### Fences (R118, R210, R357) -/

/-- The first address of the group's dropped stores (R357). -/
def droppedOf (s : State) (k : GroupKey) : Option Word := (s.links.dropped.find? (fun x => x.1 = k)).map (·.2)
def clearDropped (s : State) (k : GroupKey) : State :=
  { s with links := { s.links with dropped := s.links.dropped.filter (fun x => x.1 ≠ k) } }

/-- Enters a fence. A SYSTEM release that issues after a store was dropped raises LINKDOWN once (R357); one that has issued before is not the
next. DEDUCED, log entry 97. The runs before it are finished first, so that the address stays for the word's next issue if one of them traps
(R162). -/
def fenceWord (acq rel all : Bool) (scope : BitVec 3) (s : State) : Out :=
  scalarWord [] [] (fun s =>
    match (if rel ∧ scope = 4 then droppedOf s s.g.key else none) with
    | some a => if s.g.lanesDone then .trapIn (clearDropped s s.g.key) (mkTrap cLINKDOWN a) else .wait
    | none =>
      let e : Entry := { kind := .fence acq rel all scope.toNat, pk := .r, addr := 0, size := 0, va := 0, wr := [], prop := false,
                         poison := false, opn := 0, typ := 0, data := 0, cmp := 0, lane := 0, lw := false, member := none, late := none }
      .ok ((s.upG (fun g => g.addIq [e])).advance)) s

/-- R210: an acquire. -/
def execFenceAcq (scope : BitVec 3) (s : State) : Out := fenceWord true false false scope s
/-- R210: a release. -/
def execFenceRel (scope : BitVec 3) (s : State) : Out := fenceWord false true false scope s
/-- R210: both. -/
def execFenceAcqrel (scope : BitVec 3) (s : State) : Out := fenceWord true true false scope s
/-- R210: both, covering U-page writes. -/
def execFenceAll (scope : BitVec 3) (s : State) : Out := fenceWord true true true scope s

/-! ### The tag table (R90 to R93, R207) -/

/-- An entry of the block's tag table. -/
def tagEntry (s : State) (e : Nat) : Nat := (sget 0 s.tagTab (s.g.place.bid * 1024 + e)).toNat
def setTagEntry (s : State) (e v : Nat) : State :=
  { s with tagTab := sset 0 s.tagTab (s.g.place.bid * 1024 + e) (BitVec.ofNat 64 v) }
def entSt (v : Nat) : Nat := bits v 49 48
def entKey (v : Nat) : Nat := bits v 47 0

/-- The result word (R92). -/
def tagResult (code : Nat) (slot : Option Nat) : Word :=
  BitVec.ofNat 64 (code * 2 ^ 60 + match slot with | some e => 2 ^ 23 + 1024 * e | none => 0)

/-- The slot that TAGSET and TAGINV name: an address with OWN = 1 in the window (R91). -/
def tagSlot (s : State) (a : Word) : Option Nat :=
  if a.toNat < 2 ^ 24 ∧ bit1 a.toNat 23 ∧ bits a.toNat 19 0 < s.g.place.spSlots * 1024 then
    some (bits a.toNat 19 0 / 1024) else none

/-- R91: TAGLK. -/
def execTaglk (sd sa : BitVec 6) (s : State) : Out :=
  scalarWord [sa.toNat] [sd.toNat] (fun s =>
    let key := bits (s.g.sval sa.toNat).toNat 47 0
    let n := s.g.place.spSlots
    let put := fun (s : State) (w : Word) => guardDst s sd.toNat (.ok (s.putS sd.toNat w false))
    if s.g.stag sa.toNat then .trap (mkTrap cPROPCTL)
    else
      match (List.range n).find? (fun e => entSt (tagEntry s e) ≠ 0 && entKey (tagEntry s e) = key) with
      | some e => put s (tagResult (if entSt (tagEntry s e) = 2 then 0 else 2) (some e))
      | none =>
        match (List.range n).find? (fun e => entSt (tagEntry s e) = 0) with
        | some e => put (setTagEntry s e (2 ^ 48 + key)) (tagResult 1 (some e))
        | none => put s (tagResult 3 none)) s

/-- R91, R93: TAGSET; making an entry VALID is a release at BLOCK scope, which the word waits for. -/
def execTagset (sd sa : BitVec 6) (s : State) : Out :=
  scalarWord [sa.toNat] [sd.toNat] (fun s =>
    let put := fun (s : State) (w : Word) => guardDst s sd.toNat (.ok (s.putS sd.toNat w false))
    if s.g.stag sa.toNat then .trap (mkTrap cPROPCTL)
    else
      match tagSlot s (s.g.sval sa.toNat) with
      | none => .trap (mkTrap cPROT (s.g.sval sa.toNat))
      | some e =>
        if entSt (tagEntry s e) = 1 then
          if releaseOk s s.g 1 then put (setTagEntry s e (2 * 2 ^ 48 + entKey (tagEntry s e))) (tagResult 0 none) else guardDst s sd.toNat .wait
        else put s (tagResult 4 none)) s

/-- R91: TAGINV. -/
def execTaginv (sd sa : BitVec 6) (s : State) : Out :=
  scalarWord [sa.toNat] [sd.toNat] (fun s =>
    let put := fun (s : State) (w : Word) => guardDst s sd.toNat (.ok (s.putS sd.toNat w false))
    if s.g.stag sa.toNat then .trap (mkTrap cPROPCTL)
    else
      match tagSlot s (s.g.sval sa.toNat) with
      | none => .trap (mkTrap cPROT (s.g.sval sa.toNat))
      | some e => if entSt (tagEntry s e) = 0 then put s (tagResult 4 none) else put (setTagEntry s e 0) (tagResult 0 none)) s

/-! ### SYS (R104, R107, R214) -/

/-- What every SYS shares: the check of its operand, PRIV in user mode, and every earlier entry of the group performed. -/
def sysWord (sd sa : BitVec 6) (ok : Word → Bool) (f : State → SRes) (s : State) : Out :=
  scalarWord [sa.toNat] [sd.toNat] (fun s =>
    if !ok (s.g.sval sa.toNat) then .trap (mkTrap cILLEGAL)
    else if !s.g.priv then .trap (mkTrap cPRIV) else if !drained s s.g then .wait else f s) s

/-- R214: ASIDBASE = sa. -/
def execSysAsidbase (sd sa : BitVec 6) (s : State) : Out :=
  sysWord sd sa (fun v => v.toNat % 2 ^ 19 = 0 && v.toNat < 2 ^ 52) (fun s =>
    guardDst s sd.toNat (.ok (({ s with asidBase := (s.g.sval sa.toNat).toNat } : State).putS sd.toNat 0 false))) s

/-- No other group of an address space holds an access that could still be accepted (R104). -/
def asidQuiet (s : State) (asid : Nat) : Bool :=
  s.rest.all (fun g => g.sp.asid.toNat ≠ asid || drained s g)

/-- R214: the next generation of an address space, in the table and in every controller's copy. -/
def execSysGenstep (sd sa : BitVec 6) (s : State) : Out :=
  sysWord sd sa (fun _ => true) (fun s =>
    let asid := bits (s.g.sval sa.toNat).toNat 15 0
    let new := (ctlGen s asid + 1) % 256
    if !asidQuiet s asid then guardDst s sd.toNat .wait
    else
      let e := s.asidBase + 8 * asid
      let s1 := settle s
      let s2 := if localOk s1 e then applyWrite s1 (placeBytes e 8 (setBits (homeNat s1 e 8) 15 8 new)) false false else s1
      let s3 := { s2 with genCopy := sset 0 s2.genCopy asid (new + 1)
                          tlb := s2.tlb.filter (fun x => !(x.asid = asid && x.gen = new))
                          wcache := s2.wcache.filter (fun x => !(x.asid = asid && x.gen = new)) }
      guardDst s3 sd.toNat (.ok (s3.putS sd.toNat (BitVec.ofNat 64 new) false))) s

/-- R214: discards the translations of an address space on every core. -/
def execSysTinv (sd sa : BitVec 6) (s : State) : Out :=
  sysWord sd sa (fun _ => true) (fun s =>
    let asid := bits (s.g.sval sa.toNat).toNat 15 0
    let s1 := { s with tlb := s.tlb.filter (fun x => x.asid ≠ asid), wcache := s.wcache.filter (fun x => x.asid ≠ asid) }
    guardDst s1 sd.toNat (.ok (s1.putS sd.toNat 0 false))) s

/-- R214: discards every translation on every core. -/
def execSysTinvall (sd sa : BitVec 6) (s : State) : Out :=
  sysWord sd sa (fun _ => true) (fun s =>
    let s1 := { s with tlb := [], wcache := [] }
    guardDst s1 sd.toNat (.ok (s1.putS sd.toNat 0 false))) s

end Sys2Proof.Machine
end

