-- ==== Sys2Proof/Machine/ScalarEngine.lean ====
section
/-! DEFINITION. The words that issue engine commands: COPY, COPYMM, FIXLINE, DCOR, PKQ, NMOP, SPG, KICK (R181, R190, R194 to
R199). -/

namespace Sys2Proof.Machine

def Prog.zero : Prog :=
  { a := 0, b := 0, c := 0, d := 0, flag := false, prop := false, anchor := 0, solve := 0, norm1 := 0, norm2 := 0, bufs := [],
    written := [], acc := [], pois := [], rows := [], tile := [], ttag := [] }

/-- A command as it is issued: the issuer's windows, address space and captured registers go with it (R192, R195, R201). -/
def newCmd (id : Nat) (g : Group) (kind : CmdKind) (addr : Word) (tok : Nat) (reg : Option Nat) : Cmd :=
  { id := id, kind := kind, owner := g.key, place := g.place, asid := g.sp.asid.toNat, gen := g.sp.gen.toNat, priv := g.priv,
    cap := g.cap, addr := addr, img := 0, recProp := false, tok := tok, reg := reg, ctx := none, num := 0, stage := .issued,
    stat := 0, cause := 0, value := 0, faddr := 0, poisoned := false, mailed := false, entered := 0, since := 0, pr := Prog.zero }

/-- A marker entry: a fence, a TLADV or a command entry. -/
def markerEntry (kind : EKind) : Entry :=
  { kind := kind, pk := .r, addr := 0, size := 0, va := 0, wr := [], prop := false, poison := false, opn := 0, typ := 0, data := 0,
    cmp := 0, lane := 0, lw := false, member := none, late := none }

/-- Puts a new command and its entry into the machine. -/
def State.addCmd (s : State) (kind : CmdKind) (addr : Word) (tok : Nat) (reg : Option Nat) : State :=
  { s with
    cmds := s.cmds ++ [newCmd s.uid s.g kind addr tok reg]
    g := s.g.addIq [markerEntry (.command s.uid)]
    uid := s.uid + 1 }

/-- Whether a command belongs to a copy engine. -/
def CmdKind.isCopy : CmdKind → Bool
  | .copy | .copymm _ | .fixline _ | .hostLine _ => true
  | _ => false

/-- The copies in flight on a core (R190): those of the groups that are bound to it. A host-started line counts on the core of the group that
stands for its owner: DESIGN CHOICE, log entry 125. -/
def copiesOn (s : State) (core : Nat) : Nat :=
  (s.cmds.filter (fun c => c.kind.isCopy && s.groups.any (fun g => g.key = c.owner && g.place.bound && g.place.coreNo = core))).length

/-- The tile that a copy holds for its follow-on (R195). -/
def CmdKind.tiles : CmdKind → List Nat
  | .copymm t => [t]
  | _ => []

/-- A command on a token: a token that is not busy is first reset to OK (R194). -/
def Group.bindTok (g : Group) (t : Nat) (tiles : List Nat) : Group :=
  let k := g.tok t
  g.setTok t (if k.count = 0 then { Token.ok with count := 1, tiles := tiles } else { k with count := k.count + 1, tiles := k.tiles ++ tiles })

/-- The issue checks on a record address (R190, R199), in the order of R153. -/
def recordCheck (s : State) (sa : BitVec 6) (align : Nat) : Option Trap :=
  let a := s.g.sval sa.toNat
  if s.g.stag sa.toNat then some (mkTrap cPROPCTL)
  else if a.toNat % align ≠ 0 then some (mkTrap cALIGN a)
  else if a.toNat / 2 ^ 60 ≠ 0 then some (mkTrap cPAGE a)
  else none

/-- Issues a copy on a token, and stalls while 64 are in flight on the core. -/
def issueCopy (s : State) (kind : CmdKind) (sa : BitVec 6) (tok : BitVec 3) : SRes :=
  if copiesOn s s.g.place.coreNo ≥ 64 then .wait
  else .ok (((s.addCmd kind (s.g.sval sa.toNat) tok.toNat none).upG (fun g => g.bindTok tok.toNat kind.tiles)).advance)

/-- R190: one copy record to the copy engine. -/
def execCopy (sa : BitVec 6) (tok : BitVec 3) (s : State) : Out :=
  scalarWord [sa.toNat] [] (fun s =>
    match recordCheck s sa 64 with
    | some t => .trap t
    | none => issueCopy s .copy sa tok) s

/-- R190, R195: a copy with a follow-on MMA on an allocated tile. -/
def execCopymm (sa : BitVec 6) (tile : BitVec 4) (tok : BitVec 3) (s : State) : Out :=
  scalarWord [sa.toNat] [] (fun s =>
    if !s.g.place.tmask.getLsbD tile.toNat then .trap (mkTrap cILLEGAL)
    else
      match recordCheck s sa 128 with
      | some t => .trap t
      | none => issueCopy s (.copymm tile.toNat) sa tok) s

/-- A line of the group still runs on a channel (R196). -/
def chanBusy (s : State) (chan : Nat) : Bool :=
  s.cmds.any (fun c => c.owner = s.g.key && (match c.kind with | .fixline k => k = chan | _ => false))

/-- R196: a fixed line; it stalls while its channel is busy. -/
def execFixline (sa : BitVec 6) (chan : BitVec 1) (tok : BitVec 3) (s : State) : Out :=
  scalarWord [sa.toNat] [] (fun s =>
    match recordCheck s sa 128 with
    | some t => .trap t
    | none => if chanBusy s chan.toNat then .wait else issueCopy s (.fixline chan.toNat) sa tok) s

/-- What DCOR, PKQ, NMOP, SPG and KICK share (R199): the checks, a free handle, and the command. -/
def engineWord (kind : CmdKind) (sd sa : BitVec 6) (s : State) : Out :=
  scalarWord [sa.toNat] [sd.toNat] (fun s =>
    match recordCheck s sa 64 with
    | some t => .trap t
    | none => guardDst s sd.toNat (
      if s.g.handles ≥ 16 then .wait
      else
        let s1 := s.addCmd kind (s.g.sval sa.toNat) 0 (if sd = 0 then none else some sd.toNat)
        .ok ((s1.upG (fun g => (g.setS sd.toNat 0 false).setFut sd.toNat (.pending s.uid))).advance))) s

/-- R199: DCOR. -/
def execDcor (sd sa : BitVec 6) (s : State) : Out := engineWord .dcor sd sa s
/-- R199: PKQ. -/
def execPkq (sd sa : BitVec 6) (s : State) : Out := engineWord .pkq sd sa s
/-- R199: NMOP. -/
def execNmop (sd sa : BitVec 6) (s : State) : Out := engineWord .nmop sd sa s
/-- R199: SPG. -/
def execSpg (sd sa : BitVec 6) (s : State) : Out := engineWord .spg sd sa s
/-- R199: KICK. -/
def execKick (sd sa : BitVec 6) (s : State) : Out := engineWord .kick sd sa s

end Sys2Proof.Machine
end

