-- ==== Sys2Proof/Machine/Lane.lean ====
section
/-! DEFINITION. What lane words share: issue, paths and the divergence stack, tokens, the lane loop, and their traps (R10, R14, R16,
R18 to R22, R33, R50, R64 to R69, R150, R152, R153, R194, R215, R217, R338). -/

namespace Sys2Proof.Machine

/-! ### Paths and the divergence stack (R19 to R21) -/

/-- Puts a path into a slot. -/
def LaneCtl.putPath (l : LaneCtl) (slot : Bool) (p : Option Path) : LaneCtl := if slot then { l with l1 := p } else { l with l0 := p }

/-- Every open divergence of the group. -/
def LaneCtl.depth (l : LaneCtl) : Nat := l.stack.length + l.biv

/-- A pop has left room on the stack, and the bivouac entry that comes to its bottom is still to be read (R21). -/
def LaneCtl.owesReload (l : LaneCtl) : Bool := l.biv ≠ 0 && l.stack.length < 16

def parkedAt (rpc : LIdx) (p : Option Path) : Bool := match p with | none => true | some p => p.pc = rpc

/-- Pops every entry at whose RPC all occupied slots are parked (R20). An entry that is bad stays (R337); bad lists their
indices. A bivouac entry that is still to be read comes first (R21). A pop ends the turn of a path that deterministic mode chose (R31). -/
def settleDiv (bad : List Nat) : Nat → LaneCtl → LaneCtl
  | 0, l => l
  | n + 1, l =>
    match l.stack with
    | [] => l
    | e :: _ =>
      if !l.owesReload && !bad.contains (l.stack.length - 1) && (l.l0.isSome || l.l1.isSome) && parkedAt e.rpc l.l0 && parkedAt e.rpc l.l1 then
        let l1 := { l with stack := l.stack.tail, kept := false }
        let merged : Path := { pc := e.rpc, mask := e.dmask, p := e.p }
        match l1.stack with
        | t :: rest =>
          if t.qv then
            settleDiv bad n { l1 with
              l0 := some merged, l1 := some { pc := t.qpc, mask := t.qmask, p := t.qp }, slot := false
              stack := { t with qv := false, qpc := 0, qp := false, qmask := 0 } :: rest }
          else settleDiv bad n { l1 with l0 := some merged, l1 := none, slot := false }
        | [] => settleDiv bad n { l1 with l0 := some merged, l1 := none, slot := false }
      else l

/-- Makes the pops that are due. -/
def Group.popDue (g : Group) : Group :=
  { g with ln := settleDiv ((g.r.bad.filter (fun b => b.1 = 0x0B)).map (·.2)) g.ln.depth g.ln }

/-- Every path is parked at a top entry that is bad: its stack index. -/
def Group.stuckEntry (g : Group) : Option Nat :=
  match g.ln.stack with
  | [] => none
  | e :: _ =>
    let i := g.ln.stack.length - 1
    if g.r.bad.contains (0x0B, i) && parkedAt e.rpc g.ln.l0 && parkedAt e.rpc g.ln.l1 then some i else none

/-- A word has issued: its path, or its LISSUE run, goes to the next word. The word after word 2^22 − 1 is word 0: the index has 22 bits
(R141), and the spec says no more. DESIGN CHOICE, log entry 101. -/
def LaneCtl.next (c : LCtx) (l : LaneCtl) : LaneCtl :=
  match l.runs with
  | [] => l
  | r :: rest =>
    if r.lrun then l.putPath c.slot (some { c.path with pc := c.path.pc + 1 })
    else if r.left ≤ 1 then { l with runs := rest } else { l with runs := { r with next := r.next + 1, left := r.left - 1 } :: rest }

/-- A run that has left the queue since before, while accesses that the stream has gone past have still to write its registers, is not
finished (R15): the elements are those that no earlier run waits for. -/
def LaneCtl.noteLate (l before : LaneCtl) (lateV : List Nat) : LaneCtl :=
  let new := lateV.filter (fun x => !before.late.flatten.contains x)
  if l.runs.length < before.runs.length && !new.isEmpty then { l with late := before.late ++ [new] } else l

def Group.laneNext (c : LCtx) (g : Group) : Group := ({ g with ln := (g.ln.next c).noteLate g.ln g.qs.lateV } : Group).popDue

/-! ### What a lane word comes to -/

/-- Done in a state; done with its own control; no effect; a trap of a lane that changes no state; a trap whose effects in a
state stand; not able to issue; accesses entered, and the word waits. -/
inductive LRes where
  | ok (s : State)
  | jump (s : State)
  | skip
  | trap (t : Trap) (lane : Nat)
  | trapIn (s : State) (t : Trap) (lane : Nat)
  | wait
  | hold (s : State)

/-- A lane word's trap: its path stays at the word. It waits for a scalar access that has entered (R162, R163, R327). -/
def laneTrap (s s' : State) (c : LCtx) (t : Trap) (lane : Nat) : State :=
  if s.g.accWaiting then s
  else takeTrap s' t { lw := true, slot := c.slot, word := c.idx, lane := lane, rgn := c.cap.rgn } s.g.pc

def laneEnd (s : State) (c : LCtx) : LRes → Out
  | .ok s' => .next (s'.upG (Group.laneNext c))
  | .jump s' => .next s'
  | .skip => .next (s.upG (Group.laneNext c))
  | .trap t lane => .next (laneTrap s s c t lane)
  | .trapIn s' t lane => .next (laneTrap s s' c t lane)
  | .wait => .next s
  | .hold s' => .next s'

/-! ### Tokens (R150, R194) -/

/-- A token that WT names still has copies outstanding. -/
def tokensBusy (g : Group) (wt : BitVec 8) : Bool := (List.range 8).any (fun i => wt.getLsbD i && (g.tok i).count ≠ 0)

/-- The lowest token that WT names and whose status is FAULT raises TOKEN, a cause of class 4; a word that has no effect under R33 raises
nothing, and only waits. -/
def lateToken (g : Group) (wt : BitVec 8) : Option Trap :=
  ((List.range 8).find? (fun i => wt.getLsbD i && (g.tok i).status = 2)).map (fun i => mkTrap cTOKEN (g.tok i).faddr)

/-! ### Issue -/

/-- Opcodes that a LISSUE run may not hold (R14). -/
def isControlOp (op : Nat) : Bool := op = 0x2D || op = 0x2E || (0x3C ≤ op && op ≤ 0x40)

/-- A tile that a COPYMM of the group holds until its token completes (R195), or that a fill has still to write (R16). -/
def tileHeld (s : State) (t : Nat) : Bool := s.g.tileLate t || (List.range 8).any (fun i => (s.g.tok i).count ≠ 0 && (s.g.tok i).tiles.contains t)

/-- The class 1 checks that depend on the state: control words in a LISSUE run, the register allocation, the tile mask (R10, R14,
R277). -/
def issueOk (g : Group) (c : LCtx) (op : Nat) (uses : List RegUse) (tiles : List (Nat × Nat)) : Bool :=
  !(isControlOp op && !c.lrun && !g.ln.runs.isEmpty) && uses.all (fun u => u.allocated c g.place.lregs) &&
  tiles.all (fun t => (List.range t.2).all (fun i => t.1 + i < 16 && g.place.tmask.getLsbD (t.1 + i)))

/-- Opcodes whose first named register is no destination, or one that they may read. -/
def readsFirst (op : Nat) : Bool :=
  [0x0E, 0x17, 0x1D, 0x23, 0x26, 0x28, 0x2A, 0x2B, 0x2C, 0x31, 0x32, 0x34, 0x38, 0x39, 0x3D].contains op

/-- What a lane word names: its lane registers, its tiles, the scalar registers and the predicates that it reads, its fixed-point
accumulator, and its predicate. -/
structure LaneNames where
  op : Nat
  wt : BitVec 8
  uses : List RegUse
  tiles : List (Nat × Nat)
  sreads : List Nat
  preads : List Nat
  fx : Option Nat
  pn : BitVec 1
  pk : BitVec 3
  deriving DecidableEq, Repr

/-- What a word of the general layout names. -/
def namesOf (op : Nat) (w : LWord) : LaneNames :=
  { op := op, wt := w.wt, uses := laneRegs op w, tiles := laneTiles op w, sreads := laneSReads op w, preads := lanePReads op w
    fx := if op = 0x32 then (if w.mod8.getLsbD 0 then none else some w.vd.toNat) else if op = 0x33 ∨ op = 0x34 then some w.va.toNat else none
    pn := w.pn, pk := w.pk }

/-- A control word names nothing but the tokens that it waits for and its predicate. -/
def namesOnly (op : Nat) (wt : BitVec 8) (pn : BitVec 1 := 0) (pk : BitVec 3 := 0) : LaneNames :=
  { op := op, wt := wt, uses := [], tiles := [], sreads := [], preads := [pk.toNat].filter (· ≠ 0), fx := none, pn := pn, pk := pk }

/-- Words that read elements of lanes other than those that they write. -/
def isCrossOp (op : Nat) : Bool := [0x1E, 0x20, 0x22, 0x23, 0x24, 0x26].contains op

/-- Words that take effect as if the mask were full (R33). -/
def isMaskless (op : Nat) : Bool := op = 0x2E || op = 0x2F || (0x35 ≤ op && op ≠ 0x3D)

/-- The lanes whose elements a word reads (R33, R149, R261). -/
def LaneNames.lanes (n : LaneNames) (g : Group) (c : LCtx) : BitVec 32 :=
  let pt := actMask g c &&& predMask g n.pn n.pk
  if isMaskless n.op || (isCrossOp n.op && pt ≠ 0) then fullMask else pt

/-- The register elements that a lane word reads, in the numbering of R342: those that enter its effect, and the top of the stack, with
which its path is compared. DEDUCED, log entry 55. -/
def readsElem (n : LaneNames) (g : Group) (c : LCtx) (a i : Nat) : Bool :=
  match a with
  | 0x01 => (if readsFirst n.op then n.uses else n.uses.drop 1).any (fun u => c.rn u.reg ≤ i / 32 && i / 32 < c.rn u.reg + u.count) &&
      (n.lanes g c).getLsbD (i % 32)
  | 0x02 => n.sreads.contains i && n.lanes g c ≠ 0
  | 0x03 => n.preads.contains i && (if i = n.pk.toNat then actMask g c ≠ 0 || isMaskless n.op else n.lanes g c ≠ 0)
  | 0x04 => n.tiles.any (fun t => t.1 ≤ i / 1024 && i / 1024 < t.1 + t.2)
  | 0x05 => n.fx.any (fun k => i % 4 = k) && (n.lanes g c).getLsbD (i / 4)
  | 0x06 => n.op = 0x3F
  | 0x0B => i + 1 = g.ln.stack.length
  | _ => false

/-- A lane register that a word names is still to be written by a load that the stream has gone past (R16). An MMA's registers depend on
its shape record, so it waits for every such load. -/
def lateHit (n : LaneNames) (g : Group) (c : LCtx) : Bool :=
  g.qs.lateV.any (fun x => n.op = 0x35 || n.uses.any (fun u => c.rn u.reg ≤ x / 32 && x / 32 < c.rn u.reg + u.count))

/-- A register or a tile that a word names is not free: a pending scalar register, a load that is still to come, a tile that a COPYMM
holds (R16, R181, R195). -/
def laneHeld (n : LaneNames) (c : LCtx) (s : State) : Bool :=
  n.sreads.any s.g.blocked || lateHit n s.g c || n.tiles.any (fun t => (List.range t.2).any (fun i => tileHeld s (t.1 + i)))

/-- What every lane word shares. It waits for the accesses of the word before it, for its tokens, and for the registers and tiles that it
names; it is then checked, takes the handles that it reads, and has its own effect. -/
def laneIssue (n : LaneNames) (f : LCtx → State → LRes) (s : State) : Out :=
  if s.g.qs.pendL.isSome || tokensBusy s.g n.wt then .next s
  else
    let s' := s.upG Group.startRun
    let c := laneCtx s'.g
    if !issueOk s'.g c n.op n.uses n.tiles then laneEnd s' c (.trap (mkTrap cILLEGAL) 0)
    else if laneHeld n c s then .next s
    else
      let s0 := touchRegs s' (readsElem n s'.g c)
      laneEnd s0 c (f c (s0.upG (fun g => n.sreads.foldl Group.consume g)))

/-- A word of the general layout. -/
def laneWord (op : Nat) (w : LWord) (f : LCtx → State → LRes) (s : State) : Out := laneIssue (namesOf op w) f s

/-- Class 4 begins with the tokens of the word (R194): TOKEN is reported before every other cause of class 4, with lane 0. DESIGN CHOICE, log
entry 121. -/
def withTokens (g : Group) (w : LWord) (k : LRes) : LRes :=
  match lateToken g w.wt with
  | some t => .trap t 0
  | none => k

/-! ### Tags of results (R63, R64, R66, R69) -/

/-- taint(w, L) (R63). -/
def taint (g : Group) (c : LCtx) (w : LWord) : Bool := w.tg = 2 || c.path.p || predTag g w.pk

/-- ResultTag(w, L) (R64), over the sources that the lane reads. -/
def resultTag (g : Group) (c : LCtx) (w : LWord) (marked : Bool) (srcs : List Src) : Bool :=
  taint g c w || marked || srcs.any (Src.tag g c)

/-- TG = 1: the lowest lane of a list whose tested sources, predicate or P is a proposal (R66). -/
def settledTest (g : Group) (c : LCtx) (w : LWord) (lanes : List Nat) (tests : Nat → List Src) : Option Nat :=
  if w.tg = 1 then lanes.find? (fun l => predTag g w.pk || c.path.p || (tests l).any (Src.tag g c)) else none

/-- The lowest lane of a list that consumes a bad register element, its predicate register among them (R217, R338). Of several bad elements that
one lane reads, the predicate register's is reported first, then those of operands A, B, C and D in order. DESIGN CHOICE, log entry 127. -/
def badLane (g : Group) (w : LWord) (lanes : List Nat) (srcs : Nat → List Src) : Option (Nat × Word) :=
  if g.r.bad.isEmpty then none
  else lanes.findSome? (fun l => (firstBad g ((if w.pk ≠ 0 then [Src.k w.pk.toNat] else []) ++ srcs l)).map (fun a => (l, a)))

def poisonTrap (a : Word) : Trap := { cause := cPOISON, addr := a, restart := true }

/-- The lowest lane of a list that consumes a bad element or whose values do not fit DRANGE (R153). In one lane POISON is reported before
RANGE. DESIGN CHOICE, log entry 107. -/
def dataTrap (g : Group) (w : LWord) (lanes : List Nat) (srcs : Nat → List Src) (fits : Nat → Bool) : Option (Trap × Nat) :=
  lanes.findSome? (fun l =>
    match badLane g w [l] srcs with
    | some (_, a) => some (poisonTrap a, l)
    | none => if fits l then none else some (mkTrap cRANGE, l))

/-- The trap that a word's address checks report: one of class 3 in the lowest lane that meets one, else POISON of a table walk, which is
of class 4 (R106, R153). -/
def addressTrap (l : List (Trap × Nat)) : Option (Trap × Nat) := (l.find? (fun e => e.1.cause ≠ cPOISON)).or l.head?

/-! ### The lane loop (R215) -/

/-- Writes an element's registers in one lane. -/
def Group.putElems (g : Group) (r l : Nat) (es : List Elem) (t : Bool) : Group :=
  es.zipIdx.foldl (fun g e => g.setV (r + e.2) l e.1 t) g

/-- Marks the elements of a destination in one lane as proposals (R69). -/
def Group.markV (g : Group) (r n l : Nat) : Group :=
  { g with r := { g.r with vtag := ssetMany false g.r.vtag ((List.range n).map (fun i => ((r + i) * 32 + l, true))) } }

/-- What a lane loop writes: n registers from r on, lane by lane; tagOf gives a written lane's tag, adv the lanes whose draw
count advances. -/
def writeLanes (c : LCtx) (w : LWord) (r n : Nat) (outs : List (Nat × List Elem × Flags)) (tagOf : Nat → Bool) (adv : List Nat)
    (g : Group) : Group :=
  let act := lanesOf (actMask g c)
  let g1 := outs.foldl (fun g o => g.putElems r o.1 o.2.1 (tagOf o.1)) g
  let left := act.filter (fun l => !outs.any (fun o => o.1 = l))
  let g2 := if predTag g w.pk then left.foldl (fun g l => g.markV r n l) g1 else g1
  let g3 := adv.foldl Group.bumpSrc g2
  g3.orStatus (outs.foldl (fun f o => f ||| o.2.2) 0)

/-- The common effect of R215 for a word whose destination is n lane registers from r on. srcs are the sources that enter a
lane's result, tests those that TG = 1 tests in an active lane, f a lane's result or none for BOUND. -/
def laneLoop (w : LWord) (r n : Nat) (srcs tests : Nat → List Src) (tagOf : Nat → Bool) (adv : List Nat → List Nat)
    (f : Nat → Option (List Elem × Flags)) (c : LCtx) (s : State) : LRes :=
  let g := s.g
  let act := actMask g c
  let pt := lanesOf (act &&& predMask g w.pn w.pk)
  if act = 0 then .skip
  else
    match settledTest g c w (lanesOf act) tests with
    | some l => .trap (mkTrap cPROPUSE) l
    | none => withTokens g w (
      match badLane g w pt srcs with
      | some (l, a) => .trap (poisonTrap a) l
      | none =>
        match pt.find? (fun l => (f l).isNone) with
        | some l => .trap (mkTrap cBOUND) l
        | none =>
          let outs := pt.filterMap (fun l => (f l).map (fun x => (l, x.1, x.2)))
          .ok (s.upG (writeLanes c w r n outs tagOf (adv pt))))

/-- The lane loop of a word that computes lane by lane: an element of type ty in VD, from the sources of the lane itself. -/
def elementWord (w : LWord) (ty : Nat) (srcs : Nat → List Src) (marked draws : Bool) (f : Nat → Option Rounded) (c : LCtx) (s : State) :
    LRes :=
  let r := c.rn w.vd.toNat
  laneLoop w r (if tyPair ty then 2 else 1) srcs srcs (fun l => resultTag s.g c w marked (srcs l)) (fun pt => if draws then pt else [])
    (fun l => (f l).map (fun x => (toElems ty x.1, x.2))) c s

/-! ### Predicate destinations (R67, R69, R221) -/

/-- Writes bits of a predicate register. A proposal bit makes the register a proposal, settled bits in all 32 lanes make it
settled, and a partial settled write leaves its tag (R67). -/
def Group.putBits (g : Group) (k : Nat) (bitsOf : List (Nat × Bool)) (prop : Bool) : Group :=
  let old := g.pred k
  let new := bitsOf.foldl (fun m b => if b.2 then m ||| (1#32 <<< b.1) else m &&& ~~~ (1#32 <<< b.1)) old
  let tag := if prop then true else if bitsOf.length = 32 then false else g.ptag k
  g.setK k new tag

/-- Writes a predicate register's bits in the lanes that a word writes. Under a proposal predicate the register is marked also for the
active lanes that write nothing (R69); without a written lane nothing else changes. -/
def Group.writePred (g : Group) (k : Nat) (bitsOf : List (Nat × Bool)) (prop mark : Bool) : Group :=
  if bitsOf.isEmpty then (if mark && k ≠ 0 then { g with r := { g.r with ktag := sset false g.r.ktag k true } } else g)
  else g.putBits k bitsOf (prop || mark)

/-- The lane loop of a word whose destination is a predicate register: f gives a lane's bit and flags. -/
def predWord (w : LWord) (srcs : Nat → List Src) (tagOf : Nat → Bool) (f : Nat → Bool × Flags) (c : LCtx) (s : State) : LRes :=
  let g := s.g
  let act := actMask g c
  let pt := lanesOf (act &&& predMask g w.pn w.pk)
  if act = 0 then .skip
  else
    match settledTest g c w (lanesOf act) srcs with
    | some l => .trap (mkTrap cPROPUSE) l
    | none => withTokens g w (
      match badLane g w pt srcs with
      | some (l, a) => .trap (poisonTrap a) l
      | none =>
        let g1 := g.writePred w.vd.toNat (pt.map (fun l => (l, (f l).1))) (pt.any tagOf) (predTag g w.pk)
        .ok (s.setG (g1.orStatus (pt.foldl (fun a l => a ||| (f l).2) 0))))

end Sys2Proof.Machine
end

