-- ==== Sys2Proof/Machine/LaneMem.lean ====
section
/-! DEFINITION. Lane loads, stores, atomics and reduction stores (R243 to R249). -/

namespace Sys2Proof.Machine

/-- The access size of a type (R243). -/
def accessSize (ty : Nat) : Nat := if tyPair ty then 8 else 4

/-- A(L) (R244). -/
def laneAddr (g : Group) (c : LCtx) (w : LWord) (z l : Nat) : Word :=
  let off := (BitVec.ofNat 32 (opB g c w 6 l)).signExtend 64
  let d : Word := if w.ck = 2 then 0 else w.imm.signExtend 64
  g.sval w.va.toNat + off * BitVec.ofNat 64 z + d

/-- The base and offset of a lane, as sources. -/
def addrSrcs (c : LCtx) (w : LWord) (l : Nat) : List Src := .s w.va.toNat :: srcB c w 6 l

/-- The check of one lane's access: ALIGN, then its space (R244). -/
def laneTarget (s : State) (c : LCtx) (w : LWord) (sp : Bool) (acc : Acc) (z l : Nat) : Except Trap Target :=
  let a := laneAddr s.g c w z l
  if a.toNat % z ≠ 0 then .error (mkTrap cALIGN a)
  else if sp then spTarget s z a
  else if a.toNat ≥ 2 ^ 60 then .error (mkTrap cPAGE a)
  else globalTarget s acc a

/-- The traps among checked accesses, each with its lane. -/
def checkTraps {α : Type} (l : List (Nat × Except Trap α)) : List (Trap × Nat) :=
  l.filterMap (fun x => match x.2 with | .error e => some (e, x.1) | .ok _ => none)

/-- The accesses that passed their checks, each with its lane. -/
def checkPasses {α : Type} (l : List (Nat × Except Trap α)) : List (Nat × α) :=
  l.filterMap (fun x => match x.2 with | .ok y => some (x.1, y) | .error _ => none)

/-- Checks every lane of a list: their targets, or the trap to report (R108, R244). -/
def laneTargets (s : State) (c : LCtx) (w : LWord) (sp : Bool) (acc : Acc) (z : Nat) (lanes : List Nat) :
    Except (Trap × Nat) (List (Nat × Target)) :=
  let l := lanes.map (fun l => (l, laneTarget s c w sp acc z l))
  match addressTrap (checkTraps l) with
  | some e => .error e
  | none => .ok (checkPasses l)

/-- The units that a word under TG = 1 reads are tested before any cause of class 4 (R66, R153): the lowest lane whose unit is a proposal as the
group finds it. -/
def unitTest (s : State) (w : LWord) (acc : Acc) (z : Nat) (ts : List (Nat × Target)) : Option Nat :=
  let read := fun (t : Target) i => if acc = .load then viewTag s s.g t.pk (t.addr + i) else homeTag s (t.addr + i)
  if w.tg = 1 ∧ (acc = .load ∨ acc = .atomic) then (ts.find? (fun t => (List.range z).any (read t.2))).map (·.1) else none

/-- A word's cause of class 4, unless a unit that it tests gives PROPUSE, which is of class 2. -/
def afterUnits (u : Option Nat) : LRes → LRes
  | .trap t l => match u with | some k => .trap (mkTrap cPROPUSE) k | none => .trap t l
  | k => k

/-- What every memory word does first: R33, the tags of class 2, the addresses of class 3, the tokens and bad elements of
class 4, the poison of a table walk among them. srcs are the operands that a lane reads. -/
def memoryWord (w : LWord) (sp : Bool) (acc : Acc) (z : Nat) (srcs : Nat → List Src) (k : List (Nat × Target) → LRes) (c : LCtx) (s : State) :
    LRes :=
  let g := s.g
  let act := actMask g c
  let pt := lanesOf (act &&& predMask g w.pn w.pk)
  if act = 0 then .skip
  else
    match settledTest g c w (lanesOf act) srcs with
    | some l => .trap (mkTrap cPROPUSE) l
    | none =>
      match laneTargets s c w sp acc z pt with
      | .error e =>
        if e.1.cause ≠ cPOISON then .trap e.1 e.2
        else afterUnits (unitTest s w acc z (checkPasses (pt.map (fun l => (l, laneTarget s c w sp acc z l))))) (withTokens g w (
          match badLane g w (pt.filter (· ≤ e.2)) srcs with
          | some (l, a) => .trap (poisonTrap a) l
          | none => .trap e.1 e.2))
      | .ok ts =>
        match lateToken g w.wt, badLane g w pt srcs with
        | none, none => k ts
        | _, b => afterUnits (unitTest s w acc z ts) (withTokens g w (match b with | some (l, a) => .trap (poisonTrap a) l | none => k ts))

/-! ### Loads and atomics that return values -/

/-- A word whose accesses have all performed: PROPUSE for a proposal unit under TG = 1, then POISON, then the destination is
written (R66, R245, R249). value gives a lane's bits and tag. -/
def finishReads (w : LWord) (r n : Nat) (p : Pend) (lanes : List Nat) (value : Nat → Option (List Elem × Bool)) (c : LCtx) (s : State) : LRes :=
  let s1 := s.upG (fun g => g.clearPend true)
  let low := fun (f : LaneRes → Bool) => (p.got.filter f).foldl (fun m x => min m x.lane) 32
  if w.tg = 1 ∧ p.got.any (·.prop) then .trapIn s1 (mkTrap cPROPUSE) (low (·.prop))
  else
    match firstPoison p.got with
    | some x => .trapIn s1 x.trap x.lane
    | none =>
      let outs := lanes.filterMap (fun l => (value l).map (fun v => (l, v.1, (0 : Flags))))
      .ok (s1.upG (writeLanes c w r n outs (fun l => match value l with | some v => v.2 | none => false) []))

/-- The word's waiting accesses, when they have all performed. -/
def readsDone (s : State) (k : Pend → State → LRes) : LRes :=
  match s.g.qs.pendL with
  | some p => if p.done then k p s else .hold s
  | none => .hold s

/-- A lane word that waits for what it reads: issued again while it waits, it completes once its accesses have performed. -/
def waitingWord (i : Instr) (k : LCtx → Pend → State → LRes) (first : State → Out) (s : State) : Out :=
  match s.g.qs.pendL with
  | some p =>
    if p.w = i ∧ p.done then
      let c := laneCtx s.g
      laneEnd s c (k c p s)
    else .next s
  | none => first s

/-- The loaded bits of a lane with their tag (R72, R245). -/
def loadedValue (g : Group) (c : LCtx) (w : LWord) (p : Pend) (l : Nat) : Option (List Elem × Bool) :=
  let ty := w.ty.toNat
  (p.got.find? (fun x => x.lane = l)).map (fun x =>
    (toElems ty x.val.toNat, x.prop || resultTag g c w (narrowTy ty) (addrSrcs c w l)))

def finishLoad (w : LWord) (c : LCtx) (p : Pend) (s : State) : LRes :=
  let ty := w.ty.toNat
  finishReads w (c.rn w.vd.toNat) (if tyPair ty then 2 else 1) p (p.got.map (·.lane)) (loadedValue s.g c w p) c s

/-- A load word (R245). -/
def loadWord (op : Nat) (sp : Bool) (i : Instr) (w : LWord) (s : State) : Out :=
  let z := accessSize w.ty.toNat
  waitingWord i (finishLoad w) (laneWord op w (fun c s =>
    memoryWord w sp .load z (addrSrcs c w) (fun ts =>
      let es := ts.map (fun t => { t.2.entry .load z with lane := t.1, lw := true })
      readsDone (startReads s true i es) (finishLoad w c)) c s)) s

/-- R245: VLD. -/
def execVld (w : LWord) (s : State) : Out := loadWord 0x27 false (.vld w) w s
/-- R245: VLDS. -/
def execVlds (w : LWord) (s : State) : Out := loadWord 0x29 true (.vlds w) w s

/-! ### Stores -/

/-- A lane's stored element under its bound check (R246). -/
def storedBits (g : Group) (c : LCtx) (w : LWord) (l : Nat) : Option Rounded :=
  let ty := w.ty.toNat
  eachSub ty (fun j => satBound c w ty (subOf ty (opC g c w ty l) j, 0))

/-- A store whose bytes a higher lane of the word writes again is not seen (R246). -/
def dropOverwritten : List (Nat × Target) → List (Nat × Target)
  | [] => []
  | t :: rest => if rest.any (fun x => x.2.addr = t.2.addr) then dropOverwritten rest else t :: dropOverwritten rest

/-- A store word (R246). -/
def storeWord (op : Nat) (sp : Bool) (w : LWord) (s : State) : Out :=
  let ty := w.ty.toNat
  let z := accessSize ty
  laneWord op w (fun c s =>
    let srcs := fun l => addrSrcs c w l ++ srcC c w ty l
    memoryWord w sp .store z srcs (fun ts =>
      match ts.find? (fun t => (storedBits s.g c w t.1).isNone) with
      | some t => .trap (mkTrap cBOUND t.2.va) t.1
      | none =>
        let one := fun (t : Nat × Target) =>
          { t.2.store z ((storedBits s.g c w t.1).getD (0, 0)).1 (resultTag s.g c w (narrowTy ty) (srcs t.1)) with lane := t.1, lw := true }
        let flags := ts.foldl (fun f t => f ||| ((storedBits s.g c w t.1).getD (0, 0)).2) 0
        .ok (s.upG (fun g => (g.addIq (mergeStores ((dropOverwritten ts).map one))).orStatus flags))) c s) s

/-- R246: VST. -/
def execVst (w : LWord) (s : State) : Out := storeWord 0x28 false w s
/-- R246: VSTS. -/
def execVsts (w : LWord) (s : State) : Out := storeWord 0x2A true w s

/-! ### Atomics and reduction stores (R123, R247 to R249) -/

/-- The type code of R208 for a lane type. -/
def atomTyp (ty : Nat) : Nat := match ty with | 2 => 0 | 6 => 1 | 3 => 2 | 7 => 3 | _ => 4

def atomOpn (w : LWord) : Nat := w.mod8.toNat / 16 % 8

/-- The operands of an atomic that a lane reads. -/
def atomSrcs (c : LCtx) (w : LWord) (l : Nat) : List Src :=
  let ty := w.ty.toNat
  addrSrcs c w l ++ srcC c w ty l ++ (if atomOpn w = 6 then srcD c w ty l else [])

/-- One lane's atomic. -/
def atomEntry (g : Group) (c : LCtx) (w : LWord) (kind : EKind) (t : Nat × Target) : Entry :=
  let ty := w.ty.toNat
  { t.2.entry kind (accessSize ty) with
    opn := atomOpn w, typ := atomTyp ty, data := BitVec.ofNat 64 (opC g c w ty t.1), cmp := BitVec.ofNat 64 (opD g c w ty t.1)
    prop := resultTag g c w false (atomSrcs c w t.1), lane := t.1, lw := true }

/-- Integer adds of one word to one address are combined at the lowest lane (R123, R248). -/
def combineFuel : Nat → List Entry → List Entry
  | 0, l => l
  | _, [] => []
  | n + 1, e :: t =>
    let same := fun (x : Entry) => x.va = e.va
    (t.filter same).foldl (fun a x => { a with data := a.data + x.data, prop := a.prop || x.prop }) e ::
      combineFuel n (t.filter (fun x => !same x))

def combineAdds (w : LWord) (es : List Entry) : List Entry := if atomOpn w = 0 then combineFuel es.length es else es

/-- The place of a lane's access once the word's accesses have performed. -/
def sharedResult (g : Group) (c : LCtx) (w : LWord) (p : Pend) (l : Nat) : Option LaneRes :=
  if atomOpn w = 0 then p.got.find? (fun x => laneAddr g c w (accessSize w.ty.toNat) l = x.va)
  else p.got.find? (fun x => x.lane = l)

/-- The lower lanes of a list whose addends a lane's value takes in (R123). -/
def atomLower (g : Group) (c : LCtx) (w : LWord) (pt : List Nat) (l : Nat) : List Nat :=
  let z := accessSize w.ty.toNat
  if atomOpn w = 0 then pt.filter (fun k => k < l && laneAddr g c w z k = laneAddr g c w z l) else []

/-- The tag that a lane's value takes from the operands (R74). -/
def atomTag (g : Group) (c : LCtx) (w : LWord) (pt : List Nat) (l : Nat) : Bool :=
  resultTag g c w false (addrSrcs c w l ++ (atomLower g c w pt l).flatMap (fun k => srcC c w w.ty.toNat k))

/-- What VATOM returns to a lane: the old value plus the addends of the lower lanes to that address, with its tag (R74, R123). -/
def atomValue (g : Group) (c : LCtx) (w : LWord) (p : Pend) (pt : List Nat) (l : Nat) : Option (List Elem × Bool) :=
  let ty := w.ty.toNat
  (sharedResult g c w p l).map (fun x =>
    let v := (atomLower g c w pt l).foldl (fun a k => a + opC g c w ty k) x.val.toNat % 2 ^ (8 * accessSize ty)
    (toElems ty v, x.prop || atomTag g c w pt l))

def finishAtom (w : LWord) (c : LCtx) (p : Pend) (s : State) : LRes :=
  let ty := w.ty.toNat
  let pt := lanesOf (actMask s.g c &&& predMask s.g w.pn w.pk)
  finishReads w (c.rn w.vd.toNat) (if tyPair ty then 2 else 1) p pt (atomValue s.g c w p pt) c s

/-- R248: VATOM. -/
def execVatom (w : LWord) (s : State) : Out :=
  let z := accessSize w.ty.toNat
  waitingWord (.vatom w) (finishAtom w) (laneWord 0x2B w (fun c s =>
    memoryWord w (w.mod8.getLsbD 7) .atomic z (atomSrcs c w) (fun ts =>
      readsDone (startReads s true (.vatom w) (combineAdds w (ts.map (atomEntry s.g c w .atomic)))) (finishAtom w c)) c s)) s

/-- R248: VRDS. -/
def execVrds (w : LWord) (s : State) : Out :=
  let z := accessSize w.ty.toNat
  laneWord 0x2C w (fun c s =>
    memoryWord w (w.mod8.getLsbD 7) .reduce z (atomSrcs c w) (fun ts =>
      .ok (s.upG (fun g => g.addIq (combineAdds w (ts.map (atomEntry s.g c w .reduce)))))) c s) s

end Sys2Proof.Machine
end

