-- ==== Sys2Proof/Machine/LaneControl.lean ====
section
/-! DEFINITION. Lane branches, the end of a lane program, the execute mask, and words that force and report tags (R19 to R21, R33,
R65, R68, R250 to R255). -/

namespace Sys2Proof.Machine

/-! ### LBR (R250, R251) -/

/-- A group's divergence limit: 256 entries, and 16 in a handler, which has no bivouac area (R21, R332). -/
def Group.divLimit (g : Group) : Nat := if g.lvl = 0 then 256 else 16

/-- A path that was displaced goes to the top entry (R20). -/
def displace (other : Option Path) : List DivEntry → List DivEntry
  | t :: rest =>
    match other with
    | some p => { t with qpc := p.pc, qmask := p.mask, qp := p.p, qv := true } :: rest
    | none => t :: rest
  | [] => []

/-- A split, once a full stack has made room (spillDiv): a new entry, the falling lanes in the slot of the branch, the taken and the inactive
lanes in the other (R20). -/
def splitPath (g : Group) (c : LCtx) (w : LbrWord) (fall : BitVec 32) (p : Bool) : Group :=
  let other := if c.slot then g.ln.l0 else g.ln.l1
  let e : DivEntry := { rpc := w.rpc, qpc := 0, qv := false, qp := false, p := c.path.p, qmask := 0, dmask := c.path.mask }
  let l1 : LaneCtl := { g.ln with stack := e :: displace other g.ln.stack, kept := false }
  let l2 := l1.putPath c.slot (some { pc := c.path.pc + 1, mask := fall, p := p })
  let l3 := l2.putPath (!c.slot) (some { pc := w.tgt, mask := c.path.mask &&& ~~~ fall, p := p })
  let top := l3.stack.length - 1
  { g with ln := l3, r := { g.r with bad := mend g.r.bad (fun a i => a = 0x0B && i = top) } }

/-- Puts the issuing path at a word, with a P. -/
def Group.goTo (g : Group) (c : LCtx) (pc : LIdx) (p : Bool) : Group :=
  { g with ln := g.ln.putPath c.slot (some { c.path with pc := pc, p := p }) }

/-- The effect of LBR on the path that issues it. -/
def branch (w : LbrWord) (c : LCtx) (s : State) : LRes :=
  let g := s.g
  let act := actMask g c
  let kp := predTag g w.pk
  if act = 0 then
    .jump (s.setG (g.goTo c w.rpc c.path.p).popDue)
  else if w.tg = 1 ∧ (c.path.p ∨ kp) then .trap (mkTrap cPROPUSE) (lowLane act)
  else
    match lateToken g w.wt, firstBad g (if w.pk = 0 then [] else [.k w.pk.toNat]) with
    | some t, _ => .trap t 0
    | none, some a => .trap (poisonTrap a) (lowLane act)
    | none, none =>
      let taken := act &&& predMask g w.pn w.pk
      let fall := act &&& ~~~ predMask g w.pn w.pk
      let p := c.path.p || kp
      if fall = 0 then .jump (s.setG (g.goTo c w.tgt p).popDue)
      else if taken = 0 then .jump (s.setG (g.goTo c (c.path.pc + 1) p).popDue)
      else if g.ln.depth ≥ g.divLimit then .trap (mkTrap cDIVSTACK (BitVec.ofNat 64 g.ln.depth)) (lowLane act)
      else .jump ((spillDiv s).upG (fun g => (splitPath g c w fall p).popDue))

/-- R251: LBR. -/
def execLbr (w : LbrWord) (s : State) : Out := laneIssue (namesOnly 0x2D w.wt w.pn w.pk) (branch w) s

/-! ### LEND (R252) -/

/-- The run that executes is finished: the slots empty, and the next run comes to the head. -/
def Group.endRun (g : Group) : Group :=
  { g with ln := ({ g.ln with l0 := none, l1 := none, slot := false, kept := false, runs := g.ln.runs.tail } : LaneCtl).noteLate g.ln g.qs.lateV }

/-- R252: LEND. -/
def execLend (w : LWord) (s : State) : Out :=
  laneWord 0x2E w (fun _ s =>
    withTokens s.g w (
      if s.g.ln.gl.isOpen && s.g.lvl = 0 then .trap (mkTrap cCAIRN) 0
      else if s.g.ln.depth ≠ 0 then .trap (mkTrap cDIVSTACK (BitVec.ofNat 64 s.g.ln.depth)) 0
      else .jump (s.upG Group.endRun))) s

/-! ### LMASK (R253) -/

/-- The mask operand and its source. -/
def maskOperand (g : Group) (w : LWord) : BitVec 32 × List Src :=
  if w.mod8.getLsbD 0 then (g.pred w.va.toNat, if w.va = 0 then [] else [.k w.va.toNat])
  else if w.bk = 1 then ((g.sval w.vb.toNat).setWidth 32, [.s w.vb.toNat])
  else (w.imm.signExtend 32, [])

/-- The new EXMASK.LANES. -/
def newMask (opn : Nat) (old m : BitVec 32) : BitVec 32 :=
  match opn with | 0 => m | 1 => old &&& m | 2 => old ||| m | _ => old &&& ~~~ m

/-- R253: LMASK. -/
def execLmask (w : LWord) (s : State) : Out :=
  laneWord 0x2F w (fun c s =>
    let m := maskOperand s.g w
    if m.2.any (Src.tag s.g c) then .trap (mkTrap cPROPCTL) 0
    else withTokens s.g w (
      match firstBad s.g m.2 with
      | some a => .trap (poisonTrap a) 0
      | none => .ok (s.upG (fun g => { g with sp := { g.sp with exmask := newMask (w.mod8.toNat / 4 % 4) g.sp.exmask m.1 } })))) s

/-! ### VPROP and VTAG (R65, R254, R255) -/

/-- R254: VPROP. -/
def execVprop (w : LWord) (s : State) : Out :=
  let ty := w.ty.toNat
  laneWord 0x30 w (fun c s =>
    let srcs := fun l => srcA c w ty l
    laneLoop w (c.rn w.vd.toNat) (if tyPair ty then 2 else 1) srcs srcs (fun _ => true) (fun _ => [])
      (fun l => some (toElems ty (opA s.g c w ty l), 0)) c s) s

/-- What VTAG reports on, as sources. -/
def tagSrcs (c : LCtx) (w : LWord) (l : Nat) : List Src :=
  match w.mod8.toNat with
  | 0 => srcA c w w.ty.toNat l
  | 1 => if w.va = 0 then [] else [.k w.va.toNat]
  | 2 => [.t w.va.toNat]
  | _ => []

/-- R255: VTAG; the report is settled unless TG = 2 (R65), and reads tags alone, so it consumes no data. Active lanes for which a proposal
predicate is false mark kd (R69). -/
def execVtag (w : LWord) (s : State) : Out :=
  laneWord 0x31 w (fun c s =>
    let g := s.g
    let act := actMask g c
    let pt := lanesOf (act &&& predMask g w.pn w.pk)
    let bit := fun l => if w.mod8 = 3 then c.path.p else (tagSrcs c w l).any (Src.tag g c)
    if act = 0 then .skip
    else
      match settledTest g c w (lanesOf act) (tagSrcs c w) with
      | some l => .trap (mkTrap cPROPUSE) l
      | none => withTokens g w (
        match badLane g w pt (fun _ => []) with
        | some (l, a) => .trap (poisonTrap a) l
        | none => .ok (s.setG (g.writePred w.vd.toNat (pt.map (fun l => (l, bit l))) (w.tg = 2)
            (predTag g w.pk && act &&& ~~~ predMask g w.pn w.pk ≠ 0))))) s

end Sys2Proof.Machine
end

