-- ==== Sys2Proof/Machine/Generator.lean ====
section
/-! DEFINITION. Generator loops and the cairn (R275 to R285). -/

namespace Sys2Proof.Machine

/-! ### The decision (R280) -/

/-- One path in L0, the other slot empty. -/
def Group.onePath (g : Group) (pc : LIdx) (p : Bool) : Group :=
  { g with ln := { g.ln with l0 := some { Path.full pc with p := p }, l1 := none, slot := false, kept := false } }

/-- Puts the group into its next step: a consumer step, a producer step, or the exit. -/
def Group.decide (g : Group) : Group :=
  let l := g.ln.gl
  let live := l.xmask &&& ~~~ l.done
  if l.cairn.length ≥ l.hi ∨ (live = 0 ∧ l.cairn.length > 0) then
    let g1 := g.onePath l.cent l.pc
    { g1 with ln := { g1.ln with gl := { l with body := 2, popped := false } } }
  else if live ≠ 0 then
    let g1 := g.onePath (l.gpc + 1) l.pp
    { g1 with ln := { g1.ln with gl := { l with body := 1 } }, sp := { g.sp with exmask := live } }
  else
    let g1 := g.onePath l.xpc (l.pp || l.pc)
    { g1 with ln := { g1.ln with gl := { l with exiting := true } }, sp := { g.sp with exmask := l.xmask } }

/-- The divergence stack or the bivouac area holds an entry: of this step, since a loop opens with none. -/
def Group.diverged (g : Group) : Bool := g.ln.depth ≠ 0

/-- A step of the loop runs: the loop is open, not at its exit, and the group is in no handler (R332). -/
def Group.inStep (g : Group) : Bool := g.ln.gl.body ≠ 0 && !g.ln.gl.exiting && g.lvl = 0

/-! ### GENBEG (R276) -/

/-- The class 1 checks of GENBEG that depend on the state: the frames' registers and the threshold. -/
def genbegIssueOk (g : Group) (w : GenbegWord) (hi : Nat) : Bool :=
  64 * (max w.pfb.toNat w.cfb.toNat + 1) ≤ g.place.lregs && hi ≤ w.capm1.toNat + 1

/-- The loop that GENBEG opens. -/
def openLoop (w : GenbegWord) (c : LCtx) (hi : Nat) (g : Group) : GenLoop :=
  { body := 0, done := 0, cap := w.capm1.toNat + 1, hi := hi, gpc := c.path.pc, cent := w.cent, xpc := w.xpc, pfb := w.pfb.toNat,
    cfb := w.cfb.toNat, xmask := g.sp.exmask, pp := c.path.p, pc := c.path.p, popped := false, exiting := false, susp := none, cairn := [] }

/-- R276: GENBEG. -/
def execGenbeg (w : GenbegWord) (s : State) : Out :=
  laneIssue (namesOnly 0x3C w.wt) (fun c s =>
    let g := s.g
    let hi := if w.hi = 0 then g.ln.gl.hi else w.hi.toNat
    let other := if c.slot then g.ln.l0 else g.ln.l1
    if !genbegIssueOk g w hi then .trap (mkTrap cILLEGAL) 0
    else
      match lateToken g w.wt with
      | some t => .trap t 0
      | none =>
        if g.lvl ≠ 0 || g.ln.gl.isOpen || other.isSome || g.diverged then .trap (mkTrap cCAIRN) 0
        else
          let bad := g.r.bad.filter (fun b => b.1 ≠ 0x06)
          let g1 : Group := { g with ln := { g.ln with gl := openLoop w c hi g }, r := { g.r with bad := bad } }
          .jump (s.setG g1.decide)) s

/-! ### YIELD (R278, R282) -/

/-- The registers of operand group i. -/
def yieldReg (c : LCtx) (w : LWord) (i : Nat) : Nat := c.rn (match i with | 0 => w.va.toNat | 1 => w.vb.toNat | _ => w.vc.toNat)
def yieldWords (w : LWord) : Nat := w.mod8.toNat % 4 + 1
def yieldNops (w : LWord) : Nat := w.mod8.toNat / 4 % 4 + 1

/-- The entry of one operand group of a lane, its words tagged each over its own register (R77). -/
def yieldEntry (g : Group) (c : LCtx) (w : LWord) (l i : Nat) : CairnEntry :=
  { words := (List.range 4).map (fun k =>
      if k < yieldWords w then
        let r := yieldReg c w i + k
        (g.velem r l, resultTag g c w false [.v r l])
      else (0, false)) }

/-- The sources of a lane. -/
def yieldSrcs (c : LCtx) (w : LWord) (l : Nat) : List Src :=
  (List.range (yieldNops w)).flatMap (fun i => (List.range (yieldWords w)).map (fun k => Src.v (yieldReg c w i + k) l))

/-- The overflow interlude: the producer path with its stack and EXMASK is suspended at the YIELD, and a consumer step runs (R282). -/
def Group.interlude (g : Group) (c : LCtx) (p : Bool) : Group :=
  let l := g.ln.gl
  let susp : Susp := { path := { c.path with p := p }, exmask := g.sp.exmask, stack := g.ln.stack }
  let g1 := g.onePath l.cent l.pc
  { g1 with ln := { g1.ln with stack := [], gl := { l with body := 3, popped := false, susp := some susp } } }

/-- Appends entries to the cairn; a bad entry that is written again is whole. -/
def Group.append (g : Group) (es : List CairnEntry) : Group :=
  let l := g.ln.gl
  let bad := mend g.r.bad (fun a i => a = 0x06 && l.cairn.length ≤ i && i < l.cairn.length + es.length)
  { g with ln := { g.ln with gl := { l with cairn := l.cairn ++ es } }, r := { g.r with bad := bad } }

/-- A YIELD under a proposal predicate taints its path and the consumer body (R68, R278). -/
def Group.taintBodies (g : Group) (c : LCtx) (k : Bool) : Group :=
  if k then
    let g1 : Group := { g with ln := { g.ln with gl := { g.ln.gl with pc := true } } }
    g1.goTo c c.path.pc true
  else g

/-- R278: YIELD. -/
def execYield (w : LWord) (s : State) : Out :=
  laneWord 0x3D w (fun c s =>
    let g := s.g
    let act := actMask g c
    let pt := lanesOf (act &&& predMask g w.pn w.pk)
    let l := g.ln.gl
    if act = 0 then .skip
    else
      match settledTest g c w (lanesOf act) (yieldSrcs c w) with
      | some k => .trap (mkTrap cPROPUSE) k
      | none => withTokens g w (
        if !g.inStep || l.body ≠ 1 || g.diverged then .trap (mkTrap cCAIRN) 0
        else
          match badLane g w pt (yieldSrcs c w) with
          | some (k, a) => .trap (poisonTrap a) k
          | none =>
            let n := pt.length * yieldNops w
            let k := predTag g w.pk
            let g1 := g.taintBodies c k
            if l.cairn.length + n > l.cap then
              (if l.cairn.length = 0 then .trap (mkTrap cCAIRN) 0 else .jump (s.setG (g1.interlude c (c.path.p || k))))
            else
              let es := pt.flatMap (fun l => (List.range (yieldNops w)).map (yieldEntry g c w l))
              .jump (s.setG ((g1.append es).goTo c (c.path.pc + 1) (c.path.p || k)).popDue))) s

/-! ### GSTEP (R279) -/

/-- A producer's GSTEP: DONE, the kept P, and the taint of both bodies under a proposal predicate. -/
def Group.endProducer (g : Group) (c : LCtx) (w : LWord) : Group :=
  let l := g.ln.gl
  let live := l.xmask &&& ~~~ l.done
  let taintAll := predTag g w.pk && live ≠ 0
  { g with ln := { g.ln with gl := { l with
      done := l.done ||| (live &&& predMask g w.pn w.pk), pp := c.path.p || taintAll, pc := l.pc || taintAll } } }

/-- The end of an interlude: the suspended path comes back and issues its YIELD again (R282). -/
def Group.resumeProducer (g : Group) (x : Susp) : Group :=
  { g with
    ln := { g.ln with
      l0 := some x.path, l1 := none, slot := false, kept := false, stack := x.stack
      gl := { g.ln.gl with body := 1, susp := none } }
    sp := { g.sp with exmask := x.exmask } }

/-- R279: GSTEP. -/
def execGstep (w : LWord) (s : State) : Out :=
  laneWord 0x3E w (fun c s =>
    let g := s.g
    let l := g.ln.gl
    withTokens g w (
      if !g.inStep || g.diverged then .trap (mkTrap cCAIRN) 0
      else if l.body = 1 then
        (match firstBad g (if w.pk = 0 then [] else [.k w.pk.toNat]) with
         | some a => .trap (poisonTrap a) 0
         | none => .jump (s.setG (g.endProducer c w).decide))
      else if w.pn ≠ 0 ∨ w.pk ≠ 0 ∨ !l.popped then .trap (mkTrap cCAIRN) 0
      else
        let g1 : Group := { g with ln := { g.ln with gl := { l with pc := c.path.p } } }
        match l.body, l.susp with
        | 3, some x => .jump (s.setG (g1.resumeProducer x))
        | _, _ => .jump (s.setG g1.decide))) s

/-! ### CPOP (R281) -/

/-- Pops n entries into the lanes, the oldest into lane 0. -/
def Group.popInto (g : Group) (c : LCtx) (w : LWord) (n : Nat) : Group :=
  let l := g.ln.gl
  let put := fun (g : Group) (e : CairnEntry × Nat) =>
    (e.1.words.take (w.mod8.toNat % 4 + 1)).zipIdx.foldl (fun g x => g.setV (c.rn w.vd.toNat + x.2) e.2 x.1.1 (x.1.2 || c.path.p)) g
  let g1 := (l.cairn.take n).zipIdx.foldl put g
  let bad := g1.r.bad.filterMap (fun b => if b.1 = 0x06 then (if b.2 < n then none else some (b.1, b.2 - n)) else some b)
  { g1 with
    ln := { g1.ln with gl := { l with cairn := l.cairn.drop n, popped := true } }
    sp := { g1.sp with exmask := BitVec.ofNat 32 (2 ^ n - 1) }
    r := { g1.r with bad := bad } }

/-- R281: CPOP. -/
def execCpop (w : LWord) (s : State) : Out :=
  laneWord 0x3F w (fun c s =>
    let g := s.g
    let l := g.ln.gl
    let n := min 32 l.cairn.length
    withTokens g w (
      if !g.inStep || l.body < 2 || l.popped then .trap (mkTrap cCAIRN) 0
      else
        match (List.range n).find? (fun e => g.r.bad.contains (0x06, e)) with
        | some e => .trap (poisonTrap (regPoison 0x06 (g.place.slot * 256 + e))) e
        | none => .ok (s.setG (g.popInto c w n)))) s

/-! ### GENEND (R283) -/

/-- R283: GENEND. -/
def execGenend (w : LWord) (s : State) : Out :=
  laneWord 0x40 w (fun _ s =>
    let g := s.g
    withTokens g w (
      if !g.ln.gl.exiting || g.lvl ≠ 0 then .trap (mkTrap cCAIRN) 0
      else .ok (s.upG (fun g => { g with ln := { g.ln with gl := { g.ln.gl with body := 0, exiting := false } } })))) s

end Sys2Proof.Machine
end

