-- ==== Sys2Proof/Machine/LaneFloat.lean ====
section
/-! DEFINITION. Floating lane words and the correctly rounded functions (R223 to R227). -/

namespace Sys2Proof.Machine

/-- A rounding toward −∞ gives an exact zero of opposite signs the sign − (R49). -/
def isRdn (m : Nat) : Bool := m = 4

/-- An exact value rounded once into the word's type, with the flags of the operation, SAT and the bound check (R47, R48, R54). -/
def floatWritten (c : LCtx) (w : LWord) (ty u : Nat) (v : Val × Flags) : Option Rounded :=
  let r := roundSat (tyFmt ty) (rndMode c w) u (w.sat = 1) v.1
  satBound c w ty (r.1, r.2 ||| v.2)

/-- A word of A and B that rounds an exact value once per sub-element; f gets the flag of RDN. -/
def floatWord (op : Nat) (w : LWord) (f : Bool → Val → Val → Val × Flags) (s : State) : Out :=
  let ty := w.ty.toNat
  laneWord op w (fun c s =>
    let m := rndMode c w
    elementWord w ty (fun l => srcA c w ty l ++ srcB c w ty l) (narrowTy ty || m = 6) (m = 6)
      (fun l => eachSub ty (fun j => floatWritten c w ty (drawSR s.g l j)
        (f (isRdn m) (valOf ty (subOf ty (opA s.g c w ty l) j)) (valOf ty (subOf ty (opB s.g c w ty l) j))))) c s) s

/-- R224: a + b. -/
def execFadd (w : LWord) (s : State) : Out := floatWord 0x11 w addV s
/-- R224: a − b. -/
def execFsub (w : LWord) (s : State) : Out := floatWord 0x12 w (fun d a b => addV d a (negV b)) s
/-- R224: a × b. -/
def execFmul (w : LWord) (s : State) : Out := floatWord 0x13 w (fun _ a b => mulV a b) s

/-- a × b + c, the product not rounded; 0 × ∞ sets NV even beside a quiet NaN (R224). -/
def fmaV (rdn : Bool) (a b c : Val) : Val × Flags :=
  let p := mulV a b
  let r := addV rdn p.1 c
  (r.1, p.2 ||| r.2)

/-- R224: FFMA. -/
def execFfma (w : LWord) (s : State) : Out :=
  let ty := w.ty.toNat
  laneWord 0x14 w (fun c s =>
    let m := rndMode c w
    elementWord w ty (fun l => srcA c w ty l ++ srcB c w ty l ++ srcC c w ty l) (narrowTy ty || m = 6) (m = 6)
      (fun l => eachSub ty (fun j => floatWritten c w ty (drawSR s.g l j)
        (fmaV (isRdn m) (valOf ty (subOf ty (opA s.g c w ty l) j)) (valOf ty (subOf ty (opB s.g c w ty l) j))
          (valOf ty (subOf ty (opC s.g c w ty l) j))))) c s) s

/-- a below b with −0 below +0 (R225). -/
def ltZero (a b : Val) : Bool := ltV a b || (eqV a b && signV a && !signV b)

/-- FMIN or FMAX of two codes (R225): one operand's bits, unchanged. -/
def pickCode (ty : Nat) (wantLess : Bool) (a b : Nat) : Rounded :=
  let x := valOf ty a
  let y := valOf ty b
  let nv := sigFlag x ||| sigFlag y
  let code :=
    if isNan x && isNan y then canonNaN (tyFmt ty)
    else if isNan x then b
    else if isNan y then a
    else if wantLess then (if ltZero y x then b else a) else (if ltZero x y then b else a)
  (code, nv)

def pickWord (op : Nat) (wantLess : Bool) (w : LWord) (s : State) : Out :=
  let ty := w.ty.toNat
  laneWord op w (fun c s =>
    elementWord w ty (fun l => srcA c w ty l ++ srcB c w ty l) (narrowTy ty) false
      (fun l => eachSub ty (fun j =>
        satBound c w ty (pickCode ty wantLess (subOf ty (opA s.g c w ty l) j) (subOf ty (opB s.g c w ty l) j)))) c s) s

/-- R225: FMIN. -/
def execFmin (w : LWord) (s : State) : Out := pickWord 0x15 true w s
/-- R225: FMAX. -/
def execFmax (w : LWord) (s : State) : Out := pickWord 0x16 false w s

/-- The conditions of R226 with their flags. -/
def floatCond (cc : Nat) (a b : Val) : Bool × Flags :=
  let un := isNan a || isNan b
  let sig := sigFlag a ||| sigFlag b
  match cc with
  | 0 => (eqV a b, sig)
  | 1 => (un || !eqV a b, sig)
  | 2 => (!un && ltV a b, if un then fNV else 0)
  | 3 => (!un && !ltV b a, if un then fNV else 0)
  | 4 => (!un && ltV b a, if un then fNV else 0)
  | 5 => (!un && !ltV a b, if un then fNV else 0)
  | 6 => (un, sig)
  | _ => (!un, sig)

/-- R226: FCMP. -/
def execFcmp (w : LWord) (s : State) : Out :=
  let ty := w.ty.toNat
  laneWord 0x17 w (fun c s =>
    let srcs := fun l => srcA c w ty l ++ srcB c w ty l
    predWord w srcs (fun l => resultTag s.g c w false (srcs l))
      (fun l => floatCond w.mod8.toNat (valOf ty (opA s.g c w ty l)) (valOf ty (opB s.g c w ty l))) c s) s

/-- A correctly rounded function of A (R227). -/
def funWord (op : Nat) (f : RFun) (w : LWord) (s : State) : Out :=
  laneWord op w (fun c s =>
    let m := rndMode c w
    elementWord w 10 (fun l => srcA c w 10 l) (m = 6) (m = 6)
      (fun l => floatWritten c w 10 (drawSR s.g l 0) (evalRFun f (valOf 10 (opA s.g c w 10 l)))) c s) s

/-- R227: 1/a. -/
def execFrcp (w : LWord) (s : State) : Out := funWord 0x18 .rcp w s
/-- R227: 1/√a. -/
def execFrsq (w : LWord) (s : State) : Out := funWord 0x19 .rsq w s
/-- R227: √a. -/
def execFsqrt (w : LWord) (s : State) : Out := funWord 0x1A .sqrt w s
/-- R227: 2^a. -/
def execFexp2 (w : LWord) (s : State) : Out := funWord 0x1B .exp2 w s
/-- R227: log2 a. -/
def execFlog2 (w : LWord) (s : State) : Out := funWord 0x1C .log2 w s

end Sys2Proof.Machine
end

