-- ==== Sys2Proof/Machine/LaneCross.lean ====
section
/-! DEFINITION. Words that move values between lanes and out to the scalar stream (R236 to R242). -/

namespace Sys2Proof.Machine

/-- The lane loop of a cross-lane word: TG = 1 tests only the elements that enter a written result (R66). A result of no element is the
identity of R240, which is not rounded: it draws nothing and is settled (DEDUCED, log entry 61). -/
def crossWord (w : LWord) (ty : Nat) (srcs : Nat → List Src) (marked draws : Bool) (f : Nat → Option Rounded) (c : LCtx) (s : State) :
    LRes :=
  let r := c.rn w.vd.toNat
  let pt := actMask s.g c &&& predMask s.g w.pn w.pk
  laneLoop w r (if tyPair ty then 2 else 1) srcs (fun l => if pt.getLsbD l then srcs l else [])
    (fun l => resultTag s.g c w (marked && !(srcs l).isEmpty) (srcs l)) (fun p => p.filter (fun l => draws && !(srcs l).isEmpty)) (fun l => (f l).map (fun x => (toElems ty x.1, x.2))) c s

/-- The source lane of VSHF (R238). -/
def shfLane (mode l n : Nat) : Nat :=
  match mode with
  | 0 => n
  | 1 => if l < n then l else l - n
  | 2 => if l + n > 31 then l else l + n
  | 3 => l ^^^ n
  | _ => (l + n) % 32

/-- R238: VSHF. -/
def execVshf (w : LWord) (s : State) : Out :=
  let ty := w.ty.toNat
  laneWord 0x22 w (fun c s =>
    let from_ := fun l => shfLane w.mod8.toNat l (opB s.g c w 6 l % 32)
    crossWord w ty (fun l => srcA c w ty (from_ l) ++ srcB c w 6 l) (narrowTy ty) false (fun l => some (opA s.g c w ty (from_ l), 0)) c s) s

/-! ### Reductions (R239, R240) -/

/-- The identity of an operation (R239). -/
def reduceIdentity (ty o : Nat) : Nat :=
  match o with
  | 1 => if tyInt ty then wrapInt (tyWidth ty) (maxOf (tyWidth ty) (tySigned ty)) else if ty = 11 then 0x7FF0000000000000 else 0x7F800000
  | 2 => if tyInt ty then wrapInt (tyWidth ty) (minOf (tyWidth ty) (tySigned ty)) else if ty = 11 then 0xFFF0000000000000 else 0xFF800000
  | 3 => 2 ^ tyWidth ty - 1
  | _ => 0

/-- FMIN or FMAX over a set (R225, R239): over its numbers, or the canonical NaN when it has none. -/
def pickOver (ty : Nat) (wantLess : Bool) (codes : List Nat) : Rounded :=
  let nv := codes.foldl (fun f x => f ||| sigFlag (valOf ty x)) 0
  match codes.filter (fun x => !isNan (valOf ty x)) with
  | [] => (canonNaN (tyFmt ty), nv)
  | x :: t => (t.foldl (fun a b => (pickCode ty wantLess a b).1) x, nv)

/-- The operation of R239 over the codes of a set of lanes. -/
def reduceCodes (ty o : Nat) (sat : Bool) (m u : Nat) (codes : List Nat) : Rounded :=
  let wd := tyWidth ty
  let ints := codes.map (fun x => if tySigned ty then toSigned wd x else (x % 2 ^ wd : Nat))
  if codes.isEmpty then (reduceIdentity ty o, 0)
  else if !tyInt ty then
    match o with
    | 0 =>
      let v := sumV (isRdn m) (codes.map (valOf ty))
      let r := roundSat (tyFmt ty) m u sat v.1
      (r.1, r.2 ||| v.2)
    | 1 => pickOver ty true codes
    | _ => pickOver ty false codes
  else
    match o with
    | 0 => intResult wd (tySigned ty) sat (ints.foldl (· + ·) 0)
    | 1 => (wrapInt wd (ints.foldl min (ints.headD 0)), 0)
    | 2 => (wrapInt wd (ints.foldl max (ints.headD 0)), 0)
    | 3 => (codes.foldl (· &&& ·) (2 ^ wd - 1), 0)
    | 4 => (codes.foldl (· ||| ·) 0, 0)
    | _ => (codes.foldl (· ^^^ ·) 0, 0)

/-- A 32-bit or 64-bit result in a scalar register (R239). -/
def extendResult (ty code : Nat) : Word :=
  if tyPair ty then BitVec.ofNat 64 code
  else if ty = 2 then (BitVec.ofNat 32 code).signExtend 64 else BitVec.ofNat 64 (code % 2 ^ 32)

/-- A scalar destination of a lane word: a PENDING one raises FUTURE, a busy one waits (R181, R235). -/
def scalarDst (g : Group) (n : Nat) (k : LRes) : LRes :=
  match g.fut n with
  | .pending _ => .trap (mkTrap cFUTURE) 0
  | .busy => .wait
  | _ => k

/-- What VRED and VXTS share. srcs are the elements that enter sd, idle the value and flags and draws of a written result. A bad source is
reported before a PENDING destination. DESIGN CHOICE, log entry 108. -/
def toScalar (w : LWord) (srcs : Nat → List Src) (marked : Bool) (empty : Word) (value : List Nat → Word × Flags) (draws : Bool) (c : LCtx)
    (s : State) : LRes :=
  let g := s.g
  let n := w.vd.toNat
  let act := actMask g c
  let pt := lanesOf (act &&& predMask g w.pn w.pk)
  if act = 0 then withTokens g w (scalarDst g n (.ok (s.setG (g.setS n empty false))))
  else
    match settledTest g c w (lanesOf act) (fun l => if pt.contains l then srcs l else []) with
    | some l => .trap (mkTrap cPROPUSE) l
    | none => withTokens g w (
      match badLane g w pt srcs with
      | some (l, a) => .trap (poisonTrap a) l
      | none => scalarDst g n (
        if pt.isEmpty then .ok (s.setG (g.setS n empty (taint g c w)))
        else
          let v := value pt
          let g1 := g.setS n v.1 (resultTag g c w marked (pt.flatMap srcs))
          let g2 := if draws then (pt.take 1).foldl Group.bumpSrc g1 else g1
          .ok (s.setG (g2.orStatus v.2))))

/-- R239: VRED. -/
def execVred (w : LWord) (s : State) : Out :=
  let ty := w.ty.toNat
  let o := w.mod8.toNat % 8
  laneWord 0x23 w (fun c s =>
    let m := rndMode c w
    let sr := m = 6 && o = 0 && !tyInt ty
    toScalar w (fun l => srcA c w ty l) sr (extendResult ty (reduceIdentity ty o))
      (fun pt => let r := reduceCodes ty o (w.sat = 1) m (drawSR s.g (pt.headD 0) 0) (pt.map (opA s.g c w ty)); (extendResult ty r.1, r.2))
      sr c s) s

/-- R240: VSCAN. -/
def execVscan (w : LWord) (s : State) : Out :=
  let ty := w.ty.toNat
  let o := w.mod8.toNat % 8
  let excl := w.mod8.getLsbD 3
  laneWord 0x24 w (fun c s =>
    let m := rndMode c w
    let sr := m = 6 && o = 0 && !tyInt ty
    let pt := lanesOf (actMask s.g c &&& predMask s.g w.pn w.pk)
    let below := fun l => pt.filter (fun k => if excl then k < l else k ≤ l)
    crossWord w ty (fun l => (below l).flatMap (fun k => srcA c w ty k)) sr sr
      (fun l => some (reduceCodes ty o (w.sat = 1) m (drawSR s.g l 0) ((below l).map (opA s.g c w ty)))) c s) s

/-- The ballot word (R241). -/
def ballot (g : Group) (c : LCtx) (w : LWord) : BitVec 32 := actMask g c &&& predMask g w.pn w.pk &&& g.pred w.va.toNat

def popc32 (m : BitVec 32) : Nat := (lanesOf m).length

/-- R241: VBAL. -/
def execVbal (w : LWord) (s : State) : Out :=
  laneWord 0x25 w (fun c s =>
    let W := ballot s.g c w
    let srcs := fun (_ : Nat) => if w.va = 0 then [] else [Src.k w.va.toNat]
    crossWord w 6 srcs false false (fun l => some (
      if w.mod8 = 0 then W.toNat else if w.mod8 = 1 then popc32 W else popc32 (W &&& (BitVec.ofNat 32 (2 ^ l - 1))), 0)) c s) s

/-- R242: VXTS. -/
def execVxts (w : LWord) (s : State) : Out :=
  let ty := w.ty.toNat
  laneWord 0x26 w (fun c s =>
    let n := (if w.bk = 1 then (s.g.sval w.vb.toNat).toNat else w.imm.toNat) % 32
    let srcs := fun (_ : Nat) => srcA c w ty n ++ (if w.bk = 1 then [Src.s w.vb.toNat] else [])
    toScalar w srcs false 0 (fun _ => (extendResult ty (opA s.g c w ty n), 0)) false c s) s

end Sys2Proof.Machine
end

