-- ==== Sys2Proof/Machine/LaneDefect.lean ====
section
/-! DEFINITION. Defect correction in lanes: DACC, DSUM, DAPPLY (R59 to R61, R79 to R83, R256 to R260). -/

namespace Sys2Proof.Machine

/-- I and F of the word's DRANGE (R60). -/
def rangeI (c : LCtx) : Nat := bits c.cap.drange.toNat 15 8
def rangeF (c : LCtx) : Nat := bits c.cap.drange.toNat 7 0

/-! ### DACC (R258) -/

/-- A lane's new d element, or none for RANGE. -/
def accumulate (I F : Nat) (old : DElem) (a x b : Val) (sys : Bool) : Option DElem :=
  match toFixed I F a, toFixed I F x, toFixed I F b with
  | some fa, some fx, some fb =>
    match fxMul I F fa fx with
    | none => none
    | some p =>
      let d : DElem := { res := old.res + fb - p, na := old.na + fa.natAbs, nx := max old.nx fx.natAbs, nb := old.nb + fb.natAbs, sys := old.sys || sys }
      if fxFits I F d.res && fxFits I F d.na && fxFits I F d.nx && fxFits I F d.nb then some d else none
  | _, _, _ => none

/-- R258: DACC; the tag of x is exempt from TG = 1 and from SYS (R80). An active lane for which a proposal predicate is false keeps its SYS:
R80 says what enters it. DESIGN CHOICE, log entry 105. -/
def execDacc (w : LWord) (s : State) : Out :=
  let ty := w.ty.toNat
  laneWord 0x32 w (fun c s =>
    let g := s.g
    let n := w.vd.toNat
    let clr := w.mod8.getLsbD 0
    let act := actMask g c
    let pt := lanesOf (act &&& predMask g w.pn w.pk)
    let ab := fun l => srcA c w ty l ++ srcC c w ty l
    let all := fun l => srcA c w ty l ++ srcB c w ty l ++ srcC c w ty l ++ (if clr then [] else [.d n l])
    let new := fun l => accumulate (rangeI c) (rangeF c) (if clr then DElem.zero else g.dElem n l) (valOf ty (opA g c w ty l))
      (valOf ty (opB g c w ty l)) (valOf ty (opC g c w ty l)) (resultTag g c w false (ab l))
    if act = 0 then .skip
    else
      match settledTest g c w (lanesOf act) ab with
      | some l => .trap (mkTrap cPROPUSE) l
      | none => withTokens g w (
        match dataTrap g w pt all (fun l => (new l).isSome) with
        | some (t, l) => .trap t l
        | none => .ok (s.setG (pt.foldl (fun g l => g.setD n l ((new l).getD DElem.zero)) g)))) s

/-! ### DSUM (R259) -/

/-- The exact combination of a segment's elements (R259). -/
def combineD (l : List DElem) : DElem :=
  l.foldl (fun a d => { res := a.res + d.res, na := a.na + d.na, nx := max a.nx d.nx, nb := a.nb + d.nb, sys := a.sys || d.sys })
    { DElem.zero with nx := (l.head?.map (·.nx)).getD 0 }

/-- The quantity that QTY selects. -/
def quantity (q : Nat) (d : DElem) : Int := match q with | 0 => d.res | 1 => d.na | 2 => d.nx | _ => d.nb

/-- FromFixed into a type (R61). -/
def fromFixed (F ty m u : Nat) (n : Int) : Rounded :=
  if tyInt ty then convInt (tyWidth ty) (tySigned ty) m u (fixedVal F n) else roundTo (tyFmt ty) m u (fixedVal F n)

/-- R259: DSUM. An integer that was rounded under SR is a proposal; a float keeps the tag of R80 (DEDUCED, log entry 62). -/
def execDsum (w : LWord) (s : State) : Out :=
  let ty := w.ty.toNat
  let q := w.mod8.toNat % 4
  let seg := w.mod8.toNat / 4 % 8
  laneWord 0x33 w (fun c s =>
    let g := s.g
    let n := w.va.toNat
    let m := rndMode c w
    let F := rangeF c
    let act := actMask g c
    let pt := lanesOf (act &&& predMask g w.pn w.pk)
    let mates := fun l => pt.filter (fun k => k / 2 ^ seg = l / 2 ^ seg)
    let item := fun l => if seg = 0 then g.dElem n l else combineD ((mates l).map (g.dElem n))
    let fits := fun l => seg = 0 || (fxFits (rangeI c) F (item l).res && fxFits (rangeI c) F (item l).na && fxFits (rangeI c) F (item l).nb)
    let srcs := fun l => (mates l).map (fun k => Src.d n k)
    let r := c.rn w.vd.toNat
    if act = 0 then .skip
    else
      match settledTest g c w (lanesOf act) (fun l => if pt.contains l then srcs l else []) with
      | some l => .trap (mkTrap cPROPUSE) l
      | none => withTokens g w (
        match dataTrap g w pt srcs fits with
        | some (t, l) => .trap t l
        | none =>
          let out := fun l => fromFixed F ty m (drawSR g l 0) (quantity q (item l))
          let outs := pt.map (fun l => (l, toElems ty (out l).1, (out l).2))
          let g1 := if seg = 0 then g else pt.foldl (fun h l => h.setD n l (item l)) g
          .ok (s.setG (writeLanes c w r (if tyPair ty then 2 else 1) outs
            (fun l => (item l).sys || taint g c w || (decide (m = 6) && tyInt ty)) (if m = 6 then pt else []) g1)))) s

/-! ### DAPPLY (R81 to R83, R260) -/

/-- Fields of DCTL (R82). -/
def dctlEn (d : Word) : Bool := bit1 d.toNat 0
def dctlRec (d : Word) : Nat := bits d.toNat 15 2 * 64
def dctlGrowth (d : Word) : Nat := bits d.toNat 31 16
def dctlG (d : Word) : Nat := bits d.toNat 39 36
def dctlMaxp (d : Word) : Nat := bits d.toNat 47 40
def dctlDeadline (d : Word) : Nat := bits d.toNat 63 48

/-- The tolerance of a lane, an f32 (R257). -/
def tolOf (g : Group) (c : LCtx) (w : LWord) (l : Nat) : Val := valOf 10 (opB g c w 10 l)

/-- Certifies for one lane, with its flag (R79, R260). -/
def laneCertifies (g : Group) (c : LCtx) (w : LWord) (l : Nat) : Bool × Flags :=
  let d := g.dElem w.va.toNat l
  let r := certifies (rangeF c) d.res d.na d.nx d.nb (tolOf g c w l)
  (r.1 && !d.sys && !taint g c w, r.2)

def certFlags (g : Group) (c : LCtx) (w : LWord) (pt : List Nat) : Flags := pt.foldl (fun f l => f ||| (laneCertifies g c w l).2) 0

/-- DAPPLY's quantities must fit DRANGE (R79). -/
def quantitiesFit (g : Group) (c : LCtx) (w : LWord) (l : Nat) : Bool :=
  let d := g.dElem w.va.toNat l
  fxFits (rangeI c) (rangeF c) d.res && fxFits (rangeI c) (rangeF c) d.na && fxFits (rangeI c) (rangeF c) d.nx && fxFits (rangeI c) (rangeF c) d.nb

/-- The candidate of a lane. -/
def candidate (g : Group) (c : LCtx) (w : LWord) (l : Nat) : Nat := opD g c w w.ty.toNat l

/-- Writes values with their tags into the lanes of the word. -/
def writeCands (c : LCtx) (w : LWord) (vals : List (Nat × Nat × Bool)) (f : Flags) (g : Group) : Group :=
  let ty := w.ty.toNat
  (writeLanes c w (c.rn w.vd.toNat) (if tyPair ty then 2 else 1) (vals.map (fun v => (v.1, toElems ty v.2.1, (0 : Flags))))
    (fun l => match vals.find? (fun v => v.1 = l) with | some v => v.2.2 | none => false) [] g).orStatus f

/-- The effect with EN = 0 (R81). -/
def applyOnce (w : LWord) (c : LCtx) (pt : List Nat) (s : State) : LRes :=
  let g := s.g
  let ok := fun l => (laneCertifies g c w l).1
  let every := !(w.mod8.getLsbD 0) || pt.all ok
  .ok (s.setG (writeCands c w (pt.map (fun l => (l, candidate g c w l, !(ok l && every)))) (certFlags g c w pt) g))

/-- The best-iterate record as a scratchpad address with OWN = 1 (R82). -/
def recAddr (c : LCtx) : Nat := 2 ^ 23 + dctlRec c.cap.dctl

/-- The offsets of the record that a pass reads. -/
def recOffsets (pt : List Nat) : List Nat := [0, 8, 16, 24, 32, 40] ++ pt.map (fun l => 64 + 8 * l)

/-- The entries that read the record: an entry's lane field holds its offset. -/
def recReads (s : State) (c : LCtx) (pt : List Nat) : List Entry :=
  (recOffsets pt).map (fun o =>
    ({ addr := spPlace s.g.place.bid (dctlRec c.cap.dctl + o), pk := .sram, member := none, va := BitVec.ofNat 64 (recAddr c + o) } : Target).entry
      .load 8 |> fun e => { e with lane := o, lw := true })

def recWord (p : Pend) (o : Nat) : Nat := ((p.got.find? (fun r => r.lane = o)).map (fun r => r.val.toNat)).getD 0

/-- A norm of the record. -/
def recNorm (p : Pend) (o : Nat) : Int := toSigned 192 (recWord p o + recWord p (o + 8) * 2 ^ 64 + recWord p (o + 16) * 2 ^ 128)

/-- The stores of a norm, settled. -/
def storeNorm (s : State) (c : LCtx) (o : Nat) (n : Int) : List Entry :=
  let v := wrapInt 192 n
  (List.range 3).map (fun k =>
    ({ addr := spPlace s.g.place.bid (dctlRec c.cap.dctl + o + 8 * k), pk := .sram, member := none
       va := BitVec.ofNat 64 (recAddr c + o + 8 * k) } : Target).store 8 (v / 2 ^ (64 * k) % 2 ^ 64) false |> fun e => { e with lw := true })

/-- The store of a best value with its tag. -/
def storeBest (s : State) (c : LCtx) (l v : Nat) (prop : Bool) : Entry :=
  { ({ addr := spPlace s.g.place.bid (dctlRec c.cap.dctl + 64 + 8 * l), pk := .sram, member := none
       va := BitVec.ofNat 64 (recAddr c + 64 + 8 * l) } : Target).store 8 v prop with lw := true }

/-- Whether norm > GROWTH × last, exactly (R83). -/
def grew (growth : Nat) (norm last : Int) : Bool :=
  match decodeF fmtBF16 growth with
  | .fin false n d => decide ((n : Int) * last < norm * d)
  | _ => false

/-- ELAPSED now: the core counts it on while the group is bound (R83). -/
def Group.elapsedNow (g : Group) (tick : Nat) : Nat := g.sp.elapsed + cyclesOver g.place.coreNo g.sp.since tick

/-- One pass, once the record is read (R83). -/
def onePass (w : LWord) (c : LCtx) (pt : List Nat) (p : Pend) (s : State) : LRes :=
  let g := s.g
  let dc := c.cap.dctl
  let old := g.sp.dstat.toNat
  let fresh := bits old 2 0 ≠ 1
  let elapsed := if fresh then 0 else g.elapsedNow s.tick
  let norm : Int := pt.foldl (fun m l => max m ((g.dElem w.va.toNat l).res.natAbs : Int)) 0
  let pass := min ((if fresh then 0 else bits old 31 24) + 1) 255
  let gcnt := if pass > 1 ∧ grew (dctlGrowth dc) norm (recNorm p 24) then min ((if fresh then 0 else bits old 15 12) + 1) 15 else 0
  let best := pass = 1 ∨ norm < recNorm p 0
  let bestpass := if best then pass else if fresh then 0 else bits old 23 16
  let ok := fun l => (laneCertifies g c w l).1
  let cand := candidate g c w
  let rec8 := fun l => if best then cand l else if tyPair w.ty.toNat then recWord p (64 + 8 * l) else recWord p (64 + 8 * l) % 2 ^ 32
  let stores := storeNorm s c 24 norm ++
    (if best then storeNorm s c 0 norm ++ pt.map (fun l => storeBest s c l (cand l) (!ok l)) else [])
  let dstat := fun (st : Nat) => BitVec.ofNat 64 (pass * 2 ^ 24 + bestpass * 2 ^ 16 + gcnt * 2 ^ 12 + st)
  let keep := fun (st : Nat) (g : Group) =>
    ({ g with sp := { g.sp with dstat := dstat st, elapsed := elapsed, since := s.tick } } : Group).addIq (mergeStores stores) |>.clearPend true
  let done := fun (st : Nat) (vals : List (Nat × Nat × Bool)) =>
    LRes.ok (s.setG (keep st (writeCands c w vals (certFlags g c w pt) g)))
  if pt.all ok then done 2 (pt.map (fun l => (l, cand l, false)))
  else if dctlDeadline dc ≠ 0 ∧ elapsed ≥ dctlDeadline dc * 1024 then
    done 3 (pt.map (fun l => if ok l then (l, cand l, false) else (l, rec8 l, true)))
  else if (dctlG dc ≠ 0 ∧ gcnt ≥ dctlG dc) ∨ (dctlMaxp dc ≠ 0 ∧ pass > dctlMaxp dc) then
    .trapIn (s.setG (keep 4 g)) (mkTrap cNONCONV (BitVec.ofNat 64 (recAddr c))) (pt.headD 0)
  else done 1 (pt.map (fun l => (l, cand l, !ok l)))

/-- A pass whose record has been read: POISON before anything changes, else the pass (R260). A poisoned record is no
reader of R338's first rows, so no region restarts. -/
def finishPass (w : LWord) (c : LCtx) (p : Pend) (s : State) : LRes :=
  match firstPoison p.got with
  | some x => .trapIn (s.upG (fun g => g.clearPend true)) (mkTrap cPOISON x.va) 0
  | none => onePass w c (lanesOf (actMask s.g c &&& predMask s.g w.pn w.pk)) p s

/-- R260: DAPPLY. A proposal tol raises PROPUSE where a lane that is active and predicated true reads it. DESIGN CHOICE, log entry 104. -/
def execDapply (w : LWord) (s : State) : Out :=
  let ty := w.ty.toNat
  waitingWord (.dapply w) (finishPass w) (laneWord 0x34 w (fun c s =>
    let g := s.g
    let act := actMask g c
    let pt := lanesOf (act &&& predMask g w.pn w.pk)
    let dc := c.cap.dctl
    let pass := dctlEn dc && !pt.isEmpty
    let srcs := fun l => srcD c w ty l ++ srcB c w 10 l ++ [Src.d w.va.toNat l]
    if act = 0 then .skip
    else if pass && dctlDeadline dc ≠ 0 && g.det then .trap (mkTrap cDETVIOL) 0
    else
      match pt.find? (fun l => (srcB c w 10 l).any (Src.tag g c)) with
      | some l => .trap (mkTrap cPROPUSE) l
      | none =>
        if pass && dctlRec dc + 320 > g.place.spSlots * 1024 then .trap (mkTrap cPROT (BitVec.ofNat 64 (recAddr c))) 0
        else withTokens g w (
          match dataTrap g w pt srcs (quantitiesFit g c w) with
          | some (t, l) => .trap t l
          | none =>
            if pass then readsDone (startReads s true (.dapply w) (recReads s c pt)) (finishPass w c)
            else applyOnce w c pt s))) s

end Sys2Proof.Machine
end

