-- ==== Sys2Proof/Machine/Matrix.lean ====
section
/-! DEFINITION. The matrix array and its accumulator tiles (R55 to R57, R67, R94, R95, R130, R261 to R274). -/

namespace Sys2Proof.Machine


/-- A free value for a TRAPADDR of which the spec gives no form, and the state that has drawn it. DESIGN CHOICE, log entry 9. -/
def freeWord (s : State) : Word := Config.freeBits s.uid
def State.drawn (s : State) : State := { s with uid := s.uid + 1 }

/-! ### Shapes and operands (R262 to R266) -/

/-- A shape record (R262): M and N counted in tiles. -/
structure MShape where
  mt : Nat
  nt : Nat
  k : Nat
  asrc : Nat
  afr : Nat
  bsofs : Nat
  asfr : Nat
  deriving DecidableEq, Repr

def shapeOf (w : Word) : MShape :=
  let n := w.toNat
  { mt := bits n 1 0 + 1, nt := bits n 3 2 + 1, k := bits n 23 12 + 1, asrc := bits n 28 27, afr := bits n 35 29, bsofs := bits n 50 36,
    asfr := bits n 57 51 }

/-- An MMA to run: its types and mode, its shape, its first result tile, its B offset, the blocks whose windows it reads, and
the A registers when ASRC = 0. -/
structure MmaJob where
  ty : Nat
  mm : Nat
  sh : MShape
  vd : Nat
  o : Nat
  aBid : Nat
  bBid : Nat
  va : Nat
  vc : Nat
  deriving DecidableEq, Repr

def MmaJob.wd (j : MmaJob) : Nat := tyWidth j.ty
def MmaJob.m (j : MmaJob) : Nat := 32 * j.sh.mt
def MmaJob.n (j : MmaJob) : Nat := 32 * j.sh.nt
def MmaJob.narrow4 (j : MmaJob) : Bool := j.ty = 14
/-- E: the elements of a tile store row (R264). -/
def MmaJob.perRow (j : MmaJob) : Nat := 512 / j.wd
def MmaJob.tiles (j : MmaJob) : List Nat := (List.range (j.sh.mt * j.sh.nt)).map (j.vd + ·)

/-- The A and scale registers of ASRC = 0. -/
def MmaJob.aRegs (j : MmaJob) : Nat := ceilDiv j.sh.k (32 / j.wd)
def MmaJob.sRegs (j : MmaJob) : Nat := if j.narrow4 then ceilDiv (ceilDiv j.sh.k 8) 4 else 0
def MmaJob.regUses (j : MmaJob) : List RegUse :=
  if j.sh.asrc = 0 then ⟨j.va, j.aRegs, false⟩ :: (if j.narrow4 then [⟨j.vc, j.sRegs, false⟩] else []) else []

/-- A byte of a tile store frame (R94). -/
def framePlace (bid f row byte : Nat) : Nat := tsPlace bid (2048 * f + 64 * row + byte)

/-- Frame, row and element of A(m, k) in the tile store (R264). -/
def MmaJob.aSpot (j : MmaJob) (m k : Nat) : Nat × Nat × Nat :=
  if j.sh.asrc = 1 then (j.sh.afr + m / 32 * ceilDiv j.sh.k j.perRow + k / j.perRow, m % 32, k % j.perRow)
  else (j.sh.afr + k / 32 * ceilDiv j.m j.perRow + m / j.perRow, k % 32, m % j.perRow)

/-- A code of wd bits at a bit of a byte, at home. -/
def codeAt (s : State) (place bit wd : Nat) : Nat := homeNat s place (max 1 (wd / 8)) / 2 ^ bit % 2 ^ wd

/-- The value of A(m, k) with its block scale. -/
def MmaJob.aVal (j : MmaJob) (s : State) (g : Group) (fb : Nat → Nat) (m k : Nat) : Val :=
  let wd := j.wd
  let kb := k / 8
  if j.sh.asrc = 0 then
    let per := 32 / wd
    let x := valOf j.ty ((g.velem (fb (j.va + k / per)) m).toNat / 2 ^ (wd * (k % per)) % 2 ^ wd)
    if j.narrow4 then (mulV x (valOf 16 ((g.velem (fb (j.vc + kb / 4)) m).toNat / 2 ^ (8 * (kb % 4)) % 256))).1 else x
  else
    let p := j.aSpot m k
    let x := valOf j.ty (codeAt s (framePlace j.aBid p.1 p.2.1 (p.2.2 * wd / 8)) (p.2.2 * wd % 8) wd)
    if j.narrow4 then
      let f := j.sh.asfr + m / 32 * ceilDiv j.sh.k 512 + k / 512
      (mulV x (valOf 16 (codeAt s (framePlace j.aBid f (m % 32) (kb % 64)) 0 8))).1
    else x

/-- The local bytes that 64 columns of B take in a slice (R95). -/
def MmaJob.bCol (j : MmaJob) : Nat := ceilDiv (j.sh.k * j.wd) 8

/-- The value of B(k, n) with its block scale (R265). -/
def MmaJob.bVal (j : MmaJob) (s : State) (k n : Nat) : Val :=
  let wd := j.wd
  let x := valOf j.ty (codeAt s (bsPlace j.bBid (n % 64) (j.o + n / 64 * j.bCol + k * wd / 8)) (k * wd % 8) wd)
  if j.narrow4 then
    (mulV x (valOf 16 (codeAt s (bsPlace j.bBid (n % 64) (j.sh.bsofs + n / 64 * ceilDiv j.sh.k 8 + k / 8)) 0 8))).1
  else x

/-- Every A, B and scale byte lies in its window (R266). -/
def MmaJob.inWindows (j : MmaJob) (p : Place) : Bool :=
  let k := j.sh.k
  let lastA :=
    if j.sh.asrc = 1 then j.sh.afr + (j.sh.mt - 1) * ceilDiv k j.perRow + (k - 1) / j.perRow
    else j.sh.afr + (k - 1) / 32 * ceilDiv j.m j.perRow + (j.m - 1) / j.perRow
  let tileStore := (j.sh.asrc = 1 || j.sh.asrc = 2)
  let blocks := ceilDiv j.n 64
  (!tileStore || lastA < p.tsFr) &&
  (!tileStore || !j.narrow4 || j.sh.asfr + (j.sh.mt - 1) * ceilDiv k 512 + (k - 1) / 512 < p.tsFr) &&
  j.o + blocks * j.bCol ≤ p.bsu * 1024 &&
  (!j.narrow4 || j.sh.bsofs + blocks * ceilDiv k 8 ≤ p.bsu * 1024)

/-- The sectors of n bytes at a place. -/
def sectors (a n : Nat) : List Nat := if n = 0 then [] else (List.range ((a + n - 1) / 32 - a / 32 + 1)).map (fun i => 32 * (a / 32 + i))

/-- lo to hi, both included. -/
def fromTo (lo hi : Nat) : List Nat := (List.range (hi + 1 - lo)).map (lo + ·)

/-- The sectors of A and its scales that the terms from k0 on read. -/
def MmaJob.aSectors (j : MmaJob) (k0 : Nat) : List Nat :=
  let last := j.sh.k - 1
  let E := j.perRow
  let wd := j.wd
  if j.sh.asrc = 1 then
    (List.range j.m).flatMap (fun m =>
      (fromTo (k0 / E) (last / E)).flatMap (fun f =>
        let lo := max k0 (f * E) % E * wd / 8
        let hi := min last (f * E + E - 1) % E * wd / 8
        sectors (framePlace j.aBid (j.sh.afr + m / 32 * ceilDiv j.sh.k E + f) (m % 32) lo) (hi + 1 - lo)) ++
      (if j.narrow4 then (fromTo (k0 / 512) (last / 512)).flatMap (fun f =>
        let lo := max k0 (f * 512) / 8 % 64
        let hi := min last (f * 512 + 511) / 8 % 64
        sectors (framePlace j.aBid (j.sh.asfr + m / 32 * ceilDiv j.sh.k 512 + f) (m % 32) lo) (hi + 1 - lo)) else []))
  else if j.sh.asrc = 2 then
    (fromTo k0 last).flatMap (fun k =>
      (List.range (ceilDiv j.m E)).flatMap (fun f =>
        let hi := min (j.m - 1) (f * E + E - 1) % E * wd / 8
        sectors (framePlace j.aBid (j.sh.afr + k / 32 * ceilDiv j.m E + f) (k % 32) 0) (hi + 1))) ++
    (if j.narrow4 then (List.range j.m).flatMap (fun m => (fromTo (k0 / 512) (last / 512)).flatMap (fun f =>
      let lo := max k0 (f * 512) / 8 % 64
      let hi := min last (f * 512 + 511) / 8 % 64
      sectors (framePlace j.aBid (j.sh.asfr + m / 32 * ceilDiv j.sh.k 512 + f) (m % 32) lo) (hi + 1 - lo))) else [])
  else []

/-- The sectors of B and its scales that the terms from k0 on read. -/
def MmaJob.bSectors (j : MmaJob) (k0 : Nat) : List Nat :=
  let last := j.sh.k - 1
  let wd := j.wd
  (List.range j.n).flatMap (fun n =>
    let lo := k0 * wd / 8
    sectors (bsPlace j.bBid (n % 64) (j.o + n / 64 * j.bCol + lo)) (last * wd / 8 + 1 - lo) ++
    (if j.narrow4 then sectors (bsPlace j.bBid (n % 64) (j.sh.bsofs + n / 64 * ceilDiv j.sh.k 8 + k0 / 8)) (last / 8 + 1 - k0 / 8) else []))

def MmaJob.sectorsFrom (j : MmaJob) (step : Nat) : List Nat := j.aSectors (32 * step) ++ j.bSectors (32 * step)

/-! ### The effect (R56, R57, R267) -/

/-- One block of up to 8 terms on an accumulator (R56, R57): any NaN gives the canonical NaN with NV. -/
def mmaBlock (mm acc : Nat) (terms : List Val) : Rounded :=
  let v := (sumV (isRdn mm) (decodeF fmtAcc acc :: terms)).1
  if isNan v then (canonNaN fmtAcc, fNV) else roundTo fmtAcc mm 0 v

/-- One step of 32 terms of one result element. -/
def MmaJob.element (j : MmaJob) (s : State) (g : Group) (fb : Nat → Nat) (step i n acc : Nat) : Rounded :=
  (fromTo (4 * step) (min (4 * step + 3) (ceilDiv j.sh.k 8 - 1))).foldl (fun a blk =>
    let r := mmaBlock j.mm a.1 ((fromTo (8 * blk) (min (8 * blk + 7) (j.sh.k - 1))).map (fun k => (mulV (j.aVal s g fb i k) (j.bVal s k n)).1))
    (r.1, a.2 ||| r.2)) (acc, 0)

/-- One step of the whole word: every result tile is written as a proposal, since every type of MMA is narrow (R267). -/
def MmaJob.step (j : MmaJob) (s : State) (fb : Nat → Nat) (step : Nat) (g : Group) : Group × Flags :=
  (List.range (j.sh.mt * j.sh.nt)).foldl (fun (a : Group × Flags) t =>
    let els := (List.range 1024).map (fun e =>
      j.element s g fb step (t / j.sh.nt * 32 + e / 32) (t % j.sh.nt * 32 + e % 32) (g.tileEl (j.vd + t) e).toNat)
    (a.1.setTile (j.vd + t) (els.map (fun r => BitVec.ofNat 48 r.1)) true, els.foldl (fun f r => f ||| r.2) a.2)) (g, 0)

def MmaJob.steps (j : MmaJob) : Nat := ceilDiv j.sh.k 32

/-! ### MMA (R263 to R269) -/

def mmaCl (w : LWord) : Bool := w.mod8.getLsbD 2
def mmaShapeWord (c : LCtx) (w : LWord) : Word := sget 0 c.cap.shape (w.mod8.toNat % 4)
def mmaMode (c : LCtx) (w : LWord) : Nat := if rndMode c w = 6 then 1 else rndMode c w

/-- The job of an MMA word: with CL = 1, A comes from block 2·qr and B from block qc (R269). -/
def mmaJob (g : Group) (c : LCtx) (w : LWord) : MmaJob :=
  let b := g.key.block
  let blk := fun (n : Nat) => if mmaCl w then blockId g.key.task g.key.cluster n else g.place.bid
  { ty := w.ty.toNat, mm := mmaMode c w, sh := shapeOf (mmaShapeWord c w), vd := w.vd.toNat, o := (g.sval w.vb.toNat).toNat,
    aBid := blk (b / 2 * 2), bBid := blk (b % 2), va := w.va.toNat, vc := w.vc.toNat }

/-- The class 1 checks of MMA (R263, R266): unused fields zero, registers in the allocation, result tiles in the mask. -/
def mmaDecodeOk (g : Group) (c : LCtx) (w : LWord) (j : MmaJob) : Bool :=
  (j.sh.asrc = 0 || w.va = 0) && ((j.sh.asrc = 0 && j.narrow4) || w.vc = 0) &&
  j.regUses.all (fun u => u.ok && u.allocated c g.place.lregs) &&
  j.tiles.all (fun t => t > 15 || g.place.tmask.getLsbD t)

/-- The elements of the B operand are aligned to their size (R88, DEDUCED, log entry 133). -/
def MmaJob.aligned (j : MmaJob) : Bool := j.o % max 1 (j.wd / 8) = 0

/-- The shapes that an MMA refuses (R266, R269). -/
def mmaShapeOk (g : Group) (w : LWord) (j : MmaJob) : Bool :=
  j.vd + j.sh.mt * j.sh.nt ≤ 16 && !(j.sh.asrc = 0 && j.sh.mt > 1) && j.sh.asrc ≠ 3 &&
  (!mmaCl w || (coordNblk g.sp.coord ≥ 3 && g.key.block ≤ 3 && (j.sh.asrc = 1 || j.sh.asrc = 2)))

/-- Every register element and tile that MMA reads. -/
def mmaSrcs (c : LCtx) (w : LWord) (j : MmaJob) : List Src :=
  Src.s w.vb.toNat :: (j.tiles.map Src.t ++ j.regUses.flatMap (fun u => (List.range u.count).flatMap (fun i =>
    (List.range 32).map (fun l => Src.v (c.rn (u.reg + i)) l))))

/-- The block of a window is bound to a core, so that its windows can be read. -/
def blockBound (s : State) (bid : Nat) : Bool := s.groups.any (fun g => g.place.bound && g.place.bid = bid)

/-- The group's earlier accesses to the sectors that it reads are at home (R130). -/
def sectorsReady (s : State) (l : List Nat) : Bool :=
  s.g.qs.iq.all (fun e => !(e.kind.isAccess && l.contains (unitOf e.place))) && (heldWrites s s.g).all (fun w => !l.contains (unitOf w.place))

/-- The units that the steps from one on read, as an MMA meets them at home; none while a window is away or an earlier access of the group
to them is still to be performed (R130, R269). -/
def mmaView (j : MmaJob) (step : Nat) (s : State) : Option State :=
  let units := j.sectorsFrom step
  if !blockBound s j.aBid || !blockBound s j.bBid || !sectorsReady { s with homeQ := [] } units then none
  else some (units.foldl (fun s u => touchUnit s s.g u) (settle s))

/-- An MMA that stands after a number of steps, with its word, which is not decoded again (R268); none is under way after 0. -/
def LaneCtl.atMma (l : LaneCtl) (step : Nat) (slot : Bool) (word : Option (LIdx × LWord)) : LaneCtl :=
  { l with mstep := step, mslot := slot, mword := word, mgo := false }

/-- The register elements that the job of an MMA reads (R340). -/
def mmaReads (c : LCtx) (j : MmaJob) (a i : Nat) : Bool :=
  (a = 0x01 && j.regUses.any (fun u => c.rn u.reg ≤ i / 32 && i / 32 < c.rn u.reg + u.count)) || (a = 0x04 && j.tiles.contains (i / 1024))

/-- One step of an MMA, with the check of what it reads anew: its registers and tiles (R338, R340), and the sectors of the steps that remain
(R266, R268). -/
def mmaGo (w : LWord) (step : Nat) (c : LCtx) (s : State) : LRes :=
  let j := mmaJob s.g c w
  match mmaView j step s with
  | none => .wait
  | some s0 =>
    let s1 := touchRegs s0 (mmaReads c j)
    match firstBad s1.g (mmaSrcs c w j) with
    | some a => .trapIn s1 (poisonTrap a) 0
    | none =>
      if (j.sectorsFrom step).any (homePoison s1) then .trapIn s1.drawn (poisonTrap (freeWord s1)) 0
      else
        let r := j.step s1 c.rn step s1.g
        let g1 := r.1.orStatus r.2
        if step + 1 ≥ j.steps then .ok (s1.setG { g1 with ln := g1.ln.atMma 0 g1.ln.mslot none })
        else .jump (s1.setG { g1 with ln := g1.ln.atMma (step + 1) c.slot (some (c.idx, w)) })

/-- TG = 1: the tile store and B-slice units of an MMA are tested before any effect (R66, R266). k is what follows. -/
def mmaUnits (w : LWord) (c : LCtx) (k : LRes) (s : State) : LRes :=
  if w.tg ≠ 1 then k
  else
    let j := mmaJob s.g c w
    match mmaView j 0 s with
    | none => .wait
    | some s1 => if (j.sectorsFrom 0).any (homeTag s1) then .trapIn s1 (mkTrap cPROPUSE) 0 else k

/-! #### The rendezvous (R269) -/

def sameBlock (g : Group) (a : ClArrival) : Bool := a.cluster = g.key.cluster && a.block = g.key.block

/-- The values on which the four words must agree. -/
def clValues (c : LCtx) (w : LWord) (j : MmaJob) : List Nat := [j.ty, w.rm.toNat, (mmaShapeWord c w).toNat, j.o]

/-- A block arrives; with the fourth the phase begins, and each block is told whether the words agree. -/
def clArrive (t : Task) (a : ClArrival) : Task :=
  let all := a :: t.cl
  let mine := all.filter (fun x => x.cluster = a.cluster)
  if mine.length < 4 then { t with cl := all }
  else
    let agree := mine.all (fun x => x.vals = a.vals)
    { t with cl := all.filter (fun x => x.cluster ≠ a.cluster)
             clGo := t.clGo ++ mine.map (fun x => { x with vals := if agree then [1] else [0] }) }

/-- A cooperative MMA that has been checked arrives, as a release at CLUSTER scope, and waits for its phase. -/
def clIssue (w : LWord) (c : LCtx) (s : State) : LRes :=
  let g := s.g
  match s.findTask g.key.task with
  | none => .wait
  | some t =>
    if (t.cl ++ t.clGo).any (sameBlock g) || !releaseOk s g 2 then .wait
    else
      let a : ClArrival := { cluster := g.key.cluster, block := g.key.block, vals := clValues c w (mmaJob g c w) }
      .jump ((s.upTask t.id (fun t => clArrive t a)).upG (fun g =>
        { g with ln := { g.ln with mslot := c.slot, mgo := true, mword := some (c.idx, w) } }))

/-- A cooperative MMA that has arrived: MMASHAPE when the words disagreed, else its units are tested, since the other blocks' windows are
acquired with the start, and its first step follows. -/
def clStart (w : LWord) (c : LCtx) (s : State) : LRes :=
  match (s.findTask s.g.key.task).bind (fun t => t.clGo.find? (sameBlock s.g)) with
  | none => .wait
  | some a =>
    let s1 := s.upTask s.g.key.task (fun t => { t with clGo := t.clGo.filter (fun x => !sameBlock s.g x) })
    let s2 := s1.upG (fun g => { g with ln := g.ln.atMma 0 g.ln.mslot none })
    if a.vals = [1] then mmaUnits w c (mmaGo w 0 c s2) s2 else .trapIn s2 (mkTrap cMMASHAPE) 0

/-- An MMA whose registers are read: its checks in the order of R153, then its first step or its arrival. -/
def mmaChecked (w : LWord) (c : LCtx) (s : State) : LRes :=
  let g := s.g
  let j := mmaJob g c w
  let srcs := mmaSrcs c w j
  let go := withTokens g w (
    if !mmaShapeOk g w j then .trap (mkTrap cMMASHAPE) 0
    else
      match firstBad g srcs with
      | some a => .trap (poisonTrap a) 0
      | none => if mmaCl w then clIssue w c s else mmaGo w 0 c s)
  if w.tg = 1 ∧ (c.path.p ∨ srcs.any (Src.tag g c)) then .trap (mkTrap cPROPUSE) 0
  else if !j.aligned then .trap (mkTrap cALIGN (g.sval w.vb.toNat)) 0
  else if j.o ≥ 2 ^ 15 || !j.inWindows g.place then .trapIn s.drawn (mkTrap cPROT (freeWord s)) 0
  else if mmaCl w then go
  else mmaUnits w c go s

/-- A trap that changes nothing beside what has been read in a state. -/
def LRes.readIn (s : State) : LRes → LRes
  | .trap t l => .trapIn s t l
  | r => r

/-- An MMA that issues. -/
def mmaIssue (w : LWord) (c : LCtx) (s : State) : LRes :=
  let j := mmaJob s.g c w
  if !mmaDecodeOk s.g c w j then .trap (mkTrap cILLEGAL) 0
  else if j.tiles.any (tileHeld s) then .wait
  else
    let s1 := touchRegs s (mmaReads c j)
    (mmaChecked w c s1).readIn s1

/-- An MMA under way is not decoded again (R268). -/
def mmaResume (w : LWord) (s : State) : Out :=
  let s1 := s.upG (fun g => { g with ln := { g.ln with slot := g.ln.mslot } })
  let c := laneCtx s1.g
  laneEnd s1 c (if s.g.ln.mgo then clStart w c s1 else mmaGo w s.g.ln.mstep c s1)

/-- R263 to R269: MMA. -/
def execMma (w : LWord) (s : State) : Out :=
  if s.g.ln.mgo || s.g.ln.mstep ≠ 0 then mmaResume w s else laneWord 0x35 w (mmaIssue w) s

/-! ### Tile moves (R270 to R272) -/

/-- The result tag of a group-wide word (R64, R261). -/
def wideTag (g : Group) (c : LCtx) (w : LWord) (marked : Bool) (srcs : List Src) : Bool := resultTag g c w marked srcs

/-- What group-wide words check before their effect: TG = 1, then the tokens, then bad elements. -/
def wideWord (w : LWord) (srcs : List Src) (k : LRes) (c : LCtx) (s : State) : LRes :=
  if w.tg = 1 ∧ (c.path.p ∨ srcs.any (Src.tag s.g c)) then .trap (mkTrap cPROPUSE) 0
  else withTokens s.g w (match firstBad s.g srcs with | some a => .trap (poisonTrap a) 0 | none => k)

/-- R270: MZERO. -/
def execMzero (w : LWord) (s : State) : Out :=
  laneWord 0x36 w (fun c s =>
    wideWord w [] (.ok (s.upG (fun g => (List.range (w.mod8.toNat + 1)).foldl (fun g i =>
      g.setTile (w.vd.toNat + i) (List.replicate 1024 0) (w.tg = 2 || c.path.p)) g))) c s) s

/-- The elements that one lane register holds, or takes with its neighbour, and the registers of a tile (R271). -/
def rowRegs (ty : Nat) : Nat := if ty = 10 then 32 else if ty = 11 then 64 else 16

/-- The registers of a lane from the codes of a tile row. -/
def packRow (ty : Nat) (codes : List Nat) : List Elem :=
  if tyWidth ty = 16 then (List.range 16).map (fun i => BitVec.ofNat 32 (codes.getD (2 * i) 0 + 2 ^ 16 * codes.getD (2 * i + 1) 0))
  else codes.flatMap (toElems ty)

/-- Code c of a tile row held in a lane's registers. -/
def rowCode (g : Group) (ty r l n : Nat) : Nat :=
  if tyWidth ty = 16 then (g.velem (r + n / 2) l).toNat / 2 ^ (16 * (n % 2)) % 2 ^ 16
  else if ty = 11 then elemBits g ty (r + 2 * n) l else elemBits g ty (r + n) l

/-- One element read out: C × f, or C × f ÷ S under LSU, rounded once and checked (R271). -/
def readOut (g : Group) (c : LCtx) (w : LWord) (r n : Nat) : Option Rounded :=
  let ty := w.ty.toNat
  let f := if w.mod8.getLsbD 4 then valOf 10 (opB g c w 10 0) else ofInt 1
  let p := mulV (decodeF fmtAcc (g.tileEl w.va.toNat (32 * r + n)).toNat) f
  let q := if w.mod8.getLsbD 5 then divV p.1 (valOf 10 c.cap.lscale.toNat) else (p.1, 0)
  let x := roundSat (tyFmt ty) (rndMode c w) (drawSR g r n) (w.sat = 1) q.1
  satBound c w ty (x.1, x.2 ||| p.2 ||| q.2)

/-- R271: MRDA. -/
def execMrda (w : LWord) (s : State) : Out :=
  let ty := w.ty.toNat
  laneWord 0x37 w (fun c s =>
    let g := s.g
    let srcs := Src.t w.va.toNat :: ((if w.mod8.getLsbD 4 && w.bk = 1 then [Src.s w.vb.toNat] else []) ++ (if w.mod8.getLsbD 5 then [Src.lscale] else []))
    wideWord w srcs (
      let rows := (List.range 32).map (fun r => (r, (List.range 32).map (readOut g c w r)))
      match rows.find? (fun x => x.2.any Option.isNone) with
      | some x => .trap (mkTrap cBOUND) x.1
      | none =>
        let sr := rndMode c w = 6
        let tag := wideTag g c w (narrowTy ty || sr) srcs
        let g1 := rows.foldl (fun h x => h.putElems (c.rn w.vd.toNat) x.1 (packRow ty (x.2.map (fun o => (o.getD (0, 0)).1))) tag) g
        let g2 := if sr then (List.range 32).foldl Group.bumpSrc g1 else g1
        .ok (s.setG (g2.orStatus (rows.foldl (fun f x => x.2.foldl (fun f o => f ||| (o.getD (0, 0)).2) f) 0)))) c s) s

/-- The lane registers that a tile or frame write reads, in every lane. -/
def wideSrcs (c : LCtx) (r n : Nat) : List Src := (List.range n).flatMap (fun i => (List.range 32).map (fun l => Src.v (c.rn r + i) l))

/-- R272: MWRA. -/
def execMwra (w : LWord) (s : State) : Out :=
  let ty := w.ty.toNat
  laneWord 0x38 w (fun c s =>
    let g := s.g
    let srcs := wideSrcs c w.va.toNat (rowRegs ty)
    wideWord w srcs (
      let els := (List.range 1024).map (fun e =>
        let v := valOf ty (rowCode g ty (c.rn w.va.toNat) (e / 32) (e % 32))
        let r := roundTo fmtAcc (mmaMode c w) 0 v
        (r.1, r.2 ||| sigFlag v))
      .ok (s.setG ((g.setTile w.vd.toNat (els.map (fun r => BitVec.ofNat 48 r.1)) (wideTag g c w (narrowTy ty) srcs)).orStatus
        (els.foldl (fun f r => f ||| r.2) 0)))) c s) s

/-! ### MTLD (R273) -/

/-- One 32-byte sector of a frame row from 8 lane registers. -/
def frameSector (g : Group) (c : LCtx) (w : LWord) (f row h : Nat) (extra : List Src) : Entry :=
  let regs := (List.range 8).map (fun q => c.rn w.va.toNat + 8 * h + q)
  let p := framePlace g.place.bid f row (32 * h)
  let bytes := regs.zipIdx.flatMap (fun r => placeBytes (p + 4 * r.2) 4 (g.velem r.1 row).toNat)
  { (({ addr := p, pk := .sram, member := none, va := 0 } : Target).entry .store 32) with
    wr := bytes, prop := wideTag g c w false (regs.map (fun r => Src.v r row) ++ extra), lw := true }

/-- R273: MTLD. Bits of the frame number above [6:0] must be zero: its value is checked with the decoding (R151, R153). -/
def execMtld (w : LWord) (s : State) : Out :=
  laneWord 0x39 w (fun c s =>
    let g := s.g
    let b := if w.bk = 1 then [Src.s w.vb.toNat] else []
    let srcs := wideSrcs c w.va.toNat 16 ++ b
    let f := (if w.bk = 1 then g.sval w.vb.toNat else w.imm.signExtend 64).toNat
    if f ≥ 128 then .trap (mkTrap cILLEGAL) 0
    else if w.tg = 1 ∧ (c.path.p ∨ srcs.any (Src.tag g c)) then .trap (mkTrap cPROPUSE) 0
    else if f ≥ g.place.tsFr then .trapIn s.drawn (mkTrap cPROT (freeWord s)) 0
    else wideWord w srcs (
      .ok (s.upG (fun g => g.addIq ((List.range 64).map (fun i => frameSector g c w f (i / 2) (i % 2) b))))) c s) s

/-! ### MSPL and MFIL (R274) -/

/-- The address of element or unit offset o of a spilled tile, checked. -/
def spillTarget (s : State) (sp : Bool) (acc : Acc) (a : Word) (o : Nat) : Except Trap Target :=
  if sp then
    match spTarget s 8192 a with
    | .error t => .error t
    | .ok t => .ok { t with addr := t.addr + o, va := a + BitVec.ofNat 64 o }
  else globalTarget s acc (a + BitVec.ofNat 64 o)

/-- The targets of all units of a spilled tile, or the trap to report: ALIGN, then the space, then the poison of a walk. -/
def spillTargets (s : State) (sp : Bool) (acc : Acc) (a : Word) : Except Trap (List Target) :=
  let l := (List.range 128).map (fun i => (i, spillTarget s sp acc a (64 * i)))
  if a.toNat % 64 ≠ 0 then .error (mkTrap cALIGN a)
  else if !sp && a.toNat ≥ 2 ^ 60 then .error (mkTrap cPAGE a)
  else
    match addressTrap (checkTraps l) with
    | some e => .error e.1
    | none => .ok ((checkPasses l).map (·.2))

/-- The units of a fill that its reads would reach, where the poison of a walk ends it. -/
def spillPasses (s : State) (sp : Bool) (a : Word) (t : Trap) : List (Nat × Target) :=
  if t.cause = cPOISON then checkPasses ((List.range 128).map (fun i => (0, spillTarget s sp .load a (64 * i)))) else []

/-- A spill or a fill whose addresses are refused: the poison of a walk is a cause of class 4, met after the tokens and the bad elements. -/
def spillTrap (w : LWord) (srcs : List Src) (t : Trap) (c : LCtx) (s : State) : LRes :=
  if t.cause = cPOISON then wideWord w srcs (.trap t 0) c s else .trap t 0

/-- The 8 bytes that hold a tile element (R55). -/
def tileBytes (g : Group) (t place e : Nat) : List (Nat × Byte) := placeBytes place 8 (g.tileEl t e).toNat

/-- The unit writes of one 64-byte piece: one line in memory, two sectors on die. -/
def spillEntries (g : Group) (t : Nat) (prop : Bool) (i : Nat) (x : Target) : List Entry :=
  let u := unitSize x.addr
  (List.range (64 / u)).map (fun h =>
    { (({ x with addr := x.addr + u * h, va := x.va + BitVec.ofNat 64 (u * h) } : Target).entry .store u) with
      wr := (List.range (u / 8)).flatMap (fun q => tileBytes g t (x.addr + u * h + 8 * q) (8 * i + u / 8 * h + q)), prop := prop, lw := true })

/-- R274: MSPL. -/
def execMspl (w : LWord) (s : State) : Out :=
  laneWord 0x3A w (fun c s =>
    let g := s.g
    let srcs := [Src.t w.va.toNat, Src.s w.vb.toNat]
    if w.tg = 1 ∧ (c.path.p ∨ srcs.any (Src.tag g c)) then .trap (mkTrap cPROPUSE) 0
    else
      match spillTargets s (w.mod8.getLsbD 7) .store (g.sval w.vb.toNat) with
      | .error t => spillTrap w srcs t c s
      | .ok ts => wideWord w srcs (
        .ok (s.upG (fun g => g.addIq (ts.zipIdx.flatMap (fun x => spillEntries g w.va.toNat (wideTag g c w false srcs) x.2 x.1))))) c s) s

/-- A filled tile, once its reads have performed: PROPUSE, then POISON, then the tile (R66, R274). -/
def finishFill (w : LWord) (c : LCtx) (p : Pend) (s : State) : LRes :=
  let s1 := s.upG (fun g => g.clearPend true)
  if w.tg = 1 ∧ p.got.any (·.prop) then .trapIn s1 (mkTrap cPROPUSE) 0
  else
    match firstPoison p.got with
    | some x => .trapIn s1 x.trap 0
    | none =>
      let m : Store Nat := ssetMany 0 [] (p.got.map (fun r => (r.lane, r.val.toNat)))
      let els := (List.range 1024).map (fun e => BitVec.ofNat 48 (sget 0 m e))
      .ok (s1.upG (fun g => g.setTile w.vd.toNat els (p.got.any (·.prop) || wideTag g c w false [Src.s w.vb.toNat])))

/-- R274: MFIL. -/
def execMfil (w : LWord) (s : State) : Out :=
  waitingWord (.mfil w) (finishFill w) (laneWord 0x3B w (fun c s =>
    let g := s.g
    let srcs := [Src.s w.vb.toNat]
    if w.tg = 1 ∧ (c.path.p ∨ srcs.any (Src.tag g c)) then .trap (mkTrap cPROPUSE) 0
    else
      let sp := w.mod8.getLsbD 7
      match spillTargets s sp .load (g.sval w.vb.toNat) with
      | .error t => afterUnits (unitTest s w .load 64 (spillPasses s sp (g.sval w.vb.toNat) t)) (spillTrap w srcs t c s)
      | .ok ts => afterUnits (unitTest s w .load 64 (ts.map (fun t => (0, t)))) (wideWord w srcs (
        let es := ts.zipIdx.flatMap (fun x => (List.range 8).map (fun q =>
          { (({ x.1 with addr := x.1.addr + 8 * q, va := x.1.va + BitVec.ofNat 64 (8 * q) } : Target).entry .load 8) with
            lane := 8 * x.2 + q, lw := true }))
        readsDone (startReads s true (.mfil w) es) (finishFill w c)) c s))) s

end Sys2Proof.Machine
end

