-- ==== Sys2Proof/Machine/Engine.lean ====
section
/-! DEFINITION. What every engine shares: its reads and writes at home, its record's header, its mailbox and the end of its
command (R125 to R127, R132, R181 to R187, R194, R199 to R201, R337, R340, R347). -/

namespace Sys2Proof.Machine

/-! ### Reads and writes at home (R113, R125) -/

/-- Word 3 of an error record that an engine causes: CTXV is 0 (R341). -/
def Cmd.who (c : Cmd) : Nat := c.asid % 2 ^ 16 * 2 ^ 48 + c.gen % 2 ^ 8 * 2 ^ 40

def EngRead.nat (r : EngRead) : Nat := leNat r.bytes

/-- Nothing read, and two reads one after the other. -/
def EngRead.none : EngRead := { bytes := [], prop := false, poison := false, clean := 0 }
def EngRead.join (a b : EngRead) : EngRead :=
  { bytes := a.bytes ++ b.bytes, prop := a.prop || b.prop, poison := a.poison || b.poison
    clean := if a.poison then a.clean else a.bytes.length + b.clean }

/-- The address of the first poisoned byte of a read at an address (R331). -/
def EngRead.poisonAt (r : EngRead) (va : Word) : Word := va + BitVec.ofNat 64 r.clean

/-- What a peer returns to an engine: free bytes, a free tag and free poison, since a peer's memory is no state of this
device. DESIGN CHOICE, log entry 14. -/
def peerRead (s : State) (a n : Nat) : State × EngRead :=
  let t := Config.freeBits (s.uid + n)
  let r := takeNum s (peerOf a)
  ({ sendFlit r.1 (linkMsg Config.deviceNo (peerOf a) r.2 0 0 n [] [] (some a) []) with uid := s.uid + n + 1 },
   { bytes := (List.range n).map (fun i => (Config.freeBits (s.uid + i)).setWidth 8), prop := t.getLsbD 0, poison := t.getLsbD 1,
     clean := if t.getLsbD 1 then 0 else n })

/-- An engine reads n bytes at a place, in one step at home. A read of the MMIO space is no 8-byte access, so it returns zero (R346). -/
def placeRead (s : State) (c : Cmd) (a n : Nat) : State × EngRead :=
  if isMmio a then (s, { bytes := List.replicate n 0, prop := false, poison := false, clean := n })
  else if isPeer a then peerRead s a n
  else
    let s1 := crossing ((sectors a n).foldl (fun s u => touchBy s c.who (unitOf u)) s) c.quarter { markerEntry .load with addr := a, size := n }
    (s1, { bytes := (List.range n).map (fun i => homeByte s1 (a + i)), prop := anyUnit (homeTag s1) a n, poison := anyUnit (homePoison s1) a n,
             clean := ((List.range n).find? (fun i => homePoison s1 (a + i))).getD n })

/-- The bytes of a write gathered by unit, each unit once. -/
def byUnitFuel : Nat → List (Nat × Byte) → List (List (Nat × Byte))
  | 0, _ => []
  | _, [] => []
  | n + 1, p :: t =>
    let same := fun (q : Nat × Byte) => unitOf q.1 = unitOf p.1
    mergeBytes [] (p :: t.filter same) :: byUnitFuel n (t.filter (fun q => !same q))

def byUnit (l : List (Nat × Byte)) : List (List (Nat × Byte)) := byUnitFuel l.length l

/-- A write to a peer's memory, which its home acknowledges (R132). -/
def peerWrite (s : State) (c : Cmd) (wr : List (Nat × Byte)) (prop poison : Bool) : State :=
  match wr with
  | [] => s
  | p :: _ =>
    let d := peerOf p.1
    let r := takeNum s d
    let e := { markerEntry .store with addr := p.1, size := wr.length, wr := wr, prop := prop, poison := poison }
    let s1 := sendFlit r.1 (entryMsg Config.deviceNo d r.2 e)
    { s1 with outs := s1.outs ++ [{ grp := c.owner, cmd := some c.id, dev := some d, num := r.2, entry := e }] }

/-- An engine's write, unit by unit, at home. Writes to the MMIO space are dropped (R346). -/
def placeWrite (s : State) (c : Cmd) (wr : List (Nat × Byte)) (prop poison : Bool) : State :=
  (byUnit wr).foldl (fun s u =>
    match u with
    | [] => s
    | p :: _ =>
      if isMmio p.1 then s
      else if isPeer p.1 then peerWrite s c u prop poison
      else
        let e := { markerEntry .store with addr := p.1, size := u.length, wr := u, prop := prop, poison := poison }
        applyWrite (settle (crossing s c.quarter e)) u prop poison) s

/-- Every write of a command to a peer has been acknowledged. -/
def cmdAcked (s : State) (c : Cmd) : Bool := s.outs.all (fun o => o.cmd ≠ some c.id)

/-- The translation of an engine's access, under the ASID and GEN its group held at issue (R192, R201). -/
def Cmd.xlat (c : Cmd) (s : State) (acc : Acc) (va : Word) : Except Nat Xlat :=
  translate s c.place.coreNo c.asid c.gen c.priv acc va

/-- The walk of an engine's access meets the errors of its lines (R337). Where the access then faults, the error stays for the next read of
its line to log. DESIGN CHOICE, log entry 55. -/
def Cmd.walked (c : Cmd) (s : State) (va : Word) : State := walkTouched s c.place.coreNo c.asid c.gen va

/-- Whether no route leads from a command's engine to a place (R357). -/
def unreachable (s : State) (c : Cmd) (a : Nat) : Bool := noRoute s c.quarter a

/-- Engines stall while a peer has hardly any room left for unanswered requests: one step of an engine sends at most 64 (R356). -/
def engineStalls (s : State) : Bool :=
  s.outs.length ≥ 4032 && s.outs.any (fun o => o.dev.isSome && (s.outs.filter (fun x => x.dev = o.dev)).length ≥ 4032)

/-- What a step of a command has read at an address, or noted of a write there, in slow turns. -/
def earlyOf (s : State) (c : Cmd) (va : Word) (n : Nat) (write : Bool) : Option Early :=
  s.early.find? (fun x => x.cmd = c.id && x.va = va && x.size = n && x.got.isNone = write)

/-- In a slow turn an engine's step stops before the first sector that it has still to read, with the code 256 and the sector's size, and after
the first line that it writes, with the code 512 (R125). -/
def heldRead (n : Nat) : Nat := 256 + n
def heldWrite : Nat := 512
def isHeld (cause : Nat) : Bool := 256 ≤ cause

/-- A slow turn cuts the step of a command so: the read of a record, and the steps of a run but for those of an NMOP, of which each is one step at
home (R290, R294). -/
def Cmd.paced (c : Cmd) (s : State) : Bool :=
  s.hold && (match c.stage with | .queued => true | .running | .stopping | .extern => c.kind ≠ .nmop | _ => false)

/-- An engine reads n bytes at a virtual address that stay in one page. -/
def engRead (s0 : State) (c : Cmd) (va : Word) (n : Nat) : Except (Nat × Word) (State × EngRead) :=
  match (earlyOf s0 c va n false).bind (·.got) with
  | some r => .ok (s0, r)
  | none =>
    let s := c.walked s0 va
    match c.xlat s .load va with
    | .error e => .error (e, va)
    | .ok x => if unreachable s c x.pa then .error (cLINKDOWN, va) else if c.paced s0 then .error (heldRead n, va) else .ok (placeRead s c x.pa n)

/-- A read cut into sectors of 32 bytes, each read in one step and translated for itself. -/
def engReadFuel : Nat → State → Cmd → Word → Nat → Except (Nat × Word) (State × EngRead)
  | 0, s, _, _, _ => .ok (s, EngRead.none)
  | f + 1, s, c, va, n =>
    if n = 0 then .ok (s, EngRead.none)
    else
      let k := min n (32 - va.toNat % 32)
      match engRead s c va k with
      | .error e => .error e
      | .ok (s1, r) =>
        match engReadFuel f s1 c (va + BitVec.ofNat 64 k) (n - k) with
        | .error e => .error e
        | .ok (s2, q) => .ok (s2, r.join q)

def engReadSpan (s : State) (c : Cmd) (va : Word) (n : Nat) : Except (Nat × Word) (State × EngRead) := engReadFuel (n / 32 + 2) s c va n

/-- An engine writes bytes at a virtual address that stay in one page. -/
def engWrite (s0 : State) (c : Cmd) (va : Word) (bytes : List Byte) (prop poison : Bool) : Except (Nat × Word) State :=
  let s := c.walked s0 va
  match c.xlat s .store va with
  | .error e => .error (e, va)
  | .ok x =>
    if unreachable s c x.pa then .error (cLINKDOWN, va)
    else .ok (placeWrite s c (bytes.zipIdx.map (fun p => (x.pa + p.2, p.1))) prop poison)

/-! ### Ends (R182, R194) -/

/-- A command that stops at a fault (R182). -/
def Cmd.faulted (c : Cmd) (e : Nat × Word) : Cmd := c.finish 3 e.1 0 e.2

/-- A command that ran to its end: POISONED when it read poison into its results. -/
def Cmd.ended (c : Cmd) (value : Nat) : Cmd := c.finish (if c.poisoned then 1 else 0) 0 value 0

/-- The completion word (R182). -/
def Cmd.word (c : Cmd) : Word := BitVec.ofNat 64 (c.stat % 256 * 2 ^ 56 + c.cause % 256 * 2 ^ 48 + c.value % 2 ^ 48)

/-- Replaces a command by its new self. -/
def State.putCmd (s : State) (c : Cmd) : State := s.upCmd c.id (fun _ => c)
def State.dropCmd (s : State) (id : Nat) : State := { s with cmds := s.cmds.filter (fun x => x.id ≠ id) }

/-- A command's number completes in its context, if it has one. -/
def completeNum (s : State) (c : Cmd) : State :=
  match c.ctx with
  | none => s
  | some id => s.upTask c.owner.task (fun t => ctxComplete t id c.num)

/-- A command takes the next number of a context. -/
def enterCtx (s : State) (c : Cmd) (id : Nat) : State × Cmd :=
  match s.findTask c.owner.task with
  | none => (s, c)
  | some t =>
    let r := ctxTake t id
    (s.upTask t.id (fun _ => r.1), { c with ctx := some id, num := r.2 })

/-! ### Headers (R200) -/

def hdrCmd (h : Nat) : Nat := bits h 7 0
def hdrSub (h : Nat) : Nat := bits h 11 10
def hdrLen (h : Nat) : Nat := bits h 31 16
def hdrMbox (h : Nat) : Nat := bits h 127 64

/-- The opcode and the record length of a kind (R199 to R206). -/
def CmdKind.code : CmdKind → Nat
  | .dcor => 0x27 | .pkq => 0x28 | .nmop => 0x29 | .spg => 0x2A | .kick => 0x2B | _ => 0
def CmdKind.recLen : CmdKind → Nat
  | .nmop => 128 | .copymm _ => 128 | .fixline _ => 128 | .hostLine _ => 128 | _ => 64

/-- The checks of R201 on a header: its cause, if it is refused. -/
def headerBad (k : CmdKind) (img : Nat) : Option Nat :=
  if hdrCmd img ≠ k.code ∨ hdrLen img ≠ k.recLen ∨ bits img 15 12 ≠ 0 ∨ bits img 63 32 ≠ 0 ∨
     (!k.aimed && hdrQtr img ≠ 0) ∨ (k ≠ .dcor && k ≠ .nmop && hdrSub img ≠ 0) then some cILLEGAL
  else if hdrMbox img % 16 ≠ 0 then some cALIGN
  else none

/-! ### Reading a record (R192, R201) -/

/-- Reads the record of a command, n bytes: a fault or poison ends it. The bits below keep are kept as read before. -/
def readRecord (s : State) (c : Cmd) (n keep : Nat) : State × Cmd :=
  match engReadSpan s c c.addr n with
  | .error e => (s, c.faulted e)
  | .ok (s1, r) =>
    if r.poison then (s1, c.faulted (cPOISON, r.poisonAt c.addr))
    else (s1, { c with img := r.nat / 2 ^ keep * 2 ^ keep + c.img % 2 ^ keep, recProp := c.recProp || r.prop })

/-! ### The end of an engine command (R125, R127, R181 to R183) -/

/-- The mailbox of a command, written at home as its last write; a write that faults is dropped and logged (R183, R347). It is settled, also
where the command's results are proposals: DESIGN CHOICE, log entry 126. -/
def writeMailbox (s : State) (c : Cmd) : State :=
  let m := BitVec.ofNat 64 (hdrMbox c.img)
  if c.kind.isCopy || m = 0 || m.toNat % 16 ≠ 0 then s
  else
    let bytes := leBytes 8 c.word.toNat ++ leBytes 8 (if c.stat = 3 then c.faddr.toNat else 0)
    match engWrite s c m bytes false false with
    | .ok s1 => s1
    | .error e =>
      let who := match s.findGroup c.owner with | some g => logWho g | none => c.who
      logDram s c.quarter (logWord0 false 0 false 0x20) e.2.toNat e.1 who

/-- The register of a command becomes RESOLVED with its completion word. -/
def resolveReg (s : State) (c : Cmd) : State :=
  match c.reg with
  | none => s
  | some r => s.upGroup c.owner (fun g => if g.fut r = .pending c.id then g.setFut r (.resolved c.word c.num (c.ctx.getD 0)) else g)

/-- A command whose writes are all performed completes: context and handle, in one step. -/
def completeCmd (s : State) (c : Cmd) : State := (resolveReg (completeNum s c) c).dropCmd c.id

/-- A command whose data is written: its mailbox is written last, and it completes once that write is performed too (R125, R183). -/
def endCmd (s : State) (c : Cmd) : State :=
  let c1 := { c with mailed := true }
  let s1 := if c.mailed then s else (writeMailbox s c).putCmd c1
  if cmdAcked s1 c1 then completeCmd s1 c1 else s1

/-- R125: an engine command completes once its writes are performed, its mailbox among them. -/
def execEngineCommandCompletes (cmd : Nat) (s : State) : Out :=
  match s.findCmd cmd with
  | none => .next s
  | some c => if c.stage = .draining && !c.kind.isCopy && cmdAcked s c && !engineStalls s then .next (endCmd s c) else .next s

end Sys2Proof.Machine
end

