-- ==== Sys2Proof/Machine/CopyEngine.lean ====
section
/-! DEFINITION. The copy engines: copies, COPYMM, fixed lines, and the sparse gather engine (R75, R126, R136, R190 to R198,
R205, R350). -/

namespace Sys2Proof.Machine

/-! ### Copy records (R191) -/

def cpSk (i : Nat) : Nat := bits i 2 0
def cpDk (i : Nat) : Nat := bits i 6 4
def cpEsz (i : Nat) : Nat := bits i 17 16
def cpBlvl (i : Nat) : Nat := bits i 19 18
def cpBnum (i : Nat) : Nat := bits i 23 20
def cpSrc (i : Nat) : Nat := bits i 191 128
def cpDst (i : Nat) : Nat := bits i 255 192
def cpSstride (i : Nat) : Nat := bits i 319 256
def cpDstride (i : Nat) : Nat := bits i 383 320
def cpRows (i : Nat) : Nat := bits i 415 384
def cpRbytes (i : Nat) : Nat := bits i 447 416
def cpVrows (i : Nat) : Nat := bits i 479 448
def cpVbytes (i : Nat) : Nat := bits i 511 480

/-- The element size of a B-slice side in bytes; 0 for half a byte. -/
def cpZ (i : Nat) : Nat := match cpEsz i with | 0 => 0 | 1 => 1 | 2 => 2 | _ => 4

/-- Columns of the B-slice operand. -/
def cpN (i : Nat) : Nat := if cpEsz i = 0 then 2 * cpRbytes i else cpRbytes i / cpZ i

/-- The reserved codes, must-be-zero bits and constraints of R191. -/
def copyIllegal (i : Nat) : Bool :=
  let side := fun (k a stride : Nat) =>
    k ≥ 4 || (k = 2 && (a % 64 ≠ 0 || stride % 64 ≠ 0 || cpRbytes i % 64 ≠ 0)) ||
    (k = 3 && (stride ≠ 0 || (cpEsz i = 0 && cpRows i % 2 ≠ 0) || (cpEsz i ≠ 0 && cpRbytes i % cpZ i ≠ 0)))
  bits i 127 24 ≠ 0 || bits i 15 7 ≠ 0 || bit1 i 3 || cpBlvl i = 3 || (cpEsz i ≠ 0 && cpSk i ≠ 3 && cpDk i ≠ 3) ||
  side (cpSk i) (cpSrc i) (cpSstride i) || side (cpDk i) (cpDst i) (cpDstride i)

/-- The barrier that a record names is one that takes copy arrivals (R192). -/
def copyBarrierOk (t : Task) (i : Nat) : Bool :=
  match cpBlvl i with
  | 0 => true
  | l => cpBnum i < levelCount (l - 1) && barDeclared t.img (l - 1) (cpBnum i) && barCopies t.img (l - 1) (cpBnum i) ≠ 0

/-! ### Places of bytes (R193) -/

/-- One byte of a side, as a linear number of its space; a half byte says which. -/
structure Spot where
  lin : Nat
  nib : Option Bool
  deriving DecidableEq, Repr

/-- Byte b of row r on a side that is no B-slice side. -/
def rowByte (addr stride r b : Nat) : Nat := (addr + r * stride + b) % 2 ^ 64

/-- Element (r, j) of a B-slice operand: its slice and local byte as one number (R95). -/
def sliceByte (i o r j byte : Nat) : Nat :=
  let local_ := if cpEsz i = 0 then o + j / 64 * ceilDiv (cpRows i) 2 + r / 2 else o + (j / 64 * cpRows i + r) * cpZ i + byte
  j % 64 * 2 ^ 15 + local_

/-- The spots that make up byte b of row r: one byte, or the two half bytes of a narrow B-slice side, low first. -/
def sideSpots (i k addr stride r b : Nat) : List Spot :=
  if k ≠ 3 then [⟨rowByte addr stride r b, none⟩]
  else if cpEsz i = 0 then
    [⟨sliceByte i addr r (2 * b) 0, some (r % 2 = 1)⟩, ⟨sliceByte i addr r (2 * b + 1) 0, some (r % 2 = 1)⟩]
  else [⟨sliceByte i addr r (b / cpZ i) (b % cpZ i), none⟩]

def srcSpots (i r b : Nat) : List Spot := sideSpots i (cpSk i) (cpSrc i) (cpSstride i) r b
def dstSpots (i r b : Nat) : List Spot := sideSpots i (cpDk i) (cpDst i) (cpDstride i) r b

/-- Every byte of a copy, in the order of R193. -/
def copyBytes (i : Nat) : List (Nat × Nat) :=
  (List.range (cpRows i)).flatMap (fun r => (List.range (cpRbytes i)).map (fun b => (r, b)))

/-- A byte that is read and not filled with zero. -/
def copyReads (i : Nat) (p : Nat × Nat) : Bool := p.1 < cpVrows i && p.2 < cpVbytes i

/-- A side starts at an aligned element of a B-slice operand (R88, DEDUCED, log entry 133), and every spot of it lies in its window; the pages
of a global side are checked as they are reached, but the bits above an address before any byte is written (R192). -/
def sideInWindow (c : Cmd) (i k addr : Nat) (spots : List Nat) (nblk : Nat) : Option (Nat × Word) :=
  let p := c.place
  match k with
  | 0 => ((addr :: spots).find? (fun a => a ≥ 2 ^ 60)).map (fun a => (cPAGE, BitVec.ofNat 64 a))
  | 1 =>
    let ok := fun (a : Nat) => a < 2 ^ 24 && a % 2 ^ 20 < p.spSlots * 1024 && (bit1 a 23 || bits a 22 20 ≤ nblk)
    if addr ≥ 2 ^ 24 || spots.any (fun a => !ok a || a / 2 ^ 20 ≠ addr / 2 ^ 20) then some (cPROT, BitVec.ofNat 64 addr) else none
  | 2 => if addr ≥ 2 ^ 18 || spots.any (fun a => a ≥ p.tsFr * 2048) then some (cPROT, BitVec.ofNat 64 addr) else none
  | _ =>
    let z := if cpEsz i = 0 then ceilDiv (cpRows i) 2 else cpRows i * cpZ i
    if cpEsz i ≠ 0 && addr % cpZ i ≠ 0 then some (cALIGN, BitVec.ofNat 64 addr)
    else if addr ≥ 2 ^ 15 || (!spots.isEmpty && addr + ceilDiv (cpN i) 64 * z > p.bsu * 1024) then some (cPROT, BitVec.ofNat 64 addr) else none

/-- The group's NBLK, for member addresses. -/
def ownerNblk (s : State) (c : Cmd) : Nat := match s.findGroup c.owner with | some g => coordNblk g.sp.coord | none => 0

/-- A member window that has been released (R89). -/
def memberGone (s : State) (c : Cmd) (k addr : Nat) : Bool :=
  k = 1 && !bit1 addr 23 && blockRetired s c.owner.task c.owner.cluster (bits addr 22 20)

/-- The checks of R192 on a record that has been read: its cause, if it is refused. -/
def copyCheck (s : State) (c : Cmd) (i : Nat) : Option (Nat × Word) :=
  let all := copyBytes i
  let nblk := ownerNblk s c
  let lins := fun (f : Nat → Nat → List Spot) (l : List (Nat × Nat)) => l.flatMap (fun p => (f p.1 p.2).map (·.lin))
  if copyIllegal i then some (cILLEGAL, 0)
  else
    match sideInWindow c i (cpSk i) (cpSrc i) (lins (srcSpots i) (all.filter (copyReads i))) nblk,
          sideInWindow c i (cpDk i) (cpDst i) (lins (dstSpots i) all) nblk with
    | some e, _ => some e
    | none, some e => some e
    | none, none =>
      if memberGone s c (cpSk i) (cpSrc i) then some (cPROT, BitVec.ofNat 64 (cpSrc i))
      else if memberGone s c (cpDk i) (cpDst i) then some (cPROT, BitVec.ofNat 64 (cpDst i))
      else
        match s.findTask c.owner.task with
        | none => some (cBARRIER, 0)
        | some t => if copyBarrierOk t i then none else some (cBARRIER, 0)

/-! ### Places -/

/-- The block that a scratchpad address names, and whether its window can be reached. -/
def spBlock (c : Cmd) (lin : Nat) : Nat :=
  if bit1 lin 23 then c.place.bid else blockId c.owner.task c.owner.cluster (bits lin 22 20)

/-- The home of a linear byte: none when a member's window is not bound (R89), an error when a global access faults. -/
def linPlace (s : State) (c : Cmd) (k : Nat) (acc : Acc) (lin : Nat) : Except (Nat × Word) (Option Nat) :=
  match k with
  | 0 =>
    (match c.xlat s acc (BitVec.ofNat 64 lin) with
     | .error e => .error (e, BitVec.ofNat 64 lin)
     | .ok x => if unreachable s c x.pa then .error (cLINKDOWN, BitVec.ofNat 64 lin) else .ok (some x.pa))
  | 1 => .ok (if blockBound s (spBlock c lin) then some (spPlace (spBlock c lin) (lin % 2 ^ 20)) else none)
  | 2 => .ok (some (tsPlace c.place.bid lin))
  | _ => .ok (some (bsPlace c.place.bid (lin / 2 ^ 15) (lin % 2 ^ 15)))

/-- The walk that a byte of a global side needs meets its errors (R337). -/
def sideWalked (s : State) (c : Cmd) (k lin : Nat) : State := if k = 0 then c.walked s (BitVec.ofNat 64 lin) else s

/-- The size of a destination unit of a space. -/
def unitOfSpace (k : Nat) : Nat := if k = 0 then 64 else 32

/-- The distinct quotients of a list, in order of first appearance. -/
def distinct (l : List Nat) : List Nat := l.foldl (fun a x => if a.contains x then a else a ++ [x]) []

/-- The source sectors of a copy, and its destination units. -/
def copySectors (i : Nat) : List Nat :=
  distinct ((copyBytes i).flatMap (fun p => if copyReads i p then (srcSpots i p.1 p.2).map (fun x => x.lin / 32) else []))
def copyUnits (i : Nat) : List Nat :=
  distinct ((copyBytes i).flatMap (fun p => (dstSpots i p.1 p.2).map (fun x => x.lin / unitOfSpace (cpDk i))))

/-! ### Steps of a copy (R125, R193) -/

/-- The buffer of a source sector. -/
def findBuf (c : Cmd) (sec : Nat) : Option CopyBuf := c.pr.bufs.find? (fun b => b.piece = sec)

/-- The bits that a spot holds in the sectors read so far. -/
def spotBits (c : Cmd) (x : Spot) : Nat :=
  match findBuf c (x.lin / 32) with
  | none => 0
  | some b =>
    let v := (b.bytes.getD (x.lin % 32) 0).toNat
    match x.nib with | none => v | some hi => if hi then v / 16 else v % 16

/-- The value of byte (r, b) of the source: a byte, or two half bytes. -/
def srcValue (c : Cmd) (i : Nat) (p : Nat × Nat) : Nat :=
  if !copyReads i p then 0
  else
    match srcSpots i p.1 p.2 with
    | [x] => spotBits c x
    | [x, y] => spotBits c x + 16 * spotBits c y
    | _ => 0

/-- The bytes of the copy that reach a destination unit, with the sectors that they come from. -/
def unitBytes (i u : Nat) : List (Nat × Nat) :=
  (copyBytes i).filter (fun p => (dstSpots i p.1 p.2).any (fun x => x.lin / unitOfSpace (cpDk i) = u))
def unitSectors (i u : Nat) : List Nat :=
  distinct ((unitBytes i u).flatMap (fun p => if copyReads i p then (srcSpots i p.1 p.2).map (fun x => x.lin / 32) else []))

/-- The bytes written to a unit, by linear number: later rows stand over earlier ones. -/
def unitImage (c : Cmd) (i u : Nat) : Store Nat :=
  let U := unitOfSpace (cpDk i)
  (unitBytes i u).foldl (fun m p =>
    let v := srcValue c i p
    ((dstSpots i p.1 p.2).zipIdx.filter (fun x => x.1.lin / U = u)).foldl (fun m x =>
      match x.1.nib with
      | none => sset 256 m x.1.lin v
      | some hi =>
        let old := sget 0 m x.1.lin
        let n := v / 16 ^ x.2 % 16
        sset 256 m x.1.lin (if hi then old % 16 + 16 * n else old / 16 * 16 + n)) m) []

/-- Reads source sector k of a running copy. -/
def copyRead (s : State) (c : Cmd) (i k : Nat) : State × Cmd :=
  match (copySectors i)[k]? with
  | none => (s, c)
  | some sec =>
    if (findBuf c sec).isSome then (s, c)
    else
      let s0 := sideWalked s c (cpSk i) (32 * sec)
      match linPlace s0 c (cpSk i) .load (32 * sec) with
      | .error e => (s0, c.faulted e)
      | .ok none => (s0, c)
      | .ok (some p) =>
        let r := placeRead s0 c p 32
        let buf : CopyBuf := { piece := sec, bytes := r.2.bytes, prop := r.2.prop, poison := r.2.poison }
        (r.1, { c with pr := { c.pr with bufs := c.pr.bufs ++ [buf] }, poisoned := c.poisoned || r.2.poison })

/-- Writes destination unit k of a running copy, once its sectors have been read. -/
def copyWrite (s : State) (c : Cmd) (i k : Nat) : State × Cmd :=
  match (copyUnits i)[k]? with
  | none => (s, c)
  | some u =>
    let secs := unitSectors i u
    if sget false c.pr.written k || !secs.all (fun x => (findBuf c x).isSome) then (s, c)
    else
      let img := unitImage c i u
      match img with
      | [] => (s, c)
      | first :: _ =>
        let s0 := sideWalked s c (cpDk i) first.1
        match linPlace s0 c (cpDk i) .store first.1 with
        | .error e => (s0, c.faulted e)
        | .ok none => (s0, c)
        | .ok (some p) =>
          let bufs := secs.filterMap (findBuf c)
          let wr := img.map (fun e => (p + (e.1 - first.1), BitVec.ofNat 8 e.2))
          let s1 := placeWrite s0 c wr (c.recProp || bufs.any (·.prop)) (bufs.any (·.poison))
          (s1, { c with pr := { c.pr with written := sset false c.pr.written k true } })

/-- Every unit has been written. -/
def copyWhole (c : Cmd) (i : Nat) : Bool := (List.range (copyUnits i).length).all (fun k => sget false c.pr.written k)

/-- The image of the copy that a command runs: the low 512 bits of its record or anchor. -/
def Cmd.copyImg (c : Cmd) : Nat := bits c.img 511 0

/-- A running copy whose every unit is written has ended. -/
def Cmd.copyEnd (c : Cmd) : Cmd := if c.stage = .running && copyWhole c c.copyImg then c.ended 0 else c

/-- The static checks of a COPYMM's follow-on (R195): a decoded MMA on the tile, its A in the tile store. -/
def followOn (c : Cmd) (tile : Nat) : Option LWord :=
  if bits c.img 1023 608 ≠ 0 then none
  else
    match decodeLane (BitVec.ofNat 96 (bits c.img 607 512)) with
    | .ok (.mma w) =>
      let sh := shapeOf (sget 0 c.cap.shape (w.mod8.toNat % 4))
      if w.vd.toNat = tile ∧ w.wt = 0 ∧ w.sat = 0 ∧ w.pk = 0 ∧ w.pn = 0 ∧ (sh.asrc = 1 ∨ sh.asrc = 2) ∧ w.va = 0 ∧ w.vc = 0
      then some w else none
    | _ => none

/-- The record of a copy is read and checked before any byte is written (R192, R195). -/
def copyStart (s : State) (c : Cmd) : State × Cmd :=
  let r := readRecord s c c.kind.recLen 0
  if r.2.stage = .draining then r
  else
    let c1 := r.2
    let mm := match c1.kind with | .copymm t => (followOn c1 t).isNone | _ => false
    if mm then (r.1, c1.faulted (cILLEGAL, 0))
    else
      match copyCheck r.1 c1 c1.copyImg with
      | some e => (r.1, c1.faulted e)
      | none => (r.1, ({ c1 with stage := .running } : Cmd).copyEnd)

/-- The issuing group is bound; the copies of a saved group stand still (R136). -/
def ownerBound (s : State) (c : Cmd) : Bool :=
  match c.kind, s.findGroup c.owner with
  | .hostLine _, _ => true
  | _, some g => g.place.bound
  | _, none => true

/-- R193: one step of a copy: its record read, a source sector read, or a destination unit written. -/
def execCopyEngineStep (cmd k : Nat) (reading : Bool) (s : State) : Out :=
  match s.findCmd cmd with
  | none => .next s
  | some c =>
    if !c.kind.isCopy || !ownerBound s c || engineStalls s then .next s
    else
      match c.stage, c.kind with
      | .queued, .copy | .queued, .copymm _ => let r := copyStart s c; .next (r.1.putCmd r.2)
      | .running, _ =>
        let r := if reading then copyRead s c c.copyImg k else copyWrite s c c.copyImg k
        .next (r.1.putCmd r.2.copyEnd)
      | _, _ => .next s

/-! ### Completion (R26, R126, R194) -/

/-- A copy's outcome for its token: OK, POISONED or FAULT. -/
def Cmd.tokStat (c : Cmd) : Nat := if c.stat = 3 then 2 else if c.stat = 1 then 1 else 0

/-- The token takes the worse status, and a token that completes holds no tile any more; a FAULT is noted in TOKST. -/
def endToken (s : State) (c : Cmd) : State :=
  s.upGroup c.owner (fun g =>
    let k := g.tok c.tok
    let g1 := g.setTok c.tok { count := k.count - 1, status := max k.status c.tokStat
                               faddr := if c.tokStat = 2 then c.faddr else k.faddr
                               tiles := if k.count ≤ 1 then [] else k.tiles }
    if c.tokStat = 2 then { g1 with sp := { g1.sp with fcause := c.cause, ftok := c.tok } } else g1)

/-- A record that names a barrier that takes copy arrivals makes its arrival, whatever the copy's end (R126). -/
def copyArrive (s : State) (c : Cmd) (i : Nat) (read : Bool) : State :=
  match s.findTask c.owner.task with
  | none => s
  | some t =>
    if read && cpBlvl i ≠ 0 && cpBlvl i ≠ 3 && copyBarrierOk t i then
      s.upTask t.id (fun t => barArriveCopy t (barOf (cpBlvl i - 1) (cpBnum i) c.owner))
    else s

/-- The record could be read: a command that failed to read it holds no image. -/
def Cmd.hasImg (c : Cmd) : Bool := c.img ≠ 0 || c.stat ≠ 3

/-- A copy or COPYMM completes: number and token, in one step. -/
def endCopy (s : State) (c : Cmd) : State := (endToken (completeNum s c) c).dropCmd c.id

/-- A copy completes with its arrival. -/
def completeCopy (s : State) (c : Cmd) : State := endCopy (copyArrive s c c.copyImg c.hasImg) c

/-- The bytes that a copy wrote into the tile store or the B-slice store, by place, with the tag and the poison of the units that it wrote
whole: what its follow-on reads of them (R130). -/
def copiedUnit (c : Cmd) (i u : Nat) : List (Nat × Nat) :=
  (unitImage c i u).map (fun x => (if cpDk i = 2 then tsPlace c.place.bid x.1 else bsPlace c.place.bid (x.1 / 2 ^ 15) (x.1 % 2 ^ 15), x.2))
def copiedProg (c : Cmd) (i : Nat) : Prog :=
  if cpDk i ≠ 2 && cpDk i ≠ 3 then Prog.zero
  else
    let l := (copyUnits i).map (fun u => (u, copiedUnit c i u))
    let from_ := fun (f : CopyBuf → Bool) (u : Nat) => (unitSectors i u).any (fun x => (findBuf c x).any f)
    { Prog.zero with
      acc := ssetMany 256 [] (l.flatMap (·.2))
      bufs := l.filterMap (fun x => match x.2 with
        | [] => none
        | p :: _ => if x.2.length = 32 then some { piece := unitOf p.1, bytes := [], prop := c.recProp || from_ (·.prop) x.1, poison := from_ (·.poison) x.1 } else none) }

/-- Home as a follow-on reads it: the copied bytes as its copy wrote them. -/
def asCopied (s : State) (p : Prog) : State :=
  { s with
    mem := ssetMany 0 s.mem (p.acc.map (fun x => (x.1, BitVec.ofNat 8 x.2)))
    utag := ssetMany false s.utag (p.bufs.map (fun b => (b.piece, b.prop)))
    upoison := ssetMany false s.upoison (p.bufs.map (fun b => (b.piece, b.poison))) }

/-- R126: a copy completes; a COPYMM whose copy has not faulted makes its arrival and goes on to its MMA. -/
def execCopyCompletes (cmd : Nat) (s : State) : Out :=
  match s.findCmd cmd with
  | none => .next s
  | some c =>
    if c.stage ≠ .draining || !cmdAcked s c || !ownerBound s c then .next s
    else
      match c.kind with
      | .copy => .next (completeCopy s c)
      | .copymm _ =>
        .next (if c.stat = 3 then completeCopy s c
          else (copyArrive s c c.copyImg true).putCmd { c with stage := .followOn, pr := copiedProg c c.copyImg })
      | _ => .next s

/-! ### The follow-on of a COPYMM (R130, R195) -/

/-- The group of a command, if it is bound. -/
def ownerGroup (s : State) (c : Cmd) : Option Group := (s.findGroup c.owner).filter (fun g => g.place.bound)

/-- What a follow-on's checks give: its cause, if it meets one (R195, R266). -/
def followBad (s : State) (g : Group) (w : LWord) (j : MmaJob) (step : Nat) : Option Nat :=
  if !j.tiles.all (fun t => t > 15 || g.place.tmask.getLsbD t) then some cILLEGAL
  else if w.tg = 1 ∧ (g.stag w.vb.toNat || j.tiles.any g.tileTag || (j.sectorsFrom step).any (homeTag s)) then some cPROPUSE
  else if !j.aligned then some cALIGN
  else if j.o ≥ 2 ^ 15 || !j.inWindows g.place then some cPROT
  else if !mmaShapeOk g w j then some cMMASHAPE
  else if (firstBad g (Src.s w.vb.toNat :: j.tiles.map Src.t)).isSome || (j.sectorsFrom step).any (homePoison s) then some cPOISON
  else none

/-- A context with the registers captured at issue and a path whose P is 0. -/
def followCtx (c : Cmd) : LCtx := { lrun := false, slot := false, idx := 0, path := Path.full 0, cap := c.cap, fb := 0 }

/-- What a follow-on reads from a step on is read: its sectors, and its registers and tiles with the first step (R340). -/
def followMet (s : State) (c : Cmd) (w : LWord) (j : MmaJob) (step : Nat) : State :=
  let s1 := (j.sectorsFrom step).foldl (fun s u => touchBy s c.who u) (settle s)
  touchRegsOf s1 c.owner (fun a i => (a = 0x02 && step = 0 && i = w.vb.toNat) || (a = 0x04 && j.tiles.contains (i / 1024)))

/-- The job of a follow-on: its operand's offset is read with the first step. -/
def followJob (c : Cmd) (w : LWord) (g : Group) : MmaJob :=
  let j := mmaJob g (followCtx c) w
  if c.pr.a = 0 then j else { j with o := c.pr.d }

/-- The cause that a follow-on meets at a step: after the first only what it reads anew is tested (R338). -/
def followCause (s : State) (c : Cmd) (g : Group) (w : LWord) (j : MmaJob) : Option Nat :=
  if c.pr.a = 0 then followBad s g w j 0
  else if (firstBad g (j.tiles.map Src.t)).isSome || (j.sectorsFrom c.pr.a).any (homePoison s) then some cPOISON
  else none

/-- The result tiles as they stood before the follow-on. -/
def Group.backTiles (g : Group) (tiles : List Nat) (p : Prog) : Group :=
  { g with r := { g.r with
      tile := ssetMany 0 g.r.tile (tiles.flatMap (fun t => (List.range 1024).map (fun e => (t * 1024 + e, sget 0 p.tile (t * 1024 + e)))))
      ttag := ssetMany false g.r.ttag (tiles.map (fun t => (t, sget false p.ttag t))) } }

/-- A follow-on that has made a step: the first keeps the tiles as they stood and the operand's offset. c holds the flags so far. -/
def Cmd.followed (c : Cmd) (j : MmaJob) (g : Group) (f : Flags) : Cmd :=
  let p := if c.pr.a = 0 then { c.pr with tile := g.r.tile, ttag := g.r.ttag, c := 0, d := j.o } else c.pr
  { c with pr := { p with a := c.pr.a + 1, c := (BitVec.ofNat 7 p.c ||| f).toNat } }

/-- One step of 32 terms of a follow-on; the last one raises its flags and completes the command. A cause leaves the tiles and the flags as they
stood before the first (R195, R266). -/
def followStep (s : State) (c : Cmd) (w : LWord) (g0 : Group) : State :=
  let s1 := followMet s c w (followJob c w g0) c.pr.a
  let g := (s1.findGroup c.owner).getD g0
  let j := followJob c w g
  match followCause (asCopied s1 c.pr) c g w j with
  | some e => endCopy (s1.upGroup c.owner (fun g => if c.pr.a = 0 then g else g.backTiles j.tiles c.pr)) (c.faulted (e, 0))
  | none =>
    let r := j.step (asCopied s1 c.pr) id c.pr.a g
    let c1 := c.followed j g r.2
    if c.pr.a + 1 ≥ j.steps then endCopy (s1.upGroup c.owner (fun _ => r.1.orStatus (BitVec.ofNat 7 c1.pr.c))) c
    else (s1.upGroup c.owner (fun _ => r.1)).putCmd c1

/-- A cooperative follow-on arrives for its block, and starts with its phase (R269). flag says that it has arrived. -/
def followCl (s : State) (c : Cmd) (w : LWord) (g : Group) : State :=
  let j := mmaJob g (followCtx c) w
  match s.findTask g.key.task with
  | none => s
  | some t =>
    if !c.pr.flag then
      if (followBad (asCopied (settle s) c.pr) g w j 0).isSome then followStep s c w g
      else if (t.cl ++ t.clGo).any (sameBlock g) then s
      else
        let a : ClArrival := { cluster := g.key.cluster, block := g.key.block, vals := clValues (followCtx c) w j }
        (s.upTask t.id (fun t => clArrive t a)).putCmd { c with pr := { c.pr with flag := true } }
    else
      match t.clGo.find? (sameBlock g) with
      | none => s
      | some a =>
        let s1 := s.upTask t.id (fun t => { t with clGo := t.clGo.filter (fun x => !sameBlock g x) })
        if a.vals = [1] then s1.putCmd { c with pr := { c.pr with b := 1 } } else endCopy s1 (c.faulted (cMMASHAPE, 0))

/-- R195: the follow-on MMA of a COPYMM whose copy is complete. -/
def execCopymmFollowOn (cmd : Nat) (s : State) : Out :=
  match s.findCmd cmd with
  | none => .next s
  | some c =>
    match c.kind, c.stage, ownerGroup s c with
    | .copymm t, .followOn, some g =>
      (match followOn c t with
       | none => .next (endCopy s (c.faulted (cILLEGAL, 0)))
       | some w =>
         let j := mmaJob g (followCtx c) w
         if g.blocked w.vb.toNat || j.tiles.any g.tileLate || !blockBound s j.aBid || !blockBound s j.bBid then .next s
         else if mmaCl w && c.pr.b = 0 then .next (followCl s c w g)
         else .next (followStep s c w g))
    | _, _, _ => .next s

/-! ### Fixed lines (R196 to R198, R350) -/

def anchorNext (i : Nat) : Nat := bits i 575 512
def anchorOwn (i : Nat) : Bool := bit1 i 576
def anchorBad (i : Nat) : Bool := bits i 639 577 ≠ 0 || bits i 1023 640 ≠ 0 || anchorNext i % 128 ≠ 0

/-- Bits of a host channel set's CHST and CHCNT. -/
def setChst (s : State) (i : Nat) (busy err : Bool) : State :=
  { s with host := { s.host with chan := sset 0 s.host.chan (4 * i + 1) ((if err then 2 else 0) + (if busy then 1 else 0)) } }
def bumpChcnt (s : State) (i : Nat) : State :=
  { s with host := { s.host with chan := sset 0 s.host.chan (4 * i + 2) (sget 0 s.host.chan (4 * i + 2) + 1) } }
def chErr (s : State) (i : Nat) : Bool := (sget 0 s.host.chan (4 * i + 1)).getLsbD 1

/-- A line stops: its token completes with the worst outcome of its anchors, or its channel set is no longer busy. -/
def stopLine (s : State) (c : Cmd) : State :=
  match c.kind with
  | .hostLine i => (setChst s i false (chErr s i || c.stat = 3)).dropCmd c.id
  | _ => (endToken s c).dropCmd c.id

/-- The context in which anchors are numbered: the group's copy context, or the task's kick context. -/
def lineCtx (c : Cmd) : Nat := match c.kind with | .hostLine _ => tlOfKick | _ => tlOfGroup 1 c.owner

/-- A line whose anchor faults stops with FAULT. -/
def lineFault (s : State) (c : Cmd) (e : Nat × Word) : State := stopLine s (c.faulted e)

/-- A field of an anchor that is refused, those of its copy record among them: its cause (R192, R197). -/
def anchorFault (s : State) (c : Cmd) : Option (Nat × Word) := if anchorBad c.img then some (cILLEGAL, 0) else copyCheck s c c.copyImg

/-- Reads the next anchor; with OWN = 1 it takes a number and its copy begins. A refused anchor that is ready for the engine makes its
arrival. DESIGN CHOICE, log entry 109. -/
def anchorRead (s : State) (c : Cmd) : State :=
  let r := readRecord s { c with img := 0, recProp := false } 128 0
  let c1 := r.2
  if c1.stage = .draining then (if s.hold && isHeld c1.cause then r.1.putCmd c1 else lineFault r.1 c1 (c1.cause, c1.faddr))
  else
    match anchorFault r.1 c1 with
    | some x => lineFault (copyArrive r.1 c1 c1.copyImg (anchorOwn c1.img)) c1 x
    | none =>
      if !anchorOwn c1.img then stopLine r.1 { c1 with stat := if c1.poisoned then 1 else 0 }
      else
        let e := enterCtx r.1 c1 (lineCtx c1)
        e.1.putCmd { e.2 with stage := .running, pr := Prog.zero }

/-- The line goes on to its next anchor, or stops: OWN of the last one is cleared at its home. -/
def lineGoes (s : State) (c : Cmd) : State :=
  let s1 := match c.kind with | .hostLine i => bumpChcnt s i | _ => s
  if anchorNext c.img = 0 then stopLine s1 { c with stat := if c.poisoned then 1 else 0 }
  else s1.putCmd { c with stage := .queued, addr := BitVec.ofNat 64 (anchorNext c.img), stat := 0, ctx := none, pr := Prog.zero }

/-- An anchor whose copy has ended makes its arrival and its number completes; OWN is then cleared at home, and once that write is
performed the line goes on. flag says that it has been made. -/
def anchorEnd (s : State) (c : Cmd) : State :=
  if c.pr.flag then lineGoes s c
  else
    let s1 := copyArrive (completeNum s c) c c.copyImg true
    if c.stat = 3 then lineFault s1 c (c.cause, c.faddr)
    else
      match engWrite s1 c (c.addr + 72) (leBytes 8 0) false false with
      | .error e => lineFault s1 c e
      | .ok s2 => if cmdAcked s2 c then lineGoes s2 c else s2.putCmd { c with pr := { c.pr with flag := true } }

/-- R198: one anchor of a line: it is read, and once its copy is done its ownership bit is cleared. -/
def execFixedLineAnchor (cmd : Nat) (s : State) : Out :=
  match s.findCmd cmd with
  | none => .next s
  | some c =>
    match c.kind with
    | .fixline _ | .hostLine _ =>
      if !ownerBound s c || engineStalls s then .next s
      else if c.stage = .queued then .next (anchorRead s c)
      else if c.stage = .draining && cmdAcked s c then .next (anchorEnd s c)
      else .next s
    | _ => .next s

/-! ### The sparse gather engine (R205) -/

def spgTy (i : Nat) : Nat := bits i 436 432
def spgN (i : Nat) : Nat := bits i 431 416
def spgK (i : Nat) : Nat := bits i 383 352
def spgO (i : Nat) : Nat := bits i 462 448
def spgRow0 (i : Nat) : Nat := bits i 351 320
def spgCol0 (i : Nat) : Nat := bits i 415 384
def spgZ (i : Nat) : Nat := tyWidth (spgTy i) / 8

/-- The limits of an SPG record; its operand's elements are aligned (R88, DEDUCED, log entry 133). -/
def spgBad (c : Cmd) : Option Nat :=
  let i := c.img
  if bits i 511 463 ≠ 0 ∨ bits i 447 437 ≠ 0 ∨ !([8, 9, 12, 13].contains (spgTy i)) ∨ spgN i = 0 ∨ spgK i = 0 then some cILLEGAL
  else if spgO i % spgZ i ≠ 0 then some cALIGN
  else if spgO i + ceilDiv (spgN i) 64 * spgK i * spgZ i > c.place.bsu * 1024 then some cPROT
  else none

/-- The place of element (k, j) of the operand. -/
def spgPlace (c : Cmd) (k j : Nat) : Nat :=
  bsPlace c.place.bid (j % 64) (spgO c.img + (j / 64 * spgK c.img + k) * spgZ c.img)

/-- Reads element idx of an array of the record, n bytes: it is aligned to its size (R88). -/
def spgRead (s : State) (c : Cmd) (base idx n : Nat) : Except (Nat × Word) (State × EngRead) :=
  let a := BitVec.ofNat 64 (base + idx * n)
  if a.toNat % n ≠ 0 then .error (cALIGN, a) else engReadSpan s c a n

/-- The zero bytes of one column, settled. -/
def spgZero (s : State) (c : Cmd) (j : Nat) : State :=
  placeWrite s c ((List.range (spgK c.img * spgZ c.img)).map (fun b => (spgPlace c 0 j + b, (0 : Byte)))) c.recProp false

/-- The record is read and checked. -/
def spgStart (s : State) (c : Cmd) : State × Cmd :=
  let r := readRecord s c 64 0
  if r.2.stage = .draining then r
  else
    match headerBad .spg r.2.img, spgBad r.2 with
    | some e, _ => (r.1, r.2.faulted (e, 0))
    | none, some e => (r.1, r.2.faulted (e, 0))
    | none, none => (r.1, { r.2 with stage := .running })

/-- The pointers of the current row. -/
def spgRow (s : State) (c : Cmd) : State × Cmd :=
  let base := bits c.img 191 128
  match spgRead s c base (spgRow0 c.img + c.pr.b) 4 with
  | .error e => (s, c.faulted e)
  | .ok (s1, p0) =>
    match spgRead s1 c base (spgRow0 c.img + c.pr.b + 1) 4 with
    | .error e => (s1, c.faulted e)
    | .ok (s2, p1) =>
      if p0.poison || p1.poison then
        (s2, c.faulted (cPOISON, (if p0.poison then p0 else p1).poisonAt (BitVec.ofNat 64 (base + 4 * (spgRow0 c.img + c.pr.b + if p0.poison then 0 else 1)))))
      else if p1.nat < p0.nat then (s2, c.faulted (cILLEGAL, 0))
      else (s2, { c with pr := { c.pr with c := p0.nat, d := p1.nat, flag := true } })

/-- One entry of the current row. A value is placed only while the block's window is bound: the window of a saved block is released. -/
def spgEntry (s : State) (c : Cmd) : State × Cmd :=
  let i := c.img
  match spgRead s c (bits i 255 192) c.pr.c 4 with
  | .error e => (s, c.faulted e)
  | .ok (s1, col) =>
    if col.poison then (s1, c.faulted (cPOISON, BitVec.ofNat 64 (bits i 255 192 + 4 * c.pr.c)))
    else
      let c1 := { c with pr := { c.pr with c := c.pr.c + 1 } }
      if spgCol0 i ≤ col.nat ∧ col.nat < spgCol0 i + spgN i then
        match spgRead s1 c (bits i 319 256) c.pr.c (spgZ i) with
        | .error e => (s1, c.faulted e)
        | .ok (s2, v) => if !ownerBound s c then (s, c) else
          let p := spgPlace c c.pr.b (col.nat - spgCol0 i)
          let s3 := placeWrite s2 c (v.bytes.zipIdx.map (fun x => (p + x.2, x.1))) (c.recProp || v.prop) v.poison
          (s3, { c1 with value := c1.value + 1, poisoned := c1.poisoned || v.poison })
      else (s1, c1)

/-- A running gather: the columns are cleared one by one, then rows and entries are taken in order. a counts columns, b
rows, c and d are the entries left of a row whose pointers have been read. -/
def spgRun (s : State) (c : Cmd) : State × Cmd :=
  if c.pr.a < spgN c.img then (if ownerBound s c then (spgZero s c c.pr.a, { c with pr := { c.pr with a := c.pr.a + 1 } }) else (s, c))
  else if c.pr.b ≥ spgK c.img then (s, c.ended c.value)
  else if !c.pr.flag then spgRow s c
  else if c.pr.c ≥ c.pr.d then (s, { c with pr := { c.pr with b := c.pr.b + 1, flag := false } })
  else spgEntry s c

/-- R205: one step of the sparse gather engine. It goes on while its block is saved (R185), but its writes to the block's window wait until
the block is bound again. DESIGN CHOICE, log entry 37. -/
def execSparseGatherStep (cmd : Nat) (s : State) : Out :=
  match s.findCmd cmd with
  | none => .next s
  | some c =>
    if c.kind ≠ .spg || engineStalls s then .next s
    else
      match c.stage with
      | .queued => let r := spgStart s c; .next (r.1.putCmd r.2)
      | .running => let r := spgRun s c; .next (r.1.putCmd r.2)
      | _ => .next s

end Sys2Proof.Machine
end

