-- ==== Sys2Proof/Machine/Sched.lean ====
section
/-! DEFINITION. Graph objects, kicks, admission, binding and the choice of groups (R29, R31, R86, R206, R297, R311 to R324,
R328, R350). -/

namespace Sys2Proof.Machine

/-! ### Node records (R311 to R314) -/

def recTmask (r g : Nat) : Nat := bits r (32 * g + 2591) (32 * g + 2576)
def recLregs (r g : Nat) : Nat := (bits r (32 * g + 2575) (32 * g + 2572) + 1) * 16
def recPitch (r g : Nat) : Nat := bits r (32 * g + 2571) (32 * g + 2569)
def recShape (r i : Nat) : Nat := bits r (64 * i + 1791) (64 * i + 1728)
def recHkaddr (r : Nat) : Nat := bits r 1727 1664
def recArgaddr (r : Nat) : Nat := bits r 1663 1600
def recLcb (r : Nat) : Nat := bits r 1599 1536
def recEntry (r : Nat) : Nat := bits r 1535 1472
def recExmask (r : Nat) : Nat := bits r 1471 1440
def recLscale (r : Nat) : Nat := bits r 1439 1408
def recStream (r : Nat) : Nat := bits r 1407 1376
def recHkfield (r : Nat) : Nat := bits r 1375 1352
def recHklen (r : Nat) : Nat := if recHkaddr r = 0 then 0 else recHkfield r
def recHkq (r : Nat) : Nat := bits r 1351 1348
def recKarglen (r : Nat) : Nat := bits r 1347 1336
def recRnd (r : Nat) : Nat := bits r 1281 1279
def recSpslots (r : Nat) : Nat := bits r 1278 1268
def recTsfr (r : Nat) : Nat := bits r 1267 1260
def recBsu (r : Nat) : Nat := bits r 1259 1254

def rangeKind (r i : Nat) : Nat := bits r (128 * i + 3199) (128 * i + 3198)
def rangeLen (r i : Nat) : Nat := bits r (128 * i + 3135) (128 * i + 3072)

/-- A range that is not refused (R313). -/
def rangeOk (r i : Nat) : Bool :=
  let b := bits r (128 * i + 3195) (128 * i + 3136)
  rangeKind r i ≠ 3 && bits r (128 * i + 3197) (128 * i + 3196) = 0 &&
  (rangeKind r i = 0 || (rangeLen r i ≠ 0 && b + rangeLen r i ≤ 2 ^ 60))

/-- Two tile masks of one block name a common tile. -/
def tilesClash (r : Nat) : Bool :=
  (List.range (recNgrp r)).any (fun a => (List.range a).any (fun b => recTmask r a &&& recTmask r b ≠ 0))
def anyTiles (r : Nat) : Bool := (List.range (recNgrp r)).any (fun g => recTmask r g ≠ 0)

/-- How many blocks of a node fit on one empty core (R8, R9, R86). -/
def blocksPerCore (r cls : Nat) : Nat :=
  let n := recNgrp r
  let lregs := (List.range n).foldl (fun a g => a + recLregs r g) 0
  if tilesClash r then 0
  else
    let slots := if cls = 0 then 1 / n else 15 / n
    let regs := if cls = 0 then 256 / lregs else 1792 / lregs
    let tiles := if anyTiles r then 1 else slots
    let ts := if recTsfr r = 0 then slots else 128 / recTsfr r
    let bs := if recBsu r = 0 then slots else 32 / recBsu r
    min slots (min regs (min tiles (min (1024 / recSpslots r) (min ts bs))))

/-- A co-resident grid can be bound in full on the device as it is configured (R314). -/
def gridFits (s : State) (r cls : Nat) : Bool :=
  recNblk r ≤ s.svc.coreCount && recNclus r ≤ 4 * (s.svc.coreCount * blocksPerCore r cls / recNblk r)

/-- The limits of a node record (R312 to R314). -/
def nodeOk (s : State) (cls r : Nat) : Bool :=
  bits r 1253 0 = 0 && (List.range 16).all (fun g => bits r (32 * g + 2568) (32 * g + 2560) = 0) && recNclus r ≥ 1 && recNgb r ≤ 2 &&
  recGridBar r ≤ 4 && 1 ≤ recSpslots r && recSpslots r ≤ 1024 && recTsfr r ≤ 128 && recBsu r ≤ 32 && recKarglen r % 8 = 0 &&
  recKarglen r ≤ 2048 && recHkfield r % 64 = 0 && recHkfield r ≤ 2 ^ 23 && recLcb r % 64 = 0 && recEntry r % 4 = 0 &&
  (List.range 8).all (rangeOk r) && (recGridBar r = 0 || recCor r) && (!recCor r || gridFits s r cls) &&
  (List.range 16).all (fun b => recBlockMask r b < 2 ^ recNgrp r) &&
  (List.range 8).all (fun c => recClusterBlocks r c < 2 ^ recNblk r && recClusterGroups r c < 2 ^ recNgrp r) &&
  (cls ≠ 0 || recNgrp r = 1)

/-- The header of a graph object (R311). -/
def graphOk (h : Nat) : Bool :=
  let n := bits h 47 32
  bits h 511 128 = 0 && bits h 63 48 = 0 && bits h 31 8 = 0 && bits h 7 0 = 1 && 1 ≤ n && n ≤ 4096 && bits h 127 64 = 64 + 512 * n

/-! ### Accepting a replay (R314 to R317) -/

/-- A reader of the dispatch hardware, in an address space and at a privilege; it uses no core's translation caches. -/
def dispatchReader (q asid gen : Nat) (priv : Bool) : Cmd :=
  { newCmd 0 Group.idle .kick 0 0 none with place := { Place.none with q := q, core := 4096 }, asid := asid, gen := gen, priv := priv }

/-- Reads n bytes; a fault or poison refuses, with its cause and its address. -/
def dispRead (s : State) (d : Cmd) (va n : Nat) : Except (Nat × Word) (State × Nat × Bool) :=
  match engReadSpan s d (BitVec.ofNat 64 va) n with
  | .error e => .error e
  | .ok (s1, r) => if r.poison then .error (cPOISON, r.poisonAt (BitVec.ofNat 64 va)) else .ok (s1, r.nat, r.prop)

/-- Reads m items of n bytes in order, with their tags. -/
def dispReads (n : Nat) : Nat → State → Cmd → Nat → Except (Nat × Word) (State × List (Nat × Bool))
  | 0, s, _, _ => .ok (s, [])
  | m + 1, s, d, va =>
    match dispRead s d va n with
    | .error e => .error e
    | .ok (s1, v, p) =>
      match dispReads n m s1 d (va + n) with
      | .error e => .error e
      | .ok (s2, l) => .ok (s2, (v, p) :: l)

/-- Reads and checks a graph object: its node records. -/
def readGraph (s : State) (d : Cmd) (cls va : Nat) : Except (Nat × Word) (State × List Nat) :=
  if va % 64 ≠ 0 then .error (cALIGN, BitVec.ofNat 64 va)
  else
    match dispRead s d va 64 with
    | .error e => .error e
    | .ok (s1, h, _) =>
      if !graphOk h then .error (cILLEGAL, 0)
      else
        match dispReads 512 (bits h 47 32) s1 d (va + 64) with
        | .error e => .error e
        | .ok (s2, l) => if l.all (fun x => nodeOk s2 cls x.1) then .ok (s2, l.map (·.1)) else .error (cILLEGAL, 0)

/-- An entry of a patch table, if it keeps the limits of R317. -/
def patchOf (nodes : List Nat) (e : Nat × Bool) : Option Patch :=
  let p : Patch := { node := bits e.1 63 48, tgt := bits e.1 32 32, ofs := bits e.1 31 0, val := BitVec.ofNat 64 (bits e.1 127 64), prop := e.2 }
  match nodes[p.node]? with
  | none => none
  | some r =>
    if bits e.1 47 33 = 0 ∧ p.ofs % 8 = 0 ∧ (if p.tgt = 0 then p.ofs < recKarglen r else p.ofs < 128) then some p else none

/-- Reads and checks a patch table; address 0 is none. -/
def readPatches (s : State) (d : Cmd) (nodes : List Nat) (va : Nat) : Except (Nat × Word) (State × List Patch) :=
  if va = 0 then .ok (s, [])
  else if va % 16 ≠ 0 then .error (cILLEGAL, 0)
  else
    match dispRead s d va 8 with
    | .error e => .error e
    | .ok (s1, n, _) =>
      if n > 4096 then .error (cILLEGAL, 0)
      else
        match dispReads 16 n s1 d (va + 8) with
        | .error e => .error e
        | .ok (s2, l) =>
          match l.mapM (patchOf nodes) with
          | none => .error (cILLEGAL, 0)
          | some ps => .ok (s2, ps)

/-- A node record with its range patches applied in table order. -/
def patchNode (ps : List Patch) (n r : Nat) : Nat :=
  (ps.filter (fun p => p.node = n && p.tgt = 1)).foldl (fun r p => setBits r (3072 + 8 * p.ofs + 63) (3072 + 8 * p.ofs) p.val.toNat) r

/-- A task of a replay, waiting in its matcher. -/
def newTask (id : Nat) (r : Replay) (node img : Nat) : Task :=
  { id := id, replay := r.id, node := node, img := img, q := r.q, asid := r.asid, gen := r.gen, cls := r.cls, seed := r.seed,
    phase := .waiting, adm := 0, args := [], argTag := [], launched := [], gone := [], retired := [], bars := [], cl := [], clGo := [],
    saved := [], tl := [], ctxNum := [], ctxDone := [], hk := [], hkAt := [], hkTag := [], hkPoison := [] }

/-- Accepts one replay: the graph and the patch table are read and checked, and its tasks enter the matcher; or it is
refused with a cause. The replay's own copy of each record is held to R312 and R313 too. -/
def acceptReplay (s : State) (r : Replay) (priv : Bool) (graph patch : Nat) : Except (Nat × Word) State :=
  let d := dispatchReader r.q r.asid r.gen priv
  match readGraph s d r.cls graph with
  | .error e => .error e
  | .ok (s1, nodes) =>
    match readPatches s1 d nodes patch with
    | .error e => .error e
    | .ok (s2, ps) =>
      let imgs := nodes.zipIdx.map (fun n => patchNode ps n.2 n.1)
      if !imgs.all (nodeOk s2 r.cls) then .error (cILLEGAL, 0)
      else
        .ok { s2 with
          replays := s2.replays ++ [{ r with nodes := imgs, patches := ps }]
          tasks := s2.tasks ++ imgs.zipIdx.map (fun n => newTask (r.id + 1 + n.2) r n.2 n.1)
          uid := r.id + 1 + imgs.length }

/-- The replay that a kick would start. -/
def newReplay (s : State) (slot cmd : Option Nat) (cls asid gen q : Nat) : Replay :=
  { id := s.uid, slot := slot, cmd := cmd, cls := cls, asid := asid, gen := gen, q := q, seed := s.host.seedr, nodes := [], patches := [],
    stopped := none, ended := false }

/-! ### The KICK registers (R315) -/

def kickReg (s : State) (i r : Nat) : Nat := (sget 0 s.host.kick (4 * i + r)).toNat
def setKickReg (s : State) (i r v : Nat) : State :=
  { s with host := { s.host with kick := sset 0 s.host.kick (4 * i + r) (BitVec.ofNat 64 v) } }
def setKickErr (s : State) (i : Nat) (e : Bool) : State := setKickReg s i 1 (setBits (kickReg s i 1) 19 19 (if e then 1 else 0))

/-- R315: a write to KICK of slot i starts one replay. Before READY it is dropped with ERR set (R372). -/
def kickSlot (s : State) (i : Nat) (patch : Word) : State :=
  let cfg := kickReg s i 1
  if !s.svc.ready then setKickErr s i true
  else if !bit1 cfg 18 then s
  else
    let s1 := setKickReg s i 2 (kickReg s i 2 + 1)
    let asid := bits cfg 15 0
    match acceptReplay s1 (newReplay s1 (some i) none (bits cfg 17 16) asid (ctlGen s1 asid) (i / 16)) false (kickReg s i 0) patch.toNat with
    | .error _ => setKickErr (setKickReg s1 i 3 (kickReg s1 i 3 + 1)) i true
    | .ok s2 => setKickErr s2 i false

/-- R315: a host write to KICK. -/
def execKickRegisterWrite (slot : Nat) (patch : Word) (s : State) : Out := .next (if slot < 64 then kickSlot s slot patch else s)

/-- A KICK command whose entry has performed: its record, then its replay (R206). A refusal ends it with FAULT. -/
def kickCommand (s : State) (c : Cmd) : State × Cmd :=
  let r := readRecord s c 64 0
  let s1 := r.1
  let c1 := r.2
  if c1.stage = .draining then r
  else if bits c1.img 511 258 ≠ 0 then (s1, c1.faulted (cILLEGAL, 0))
  else
    match headerBad .kick c1.img with
    | some e => (s1, c1.faulted (e, 0))
    | none =>
      let rep := newReplay s1 none (some c1.id) (bits c1.img 257 256) c1.asid c1.gen c1.place.q
      match acceptReplay s1 rep c1.priv (bits c1.img 191 128) (bits c1.img 255 192) with
      | .error e => (s1, c1.faulted e)
      | .ok s2 => (s2, { c1 with stage := .running })

/-! ### Admission (R297, R318, R319) -/

def Task.inFlight (t : Task) : Bool := !(t.phase = .retired || t.phase = .dropped)

/-- The tasks that stand before a task in its quarter's matcher. -/
def earlierTasks (s : State) (t : Task) : List Task := (s.tasks.takeWhile (fun u => u.id ≠ t.id)).filter (fun u => u.q = t.q && u.inFlight)

/-- Two ranges overlap, and one of them writes. -/
def rangesClash (a i b j : Nat) : Bool :=
  let la := bits a (128 * i + 3195) (128 * i + 3136)
  let lb := bits b (128 * j + 3195) (128 * j + 3136)
  rangeKind a i ≠ 0 && rangeKind b j ≠ 0 && (rangeKind a i = 2 || rangeKind b j = 2) && la < lb + rangeLen b j && lb < la + rangeLen a i

def dependsOn (t u : Task) : Bool :=
  t.asid = u.asid && (List.range 8).any (fun i => (List.range 8).any (fun j => rangesClash t.img i u.img j))

/-- The regions of a quarter's half-key SRAM: offset and length. -/
def halfKeyRegions (s : State) (q : Nat) : List (Nat × Nat) :=
  (s.tasks.filter (fun u => u.inFlight && u.phase ≠ .waiting && bit1 (recHkq u.img) q && recHklen u.img ≠ 0)).map (fun u => (sget 0 u.hkAt q, recHklen u.img))

/-- The lowest offset of a quarter's half-key SRAM at which a region of n bytes fits (R297); the binder may choose any. -/
def halfKeyFit (s : State) (q n : Nat) : Option Nat :=
  let rs := halfKeyRegions s q
  ((0 :: rs.map (fun r => r.1 + r.2)).filter (fun o => o + n ≤ 2 ^ 23 && rs.all (fun r => o + n ≤ r.1 || r.1 + r.2 ≤ o))).foldl
    (fun b o => match b with | none => some o | some x => some (min x o)) none

/-- The half-key SRAM of every quarter that the task names has room (R297). -/
def halfKeyRoom (s : State) (t : Task) : Bool :=
  recHklen t.img = 0 || (List.range 4).all (fun q => !bit1 (recHkq t.img) q || (halfKeyFit s q (recHklen t.img)).isSome)

/-- A task may be admitted as far as the matcher goes: it is one of the first 256 in flight, and what it depends on has retired. -/
def matched (s : State) (t : Task) : Bool :=
  let before := earlierTasks s t
  t.phase = .waiting && before.length < 256 && !before.any (dependsOn t)

/-- An earlier task that waits for a region in a quarter that this task names too is admitted first, whether its region fits now or not (R297).
DEDUCED, log entry 118. -/
def regionTurn (s : State) (t : Task) : Bool :=
  recHklen t.img = 0 || (s.tasks.takeWhile (fun u => u.id ≠ t.id)).all (fun u =>
    !(matched s u && recHklen u.img ≠ 0 && recHkq u.img &&& recHkq t.img ≠ 0))

/-- The argument block with its patches, as bytes and tags (R75, R170, R317). -/
def patchArgs (ps : List Patch) (node : Nat) (l : List (Nat × Bool)) : List (Nat × Bool) :=
  (ps.filter (fun p => p.node = node && p.tgt = 0)).foldl (fun l p => l.set (p.ofs / 8) (p.val.toNat, p.prop)) l

/-- An unreadable argument block or half-key image: the task is left unrun and its replay stops early (R318). -/
def stopReplay (s : State) (t : Task) (cause : Nat) (addr : Word) : State :=
  let s1 := { s with
    tasks := s.tasks.map (fun x => if x.replay = t.replay ∧ x.phase = .waiting then { x with phase := .dropped } else x)
    replays := s.replays.map (fun r => if r.id = t.replay then { r with stopped := some (cause, addr) } else r) }
  let s2 := match (s1.replays.find? (fun r => r.id = t.replay)).bind (·.slot) with
    | some i => setKickErr s1 i true
    | none => s1
  checkReplay s2 t.replay

/-- Admits a task: its arguments and its half-key image are read at home. -/
def admitTask (s : State) (t : Task) : State :=
  let d := dispatchReader t.q t.asid t.gen false
  match dispReads 8 (recKarglen t.img / 8) s d (recArgaddr t.img) with
  | .error e => stopReplay s t e.1 e.2
  | .ok (s1, l) =>
    match dispReads 32 (recHklen t.img / 32) s1 d (recHkaddr t.img) with
    | .error e => stopReplay s1 t e.1 e.2
    | .ok (s2, hk) =>
      let ps := match s.replays.find? (fun r => r.id = t.replay) with | some r => r.patches | none => []
      let args := patchArgs ps t.node l
      { s2.upTask t.id (fun t => { t with
          phase := .admitted, adm := s2.uid
          hkAt := ssetMany 0 [] ((List.range 4).map (fun q => (q, (halfKeyFit s q (recHklen t.img)).getD 0)))
          args := args.flatMap (fun a => leBytes 8 a.1), argTag := ssetMany false [] (args.zipIdx.map (fun a => (a.2, a.1.2)))
          hk := hk.flatMap (fun x => leBytes 32 x.1), hkTag := ssetMany false [] (hk.zipIdx.map (fun a => (a.2, a.1.2))) }) with
        uid := s2.uid + 1 }

/-- R319: a task is admitted once it stands in the matcher, every task it depends on has retired, and its half-key region fits; of the tasks
that wait for regions, in their order (R297). -/
def execTaskAdmit (task : Nat) (s : State) : Out :=
  match s.findTask task with
  | none => .next s
  | some t =>
    if !matched s t || !halfKeyRoom s t || !regionTurn s t then .next s else .next (admitTask s t)

/-! ### Binding (R320) -/

def bindCtx (r : Nat) : Nat := bits r 511 448
def bindBiv (r : Nat) : Nat := bits r 447 384
def bindCluster (r : Nat) : Nat := bits r 383 360
def bindBlock (r : Nat) : Nat := bits r 359 357
def bindGroup (r : Nat) : Nat := bits r 356 353
def bindAct (r : Nat) : Nat := bits r 352 350
def bindCore (r : Nat) : Nat := bits r 349 344
def bindQ (r : Nat) : Nat := bits r 343 342
def bindSlot (r : Nat) : Nat := bits r 341 338
def bindBlk (r : Nat) : Nat := bits r 305 242

/-- The place that a bind record gives a group of a task. -/
def bindPlace (r : Nat) (t : Task) : Place :=
  { q := bindQ r, core := bindCore r, slot := bindSlot r, bound := true, bid := blockId t.id (bindCluster r) (bindBlock r),
    spBase := bits r 337 327, spSlots := recSpslots t.img, tsBase := bits r 326 319, tsFr := recTsfr t.img, bsBase := bits r 318 313,
    bsu := recBsu t.img, lrBase := bits r 312 306 * 16, lregs := recLregs t.img (bindGroup r),
    tmask := BitVec.ofNat 16 (recTmask t.img (bindGroup r)) }

/-- Two spans share nothing; an empty span meets none. -/
def apart (a n b m : Nat) : Bool := n = 0 || m = 0 || a + n ≤ b || b + m ≤ a

/-- A place lies in its core, and class 0 alone in slot 15 with the lane registers kept for it (R8, R9). -/
def placeFits (s : State) (p : Place) (cls : Nat) : Bool :=
  p.core < s.svc.coreCount && p.spBase + p.spSlots ≤ 1024 && p.tsBase + p.tsFr ≤ 128 && p.bsBase + p.bsu ≤ 32 &&
  (p.slot = 15) = (cls = 0) && (if cls = 0 then 1792 ≤ p.lrBase && p.lrBase + p.lregs ≤ 2048 else p.lrBase + p.lregs ≤ 1792)

/-- A place is free beside the groups that are bound: its slot, registers, tiles, and windows, which a block shares (R9, R10, R23, R86). -/
def placeFree (s : State) (key : GroupKey) (p : Place) : Bool :=
  (s.groups.filter (fun g => g.place.bound && g.key ≠ key)).all (fun g =>
    let x := g.place
    let sameCore := x.coreNo = p.coreNo
    if x.bid = p.bid then
      sameCore && x.slot ≠ p.slot && apart x.lrBase x.lregs p.lrBase p.lregs && x.tmask &&& p.tmask = 0 &&
      x.spBase = p.spBase && x.tsBase = p.tsBase && x.bsBase = p.bsBase
    else
      (!sameCore || (x.slot ≠ p.slot && apart x.lrBase x.lregs p.lrBase p.lregs && x.tmask &&& p.tmask = 0 &&
        apart x.spBase x.spSlots p.spBase p.spSlots && apart x.tsBase x.tsFr p.tsBase p.tsFr && apart x.bsBase x.bsu p.bsBase p.bsu)) &&
      (!(g.key.task = key.task && g.key.cluster = key.cluster) || (x.q = p.q && x.core ≠ p.core)))

/-- The key that a bind record names in a task. -/
def bindKey (r : Nat) (t : Task) : GroupKey := ⟨t.id, bindCluster r, bindBlock r, bindGroup r⟩

/-- Whether a task has a group at the record's place of the grid. -/
def inGrid (r : Nat) (t : Task) : Bool := bindCluster r < recNclus t.img && bindBlock r < recNblk t.img && bindGroup r < recNgrp t.img

/-- Of some tasks, the one of the lowest class, admitted first (R321). -/
def firstBound (l : List Task) : Option Task :=
  l.foldl (fun b t =>
    match b with
    | none => some t
    | some x => if t.cls < x.cls ∨ (t.cls = x.cls ∧ t.adm < x.adm) then some t else some x) none

/-- The admitted tasks that have a group still to be launched. -/
def unbound (s : State) : List Task := s.tasks.filter (fun t => t.phase = .admitted && (taskGroups t).any (fun k => !t.launched.contains k))

/-- The task that a launch record is for: the first to be bound of the admitted tasks, if the record's group of it is not launched yet
(R321). A task is bound in full before the next one begins. DEDUCED, log entry
110. -/
def launchTask (s : State) (r : Nat) : Option Task :=
  (firstBound (unbound s)).filter (fun t => inGrid r t && !t.launched.contains (bindKey r t))

/-- In a deterministic task clusters launch in ascending order (R323). -/
def clusterTurn (t : Task) (c : Nat) : Bool :=
  !recDet t.img || (taskGroups t).all (fun k => k.cluster ≥ c || t.launched.contains k)

/-- The dispatch hardware reads the vector table's entry of an address space: its errors are met (R337, R340). -/
def touchVbase (s : State) (asid : Nat) : State := touchBy s 0 (unitOf (s.asidBase + 0x80000 + 8 * asid))

/-- VBASE from the vector table (R328). -/
def vbaseOf (s : State) (asid : Nat) : Word :=
  let e := s.asidBase + 0x80000 + 8 * asid
  let v := homeNat s e 8
  if !localOk s e || homePoison s e || !bit1 v 0 || bits v 5 1 ≠ 0 then 0 else BitVec.ofNat 64 (v / 64 * 64)

/-- COORD (R24). -/
def coordOf (t : Task) (k : GroupKey) : Word :=
  BitVec.ofNat 64 (k.cluster * 2 ^ 40 + (recNblk t.img - 1) * 2 ^ 32 + (recNgrp t.img - 1) * 2 ^ 28 + recPitch t.img k.group * 2 ^ 16 +
    k.block * 16 + k.group)

/-- MODE at launch (R51). -/
def modeOf (t : Task) : Word :=
  let rnd := if recRnd t.img = 0 ∨ recRnd t.img = 7 then 1 else recRnd t.img
  BitVec.ofNat 64 (rnd + (if recDet t.img then 32 else 0) + t.cls % 4 * 64)

/-- A group at its launch (R11, R312). -/
def launchGroup (s : State) (t : Task) (r : Nat) : Group :=
  let k := bindKey r t
  let i := t.img
  { Group.idle with
    key := k
    place := bindPlace r t
    cap := { Caps.reset with mode := modeOf t, lscale := BitVec.ofNat 32 (recLscale i)
                             shape := ssetMany 0 [] ((List.range 4).map (fun n => (n, BitVec.ofNat 64 (recShape i n) &&& 0x03FFFFFFF8FFF00F))) }
    sp := { Specials.reset with
      exmask := BitVec.ofNat 32 (recExmask i), launchEx := BitVec.ofNat 32 (recExmask i), coord := coordOf t k, seed := t.seed
      stream := BitVec.ofNat 64 (recStream i), vbase := vbaseOf s t.asid, bivbase := BitVec.ofNat 64 (bindBiv r)
      ctxaddr := BitVec.ofNat 64 (bindCtx r), asid := BitVec.ofNat 64 t.asid, gen := BitVec.ofNat 64 (ctlGen s t.asid)
      lcb := BitVec.ofNat 64 (recLcb i), args := t.args, argTag := t.argTag, since := s.tick }
    pc := BitVec.ofNat 64 (recEntry i)
    seq := s.uid }

/-- A sector of the arrays 0x07 to 0x09 that lies in the windows of a place (R342). -/
def inWindows (p : Place) (array idx : Nat) : Bool :=
  let among := fun (i first n size : Nat) => decide (first * size ≤ i ∧ i < (first + n) * size)
  match array with
  | 0x07 => among idx p.spBase p.spSlots 32
  | 0x08 => among idx p.tsBase p.tsFr 64
  | 0x09 => among (idx % 1024) p.bsBase p.bsu 32
  | _ => false

/-- Every sector of the windows of a place is written: its code words are new, and an injection that waits for one of them fires
(R337, R342). -/
def refillWindows (s : State) (p : Place) : State :=
  let s1 := { s with errs := { s.errs with latent := s.errs.latent.filter (fun l => !(l.core = p.coreNo && inWindows p l.array l.addr)) } }
  match armedInj s1 p.coreNo with
  | none => s1
  | some (a, u, w) =>
    if !inWindows p a u then s1
    else
      let k := p.coreNo * 3
      { s1 with errs := { s1.errs with
        inj := sset 0 s1.errs.inj k (BitVec.ofNat 64 (setBits (sget 0 s1.errs.inj k).toNat 15 15 0))
        latent := s1.errs.latent ++ (if w = 0 then [] else [(⟨a, p.coreNo, u, w, true⟩ : Latent)]) } }

/-- A block's windows become zero bytes, settled, without poison, and its tag table INVALID (R86, R90). -/
def clearWindows (s : State) (p : Place) : State :=
  let out := fun (a : Nat) => decide (a < blockBase p.bid) || decide (blockBase (p.bid + 1) ≤ a)
  refillWindows { s with mem := sfilter out s.mem, utag := sfilter out s.utag, upoison := sfilter out s.upoison
                         tagTab := sfilter (fun a => decide (a / 1024 ≠ p.bid)) s.tagTab } p

/-- The place of a bind record in the slot tables, and a record as it then reads (R320, R324). -/
def slotKey (p : Place) : Nat := p.coreNo * 16 + p.slot
def State.putBind (s : State) (p : Place) (rec : Nat) : State := { s with bindTab := sset 0 s.bindTab (slotKey p) rec }

/-- A new group joins the device. The focus goes to it when no group holds the focus. -/
def addGroup (s : State) (g : Group) : State := if s.g.place.bound then { s with rest := s.rest ++ [g] } else focusIn s g
where
  /-- An idle focus is replaced; a saved group in focus stays among the others. -/
  focusIn (s : State) (g : Group) : State :=
    { s with g := g, rest := if s.g.key = GroupKey.zero then s.rest else s.rest ++ [s.g] }

/-- The block of a key has no launched group yet. -/
def firstOfBlock (t : Task) (k : GroupKey) : Bool := !t.launched.any (fun x => x.cluster = k.cluster && x.block = k.block)

/-- R320: a bind record with ACT 1 launches a group, unless it is refused; its bits below BLKADDR are not looked at (R5). Clusters of a grid that is
not declared co-resident may be bound and run together, where there is room: R23 promises that only of one that is. DEDUCED, log entry 120. -/
def execBindLaunch (rec : Nat) (s0 : State) : Out :=
  if bindAct rec ≠ 1 then .next s0
  else
    match launchTask s0 rec with
    | none => .next s0
    | some t =>
      let k := bindKey rec t
      let p := bindPlace rec t
      if !placeFits s0 p t.cls || !placeFree s0 k p || !clusterTurn t k.cluster then .next s0
      else
        let s := touchVbase s0 t.asid
        let s1 := if firstOfBlock t k then clearWindows s p else s
        let s2 := addGroup { s1 with uid := s1.uid + 1 } (armWritten s (launchGroup s t rec))
        .next ((s2.putBind p rec).upTask t.id (fun t => { t with launched := t.launched ++ [k] }))

/-! ### The starvation bound (R31) -/

/-- R31: in normal mode a ready group that was passed over for 64 cycles is chosen next. -/
def execStarvationBound (g : GroupKey) (s : State) : Out :=
  match s.findGroup g with
  | none => .next s
  | some h => if s.ready h && !h.det && cyclesOver h.place.coreNo (s.tick - h.passed) s.tick ≥ 64 then .next (focusOn s g) else .next s

end Sys2Proof.Machine
end

