-- ==== Sys2Proof/Machine/Faults.lean ====
section
/-! DEFINITION. Words that are no instruction, errors that strike the arrays, injections into registers, and the tests of rows
(R151, R152, R337, R340 to R344, R347, R378). -/

namespace Sys2Proof.Machine

/-! ### Words that are no instruction (R151, R152) -/

/-- R151: a fetched word that decodes to no instruction raises ZEROWORD or ILLEGAL; a lane word does so after its WT wait. -/
def execNotAnInstruction (lane : Bool) (w : BitVec 96) (s : State) : Out :=
  if lane then laneIssue (namesOnly 0 (w.extractLsb' 34 8)) (fun _ _ => .trap (mkTrap cILLEGAL) 0) s
  else scalarWord [] [] (fun _ => .trap (mkTrap (if w = 0 then cZEROWORD else cILLEGAL))) s

/-- A word that cannot be fetched raises its cause: a scalar word's, and a lane word's (R12, R138, R141). -/
def scalarFetchTrap (t : Trap) (s : State) : Out := scalarWord [] [] (fun _ => .trap t) s
def laneFetchTrap (t : Trap) (s : State) : Out :=
  if s.g.qs.pendL.isSome then .next s else let s0 := s.upG Group.startRun; laneEnd s0 (laneCtx s0.g) (.trap t 0)

/-! ### Errors that strike (R337, R340, R342) -/

/-- The groups bound to a core, the lowest slot first. -/
def coreGroups (s : State) (core : Nat) : List Group :=
  let l := s.groups.filter (fun g => g.place.bound && g.place.coreNo = core)
  (List.range 16).flatMap (fun i => l.filter (fun g => g.place.slot = i))

/-- An error strikes an element of a register array: it stays latent until a read meets it, and an uncorrectable one leaves the
element bad (R337). -/
def strikeRegister (s : State) (array core addr : Nat) (bits : Word) (inj : Bool) : State :=
  match (coreGroups s core).findSome? (fun g => (elementOf g array addr).map (fun i => (g.key, i))) with
  | none => s
  | some (k, i) =>
    { s with errs := { s.errs with latent := s.errs.latent ++ [(⟨array, core, addr, bits, inj⟩ : Latent)] } }.upGroup k (fun g => { g with
      r := { g.r with bad := g.r.bad ++ ((0x300 + array, i) :: if bitCount bits < 2 then [] else [(array, i)]) } })

/-- An error of a translation cache: the entry is discarded, and the access walks again (R342). -/
def strikeTlb (s : State) (core addr : Nat) (bits : Word) (inj : Bool) : State :=
  let s1 := logRead s 0 ⟨0x0A, core, addr, bits, inj⟩
  match (s1.tlb.filter (fun e => e.core = core))[addr]? with
  | some e => { s1 with tlb := s1.tlb.filter (· ≠ e) }
  | none => s1

/-- R337, R340: an error strikes a code word, and stays latent until it is read. An error in a translation cache loses its entry at
once, and one in a window or a register that holds nothing is lost. -/
def execSoftError (array core addr : Nat) (bits : Word) (s : State) : Out :=
  .next (if bits = 0 then s
    else if array = 0x0A then strikeTlb s core addr bits false
    else if 1 ≤ array && (array ≤ 0x06 || array = 0x0B) then strikeRegister s array core addr bits false
    else if 0x07 ≤ array && array ≤ 0x14 then
      { s with errs := { s.errs with latent := s.errs.latent ++ [⟨array, core, addr, bits, false⟩] } }
    else s)

/-- A read of an array of a quarter's controllers: its latent errors are logged (R340, R347). -/
def touchArray (s : State) (array q : Nat) (p : Nat → Bool) : State :=
  let hit := fun (l : Latent) => l.array = array && l.core = q && p l.addr
  if s.errs.latent.any hit then
    let s1 := (s.errs.latent.filter hit).foldl (fun s l => logRead s 0 l) s
    { s1 with errs := { s1.errs with latent := s1.errs.latent.filter (fun l => !hit l) } }
  else s

/-! ### Tests of rows (R343, R344, R347) -/

/-- The non-injected errors of a row within 2^30 cycles of the block that owns it: its core, or its stack controller. -/
def rowCount (s : State) (array core row : Nat) : Nat :=
  s.errs.rows.countP (fun r => r.array = array && r.core = core && r.row = row &&
    cyclesOver (if array < 0x10 then core else 256 + core) r.tick s.tick ≤ 2 ^ 30)

/-- The classing of R344: what the test found, or the count of the row's errors. -/
def isLasting (s : State) (w0 array core addr : Nat) (found : Bool) : Bool :=
  found || (!bit1 w0 59 && rowCount s array core (Config.rowOf array addr) ≥ 3)

/-- The spare rows that the configuration record gives a bank (R378). -/
def spareRows (s : State) (array q bank dflt : Nat) : Nat :=
  match s.svc.cfg.spares.find? (fun e => bits e 63 56 = array && bits e 51 50 = q && bits e 49 0 = bank) with
  | some e => bits e 55 52
  | none => dflt

/-- Adds a mark for the next amendment (R344, R378). A unit is marked once; each spare row used is listed, since its entry names no core. -/
def addMark (s : State) (u : DevUnit) : State :=
  { s with svc := { s.svc with marks := if u.kind ≠ 3 && s.svc.marks.contains u then s.svc.marks else s.svc.marks ++ [u], due := true } }

/-- Classes an error: counts it, and uses a spare row or marks the unit. The result holds CLS, SPARED and DECONF for word 0. -/
def classify (s : State) (w0 array q bank addr dflt : Nat) (unit : DevUnit) (lasting : Bool) : State × Nat :=
  if !lasting then ({ s with svc := { s.svc with transient := s.svc.transient + 1 } }, setBits w0 61 60 1)
  else
    let s1 := { s with svc := { s.svc with lasting := s.svc.lasting + 1 } }
    let key := (array * 4 + q) * 2 ^ 50 + bank
    let used := sget 0 s1.errs.spareUsed key
    if used < spareRows s1 array q bank dflt then
      (addMark { s1 with errs := { s1.errs with spareUsed := sset 0 s1.errs.spareUsed key (used + 1) } }
        { q := q, kind := 3, index := array * 2 ^ 48 + addr }, setBits (setBits w0 61 60 2) 58 58 1)
    else (addMark s1 unit, setBits (setBits w0 61 60 2) 57 57 1)

/-- The cores in use of a quarter, by physical index (R380). -/
def usedCores (s : State) (q : Nat) : List Nat :=
  ((List.range 64).filter (fun i => !s.svc.bootMarks.contains { q := q, kind := 0, index := i })).take s.svc.coreCount

/-- The physical index of a core. -/
def physCore (s : State) (core : Nat) : Nat := (usedCores s (core / 64)).getD (core % 64) (core % 64)

/-- An entry of a log whose test is pending. -/
def pendingRecord (w0 : Nat) : Bool := bit1 w0 63 && bits w0 61 60 = 0

/-- Classes an error of a core's array, and of a DRAM row. -/
def classCore (s : State) (w0 core array addr : Nat) (lasting : Bool) : State × Nat :=
  classify s w0 array (core / 64) (physCore s core * 256 + Config.bankOf array addr % 256) addr s.svc.cfg.spareS
    { q := core / 64, kind := 0, index := physCore s core } (isLasting s w0 array core addr lasting)

/-- The test of an error that no record shows ends: its row is classed all the same (R343). n counts such tests of a log. -/
def testLoose (s : State) (log n : Nat) (cls : State → RowTest → State) : State :=
  match (s.errs.tests.filter (fun t => t.log = log))[n]? with
  | none => s
  | some t => cls { s with errs := { s.errs with tests := s.errs.tests.erase t } } t

/-- Word 0 of a record as far as the classing looks at it. -/
def RowTest.word0 (t : RowTest) : Nat := logWord0 false 0 t.inj t.array

/-- R343, R344: the test of the row of record e in a core's log ends; from 16 on, e counts the errors that no record shows. -/
def execRowTest (core e : Nat) (lasting : Bool) (s : State) : Out :=
  let i := core * 64 + 4 * e
  let w0 := (sget 0 s.errs.coreLog i).toNat
  let array := bits w0 39 32
  if e ≥ 16 then .next (testLoose s core (e - 16) (fun s t => (classCore s t.word0 core t.array t.addr lasting).1))
  else if !pendingRecord w0 || array = 0 || array > 0x0B then .next s
  else
    let r := classCore s w0 core array (sget 0 s.errs.coreLog (i + 1)).toNat lasting
    .next { r.1 with errs := { r.1.errs with coreLog := sset 0 r.1.errs.coreLog i (BitVec.ofNat 64 r.2) } }

def classDram (s : State) (w0 q addr : Nat) (lasting : Bool) : State × Nat :=
  classify s w0 0x10 q (lineBank (addr * 64)) addr s.svc.cfg.spareD { q := q, kind := 1, index := lineGroup (addr * 64) }
    (isLasting s w0 0x10 q addr lasting)

/-- R347: the bank logic's test of a DRAM row ends; from 512 on, e counts the errors that no record shows. -/
def execDramRowTest (q e : Nat) (lasting : Bool) (s : State) : Out :=
  let i := q * 2048 + 4 * e
  let w0 := (sget 0 s.errs.dramLog i).toNat
  if q ≥ 4 then .next s
  else if e ≥ 512 then .next (testLoose s (256 + q) (e - 512) (fun s t => (classDram s t.word0 q t.addr lasting).1))
  else if !pendingRecord w0 || bits w0 39 32 ≠ 0x10 then .next s
  else
    let r := classDram s w0 q (sget 0 s.errs.dramLog (i + 1)).toNat lasting
    .next { r.1 with errs := { r.1.errs with dramLog := sset 0 r.1.errs.dramLog i (BitVec.ofNat 64 r.2) } }

end Sys2Proof.Machine
end

