-- ==== Sys2Proof/Machine/Sha.lean ====
section
/-! DEFINITION. SHA-256, which the spec names and does not define (R373, R374): taken from FIPS 180-4. PRESUMED, log entry 16. -/

namespace Sys2Proof.Machine

abbrev W32 := BitVec 32

/-! ### Constants: the fractions of roots of primes -/

/-- No smaller number than n, from 2 on, divides it. -/
def isPrime (n : Nat) : Bool := 2 ≤ n && (List.range n).all (fun d => d < 2 || n % d ≠ 0)

/-- The first 64 primes. -/
def shaPrimes : List Nat := (List.range 312).filter isPrime

/-- The largest r below 2^k with p r, for a p that holds up to some number. -/
def lastUpTo (p : Nat → Bool) : Nat → Nat → Nat
  | 0, r => r
  | k + 1, r => lastUpTo p k (if p (r + 2 ^ k) then r + 2 ^ k else r)

/-- The first 32 bits of the fraction of the e-th root of n. -/
def rootFrac (e n : Nat) : W32 := BitVec.ofNat 32 (lastUpTo (fun r => r ^ e ≤ n * 2 ^ (32 * e)) 40 0)

/-- The round constants, and the words that a digest starts from. -/
def shaK : List W32 := shaPrimes.map (rootFrac 3)
def shaInit : List W32 := (shaPrimes.take 8).map (rootFrac 2)

/-! ### Blocks -/

/-- The exclusive sum of a word's rotations. -/
def spins (x : W32) (l : List Nat) : W32 := l.foldl (fun a n => a ^^^ x.rotateRight n) 0

/-- The schedule grows at its end: word t comes from the words 16, 15, 7 and 2 before it. -/
def shaGrow (w : List W32) : List W32 :=
  (List.range 48).foldl (fun w t =>
    let at_ := fun back => w.getD (t + 16 - back) 0
    let low := spins (at_ 15) [7, 18] ^^^ (at_ 15 >>> 3)
    let high := spins (at_ 2) [17, 19] ^^^ (at_ 2 >>> 10)
    w ++ [at_ 16 + low + at_ 7 + high]) w

/-- One round, on the eight words in their order: the last three words of each half move up, and a new word enters each half. -/
def shaRound (h : List W32) (add : W32) : List W32 :=
  let v := fun i => h.getD i 0
  let choose := (List.range 32).foldl (fun (x : W32) i => if (if (v 4).getLsbD i then v 5 else v 6).getLsbD i then x ||| BitVec.ofNat 32 (2 ^ i) else x) 0
  let most := (List.range 32).foldl (fun (x : W32) i => if (h.take 3).countP (fun w => w.getLsbD i) ≥ 2 then x ||| BitVec.ofNat 32 (2 ^ i) else x) 0
  let t := v 7 + spins (v 4) [6, 11, 25] + choose + add
  (t + spins (v 0) [2, 13, 22] + most) :: h.take 3 ++ (v 3 + t) :: (h.drop 4).take 3

/-- One block of 16 words. -/
def shaBlock (h w : List W32) : List W32 := ((shaK.zipWith (· + ·) (shaGrow w)).foldl shaRound h).zipWith (· + ·) h

/-! ### Messages -/

/-- The big-endian number of a list of bytes. -/
def beNat (l : List Byte) : Nat := leNat l.reverse
def beBytes (n v : Nat) : List Byte := (leBytes n v).reverse

/-- The padding of a message of n bytes. -/
def shaPad (n : Nat) : List Byte := 0x80 :: List.replicate ((119 - n % 64) % 64) 0 ++ beBytes 8 (8 * n)

/-- Word i of a list of bytes. -/
def shaWord (l : List Byte) (i : Nat) : W32 := BitVec.ofNat 32 (beNat ((l.drop (4 * i)).take 4))

/-- SHA-256 of a list of bytes. -/
def sha256 (l : List Byte) : List Byte :=
  let m := l ++ shaPad l.length
  let block := fun (h : List W32) k => shaBlock h ((List.range 16).map (shaWord ((m.drop (64 * k)).take 64)))
  ((List.range (m.length / 64)).foldl block shaInit).flatMap (fun w => beBytes 4 w.toNat)

end Sys2Proof.Machine
end

