-- ==== Sys2Proof/Machine/Lms.lean ====
section
/-! DEFINITION. LMS over SHA-256 with tree height 20 and Winternitz parameter 8, which the spec names and does not define (R374): taken from
RFC 8554. PRESUMED, log entry 112. -/

namespace Sys2Proof.Machine

/-- The height of a tree. -/
def lmsHeight : Nat := 20

/-- A hash of a key: its identifier and a number come before the rest. -/
def lmsHash (vendor : Bool) (n : Nat) (l : List Byte) : List Byte := sha256 (beBytes 16 (Config.lmsId vendor).toNat ++ beBytes 4 n ++ l)

/-- Steps of chain i of leaf q: n of them, from step j on. -/
def lmsChain (vendor : Bool) (q i : Nat) : Nat → Nat → List Byte → List Byte
  | _, 0, x => x
  | j, n + 1, x => lmsChain vendor q i (j + 1) n (lmsHash vendor q (beBytes 2 i ++ beBytes 1 j ++ x))

/-- The secret from which chain i of leaf q starts. -/
def lmsStart (vendor : Bool) (q i : Nat) : List Byte := beBytes 32 (Config.lmsSecret vendor q i).toNat

/-- The one-time public key that the ends of a leaf's 34 chains give. -/
def lmsOnceKey (vendor : Bool) (q : Nat) (ends : Nat → List Byte) : List Byte :=
  lmsHash vendor q (beBytes 2 0x8080 ++ (List.range 34).flatMap ends)

/-- A leaf of the tree, and the node above two others. -/
def lmsLeaf (vendor : Bool) (q : Nat) (key : List Byte) : List Byte := lmsHash vendor (2 ^ lmsHeight + q) (beBytes 2 0x8282 ++ key)
def lmsAbove (vendor : Bool) (r : Nat) (x y : List Byte) : List Byte := lmsHash vendor r (beBytes 2 0x8383 ++ x ++ y)

/-- Node r of the tree, h levels above the leaves; node 1 is the root. -/
def lmsNode (vendor : Bool) : Nat → Nat → List Byte
  | 0, r => lmsLeaf vendor (r - 2 ^ lmsHeight) (lmsOnceKey vendor (r - 2 ^ lmsHeight) (fun i =>
      lmsChain vendor (r - 2 ^ lmsHeight) i 0 255 (lmsStart vendor (r - 2 ^ lmsHeight) i)))
  | h + 1, r => lmsAbove vendor r (lmsNode vendor h (2 * r)) (lmsNode vendor h (2 * r + 1))

/-- The 34 numbers that a message gives for leaf q and a randomizer: its digest and their checksum. -/
def lmsDigits (vendor : Bool) (q : Nat) (c m : List Byte) : List Nat :=
  let d := (lmsHash vendor q (beBytes 2 0x8181 ++ c ++ m)).map (fun b => b.toNat)
  d ++ (beBytes 2 (d.foldl (fun a x => a + (255 - x)) 0)).map (fun b => b.toNat)

/-- The randomizer of a signature. -/
def lmsRandom (vendor : Bool) (q : Nat) (m : List Byte) : List Byte := beBytes 32 (Config.lmsRandom vendor q m).toNat

/-- The chains of a one-time signature over a message. -/
def lmsChains (vendor : Bool) (q : Nat) (m : List Byte) : List Byte :=
  ((lmsDigits vendor q (lmsRandom vendor q m) m).zipIdx).flatMap (fun x => lmsChain vendor q x.2 0 x.1 (lmsStart vendor q x.2))

/-- The path of a leaf: at each level the other child of the node above. -/
def lmsPath (vendor : Bool) (q : Nat) : List Byte :=
  (List.range lmsHeight).flatMap (fun h =>
    let r := (2 ^ lmsHeight + q) / 2 ^ h
    lmsNode vendor h (if r % 2 = 0 then r + 1 else r - 1))

/-- A signature of 1,772 bytes (R374): q, the one-time signature, which begins with its type, the type of the tree, and the path. The numbers
stand as R4 has them, least significant byte first; the types are 4 and 8. -/
def lmsSig (vendor : Bool) (q : Nat) (m : List Byte) : List Byte :=
  leBytes 4 q ++ (leBytes 4 4 ++ lmsRandom vendor q m ++ lmsChains vendor q m) ++ leBytes 4 8 ++ lmsPath vendor q

/-- Piece k of 32 bytes. -/
def piece32 (l : List Byte) (k : Nat) : List Byte := (l.drop (32 * k)).take 32

/-- The root that a leaf's node and its path lead to. -/
def lmsRootFrom (vendor : Bool) (path : List Byte) : Nat → Nat → Nat → List Byte → List Byte
  | 0, _, _, x => x
  | n + 1, k, r, x =>
    lmsRootFrom vendor path n (k + 1) (r / 2)
      (if r % 2 = 0 then lmsAbove vendor (r / 2) x (piece32 path k) else lmsAbove vendor (r / 2) (piece32 path k) x)

/-- A signature verifies under a key: its length and types are right, and it leads to the key's root. -/
def lmsVerify (vendor : Bool) (m sig : List Byte) : Bool :=
  let q := leNat (sig.take 4)
  let once := sig.drop 8
  let ends := fun i =>
    let d := (lmsDigits vendor q (once.take 32) m).getD i 0
    lmsChain vendor q i d (255 - d) (piece32 once (i + 1))
  decide (sig.length = 1772) && decide (q < 2 ^ lmsHeight) && decide (leNat ((sig.drop 4).take 4) = 4) &&
  decide (leNat ((sig.drop 1128).take 4) = 8) &&
  decide (lmsRootFrom vendor (sig.drop 1132) lmsHeight 0 (2 ^ lmsHeight + q) (lmsLeaf vendor q (lmsOnceKey vendor q ends)) =
    lmsNode vendor lmsHeight 1)

end Sys2Proof.Machine
end

