-- ==== Sys2Proof/Machine/Service.lean ====
section
/-! DEFINITION. The service core: start-up, power, signatures, service commands, configuration and wear (R354, R372 to R382). -/

namespace Sys2Proof.Machine

/-! ### Flash records (R374, R378, R381) -/

def zeros (n : Nat) : List Byte := List.replicate n 0

/-- A device-key signature over a message with a leaf, and the vendor's signature. -/
def deviceSig (leaf : Nat) (m : List Byte) : List Byte := lmsSig false leaf m
def vendorSign (m : List Byte) : List Byte := lmsSig true (Config.vendorLeaf m).toNat m

/-- The configuration record, and the record with its signature. -/
def cfgBytes (c : CfgRec) : List Byte :=
  leBytes 8 1 ++ leBytes 16 c.serial ++ leBytes 4 c.cores ++ leBytes 4 c.spares.length ++
  (List.range 256).map (fun i => BitVec.ofNat 8 (sget 0 c.caps i)) ++ leBytes 1 c.spareS ++ leBytes 1 c.spareD ++ zeros 6 ++
  c.spares.flatMap (leBytes 8)
def cfgImage (c : CfgRec) : List Byte := cfgBytes c ++ c.sig.getD (vendorSign (cfgBytes c))

/-- The record's signature verifies (R372, R374); the vendor's own does. -/
def cfgSigned (c : CfgRec) : Bool := c.sig.all (lmsVerify true (cfgBytes c))

/-- The number of a unit as an amendment lists it. -/
def DevUnit.code (u : DevUnit) : Nat := u.q * 2 ^ 62 + u.kind * 2 ^ 56 + u.index

/-- A wear amendment without its signature, and with it. -/
def amendBytes (a : Amend) : List Byte :=
  leBytes 8 1 ++ leBytes 8 a.seq ++ leBytes 4 a.units.length ++ leBytes 4 (if a.sig.isNone then 1 else 0) ++
  a.units.flatMap (fun u => leBytes 8 u.code) ++ a.block
def amendImage (a : Amend) : List Byte := amendBytes a ++ (match a.sig with | some l => deviceSig l (amendBytes a) | none => [])

/-! ### The leaf index (R375) -/

def leafMax : Nat := 2 ^ 20

/-- The age of a copy; one that is not valid is older than every other. -/
def leafAge (c : Option (Nat × Nat)) : Nat := match c with | none => 0 | some x => x.2 + 1

/-- The first copy is the newer one. -/
def leafFirst (v : Svc) : Bool := leafAge v.leafA ≥ leafAge v.leafB

/-- The index in the valid copy with the higher sequence number. -/
def leafNow (v : Svc) : Nat := (((if leafFirst v then v.leafA else v.leafB).map (·.1))).getD 0

/-- Puts something in place of the older copy. -/
def leafOver (v : Svc) (c : Option (Nat × Nat)) : Svc := if leafFirst v then { v with leafB := c } else { v with leafA := c }

/-- An index written over the older copy. -/
def leafPut (v : Svc) (l : Nat) : Svc := leafOver v (some (l, leafAge (if leafFirst v then v.leafA else v.leafB)))

/-- Power goes while an index write is under way: the older copy stays, is no longer valid, or holds the new index. The spec does not say which:
DESIGN CHOICE, log entry 114. -/
def leafTorn (v : Svc) (which : Nat) : Svc :=
  match v.leafBusy with
  | none => v
  | some l => if which = 0 then v else if which = 1 then leafOver v none else leafPut v l

/-- Both copies read 2^20. -/
def leafSpent (v : Svc) : Bool := v.leafA.map (·.1) = some leafMax && v.leafB.map (·.1) = some leafMax

/-- Begins the index write that must come before a signature, unless one is under way or a leaf stands ready. A spent index is written
over the other copy too. -/
def leafBegin (v : Svc) : Svc :=
  if v.leafBusy.isSome || v.signFor.isSome || leafSpent v then v else { v with leafBusy := some (min leafMax (leafNow v + 1)) }

/-- R375: flash reports the write complete: the leaf before the new index may now sign. -/
def execLeafIndexWritten (s : State) : Out :=
  match s.svc.leafBusy with
  | none => .next s
  | some l =>
    let v := s.svc
    .next { s with svc := { leafPut v l with leafBusy := none, signFor := if leafNow v < leafMax then some (leafNow v) else v.signFor } }

/-! ### Start-up (R372, R373, R380) -/

/-- MSn after measuring an image, as a number (R373). -/
def measure (ms : Nat) (digest : List Byte) : Nat := leNat (sha256 (leBytes 32 ms ++ digest))

/-- The limits of R378 on the record. -/
def cfgOk (c : CfgRec) : Bool :=
  c.cores % 4 = 0 && 48 ≤ c.cores && c.cores ≤ 64 && c.spareS ≤ 2 && c.spareD ≤ 4 &&
  c.spares.all (fun e => bits e 55 52 ≤ (if bits e 63 56 = 0x10 then 4 else 2))

/-- The chain of amendments is accepted: numbers in sequence from 1, and unsigned ones last and only when the leaves are spent
(R372, R375). -/
def amendsOk (v : Svc) : Bool :=
  v.amends.map (·.seq) = (List.range v.amends.length).map (· + 1) &&
  (v.amends.dropWhile (fun a => a.sig.isSome)).all (fun a => a.sig.isNone) &&
  (v.amends.all (fun a => a.sig.isSome) || leafSpent v)

/-- The marks in force: a signed amendment states them all, an unsigned one only adds those that it lists oftener: an entry of kind 3 stands once
for each spare row used (R375, R378). -/
def marksOf (l : List Amend) : List DevUnit :=
  l.foldl (fun m a => if a.sig.isSome then a.units else m ++ m.foldl List.erase a.units) []

/-- The spare rows used of each bank: a signed amendment states them all, an unsigned one returns none (R375). -/
def sparesOf (l : List Amend) : Store Nat :=
  l.foldl (fun m a => if a.sig.isSome then a.spares else ssetMany 0 m (a.spares.map (fun x => (x.1, max x.2 (sget 0 m x.1))))) []

def countMarks (m : List DevUnit) (q kind : Nat) : Nat := m.countP (fun u => u.q = q && u.kind = kind)

/-- The core count (R380). -/
def coresOf (c : CfgRec) (m : List DevUnit) : Nat :=
  min c.cores ((List.range 4).foldl (fun a q => min a (64 - countMarks m q 0)) 64 / 4 * 4)

/-- The usable size of a quarter with r bank groups removed, in bytes: the largest whole number of GiB whose upper lines can hold the
removed ones (R99). A group has an equal share of every GiB. -/
def usableOf (r : Nat) : Nat := 96 * (512 - r) / 512 * 2 ^ 30

/-- The rail groups after training: a rail that a mark names is lost, and a group with two lost rails, or one that does not train, is down
(R354, R372). -/
def markRails (m : List DevUnit) (untrained : BitVec 9) (rg : List RailGroup) : List RailGroup :=
  rg.zipIdx.map (fun x =>
    let lost := (List.range 5).filter (fun r => m.any (fun u => u.kind = 2 && u.index = x.2 * 5 + r))
    { x.1 with lost := BitVec.ofNat 5 (lost.foldl (fun a r => a + 2 ^ r) 0), down := decide (lost.length ≥ 2) || untrained.getLsbD x.2 })

/-- The self-test of the arrays: a fault that it finds is LASTING (R343, R344). -/
def selfTested (s : State) (l : List (Nat × Nat × Nat)) : State :=
  l.foldl (fun s f =>
    let w0 := logWord0 false 0 false f.1
    if f.1 = 0x10 then (classDram s w0 (f.2.1 % 4) f.2.2 true).1
    else if 1 ≤ f.1 ∧ f.1 ≤ 0x0B then (classCore s w0 (f.2.1 % 256) f.1 f.2.2 true).1 else s) s

/-- The start after step 5: the marks and the spares used are applied, links are trained, the arrays are tested, and the dispatch cores
run. -/
def startRest (s : State) (n : Nat) : State :=
  let v := s.svc
  let m := marksOf v.amends
  let c := coresOf v.cfg m
  let v6 := { v with
    marks := m, bootMarks := m, coreCount := c
    usable := ssetMany 0 [] ((List.range 4).map (fun q => (q, usableOf (countMarks m q 1)))) }
  let rg := markRails m (Config.untrained n) s.links.rg
  let s6 := { s with links := { s.links with rg := rg }, errs := { s.errs with spareUsed := sparesOf v.amends } }
  let fail := fun (k : Nat) => { s6 with svc := { v6 with stage := k, err := true } }
  if c < 48 then fail 6
  else if (rg.take 6).any (·.down) then fail 7
  else selfTested { s6 with svc := { v6 with stage := 9, ready := true, due := true, coresAt := s.tick } } (Config.selfTest n)

/-- The start-up sequence from a device without state. n counts power-ons. -/
def startUp (s : State) (n : Nat) : State :=
  let v := s.svc
  let ms0 := measure 0 (beBytes 32 (Config.firmwareDigest 2).toNat)
  let ms1 := measure 0 (beBytes 32 (Config.firmwareDigest 3).toNat)
  let ms2 := measure 0 (sha256 (cfgImage v.cfg))
  let ms3 := v.amends.foldl (fun m a => measure m (sha256 (amendImage a))) 0
  let at_ := fun (k : Nat) (ms : List Nat) (err : Bool) =>
    { s with svc := { v with stage := k, err := err, ms := ssetMany 0 [] (ms.zipIdx.map (fun x => (x.2, x.1))) } }
  if Config.startFails n 2 then at_ 2 [] true
  else if Config.startFails n 3 then at_ 3 [ms0] true
  else if Config.startFails n 4 || !cfgSigned v.cfg || !cfgOk v.cfg then at_ 4 [ms0, ms1] true
  else if Config.startFails n 5 || !amendsOk v then at_ 5 [ms0, ms1, ms2] true
  else startRest (at_ 5 [ms0, ms1, ms2, ms3] false) n

/-- A device that has lost power: only package flash stands. -/
def dark (s : State) : State :=
  let v := leafTorn s.svc ((Config.freeBits s.uid).toNat % 3)
  { State.reset with
    svc := { State.reset.svc with
      powered := false, leafA := v.leafA, leafB := v.leafB, cfg := v.cfg, amends := v.amends, wear := v.wear, guard := v.guard
      powerOns := v.powerOns, lasting := v.lasting, transient := v.transient }
    turns := s.turns, tick := s.tick, uid := s.uid + 1 }

/-- R375: power is removed. -/
def execPowerLoss (s : State) : Out := .next (dark s)

/-- R372: power is applied and the service core starts the device. A device that has begun its start is not started again, and one that has
power and has not begun it keeps its registers, in which a kick may have set ERR. -/
def execPowerOn (s : State) : Out :=
  if s.svc.powered && s.svc.stage ≠ 0 then .next s
  else
    let d := if s.svc.powered then { dark s with host := s.host } else dark s
    .next (startUp { d with svc := { d.svc with powered := true, powerOns := d.svc.powerOns + 1 } } (d.svc.powerOns + 1))

/-! ### Reports (R377, R381) -/

def wearKey (q kind index : Nat) : Nat := (kind * 4 + q) * 2 ^ 16 + index

/-- The core entries of the entry block, by quarter and physical index. -/
def coreEntry (s : State) (q i : Nat) : Nat :=
  sget 0 s.svc.wear (wearKey q 0 i) % 2 ^ 16 * 2 ^ 48 + sget 0 s.svc.guard (wearKey q 0 i) % 2 ^ 16 * 2 ^ 32 +
  sget 0 s.svc.cfg.caps (64 * q + i) * 25 % 2 ^ 16 * 2 ^ 16 + (if s.svc.marks.contains ⟨q, 0, i⟩ then 2 ^ 15 else 0) +
  (if (usedCores s q).contains i then 2 ^ 14 else 0)

def groupEntry (s : State) (q g : Nat) : Nat :=
  sget 0 s.svc.wear (wearKey q 1 g) % 2 ^ 16 * 2 ^ 48 + sget 0 s.svc.guard (wearKey q 1 g) % 2 ^ 16 * 2 ^ 32 +
  (if s.svc.marks.contains ⟨q, 1, g⟩ then 2 ^ 15 else 0)

/-- The lanes of a rail: 64 on a bridge and 8 on an Ulfer rail, half of them when it is degraded, none when it is lost. -/
def lanesInUse (r : RailGroup) (g rail : Nat) : Nat :=
  if r.lost.getLsbD rail then 0 else (if g < 6 then 64 else 8) / (if r.half.getLsbD rail then 2 else 1)

def railEntry (s : State) (k : Nat) : Nat :=
  let r := s.links.rg.getD (k / 5) RailGroup.reset
  sget 0 s.svc.wear (wearKey 0 2 k) % 2 ^ 16 * 2 ^ 48 + lanesInUse r (k / 5) (k % 5) * 2 ^ 8 + (if r.lost.getLsbD (k % 5) then 1 else 0)

/-- The entry block: 18,816 bytes. -/
def entryBlock (s : State) : List Byte :=
  (List.range 256).flatMap (fun i => leBytes 8 (coreEntry s (i / 64) (i % 64))) ++
  (List.range 2048).flatMap (fun i => leBytes 8 (groupEntry s (i / 512) (i % 512))) ++
  (List.range 45).flatMap (fun i => leBytes 8 (railEntry s i)) ++ zeros 24

/-- The condition report without its signature: 18,880 bytes. -/
def conditionBytes (s : State) : List Byte :=
  leBytes 8 1 ++ leBytes 8 (s.svc.amends.foldl (fun m a => max m a.seq) 0) ++ leBytes 8 s.svc.powerOns ++ leBytes 8 s.svc.lasting ++
  leBytes 8 s.svc.transient ++ (List.range 4).flatMap (fun q => leBytes 4 (sget 0 s.svc.usable q / 2 ^ 30)) ++ zeros 8 ++ entryBlock s

/-- The clock of a core, in MHz, with a number of guard-band steps. -/
def coreMhz (s : State) (q index steps : Nat) : Nat := Config.coreClock (sget 0 s.svc.cfg.caps (64 * q + index) * 25) steps

/-- The lowest clock of a core in use. -/
def lowestClock (s : State) : Nat :=
  let l := (List.range 4).flatMap (fun q => (usedCores s q).map (fun i => coreMhz s q i (sget 0 s.svc.guard (wearKey q 0 i))))
  match l with | [] => 0 | x :: t => t.foldl min x

/-- The attestation report without its signature: 256 bytes. The condition report is digested as far as its signature. -/
def attestBytes (s : State) (leaf : Nat) : List Byte :=
  leBytes 8 1 ++ (List.range 32).map (fun i => sget 0 s.svc.buf i) ++ (List.range 4).flatMap (fun i => leBytes 32 (sget 0 s.svc.ms i)) ++
  leBytes 8 s.svc.coreCount ++ leBytes 8 (lowestClock s) ++ sha256 (conditionBytes s) ++ leBytes 8 leaf ++ zeros 32

/-! ### Commands (R376) -/

/-- The operation of a command exists; the bits that must be zero are not looked at (R5). -/
def svcKnown (v : Nat) : Bool := 1 ≤ bits v 7 0 && bits v 7 0 ≤ 4

/-- R376: a write to SVCCMD. -/
def svcCommand (s : State) (w : Nat) : State :=
  let v := s.svc
  if v.busy then { s with svc := { v with code := 1 } }
  else if !svcKnown w then { s with svc := { v with code := 2, err := true } }
  else
    let v1 := { v with busy := true, code := 0, op := bits w 7 0, arg := bits w 39 8 }
    { s with svc := if bits w 7 0 ≤ 2 then leafBegin v1 else v1 }

/-- R377: the host writes OP 1. -/
def execSvcAttest (s : State) : Out := .next (svcCommand s 1)
/-- R381: the host writes OP 2. -/
def execSvcConditionReport (s : State) : Out := .next (svcCommand s 2)
/-- R378: the host writes OP 3. -/
def execSvcReadConfig (s : State) : Out := .next (svcCommand s 3)
/-- R378: the host writes OP 4 with a sequence number. -/
def execSvcReadAmendment (arg : BitVec 32) (s : State) : Out := .next (svcCommand s (arg.toNat * 2 ^ 8 + 4))
/-- R376: the host writes an operation that does not exist. -/
def execSvcBadOperation (op : BitVec 8) (s : State) : Out :=
  .next (if 1 ≤ op.toNat ∧ op.toNat ≤ 4 then s else svcCommand s op.toNat)

/-- A command ends with a result in the buffer, and CODE says OK whatever writes were dropped meanwhile. -/
def svcResult (s : State) (l : List Byte) : State :=
  { s with svc := { s.svc with
    busy := false, err := false, code := 0, len := l.length, buf := ssetMany 0 s.svc.buf (l.zipIdx.map (fun x => (x.2, x.1))) } }

/-- A command ends without one. -/
def svcFail (s : State) (code : Nat) : State := { s with svc := { s.svc with busy := false, err := true, code := code } }

/-- A report that is signed with the leaf reserved for it. Without one its index write comes first; with the leaves spent it fails. -/
def svcSigned (s : State) (body : Nat → List Byte) : State :=
  match s.svc.signFor with
  | some l => svcResult { s with svc := { s.svc with signFor := none } } (body l ++ deviceSig l (body l))
  | none => if leafNow s.svc ≥ leafMax && s.svc.leafBusy.isNone then svcFail s 3 else { s with svc := leafBegin s.svc }

/-- R376: a service command finishes. -/
def execSvcCommandDone (s : State) : Out :=
  if !s.svc.busy then .next s
  else
    match s.svc.op with
    | 1 => .next (svcSigned s (attestBytes s))
    | 2 => .next (svcSigned s (fun _ => conditionBytes s))
    | 3 => .next (svcResult s (cfgImage s.svc.cfg))
    | _ =>
      match s.svc.amends.find? (fun a => a.seq = s.svc.arg) with
      | some a => .next (svcResult s (amendImage a))
      | none => .next (svcFail s 2)

/-! ### Wear (R375, R378, R379, R382) -/

/-- The next amendment. -/
def nextAmend (s : State) (sig : Option Nat) : Amend :=
  { seq := s.svc.amends.length + 1, units := s.svc.marks, spares := s.errs.spareUsed, block := entryBlock s, sig := sig }

/-- R378: an amendment that is due is written to flash, signed with a leaf whose index write is complete, or unsigned when the leaves
are spent. -/
def execWearAmendmentWrite (s : State) : Out :=
  if !s.svc.due then .next s
  else
    let put := fun (sig : Option Nat) (v : Svc) => { v with amends := v.amends ++ [nextAmend s sig], due := false }
    match s.svc.signFor with
    | some l => .next { s with svc := put (some l) { s.svc with signFor := none } }
    | none => .next { s with svc := if leafSpent s.svc then put none s.svc else leafBegin s.svc }

def wearCode : WearKind → Nat
  | .core => 0 | .bankGroup => 1 | .rail => 2 | .spareRow => 3

/-- A unit with monitors, numbered as R378 numbers it. -/
def wearUnit (q : Nat) (kind : WearKind) (index : Nat) : Bool :=
  match kind with
  | .core => q < 4 && index < 64
  | .bankGroup => q < 4 && index < 512
  | .rail => q = 0 && index < 45
  | .spareRow => false

/-- R379: a block raises its guard band by one step; a core with no step left, which mark says, or that would need a clock below 1.5 GHz is
marked instead. -/
def execGuardBandStep (q : Nat) (kind : WearKind) (index : Nat) (wear : BitVec 16) (mark : Bool) (s : State) : Out :=
  let k := wearKey q (wearCode kind) index
  if !wearUnit q kind index then .next s
  else
    let s1 := { s with svc := { s.svc with wear := sset 0 s.svc.wear k wear.toNat } }
    if kind = .core && (mark || coreMhz s q index (sget 0 s.svc.guard k + 1) < 1500) then .next (addMark s1 { q := q, kind := 0, index := index })
    else .next { s1 with svc := { s1.svc with guard := sset 0 s1.svc.guard k (sget 0 s1.svc.guard k + 1) } }

/-- R382: a droop lowers the clock of its own block: the model counts the responses, since it holds no clock. -/
def execDroopResponse (q : Nat) (kind : WearKind) (index : Nat) (s : State) : Out :=
  let k := wearKey q (wearCode kind) index
  .next { s with svc := { s.svc with slowed := sset 0 s.svc.slowed k (sget 0 s.svc.slowed k + 1) } }

end Sys2Proof.Machine
end

