-- ==== Sys2Proof/Machine/HostSide.lean ====
section
/-! DEFINITION. The host: register writes, its accesses to device memory and to its own, and its channels (R133, R134, R315, R345 to
R350, R355, R376). -/

namespace Sys2Proof.Machine

/-! ### Host channels (R350) -/

/-- The replay whose task a line of a slot belongs to: a line starts while a replay of the slot is running, and belongs to the slot's most
recent one. -/
def slotReplay (s : State) (i : Nat) : Option Replay :=
  let l := s.replays.filter (fun r => r.slot = some i)
  if l.any (fun r => !r.ended) then l.getLast? else none

/-- A host line's command: it belongs to node 0's task, and to no group. -/
def hostLineCmd (s : State) (i : Nat) (r : Replay) (anchor : Word) : Cmd :=
  { newCmd s.uid Group.idle (.hostLine i) anchor 0 none with
    owner := ⟨r.id + 1, 0, 0, 0⟩, place := { Place.none with q := i / 16, core := 4096 }, asid := r.asid, gen := r.gen, stage := .queued }

/-- R350: a write to CHAN of set i starts a line, or is dropped with ERR set. -/
def chanWrite (s : State) (i : Nat) (anchor : Word) : State :=
  let busy := (sget 0 s.host.chan (4 * i + 1)).getLsbD 0
  match slotReplay s i with
  | some r =>
    if busy || anchor.toNat % 128 ≠ 0 then setChst s i busy true
    else { setChst s i true false with cmds := s.cmds ++ [hostLineCmd s i r anchor], uid := s.uid + 1 }
  | none => setChst s i busy true

/-- R350: a host write to CHAN. -/
def execHostChanWrite (set : Nat) (anchor : Word) (s : State) : Out := .next (if set < 64 then chanWrite s set anchor else s)

/-! ### Error logs and link status (R347, R355) -/

/-- A write of 0 to word 0 of record e of a quarter's window frees the record; a test that it waits for is still made. -/
def freeDram (s : State) (q e : Nat) : State :=
  let k := q * 2048 + 4 * e
  let w0 := (sget 0 s.errs.dramLog k).toNat
  { s with errs := { s.errs with
    dramLog := sset 0 s.errs.dramLog k (BitVec.ofNat 64 (setBits w0 63 63 0))
    tests := s.errs.tests ++ freedTest (256 + q) w0 (sget 0 s.errs.dramLog (k + 1)).toNat } }

/-- R347: the host frees an error record. -/
def execErrorLogFree (q e : Nat) (s : State) : Out := .next (if q < 4 ∧ e < 512 then freeDram s q e else s)

/-- The counts of a link status record that ones clear (RW1C). -/
def clearLink (r : RailGroup) (ones : Nat) : RailGroup :=
  { r with
    crce := r.crce &&& (2 ^ 16 - 1 - bits ones 63 48)
    rebuilt := r.rebuilt &&& (2 ^ 16 - 1 - bits ones 47 32)
    replays := r.replays &&& (2 ^ 16 - 1 - bits ones 31 16) }

/-- R355: a write of ones to word 0 of a link status record. -/
def execLinkStatusClear (g : Nat) (ones : Word) (s : State) : Out := .next (s.upRail g (fun r => clearLink r ones.toNat))

/-! ### Registers (R315, R346 to R350, R376) -/

/-- Writes to the dispatch block. Must-be-zero bits stay zero. -/
def writeKick (s : State) (r : Nat) (v : Word) : State :=
  match r % 4 with
  | 0 => setKickReg s (r / 4) 0 (bits v.toNat 59 6 * 64)
  | 1 => setKickReg s (r / 4) 1 (setBits (kickReg s (r / 4) 1) 18 0 v.toNat)
  | 2 => kickSlot s (r / 4) v
  | _ => s

/-- Writes to the HDM decoders. -/
def writeHdm (s : State) (r : Nat) (v : Nat) : State :=
  let put := fun (x : Nat) => { s with host := { s.host with hdm := sset 0 s.host.hdm r (BitVec.ofNat 64 x) } }
  match r % 8 with
  | 0 => put (bits v 63 30 * 2 ^ 30)
  | 1 => put (bits v 63 30 * 2 ^ 30)
  | 2 => put (bits v 32 32 * 2 ^ 32 + bits v 15 0)
  | _ => s

/-- The bytes of the service buffer that a write covers. -/
def writeBuf (s : State) (o : Nat) (v : Nat) : State :=
  { s with svc := { s.svc with buf := ssetMany 0 s.svc.buf ((leBytes 8 v).zipIdx.map (fun x => (o + x.2, x.1))) } }

/-- An 8-byte write to an aligned offset of the MMIO space; a write to an offset that holds no register is dropped (R346). -/
def mmioWrite (s : State) (off : Nat) (v : Word) : State :=
  if off = 0 then { s with host := { s.host with seedr := v } }
  else if 0x1000 ≤ off ∧ off < 0x1800 then writeKick s ((off - 0x1000) / 8) v
  else if 0x2000 ≤ off ∧ off < 0x2800 then
    if (off - 0x2000) % 32 = 0 then chanWrite s ((off - 0x2000) / 32) v else s
  else if 0x4000 ≤ off ∧ off < 0x4100 then writeHdm s ((off - 0x4000) / 8) v.toNat
  else if 0x10000 ≤ off ∧ off < 0x10240 then
    if off % 64 = 0 then s.upRail ((off - 0x10000) / 64) (fun r => clearLink r v.toNat) else s
  else if 0x20000 ≤ off ∧ off < 0x30000 then
    if off % 32 = 0 ∧ v = 0 then freeDram s ((off - 0x20000) / 0x4000) ((off - 0x20000) % 0x4000 / 32) else s
  else if off = 0x100000 then svcCommand s v.toNat
  else if 0x110000 ≤ off ∧ off < 0x120000 then writeBuf s (off - 0x110000) v.toNat
  else s

/-- What a host access returns; an unsupported request returns nothing else. -/
def hostAnswer (s : State) (l : List Byte) (poison : Bool) : State :=
  { s with host := { s.host with resp := l, respPoison := poison, unsupported := false } }

/-- R346: a host write to the MMIO space, or with none a read of it. An access of another size, or one that is not aligned, completes as an
unsupported request and has no effect. -/
def execRegisterWrite (off size : Nat) (v : Option Word) (s : State) : Out :=
  .next (if size = 8 ∧ off % 8 = 0 then
    (match v with
     | some w => let t := mmioWrite s off w; { t with host := { t.host with unsupported := false } }
     | none => hostAnswer s (leBytes 8 (mmioRead s off).toNat) false)
    else { s with host := { s.host with resp := [], respPoison := false, unsupported := true } })

/-! ### Host accesses to device memory (R133, R348) -/

/-- Decoder n: base, size and control. -/
def hdmBase (s : State) (n : Nat) : Nat := (sget 0 s.host.hdm (8 * n)).toNat
def hdmSize (s : State) (n : Nat) : Nat := (sget 0 s.host.hdm (8 * n + 1)).toNat
def hdmCtl (s : State) (n : Nat) : Nat := (sget 0 s.host.hdm (8 * n + 2)).toNat

/-- The decoders whose enabled windows hold a host address. -/
def hdmHits (s : State) (h : Nat) : List Nat :=
  (List.range 4).filter (fun n => bit1 (hdmCtl s n) 32 && hdmBase s n ≤ h && h < hdmBase s n + hdmSize s n)

/-- The decoder that answers an access: one alone, on a device that has started. -/
def hdmOf (s : State) (h : Nat) : Option Nat :=
  match hdmHits s h with | [n] => if s.svc.ready then some n else none | _ => none

/-- The access of a decoder: its address space at its current generation, as system software. -/
def hdmReader (s : State) (n : Nat) : Cmd :=
  let asid := hdmCtl s n % 2 ^ 16
  dispatchReader 0 asid (ctlGen s asid) true

def hdmVa (s : State) (n h : Nat) : Word := BitVec.ofNat 64 (h - hdmBase s n)

/-- A host access that is dropped is logged in quarter 0's window (R347, R348). -/
def logHost (s : State) (c : Cmd) (h cause : Nat) : State := logDram s 0 (logWord0 false 0 false 0x21) h cause c.who


/-- R348: a host read of size bytes. Where no decoder answers, nothing happens on the device. -/
def execHostMemRead (addr size : Nat) (s : State) : Out :=
  match hdmOf s addr with
  | none => .next s
  | some n =>
    let c := hdmReader s n
    match engReadSpan s c (hdmVa s n addr) size with
    | .error e => .next (hostAnswer (logHost s c addr e.1) (zeros size) true)
    | .ok (s1, r) => .next (hostAnswer s1 r.bytes r.poison)

/-- The pieces of a write that lie in one line each, with their translations. -/
def hostPieces (s : State) (c : Cmd) : Nat → Word → List Byte → Except Nat (List (Xlat × List Byte))
  | 0, _, _ => .ok []
  | f + 1, va, l =>
    if l.isEmpty then .ok []
    else
      let k := 64 - va.toNat % 64
      match c.xlat s .store va with
      | .error e => .error e
      | .ok x =>
        if unreachable s c x.pa then .error cLINKDOWN
        else
          match hostPieces s c f (va + BitVec.ofNat 64 k) (l.drop k) with
          | .error e => .error e
          | .ok t => .ok ((x, l.take k) :: t)

/-- R348: a host write, performed at home with the tag default of its leaf. -/
def execHostMemWrite (addr : Nat) (bytes : List Byte) (poison : Bool) (s : State) : Out :=
  match hdmOf s addr with
  | none => .next s
  | some n =>
    let c := hdmReader s n
    match hostPieces s c (bytes.length + 1) (hdmVa s n addr) bytes with
    | .error e => .next (logHost s c addr e)
    | .ok ps =>
      .next (ps.foldl (fun s p => placeWrite s c (p.2.zipIdx.map (fun b => (p.1.pa + b.2, b.1))) p.1.tdef poison) s)

/-! ### Host memory (R124, R134, R349) -/

def hostPlace (addr : Nat) : Nat := 2 * 2 ^ 48 + addr % 2 ^ 48

/-- R349: an atomic of the host on a line of its own memory, in one step; it returns the old value. -/
def execHostAtomic (addr size : Nat) (opn typ : BitVec 3) (data cmp : Word) (s : State) : Out :=
  if size ≠ atomWidth typ.toNat ∨ addr % size ≠ 0 then .next s
  else
    let e := markerEntry .atomic
    let r := performAtomic s { e with addr := hostPlace addr, size := size, opn := opn.toNat, typ := typ.toNat, data := data, cmp := cmp }
    .next (hostAnswer r.1 (leBytes size r.2.val.toNat) r.2.poison)

/-- What a load finds at its home in host memory, with the bytes that it took with it from its agent's own writes (R72, R113). -/
def hostLoad (s : State) (e : Entry) : LaneRes :=
  e.answered (BitVec.ofNat 64 (homeNat s e.addr e.size)) (anyUnit (homeTag s) e.addr e.size) (anyUnit (homePoison s) e.addr e.size)

/-- Performs an access at its place, and gives its value to the word that waits for it. One that its stream has gone past and that would meet
poison is not performed (R331). -/
def performOut (s : State) (o : OutReq) : Option State :=
  let e := o.entry
  match e.kind with
  | .store => some (applyWrite (settle s) e.wr e.prop e.poison)
  | .reduce => some (performAtomic s e).1
  | .load | .atomic =>
    let x := if e.kind = .load then (s, hostLoad s e) else performAtomic s e
    if e.heldBack x.2 then none else some (x.1.upGroup o.grp (fun h => h.answer e x.2))
  | _ => some s

/-- Access k goes to the host, and no older access of its agent to the same unit is out. -/
def hostOut (s : State) (k : Nat) : Option OutReq :=
  match s.outs[k]? with
  | some o =>
    if o.dev.isNone && (s.outs.take k).all (fun x => x.grp ≠ o.grp || unitOf x.entry.place ≠ unitOf o.entry.place) then some o else none
  | none => none

/-- R133, R349: the host completes a device access to its memory. -/
def execHostCxlCompletion (k : Nat) (s : State) : Out :=
  match hostOut s k with
  | none => .next s
  | some o => .next (((performOut s o).map (fun t => { t with outs := s.outs.eraseIdx k })).getD s)

end Sys2Proof.Machine
end

