-- ==== Sys2Proof/Machine/LaneConvert.lean ====
section
/-! DEFINITION. Conversion, quantisation of scaled narrow data, the Hadamard step, random draws (R42, R228 to R234). -/

namespace Sys2Proof.Machine

/-! ### VCVT (R228, R229) -/

/-- One value converted: its code in the destination type, with flags. -/
def convertCode (sat : Bool) (m u src dst code : Nat) : Rounded :=
  let v := valOf src code
  let sg := if tyInt src then 0 else sigFlag v
  if tyInt dst then
    (if tyInt src then
      intResult (tyWidth dst) (tySigned dst) sat (if tySigned src then toSigned (tyWidth src) code else (code % 2 ^ tyWidth src : Nat))
     else let r := convInt (tyWidth dst) (tySigned dst) m u v; (r.1, r.2 ||| sg))
  else let r := roundSat (tyFmt dst) m u sat v; (r.1, r.2 ||| sg)

/-- A lane's converted element: the values are placed by PART, and the sub-elements that a narrowing does not write stand. -/
def convertLane (sat : Bool) (m : Nat) (draw : Nat → Nat) (src dst part bitsA bitsD : Nat) : Rounded :=
  let ws := tyWidth src
  let wd := tyWidth dst
  let v := cvtV src dst
  let si := if ws < wd then part * v else 0
  let di := if ws > wd then part * v else 0
  (List.range v).foldl (fun acc j =>
    let r := convertCode sat m (draw j) src dst (bitsA / 2 ^ (ws * (si + j)) % 2 ^ ws)
    (setBits acc.1 (wd * (di + j) + wd - 1) (wd * (di + j)) r.1, acc.2 ||| r.2)) (if ws > wd then bitsD else 0, 0)

/-- R228, R229: VCVT. -/
def execVcvt (w : LWord) (s : State) : Out :=
  let dst := w.ty.toNat
  let src := w.mod8.toNat % 32
  let part := w.mod8.toNat / 32
  laneWord 0x1D w (fun c s =>
    let m := rndMode c w
    let sr := m = 6 && !(tyInt src && tyInt dst)
    elementWord w dst (fun l => srcA c w src l ++ (if tyWidth src > tyWidth dst then srcD c w dst l else []))
      (narrowTy src || narrowTy dst || sr) sr
      (fun l => some (convertLane (w.sat = 1) m (drawSR s.g l) src dst part (opA s.g c w src l) (opD s.g c w dst l))) c s) s

/-! ### The Hadamard step (R42, R233) -/

/-- The run of 32 values of a lane register. -/
def runOf (g : Group) (c : LCtx) (w : LWord) : List Val := (List.range 32).map (fun m => valOf 10 (opA g c w 10 m))

/-- The sign word of the pair sn, s(n+1): the key HSEED, the row and the run's position (R230). -/
def pairSigns (g : Group) (n : Nat) : BitVec 32 :=
  let p := g.sval (n + 1)
  hadSigns (g.sval n) (p.extractLsb' 32 32) (p.extractLsb' 0 32)

/-- An output of the step rounded to f32 under RNE. -/
def hadCode (inverse : Bool) (W : BitVec 32) (x : List Val) (i : Nat) : Rounded :=
  let v := hadOut inverse W x i
  let r := roundTo fmtF32 1 0 v.1
  (r.1, r.2 ||| v.2)

def pairSrc (n : Nat) : List Src := [.s n, .s (n + 1)]

/-- R233: VHAD. -/
def execVhad (w : LWord) (s : State) : Out :=
  laneWord 0x20 w (fun c s =>
    let x := runOf s.g c w
    let W := pairSigns s.g w.vb.toNat
    let srcs := (List.range 32).flatMap (fun m => srcA c w 10 m) ++ pairSrc w.vb.toNat
    elementWord w 10 (fun _ => srcs) false false (fun l => satBound c w 10 (hadCode (w.mod8.getLsbD 4) W x l)) c s) s

/-! ### VQNT (R230, R231) -/

/-- The quotients y(M) with the flags of each, from values already in place. -/
def quotients (g : Group) (c : LCtx) (w : LWord) (x : List (Val × Flags)) : List (Val × Flags) :=
  x.zipIdx.map (fun p =>
    let d := divV p.1.1 (valOf 10 (opB g c w 10 p.2))
    (d.1, d.2 ||| p.1.2))

/-- The inputs: the run, or its forward Hadamard image rounded to f32. -/
def quantInputs (g : Group) (c : LCtx) (w : LWord) : List (Val × Flags) :=
  let x := runOf g c w
  if w.mod8.getLsbD 4 then
    let W := pairSigns g w.vc.toNat
    (List.range 32).map (fun i => let r := hadCode false W x i; (decodeF fmtF32 r.1, r.2))
  else x.map (fun v => (v, 0))

/-- The scale of a block of quotients and its flag (R231). -/
def blockScale (ys : List Val) : Rounded :=
  if ys.any (fun y => isNan y || (match y with | .inf _ => true | _ => false)) then (0xFF, fNV)
  else
    let amax := ys.foldl (fun a y => if ltV a (absV y) then absV y else a) (.zero false)
    match amax with
    | .zero _ => (0x60, 0)
    | _ =>
      let q := (divV amax (.fin false 6 1)).1
      if ltV (.fin false 31 1) q then (0xFE, fOF) else ((roundTo fmtE3M5 3 0 q).1, 0)

/-- The code of lane m, with every flag that it contributes. -/
def quantCode (c : LCtx) (w : LWord) (draw : Nat → Nat) (ys : List (Val × Flags)) (sc : Rounded) (m : Nat) : Rounded :=
  let y := ys.getD m (.zero false, 0)
  let ty := w.ty.toNat
  if ty = 14 then
    (if sc.1 = 0xFF then (0, y.2)
     else
       let r := roundSat fmtE2M1 (rndMode c w) (draw m) (w.sat = 1) (divV y.1 (decodeF fmtE3M5 sc.1)).1
       (r.1, r.2 ||| y.2))
  else
    let r := roundSat (tyFmt ty) (rndMode c w) (draw m) (w.sat = 1) y.1
    (r.1, r.2 ||| y.2)

/-- The lanes whose codes one word of lane l packs: 8 for e2m1, else 4. -/
def quantBlock (ty l : Nat) : List Nat :=
  let n := if ty = 14 then 8 else 4
  (List.range n).map (fun i => l / n * n + i)

/-- What lane l writes: the packed codes, and for e2m1 the block's scale in the next register. -/
def quantLane (c : LCtx) (w : LWord) (draw : Nat → Nat) (ys : List (Val × Flags)) (l : Nat) : List Elem × Flags :=
  let ty := w.ty.toNat
  let b := quantBlock ty l
  let sc := if ty = 14 then blockScale (b.map (fun m => (ys.getD m (.zero false, 0)).1)) else (0, 0)
  let cs := b.map (quantCode c w draw ys sc)
  let word := packSubs (if ty = 14 then 4 else 8) (cs.map (·.1))
  (if ty = 14 then [BitVec.ofNat 32 word, BitVec.ofNat 32 sc.1] else [BitVec.ofNat 32 word], cs.foldl (fun f r => f ||| r.2) sc.2)

/-- R231: VQNT; under SR every code draws with the count of the lowest written lane, which alone advances. -/
def execVqnt (w : LWord) (s : State) : Out :=
  let ty := w.ty.toNat
  laneWord 0x1E w (fun c s =>
    let g := s.g
    let pt := actMask g c &&& predMask g w.pn w.pk
    let had := w.mod8.getLsbD 4
    let srcs := fun l =>
      (if had then List.range 32 else quantBlock ty l).flatMap (srcA c w 10) ++ (quantBlock ty l).flatMap (srcB c w 10) ++
        (if had then pairSrc w.vc.toNat else [])
    let ys := quotients g c w (quantInputs g c w)
    let cnt := g.srcCount (lowLane pt)
    let draw := fun m => ((groupGen g cnt (BitVec.ofNat 32 m)).extractLsb' 0 32).toNat
    laneLoop w (c.rn w.vd.toNat) (if ty = 14 then 2 else 1) srcs (fun l => if pt.getLsbD l then srcs l else [])
      (fun _ => true) (fun p => if drawsSR c w then p.take 1 else []) (fun l => some (quantLane c w draw ys l)) c s) s

/-! ### VDQ (R232) -/

/-- The exact product that VDQ rounds. -/
def dequantVal (g : Group) (c : LCtx) (w : LWord) (l : Nat) : Val × Flags :=
  let ty := w.ty.toNat
  let r := c.rn w.va.toNat
  let b := valOf 10 (opB g c w 10 l)
  if ty = 14 then
    let p := mulV (decodeF fmtE2M1 ((g.velem r l).toNat / 2 ^ (4 * (l % 8)) % 16)) (decodeF fmtE3M5 ((g.velem (r + 1) l).toNat % 256))
    let q := mulV p.1 b
    (q.1, p.2 ||| q.2)
  else mulV (decodeF (tyFmt ty) ((g.velem r l).toNat / 2 ^ (8 * (l % 4)) % 256)) b

/-- R232: VDQ. -/
def execVdq (w : LWord) (s : State) : Out :=
  laneWord 0x1F w (fun c s =>
    let r := c.rn w.va.toNat
    let m := rndMode c w
    elementWord w 10 (fun l => [.v r l] ++ (if w.ty = 14 then [.v (r + 1) l] else []) ++ srcB c w 10 l) true (m = 6)
      (fun l => floatWritten c w 10 (drawSR s.g l 0) (dequantVal s.g c w l)) c s) s

/-! ### VRNG (R234) -/

/-- A lane's random bits. -/
def rngBits (g : Group) (ty l : Nat) : Nat :=
  let x := groupGen g (g.srcCount l) (BitVec.ofNat 32 l)
  if ty = 7 then (x.extractLsb' 0 64).toNat
  else if ty = 6 then (x.extractLsb' 0 32).toNat
  else
    let n := (x.extractLsb' 8 24).toNat
    if n = 0 then 0 else (roundTo fmtF32 1 0 (.fin false n (2 ^ 24))).1

/-- R234: VRNG; every written lane's count advances. -/
def execVrng (w : LWord) (s : State) : Out :=
  laneWord 0x21 w (fun c s => elementWord w w.ty.toNat (fun _ => []) false true (fun l => some (rngBits s.g w.ty.toNat l, 0)) c s) s

end Sys2Proof.Machine
end

