-- ==== Sys2Proof/Machine/LaneInt.lean ====
section
/-! DEFINITION. Integer lane words: arithmetic, logic, shifts, compare, select, move (R219 to R222). -/

namespace Sys2Proof.Machine

/-- Sub-element j of an operand's bits, under the type's signedness (R34). -/
def intOf (ty bits j : Nat) : Int :=
  if tySigned ty then toSigned (tyWidth ty) (subOf ty bits j) else (subOf ty bits j : Nat)

/-- Results that SAT 1 clamps and SAT 0 wraps, from an exact integer; SAT 2 checks them (R220). -/
def intWritten (c : LCtx) (w : LWord) (i : Int) : Option Rounded :=
  let ty := w.ty.toNat
  satBound c w ty (intResult (tyWidth ty) (tySigned ty) (w.sat = 1) i)

/-- A word of A and B whose sub-elements come from exact integers. -/
def intWord (op : Nat) (w : LWord) (f : Int → Int → Int) (s : State) : Out :=
  let ty := w.ty.toNat
  laneWord op w (fun c s =>
    elementWord w ty (fun l => srcA c w ty l ++ srcB c w ty l) false false
      (fun l => eachSub ty (fun j => intWritten c w (f (intOf ty (opA s.g c w ty l) j) (intOf ty (opB s.g c w ty l) j)))) c s) s

/-- A word of A and B whose sub-elements come from the codes: logic and shifts. -/
def codeWord (op : Nat) (w : LWord) (f : Nat → Nat → Nat → Nat) (s : State) : Out :=
  let ty := w.ty.toNat
  laneWord op w (fun c s =>
    elementWord w ty (fun l => srcA c w ty l ++ srcB c w ty l) false false
      (fun l => eachSub ty (fun j =>
        some (f (tyWidth ty) (subOf ty (opA s.g c w ty l) j) (subOf ty (opB s.g c w ty l) j) % 2 ^ tyWidth ty, 0))) c s) s

/-- Shifts of a w-bit code by the low log2(w) bits of b (R220). -/
def shlCode (w a b : Nat) : Nat := a * 2 ^ (b % w) % 2 ^ w
def shrCode (w a b : Nat) : Nat := a / 2 ^ (b % w)
def sraCode (w a b : Nat) : Nat := wrapInt w (toSigned w a / 2 ^ (b % w))

/-- R220: a + b. -/
def execVadd (w : LWord) (s : State) : Out := intWord 0x01 w (fun a b => a + b) s
/-- R220: a − b. -/
def execVsub (w : LWord) (s : State) : Out := intWord 0x02 w (fun a b => a - b) s
/-- R220: a × b. -/
def execVmul (w : LWord) (s : State) : Out := intWord 0x03 w (fun a b => a * b) s
/-- R220: the high half of the product. -/
def execVmulh (w : LWord) (s : State) : Out := intWord 0x04 w (fun a b => (a * b).fdiv (2 ^ tyWidth w.ty.toNat)) s

/-- R220: a × b + c, one exact result. -/
def execVmad (w : LWord) (s : State) : Out :=
  let ty := w.ty.toNat
  laneWord 0x05 w (fun c s =>
    elementWord w ty (fun l => srcA c w ty l ++ srcB c w ty l ++ srcC c w ty l) false false
      (fun l => eachSub ty (fun j => intWritten c w
        (intOf ty (opA s.g c w ty l) j * intOf ty (opB s.g c w ty l) j + intOf ty (opC s.g c w ty l) j))) c s) s

/-- R220: bitwise and. -/
def execVand (w : LWord) (s : State) : Out := codeWord 0x06 w (fun _ a b => a &&& b) s
/-- R220: bitwise or. -/
def execVor (w : LWord) (s : State) : Out := codeWord 0x07 w (fun _ a b => a ||| b) s
/-- R220: bitwise exclusive or. -/
def execVxor (w : LWord) (s : State) : Out := codeWord 0x08 w (fun _ a b => a ^^^ b) s
/-- R220: left shift. -/
def execVshl (w : LWord) (s : State) : Out := codeWord 0x09 w shlCode s
/-- R220: logical right shift. -/
def execVshr (w : LWord) (s : State) : Out := codeWord 0x0A w shrCode s
/-- R220: arithmetic right shift. -/
def execVsra (w : LWord) (s : State) : Out := codeWord 0x0B w sraCode s
/-- R220: the lesser. -/
def execVmin (w : LWord) (s : State) : Out := intWord 0x0C w min s
/-- R220: the greater. -/
def execVmax (w : LWord) (s : State) : Out := intWord 0x0D w max s

/-- The integer conditions of R221. -/
def intCond (cc : Nat) (a b : Int) : Bool :=
  match cc with
  | 0 => a = b
  | 1 => a ≠ b
  | 2 => a < b
  | 3 => a ≤ b
  | 4 => b < a
  | _ => b ≤ a

/-- R221: VCMP. -/
def execVcmp (w : LWord) (s : State) : Out :=
  let ty := w.ty.toNat
  laneWord 0x0E w (fun c s =>
    let srcs := fun l => srcA c w ty l ++ srcB c w ty l
    predWord w srcs (fun l => resultTag s.g c w false (srcs l))
      (fun l => (intCond w.mod8.toNat (intOf ty (opA s.g c w ty l) 0) (intOf ty (opB s.g c w ty l) 0), 0)) c s) s

/-- Moved bits under their bound check (R222). -/
def movedBits (c : LCtx) (w : LWord) (bits : Nat) : Option Rounded :=
  eachSub w.ty.toNat (fun j => satBound c w w.ty.toNat (subOf w.ty.toNat bits j, 0))

/-- R222: VSEL; both choices and the selector are read. -/
def execVsel (w : LWord) (s : State) : Out :=
  let ty := w.ty.toNat
  laneWord 0x0F w (fun c s =>
    elementWord w ty (fun l => srcA c w ty l ++ srcB c w ty l ++ (if w.vc = 0 then [] else [.k w.vc.toNat])) (narrowTy ty) false
      (fun l => movedBits c w (if (s.g.pred w.vc.toNat).getLsbD l then opA s.g c w ty l else opB s.g c w ty l)) c s) s

/-- R222: VMOVI. -/
def execVmovi (w : LWord) (s : State) : Out :=
  let ty := w.ty.toNat
  laneWord 0x10 w (fun c s =>
    elementWord w ty (fun l => srcB c w ty l) (narrowTy ty) false (fun l => movedBits c w (opB s.g c w ty l)) c s) s

end Sys2Proof.Machine
end

