-- ==== Sys2Proof/Machine/Ordering.lean ====
section
/-! DEFINITION. The steps of the ordering machine (R89, R106, R113 to R125, R131, R132, R189, R206, R357, R358). -/

namespace Sys2Proof.Machine

/-! ### Loads, atomics and reduction stores -/

/-- The kind of entry k of a group's queue. -/
def entryKind (s : State) (key : GroupKey) (k : Nat) : Option EKind := (s.findGroup key).bind (fun g => (g.qs.iq[k]?).map (·.kind))

/-- R113: a load leaves and reads its bytes. -/
def execLoadPerforms (g : GroupKey) (k : Nat) (s : State) : Out :=
  .next (if entryKind s g k = some .load then leaveRead s g k else s)

/-- The quarter whose link buffer would hold an access that a quarter sends: the Ulfer rail groups' stand in quarter 0 (R347). -/
def lossQuarter (q a : Nat) : Nat := if isPeer a then 0 else q

/-- A store that cannot be delivered is dropped and logged in a quarter, and the group keeps its address for its next SYSTEM release (R357). -/
def dropStore (s : State) (g : Group) (q : Nat) (va : Word) : State :=
  let s1 := logDram s q (logWord0 false 0 false 0x22) va.toNat cLINKDOWN (logWho g)
  { s1 with links := { s1.links with
    dropped := if (droppedOf s1 g.key).isSome then s1.links.dropped else s1.links.dropped ++ [(g.key, va)] } }

/-- A reduction store leaves for its home, which performs it (R124). -/
def leaveReduce (s : State) (key : GroupKey) (k : Nat) : State :=
  match s.findGroup key with
  | none => s
  | some g =>
    match g.qs.iq[k]? with
    | none => s
    | some e =>
      if !canLeave s g k || !memberReady s e || bankHeld s e.addr then s
      else if noRoute s g.place.q e.addr then dropStore (s.upGroup key (fun g => g.dropIq k)) g (lossQuarter g.place.q e.addr) e.va
      else if !routeRoom s g.place.q e.addr then s
      else if isRemote e.addr then sendOut (s.upGroup key (fun g => g.dropIq k)) key e
      else (performAtomic (crossing (touchUnit s g e.addr) g.place.q e) e).1.upGroup key (fun g => g.dropIq k)

/-- R122: an atomic or a reduction store is performed at its place, in one step. -/
def execPlacePerforms (g : GroupKey) (k : Nat) (s : State) : Out :=
  .next (match entryKind s g k with
    | some .atomic => leaveRead s g k
    | some .reduce => leaveReduce s g k
    | _ => s)

/-! ### Writes -/

/-- A write joins the queue of its kind. -/
def Queues.join (q : Queues) (w : Write) : Queues := { q with wq := q.wq ++ [w] }

/-- The write of a store entry. -/
def storeWrite (g : Group) (e : Entry) : Write :=
  { grp := g.key, core := g.place.coreNo, pk := e.pk, va := e.va, wr := e.wr, prop := e.prop, poison := e.poison, member := e.member }

/-- R113: a write leaves the issue queue and joins the write queue of its page kind. -/
def execWriteLeaves (g : GroupKey) (k : Nat) (s : State) : Out :=
  match s.findGroup g with
  | none => .next s
  | some h =>
    match h.qs.iq[k]? with
    | none => .next s
    | some e =>
      if e.kind ≠ .store || !canLeave s h k then .next s
      else .next (s.upGroup g (fun h => let h1 := h.dropIq k; { h1 with qs := h1.qs.join (storeWrite h e) }))

/-- The three write queues (R111): a write on die stands in that of R pages. -/
def queueKind (k : PKind) : PKind := if k = .sram then .r else k

def Queues.ofKind (q : Queues) (k : PKind) : List Write := q.wq.filter (fun w => queueKind w.pk = queueKind k)

/-- Write k of a queue that may go: the head of an S queue, and elsewhere one with no older write to its unit. -/
def drainable (kind : PKind) (l : List Write) (k : Nat) : Option Write :=
  match l[k]? with
  | none => none
  | some w => if (if kind = .s then k = 0 else (l.take k).all (fun x => !x.toUnit w.place)) then some w else none

/-- Writes of an agent to one unit of a peer are performed there in the order in which they were issued, whatever their page kinds (R132): no
older one waits. -/
def peerFirst (l : List Write) (w : Write) : Bool := !isPeer w.place || (l.takeWhile (fun x => x ≠ w)).all (fun x => !x.toUnit w.place)

/-- A write to the MMIO space: its whole aligned 8-byte words are written, in ascending order; other bytes have no effect (R346). -/
def mmioStore (s : State) (w : Write) : State :=
  match w.wr with
  | [] => s
  | p :: _ =>
    let base := unitOf p.1
    (List.range 8).foldl (fun s i =>
      let bs := (List.range 8).filterMap (fun j => (w.wr.find? (fun x => x.1 = base + 8 * i + j)).map (·.2))
      if bs.length = 8 then mmioWrite s (mmioOff (base + 8 * i)) (BitVec.ofNat 64 (leNat bs)) else s) s

/-- A store's entry, for a write that leaves for another agent. -/
def outEntry (w : Write) : Entry :=
  let e := markerEntry .store
  { e with pk := w.pk, addr := w.place, size := w.wr.length, va := w.va, wr := w.wr, prop := w.prop, poison := w.poison }

/-- A write arrives at its home, over a bridge where that stands in another quarter; with no route it is dropped (R113, R356, R357). -/
def arriveHome (s : State) (w : Write) : State :=
  if noRoute s (w.core / 64) w.place then (match s.findGroup w.grp with | some g => dropStore s g (lossQuarter (w.core / 64) w.place) w.va | none => s)
  else let t := crossing s (w.core / 64) (outEntry w); { t with homeQ := t.homeQ ++ [w] }

/-- Where a write goes when it leaves its write queue (R113, R115, R119, R132). -/
def passOn (s : State) (g : Group) (kind : PKind) (w : Write) : State :=
  let a := w.place
  if isMmio a then mmioStore s w
  else if isPeer a && noRoute s g.place.q a then dropStore s g 0 w.va
  else if isRemote a then sendOut s g.key (outEntry w)
  else if w.member.isSome then { s with msgs := s.msgs ++ [w] }
  else if isLocal a && kind ≠ .s && kind ≠ .sram then { s with cp := s.cp ++ [w] }
  else arriveHome s w

/-- R113: a write drains from its write queue. -/
def execWriteDrains (g : GroupKey) (kind : PKind) (k : Nat) (s : State) : Out :=
  match s.findGroup g with
  | none => .next s
  | some h =>
    match drainable kind (h.qs.ofKind kind) k with
    | none => .next s
    | some w =>
      if !peerFirst h.qs.wq w || (!noRoute s h.place.q w.place && !routeRoom s h.place.q w.place) then .next s
      else
        let s1 := s.upGroup g (fun h => { h with qs := { h.qs with wq := h.qs.wq.erase w } })
        .next (passOn s1 h w.pk w)

/-- Write k of a list of writes, when no older one of the same core or any core goes to its unit. -/
def firstOfUnit (l : List Write) (k : Nat) (same : Write → Write → Bool) : Option Write :=
  match l[k]? with
  | none => none
  | some w => if (l.take k).all (fun x => !(same x w && x.toUnit w.place)) then some w else none

/-- R113: a write in a core point goes to home. -/
def execCorePointDrains (k : Nat) (s : State) : Out :=
  match firstOfUnit s.cp k (fun x w => x.core = w.core) with
  | none => .next s
  | some w =>
    .next (if !noRoute s (w.core / 64) w.place && !routeRoom s (w.core / 64) w.place then s else arriveHome { s with cp := s.cp.eraseIdx k } w)

/-- R113: a home performs one write. -/
def execHomePerforms (k : Nat) (s : State) : Out :=
  match firstOfUnit s.homeQ k (fun _ _ => true) with
  | none => .next s
  | some w => .next (applyWrite { s with homeQ := s.homeQ.eraseIdx k } w.wr w.prop w.poison)

/-- R89: a message reaches a cluster member that is bound. -/
def execMemberMessageDelivery (k : Nat) (s : State) : Out :=
  match firstOfUnit s.msgs k (fun x w => x.grp = w.grp) with
  | none => .next s
  | some w => .next (if (placeOf s w.place).isSome then { s with msgs := s.msgs.eraseIdx k, homeQ := s.homeQ ++ [w] } else s)

/-! ### Markers (R114 to R118, R125, R189, R358) -/

/-- A fence performs; a SYSTEM release sends its messages. -/
def performFence (s : State) (key : GroupKey) (rel : Bool) (scope : Nat) : State := if rel ∧ scope = 4 then sendReleases s key else s

/-- TLADV performs: the group's counter advances and the register takes its new value (R189). -/
def performTladv (s : State) (key : GroupKey) (amount : Word) (sd : BitVec 6) : State :=
  match s.findTask key.task with
  | none => s
  | some t =>
    let id := tlOfGroup 0 key
    let v := min (tlValue t id + amount.toNat) (2 ^ 64 - 1)
    (s.upTask t.id (fun t => tlSet t id v)).upGroup key (fun g =>
      (g.setFut sd.toNat .none).setS sd.toNat (BitVec.ofNat 64 v) false)

/-- A command enters its context and takes its number (R125). -/
def enterKind (s : State) (c : Cmd) (id : Nat) : State :=
  let r := enterCtx s c id
  r.1.putCmd { r.2 with stage := .queued, entered := s.tick }

/-- A command whose header is read at its entry: a fault or poison ends it without a context (R125). -/
def enterAimed (s : State) (c : Cmd) : State :=
  match engReadSpan s c c.addr 16 with
  | .error e => resolveReg s (c.faulted e) |>.dropCmd c.id
  | .ok (s1, r) =>
    if r.poison then resolveReg s1 (c.faulted (cPOISON, r.poisonAt c.addr)) |>.dropCmd c.id
    else
      let c1 := { c with img := r.nat, recProp := r.prop }
      enterKind s1 c1 (match c.kind with | .pkq => tlOfQuarter 3 (hdrQtr r.nat) 0 | _ => tlOfQuarter 4 (hdrQtr r.nat) (hdrSub r.nat))

/-- A command entry performs. -/
def enterCommand (s : State) (c : Cmd) : State :=
  match c.kind with
  | .copy | .copymm _ => enterKind s c (tlOfGroup 1 c.owner)
  | .fixline _ | .hostLine _ => s.putCmd { c with stage := .queued }
  | .spg => enterKind s c (tlOfGroup 2 c.owner)
  | .dcor | .pkq | .nmop => enterAimed s c
  | .kick =>
    let r := enterCtx s c tlOfKick
    let k := kickCommand r.1 r.2
    k.1.putCmd k.2

/-- R114: a fence, a release, an acquire or a command issue performs. -/
def execMarkerPerforms (g : GroupKey) (k : Nat) (s : State) : Out :=
  match s.findGroup g with
  | none => .next s
  | some h =>
    match h.qs.iq[k]? with
    | none => .next s
    | some e =>
      if e.kind.isAccess || !canLeave s h k then .next s
      else
        let s1 := s.upGroup g (fun h => h.dropIq k)
        match e.kind with
        | .fence _ rel _ scope => .next (performFence s1 g rel scope)
        | .tladv amount sd => .next (performTladv s1 g amount sd)
        | .command id => (match s1.findCmd id with | some c => .next (enterCommand s1 c) | none => .next s1)
        | _ => .next s

/-! ### Walks (R105, R106) -/

/-- The entry of a level that a walker of a quarter keeps for an address. -/
def walkerEntry (s : State) (q k asid gen level va : Nat) : Option Nat :=
  (s.wcache.find? (fun e => e.q = q && e.walker = k && e.asid = asid && e.gen = gen && e.level = level && e.page = va / nodeSpan level)).map (·.pte)
where
  /-- The bytes of the address space that an entry of a level covers. -/
  nodeSpan (level : Nat) : Nat := match level with | 0 => 2 ^ 45 | 1 => 2 ^ 30 | 2 => 2 ^ 26 | 3 => 2 ^ 21 | _ => 2 ^ 16

/-- A walk by a walker: an entry that it keeps is used, and the others are read (R105, R107). kept lists the entries of levels 0 to 2 that
it has used or read, the newest last. -/
def walkerFrom (s : State) (q k asid gen va : Nat) : Nat → Nat → Nat → List (Nat × Nat) → Except Nat (Nat × Nat) × List (Nat × Nat)
  | 0, _, _, kept => (.error cPAGE, kept)
  | fuel + 1, level, node, kept =>
    let a := node + 8 * vaIndex level va
    let own := walkerEntry s q k asid gen level va
    if own.isNone && homePoison s a then (.error cPOISON, kept)
    else
      let pte := own.getD (homeNat s a 8)
      let kept1 := if level ≤ 2 then kept ++ [(level, pte)] else kept
      if !bit1 pte 0 then (.error cPAGE, kept)
      else if bit1 pte 1 then (if leafOk s level pte then (.ok (level, pte), kept1) else (.error cPAGE, kept))
      else if pointerOk s level pte then walkerFrom s q k asid gen va fuel (level + 1) (bits pte 51 7 * 128) kept1
      else (.error cPAGE, kept)

/-- A walker keeps the last 16 entries that it met. -/
def keepWalk (s : State) (q k asid gen va : Nat) (l : List (Nat × Nat)) : State :=
  let new := l.map (fun x => ({ q := q, walker := k, asid := asid, gen := gen, level := x.1, page := va / walkerEntry.nodeSpan x.1, pte := x.2 } : WalkEntry))
  let mine := s.wcache.filter (fun e => e.q = q && e.walker = k && !new.contains e) ++ new
  { s with wcache := s.wcache.filter (fun e => !(e.q = q && e.walker = k)) ++ mine.drop (mine.length - 16) }

/-- A translation enters a cache of its core in place of the oldest: one of 64 in the first, one of the 8 ways of its set in the second. The spec
gives no replacement and no set index. DESIGN CHOICE, log entry 98. -/
def fillTlb (l : List TlbEntry) (n : TlbEntry) : List TlbEntry :=
  let rivals := l.filter (fun t => t.core = n.core && t.second = n.second && (!n.second || t.page % 256 = n.page % 256) && t ≠ n)
  let full := rivals.length ≥ (if n.second then 8 else 64)
  let kept := l.filter (· ≠ n)
  (if full then (match rivals with | x :: _ => kept.erase x | [] => kept) else kept) ++ [n]

/-- An injection armed for the translation caches fires at the write of its entry, which is then discarded (R342). -/
def fireTlb (s : State) (core : Nat) (n : TlbEntry) : State :=
  let ctl := (sget 0 s.errs.inj (core * 3)).toNat
  match armedInj s core with
  | some (0x0A, u, w) =>
    if (s.tlb.filter (fun e => e.core = core)).idxOf n = u then
      (if w = 0 then fun s _ _ _ _ => s else strikeTlb) { s with errs := { s.errs with inj := sset 0 s.errs.inj (core * 3) (BitVec.ofNat 64 (setBits ctl 15 15 0)) } } core u w true
    else s
  | _ => s

/-- R106: a walk by one of the four walkers of the core's quarter ends; its leaf enters both caches of the core. Which walker takes it is a free
value. -/
def execTableWalk (core asid gen : Nat) (va : Word) (s : State) : Out :=
  if va.toNat ≥ 2 ^ 60 || core ≥ 256 then .next s
  else
    let e := s.asidBase + 8 * asid
    let s1 := touchBy { s with uid := s.uid + 1 } 0 (unitOf e)
    let root := bits (homeNat s1 e 8) 51 18 * 2 ^ 18
    let s2 := touchWalk s1 va.toNat 5 0 root
    let k := (Config.freeBits s.uid).toNat % 4
    match rootOf s2 asid with
    | .error _ => .next s2
    | .ok r =>
      let w := walkerFrom s2 (core / 64) k asid gen va.toNat 5 0 r []
      let s3 := keepWalk s2 (core / 64) k asid gen va.toNat w.2
      match w.1 with
      | .error _ => .next s3
      | .ok (level, leaf) =>
        let n : TlbEntry := { second := false, core := core, asid := asid, gen := gen, page := va.toNat / 2 ^ pageBits level, level := level, leaf := leaf }
        let s4 := { s3 with tlb := fillTlb (fillTlb s3.tlb { n with second := true }) n }
        .next (fireTlb s4 core n)

end Sys2Proof.Machine
end

