-- ==== Sys2Proof/Machine/LinkSide.lean ====
section
/-! DEFINITION. Rails, flits and requests of peers (R132, R351 to R358). -/

namespace Sys2Proof.Machine

/-! ### Rail flits (R352) -/

/-- The CRC-32C of bits, low bit of each byte first, by the polynomial 0x1EDC6F41 in its reflected form; PRESUMED, log entry 17. -/
def crcBit (c : Nat) (b : Bool) : Nat :=
  let x := if (c % 2 = 1) = b then 0 else 1
  if x = 1 then (c / 2) ^^^ 0x82F63B78 else c / 2
def crc32c (n bitsN : Nat) : Nat := ((List.range bitsN).foldl (fun c i => crcBit c (bit1 n i)) 0xFFFFFFFF) ^^^ 0xFFFFFFFF

/-- The share of rail r in a group flit, without its CRC: rails 0 to 3 carry the payload, and rail 4 the exclusive sum of the four (R351). -/
def railBody (f : GroupFlit) (r : Nat) : Nat :=
  let own := fun r => f.nseq % 2 ^ 8 * 2 ^ 16 + f.kind % 2 ^ 4 * 2 ^ 24 + r % 2 ^ 4 * 2 ^ 28 + f.ack % 2 ^ 16 * 2 ^ 32 + f.seq % 2 ^ 16 * 2 ^ 48 +
    bits f.pay (1952 * r + 1951) (1952 * r) * 2 ^ 64
  if r < 4 then own r else own 0 ^^^ own 1 ^^^ own 2 ^^^ own 3

/-- A rail flit as it is sent (R352). -/
def railFlit (f : GroupFlit) (r : Nat) : Nat := crc32c (railBody f r) 2016 * 2 ^ 2016 + railBody f r

def flitKind (f : Nat) : Nat := bits f 27 24
def flitSeq (f : Nat) : Nat := bits f 63 48
def flitAck (f : Nat) : Nat := bits f 47 32
def flitPay (f : Nat) : Nat := bits f 2015 64

/-- A rail flit whose CRC holds and whose kind is not reserved. -/
def flitOk (f : Nat) : Bool := bits f 2047 2016 = crc32c (bits f 2015 0) 2016 && flitKind f ≤ 2

/-- The rail flits that are good, by rail; a lost or paused rail brings none (R354). -/
def goodRails (r : RailGroup) (flits : List RailFlit) : List (Option Nat) :=
  (List.range 5).map (fun i =>
    if r.lost.getLsbD i || r.paused.getLsbD i then none
    else match flits.getD i none with | some f => if flitOk f then some f else none | none => none)

/-- Rail flits that arrived and fail the CRC. -/
def badRails (r : RailGroup) (flits : List RailFlit) : Nat :=
  (List.range 5).countP (fun i => !(r.lost.getLsbD i || r.paused.getLsbD i) &&
    (match flits.getD i none with | some f => !flitOk f | none => false))

/-- The share of a rail, rebuilt from the other four when it is missing. -/
def railPay (l : List (Option Nat)) (i : Nat) : Nat :=
  match l.getD i none with
  | some f => flitPay f
  | none => l.foldl (fun a x => match x with | some f => a ^^^ flitPay f | none => a) 0

/-- The group payload: the shares of rails 0 to 3. -/
def groupPay (l : List (Option Nat)) : Nat := (List.range 4).foldl (fun a i => a + railPay l i * 2 ^ (1952 * i)) 0

/-! ### The receiver (R353) -/

def sat16 (n : Nat) : Nat := min 65535 n

/-- How far a number is above another, modulo 2^16. -/
def seqAbove (a b : Nat) : Nat := (a + 65536 - b % 65536) % 65536

/-- A NAK for the expected group flit of a direction goes out in the other one. It enters no replay buffer, and its own SEQ is the next one's:
the spec gives it none. DESIGN CHOICE, log entry 116. -/
def sendNak (r : RailGroup) (d : Nat) : RailGroup :=
  let x := r.dir d
  let y := r.dir (1 - d)
  let f : GroupFlit := { kind := 2, seq := y.txNext, ack := x.last, nseq := (x.last + 1) % 256, pay := 0, msgs := [] }
  let r1 := { r with replays := sat16 (r.replays + 1) }.setDir d { x with awaiting := true }
  r1.setDir (1 - d) { y with wire := y.wire ++ [f] }

/-- An acknowledgement frees the flits of the other direction that it covers. -/
def takeAck (r : RailGroup) (d ack : Nat) : RailGroup :=
  let x := r.dir (1 - d)
  r.setDir (1 - d) { x with txBuf := x.txBuf.filter (fun f => !(seqAbove ack f.seq < 2 ^ 15)) }

/-- A flit that shows a SEQ above the expected one, or the expected one damaged, calls for the expected one, unless its replay is awaited; one at
or below the last is a duplicate. -/
def wanted (r : RailGroup) (d seq : Nat) (damaged : Bool) : RailGroup :=
  let x := r.dir d
  let up := seqAbove seq x.last
  if damaged && up = 1 then sendNak r d else if up ≤ 1 || up ≥ 2 ^ 15 || x.awaiting then r else sendNak r d

/-- A group flit of which at most one rail failed. Data and idle flits are numbered; a NAK is not. -/
def acceptFlit (r : RailGroup) (d : Nat) (l : List (Option Nat)) (f : Nat) : RailGroup :=
  let r1 := takeAck r d (flitAck f)
  let x := r1.dir d
  if flitKind f = 2 then r1
  else if seqAbove (flitSeq f) x.last = 1 then
    r1.setDir d { x with last := flitSeq f, awaiting := false, accepted := if flitKind f = 0 then x.accepted ++ [groupPay l] else x.accepted }
  else wanted r1 d (flitSeq f) false

/-- R353: the receiver judges a group flit by how many of its rail flits failed. Of one that has failed, a good data rail shows the SEQ; without
one it stands for the expected flit. -/
def judgeFlit (r : RailGroup) (d : Nat) (flits : List RailFlit) : RailGroup :=
  let l := goodRails r flits
  let r1 := { r with crce := sat16 (r.crce + badRails r flits) }
  match l.filterMap id with
  | [] => sendNak r1 d
  | f :: rest =>
    if rest.length = 4 then acceptFlit r1 d l f
    else if rest.length = 3 then acceptFlit { r1 with rebuilt := sat16 (r1.rebuilt + 1) } d l f
    else if (l.take 4).any (·.isSome) then wanted r1 d (flitSeq f) true
    else sendNak r1 d

/-- The SEQ that an intact NAK asks for, by its low 8 bits. -/
def nakOf (r : RailGroup) (flits : List RailFlit) : Option Nat :=
  match (goodRails r flits).filterMap id with
  | f :: rest => if rest.length ≥ 3 && flitKind f = 2 then some (bits f 23 16) else none
  | [] => none

/-! ### The sender (R353) -/

/-- The flits from a sequence number on. -/
def fromSeq (l : List GroupFlit) (nseq : Nat) : List GroupFlit := l.dropWhile (fun f => f.seq % 256 ≠ nseq)

/-- The quarters of a bridge, the lower one first (R355). -/
def bridgeEnds (g : Nat) : Nat × Nat :=
  match g with | 0 => (0, 1) | 1 => (0, 2) | 2 => (0, 3) | 3 => (1, 2) | 4 => (1, 3) | _ => (2, 3)

/-- The quarter that holds the replay buffer of a direction (R347). -/
def bufferQuarter (g d : Nat) : Nat := if g ≥ 6 then 0 else if d = 0 then (bridgeEnds g).1 else (bridgeEnds g).2

/-- An access that no route can deliver. One that its stream has gone past cannot trap any more: it stays among those that are still answered. -/
def failOut (s : State) (o : OutReq) : State :=
  let e := o.entry
  let r : LaneRes := { lane := e.lane, val := 0, prop := false, poison := false, down := true, va := e.va }
  match o.cmd, s.findGroup o.grp with
  | some c, _ => s.upCmd c (fun k => k.faulted (cLINKDOWN, e.va))
  | none, some g => if e.kind.isRead then s.upGroup o.grp (fun g => g.give e.lw r) else dropStore s g 0 e.va
  | none, none => s

/-- The accesses to peers that satisfy p fail. -/
def failOuts (s : State) (p : OutReq → Bool) : State :=
  let gone := fun (o : OutReq) => p o && o.dev.isSome && o.entry.late.isNone
  (s.outs.filter gone).foldl failOut { s with outs := s.outs.filter (fun o => !gone o) }

/-- What a direction of a rail group has sent and holds unacknowledged, and what waits there. -/
def unsent (s : State) (g d : Nat) : List (List Byte) :=
  match s.links.rg[g]? with
  | some r => ((r.dir d).txBuf.flatMap (·.msgs) ++ (r.dir d).queue).eraseDups
  | none => []

/-- The requests to peers that are not answered. -/
def openRequests (s : State) : List (List Byte) := s.outs.filterMap (fun o => o.dev.map (fun d => entryMsg Config.deviceNo d o.num o.entry))

/-- A message goes again from a quarter to its target, over two bridges; a request that the target has performed has its kept response sent
again (R356). -/
def bridgeAgain (at_ : Nat) (s : State) (m : List Byte) : State :=
  let src := msgField m 0 1
  let tgt := msgField m 1 1
  let s1 := sendBridge s at_ tgt m
  if msgField m 4 1 = 128 then s1
  else
    match s.links.served.find? (fun x => x.src = quarterPair src tgt && x.num = msgField m 2 2) with
    | some x => sendBridge s1 tgt src (answerMsg tgt src x)
    | none => s1

/-- A rail group goes down: what it had sent and was not acknowledged is sent again with its numbers, over another Ulfer rail group or in two
hops through another quarter (R354). Without a rail group left, no peer can be reached (R357). -/
def railDown (s : State) (g : Nat) : State :=
  let s1 := s.upRail g (fun r => { r with down := true, d0 := { r.d0 with queue := [] }, d1 := { r.d1 with queue := [] } })
  if g ≥ 6 then
    let carried := [6, 7, 8].find? (railUp s) = some g
    let l := unsent s g 0
    if [6, 7, 8].any (railUp s1) then (l ++ if carried then (openRequests s).filter (fun m => !l.contains m) else []).foldl sendFlit s1
    else failOuts s1 (fun _ => true)
  else
    let e := bridgeEnds g
    (unsent s g 1).foldl (bridgeAgain e.2) ((unsent s g 0).foldl (bridgeAgain e.1) s1)

/-- A NAK is obeyed: the named flit and every later one are read from the replay buffer, which meets its errors (R347), and sent again as they
were; a number no longer kept takes the rail group down. -/
def resend (s : State) (rg d nseq : Nat) : State :=
  match s.links.rg[rg]? with
  | none => s
  | some r =>
    let x := r.dir d
    match fromSeq x.txBuf nseq with
    | [] => railDown s rg
    | l =>
      let s1 := touchArray s 0x14 (bufferQuarter rg d) (fun a => a / 640 = rg && a % 640 < 640 && l.any (fun f => f.seq % 128 = a % 128))
      s1.upRail rg (fun r => r.setDir d { x with wire := x.wire ++ l })

/-- A rail group that takes flits: it is up, and the device has started (R372). -/
def hears (s : State) (rg dir : Nat) : Bool := s.svc.ready && railUp s rg && dir ≤ 1

/-- R353: a group flit arrives in a direction of a rail group; a NAK is obeyed in the other direction. -/
def execGroupFlitReceive (rg dir : Nat) (flits : List RailFlit) (s : State) : Out :=
  if !hears s rg dir then .next s
  else
    let s1 := s.upRail rg (fun r => judgeFlit r dir flits)
    .next (match (s.links.rg[rg]?).bind (fun r => nakOf r flits) with
      | some n => resend s1 rg (1 - dir) n
      | none => s1)

/-- R353: a NAK for a flit of a direction. -/
def execNakReceive (rg dir : Nat) (nseq : BitVec 8) (s : State) : Out := .next (if hears s rg dir then resend s rg dir nseq.toNat else s)

/-! ### Lanes and rails (R354) -/

def setBit5 (b : BitVec 5) (i : Nat) : BitVec 5 := b ||| BitVec.ofNat 5 (2 ^ i)
def clearBit5 (b : BitVec 5) (i : Nat) : BitVec 5 := b &&& ~~~ BitVec.ofNat 5 (2 ^ i)

/-- R354: a lane fails. A bridge repairs it with a redundant lane while it has one; else the rail runs at half width. The rail's flits
pause. -/
def execLaneFailure (rg rail : Nat) (s : State) : Out :=
  .next (s.upRail rg (fun r =>
    if rail ≥ 5 || r.lost.getLsbD rail then r
    else
      let used := sget 0 r.repairs rail
      let r1 := { r with paused := setBit5 r.paused rail }
      if rg < 6 ∧ used < Config.redundantLanes then { r1 with repairs := sset 0 r1.repairs rail (used + 1) }
      else { r1 with half := setBit5 r1.half rail }))

/-- R354: the pause ends. -/
def execRepairPauseEnd (rg rail : Nat) (s : State) : Out :=
  .next (s.upRail rg (fun r => if rail ≥ 5 then r else { r with paused := clearBit5 r.paused rail }))

/-- R354: a rail is lost; the second one takes the rail group down. A lost rail is marked, so that it stays lost (R380). -/
def execRailLost (rg rail : Nat) (s : State) : Out :=
  if rg ≥ 9 ∨ rail ≥ 5 then .next s
  else
    let s1 := s.upRail rg (fun r => { r with lost := setBit5 r.lost rail, paused := clearBit5 r.paused rail })
    let second := (s.links.rg[rg]?).any (fun r => !r.down && (List.range 5).any (fun i => i ≠ rail && r.lost.getLsbD i))
    .next (addMark (if second then railDown s1 rg else s1) { q := 0, kind := 2, index := rg * 5 + rail })

/-! ### Requests from peers (R356) -/

def servedOf (s : State) (src : Nat) : List Served := s.links.served.filter (fun x => x.src = src)

/-- The number that a source's next request has. -/
def nextFrom (s : State) (src : Nat) : Nat := match (servedOf s src).getLast? with | some x => (x.num + 1) % 65536 | none => 0

/-- The bytes of a request are written unit by unit; a unit takes a mark when one of its 32-byte parts carries it. -/
def serveStore (s : State) (r : RemoteReq) : State :=
  (byUnit (cellsAt r.addr (r.data.take r.size))).foldl (fun s u =>
    let has := fun (f : Bool × Bool → Bool) => u.any (fun p => ((r.marks[(p.1 - r.addr) / 32]?).map f).getD false)
    applyWrite s u (has (·.1)) (has (·.2))) (settle s)

/-- The tag and poison of each 32 bytes of a response. -/
def answerMarks (s : State) (a n : Nat) : List (Bool × Bool) :=
  (List.range ((n + 31) / 32)).map (fun i =>
    let k := min 32 (n - 32 * i)
    (anyUnit (homeTag s) (a + 32 * i) k, anyUnit (homePoison s) (a + 32 * i) k))

/-- A request at its home, and its response: bytes and marks. What an address outside the usable DRAM returns is a free value; it writes
nothing. -/
def serve (s : State) (r : RemoteReq) : State × List Byte × List (Bool × Bool) :=
  if !localOk s r.addr then
    ({ s with uid := s.uid + r.size }, (List.range r.size).map (fun i => (Config.freeBits (s.uid + i)).setWidth 8), [])
  else
    let s1 := (sectors r.addr r.size).foldl (fun s u => touchBy s 0 (unitOf u)) s
    let m := (r.marks[0]?).getD (false, false)
    let a : Entry := { markerEntry .atomic with
      addr := r.addr, size := r.size, opn := r.opn.toNat, typ := r.typ.toNat, data := BitVec.ofNat 64 (leNat r.data), cmp := r.cmp
      prop := m.1, poison := m.2 }
    match r.kind with
    | .load => (s1, (List.range r.size).map (fun i => homeByte s1 (r.addr + i)), answerMarks s1 r.addr r.size)
    | .store => (serveStore s r, [], [])
    | .atomic => let x := performAtomic s1 a; (x.1, leBytes (atomWidth a.typ) x.2.val.toNat, [(x.2.prop, x.2.poison)])
    | .reduce => ((performAtomic s1 a).1, [], [])

/-- A response goes out. -/
def sendAnswer (s : State) (src : Nat) (x : Served) : State := sendFlit s (answerMsg Config.deviceNo src x)

/-- A request of a source has been performed: its response is kept and goes out (R356). -/
def served (s : State) (x : Served) : State :=
  sendAnswer { s with links := { s.links with served := keepServed s.links.served x } } x.src x

/-- R356: a peer's request, which the payload of a flit carries, is performed once, in number order; one performed before has its kept response
sent again. A device that has not started answers none (R372). -/
def execRemoteRequest (src : Nat) (num : BitVec 16) (r : RemoteReq) (s : State) : Out :=
  if !s.svc.ready then .next s
  else
    match (servedOf s src).find? (fun x => x.num = num.toNat) with
    | some x => .next (sendAnswer s src x)
    | none =>
      if num.toNat ≠ nextFrom s src then .next s
      else
        let x := serve s r
        .next (served x.1 { src := src, num := num.toNat, data := x.2.1, marks := x.2.2 })

/-! ### Responses, and peers that cannot be reached (R132, R356, R357) -/

/-- R356: a response returns: the value of a load or an atomic, or the acknowledgement of a write. -/
def execRemoteResponse (k : Nat) (data : Word) (prop poison : Bool) (s : State) : Out :=
  match s.outs[k]? with
  | none => .next s
  | some o =>
    if o.dev.isNone then .next s
    else
      let s1 := { s with outs := s.outs.eraseIdx k }
      let e := o.entry
      let r := e.answered data prop poison
      if !e.kind.isRead then .next s1 else if e.heldBack r then .next s else .next (s1.upGroup o.grp (fun g => g.answer e r))

/-- R357: a peer cannot be reached any more. -/
def execTargetUnreachable (dev : Nat) (s : State) : Out :=
  .next (failOuts { s with links := { s.links with down := if s.links.down.contains dev then s.links.down else s.links.down ++ [dev] } }
    (fun o => o.dev = some dev))

/-- R358: a peer's release message, the next request of that peer, advances the link counter of the peer in every task of its stream; a device
that has not started takes none (R372). -/
def execReleaseMessage (dev : Nat) (stream : BitVec 32) (s : State) : Out :=
  .next (if !s.svc.ready then s
    else
      let s1 := served s { src := dev, num := nextFrom s dev, data := [], marks := [] }
      { s1 with tasks := s1.tasks.map (fun t =>
          if t.phase = .admitted && recStream t.img = stream.toNat then
            tlSet t (tlOfPeer dev) (tlValue t (tlOfPeer dev) + 1) else t) })

end Sys2Proof.Machine
end

