-- ==== Sys2Proof/Machine/NearMem.lean ====
section
/-! DEFINITION. The stack controller: records, the after field, bank modes, GEMV and the optimiser step (R128, R200 to R204, R286 to
R296). -/

namespace Sys2Proof.Machine

/-! ### Lists of reads and writes by line -/

/-- Reads n bytes at each address of a list, in order. -/
def engReadList (c : Cmd) (n : Nat) : List Nat → State → Except (Nat × Word) (State × List EngRead)
  | [], s => .ok (s, [])
  | a :: t, s =>
    match engReadSpan s c (BitVec.ofNat 64 a) n with
    | .error e => .error e
    | .ok (s1, r) =>
      match engReadList c n t s1 with
      | .error e => .error e
      | .ok (s2, l) => .ok (s2, r :: l)

/-- A line that a step has written in a slow turn is noted. -/
def noteWrite (s : State) (c : Cmd) (a n : Nat) : State :=
  { s with early := s.early ++ [{ cmd := c.id, va := BitVec.ofNat 64 a, size := n, got := none }] }

/-- Writes bytes line by line; poison k says whether line k of the write carries poison. A line that faults stops the write, and the
lines before it stand (R182). A line that the step has written in a slow turn stands, and a slow turn ends with the next one (R125). -/
def engWriteLines (c : Cmd) (prop : Bool) (poison : Nat → Bool) : Nat → Nat → State → Nat → List Byte → State × Option (Nat × Word)
  | 0, _, s, _, _ => (s, none)
  | f + 1, k, s, a, bytes =>
    if bytes.isEmpty then (s, none)
    else
      let n := 64 - a % 64
      let l := bytes.take n
      if (earlyOf s c (BitVec.ofNat 64 a) l.length true).isSome then engWriteLines c prop poison f (k + 1) s (a + n) (bytes.drop n)
      else
        match engWrite s c (BitVec.ofNat 64 a) l prop (poison k) with
        | .error e => (s, some e)
        | .ok s1 =>
          if c.paced s then (noteWrite s1 c a l.length, some (heldWrite, BitVec.ofNat 64 a))
          else engWriteLines c prop poison f (k + 1) s1 (a + n) (bytes.drop n)

def engWriteSpan (s : State) (c : Cmd) (a : Nat) (bytes : List Byte) (prop : Bool) (poison : Nat → Bool) : State × Option (Nat × Word) :=
  engWriteLines c prop poison (bytes.length / 64 + 2) 0 s a bytes

/-- Goes on after writes, or ends the command with their fault. -/
def afterWrites (c : Cmd) (r : State × Option (Nat × Word)) (k : State → State × Cmd) : State × Cmd :=
  match r.2 with
  | some e => (r.1, c.faulted e)
  | none => k r.1

/-! ### Placement (R292, R304) -/

/-- One page of an array: readable or writable, in the command's quarter, and big enough if it must be. -/
def pageFault (s : State) (c : Cmd) (acc : Acc) (big : Bool) (a : Nat) : Option (Nat × Word) :=
  match c.xlat s acc (BitVec.ofNat 64 a) with
  | .error e => some (e, BitVec.ofNat 64 a)
  | .ok x =>
    if !isLocal x.pa || homeQuarter x.pa ≠ c.quarter then some (cPROT, BitVec.ofNat 64 a)
    else if big && x.level > 3 then some (cILLEGAL, 0) else none

/-- The addresses of an array of n bytes at which its pages are tested. -/
def arrayPages (a n : Nat) : List Nat :=
  if n = 0 then [] else (List.range ((a + n - 1) / 2 ^ 16 - a / 2 ^ 16 + 1)).map (fun k => if k = 0 then a else (a / 2 ^ 16 + k) * 2 ^ 16)

/-- The walks of the pages of arrays meet their errors (R337). -/
def arraysWalked (s : State) (c : Cmd) (l : List (Nat × Nat)) : State :=
  if s.quiet then s else l.foldl (fun s x => (arrayPages x.1 x.2).foldl (fun s a => c.walked s (BitVec.ofNat 64 a)) s) s

/-- An array of n bytes: its alignment, then its pages in order. -/
def arrayFault (s : State) (c : Cmd) (acc : Acc) (big : Bool) (align a n : Nat) : Option (Nat × Word) :=
  if a % align ≠ 0 then some (cALIGN, BitVec.ofNat 64 a) else (arrayPages a n).findSome? (pageFault s c acc big)

/-- The physical offset of an address within its slab. -/
def slabOffset (s : State) (c : Cmd) (a : Nat) : Nat :=
  match c.xlat s .load (BitVec.ofNat 64 a) with
  | .ok x => x.pa % quarterSize % 2 ^ 17
  | .error _ => 0

/-! ### The NMOP record (R204) -/

def nmAen (i : Nat) : Bool := bit1 i 264
def nmAfterId (i : Nat) : Nat := bits i 191 128
def nmAfterVal (i : Nat) : Nat := bits i 255 192
def nmA (i : Nat) : Nat := bits i 383 320
def nmX (i : Nat) : Nat := bits i 447 384
def nmY (i : Nat) : Nat := bits i 511 448
def nmG (i : Nat) : Nat := bits i 575 512
def nmN (i : Nat) : Nat := bits i 607 576

/-- The bytes of a GEMV's matrix, in whole slabs. -/
def gvBytes (i : Nat) : Nat := ceilDiv (gvBlocks i * gvU i * 512) 64 * 2 ^ 17

/-- The limits and the placement of a GEMV (R204, R292, R293). The order of the tests, where an address breaks more than one of them, is the
model's: DESIGN CHOICE, log entry 128. -/
def gemvFault (s : State) (c : Cmd) : Option (Nat × Word) :=
  let i := c.img
  if bits i 831 576 ≠ 0 ∨ nmRows i = 0 ∨ nmCols i = 0 ∨ nmCols i > 524288 then some (cILLEGAL, 0)
  else
    match arrayFault s c .load true 1 (nmA i) (gvBytes i) with
    | some e => some e
    | none =>
      if slabOffset s c (nmA i) ≠ 0 then some (cILLEGAL, 0)
      else if nmX i % 2 ≠ 0 then some (cALIGN, BitVec.ofNat 64 (nmX i))
      else if nmY i % 4 ≠ 0 then some (cALIGN, BitVec.ofNat 64 (nmY i))
      else none

/-- The limits and the placement of an optimiser step. -/
def adamFault (s : State) (c : Cmd) : Option (Nat × Word) :=
  let i := c.img
  let n := 4 * nmN i
  if nmN i = 0 then some (cILLEGAL, 0)
  else
    match [(nmG i, Acc.load), (nmA i, .store), (nmX i, .store), (nmY i, .store)].findSome? (fun p => arrayFault s c p.2 true 64 p.1 n) with
    | some e => some e
    | none =>
      let o := slabOffset s c (nmG i)
      if [nmA i, nmX i, nmY i].all (fun a => slabOffset s c a = o) then none else some (cILLEGAL, 0)

/-- The arrays of an NMOP whose placement is tested. -/
def nmopArrays (i : Nat) : List (Nat × Nat) :=
  if nmOp i = 1 then [(nmA i, gvBytes i)] else [nmG i, nmA i, nmX i, nmY i].map (fun a => (a, 4 * nmN i))

/-- The checks of an NMOP record: its cause, if it is refused. -/
def nmopFault (s : State) (c : Cmd) : Option (Nat × Word) :=
  let i := c.img
  if bits i 1023 832 ≠ 0 ∨ bits i 319 265 ≠ 0 ∨ (nmOp i ≠ 1 ∧ nmOp i ≠ 2) ∨ (!nmAen i ∧ (nmAfterId i ≠ 0 ∨ nmAfterVal i ≠ 0)) then
    some (cILLEGAL, 0)
  else if nmAen i && !((s.findTask c.owner.task).map (fun t => tlOk t (nmAfterId i))).getD false then some (cFUTURE, 0)
  else if nmOp i = 1 then gemvFault s c else adamFault s c

/-! ### The DCOR record and its solve record (R202, R303, R304) -/

def dcSolve (i : Nat) : Nat := bits i 191 128
def dvF (v : Nat) : Nat := bits v 7 0
def dvI (v : Nat) : Nat := bits v 15 8
def dvCsr (v : Nat) : Bool := bit1 v 16
def dvTy (v : Nat) : Nat := if bit1 v 17 then 11 else 10
def dvEl (v : Nat) : Nat := if bit1 v 17 then 8 else 4
def dvCorr (v : Nat) : Nat := bits v 19 18
def dvG (v : Nat) : Nat := bits v 23 20
def dvMaxp (v : Nat) : Nat := bits v 31 24
def dvGrowth (v : Nat) : Nat := bits v 47 32
def dvDeadline (v : Nat) : Nat := bits v 63 48
def dvN (v : Nat) : Nat := bits v 95 64
def dvTol (v : Nat) : Nat := bits v 127 96
def dvOmega (v : Nat) : Nat := bits v 159 128
def dvA (v : Nat) : Nat := bits v 255 192
def dvStride (v : Nat) : Nat := bits v 319 256
def dvPtr (v : Nat) : Nat := bits v 383 320
def dvCol (v : Nat) : Nat := bits v 447 384
def dvB (v : Nat) : Nat := bits v 511 448
def dvX (v : Nat) : Nat := bits v 575 512
def dvR (v : Nat) : Nat := bits v 639 576
def dvD (v : Nat) : Nat := bits v 703 640
def dvBx (v : Nat) : Nat := bits v 767 704
def dvCid (v : Nat) : Nat := bits v 831 768
def dvCbase (v : Nat) : Nat := bits v 895 832
def dvBr (v : Nat) : Nat := bits v 1407 1344

/-- A tolerance or growth factor that may not stand: NaN, infinite, negative, or for a growth factor zero. -/
def badFactor (zeroOk : Bool) : Val → Bool
  | .nan _ => true
  | .inf _ => true
  | .zero _ => !zeroOk
  | .fin s _ _ => s

/-- The limits of a solve record that R304 answers with ILLEGAL. -/
def solveIllegal (v : Nat) : Bool :=
  bits v 191 160 ≠ 0 || bits v 1535 1408 ≠ 0 || dvCorr v = 3 || dvN v = 0 || dvN v > 2 ^ 28 || dvI v + dvF v + 1 > 192 ||
  badFactor false (decodeF fmtBF16 (dvGrowth v)) || badFactor true (valOf 10 (dvTol v)) || (dvOmega v ≠ 0 && dvCorr v ≠ 1) ||
  ((dvCid v ≠ 0 || dvCbase v ≠ 0 || dvD v ≠ 0) && dvCorr v ≠ 2) || (dvR v = 0 && dvCorr v = 2) ||
  (!dvCsr v && (dvStride v % dvEl v ≠ 0 || dvStride v < dvN v * dvEl v || dvPtr v ≠ 0 || dvCol v ≠ 0)) || (dvCsr v && dvStride v ≠ 0)

/-- The output arrays padded to whole lines. -/
def lineUp (n : Nat) : Nat := ceilDiv n 64 * 64

/-- The arrays of a solve record: access, alignment, address and bytes. nnz is the last pointer of a CSR matrix, which gives the length of
its values and columns. -/
def solveArrays (v nnz : Nat) : List (Acc × Nat × Nat × Nat) :=
  let n := dvN v
  let e := dvEl v
  let out := fun (a len : Nat) => (Acc.store, 64, a, lineUp len)
  (if dvCsr v then [(.load, 4, dvPtr v, 4 * (n + 1)), (.load, e, dvA v, e * nnz), (.load, 4, dvCol v, 4 * nnz)]
   else [(.load, e, dvA v, (n - 1) * dvStride v + n * e)]) ++
  [(.load, e, dvB v, n * e), out (dvX v) (n * e), out (dvBx v) (n * e)] ++ (if dvR v = 0 then [] else [out (dvR v) (24 * n)]) ++
  (if dvBr v = 0 then [] else [out (dvBr v) (24 * n)]) ++ (if dvCorr v = 2 then [(.load, 64, dvD v, n * e)] else [])

/-- The last row pointer of a CSR matrix. -/
def solveNnz (s : State) (c : Cmd) (v : Nat) : Nat :=
  if dvCsr v then (match engReadSpan { s with hold := false } c (BitVec.ofNat 64 (dvPtr v + 4 * dvN v)) 4 with | .ok r => r.2.nat | .error _ => 0) else 0

/-- The checks of a solve record. -/
def solveFault (s : State) (c : Cmd) (v : Nat) : Option (Nat × Word) :=
  if solveIllegal v then some (cILLEGAL, 0)
  else if dvCorr v = 2 && !((s.findTask c.owner.task).map (fun t => tlOk t (dvCid v))).getD false then some (cFUTURE, 0)
  else (solveArrays v (solveNnz s c v)).findSome? (fun a => arrayFault s c a.1 false a.2.1 a.2.2.1 a.2.2.2)

/-- A test of a record's arrays; one that they pass is made again once their walks have met their errors (R337). -/
def afterWalks (s : State) (c : Cmd) (l : List (Nat × Nat)) (test : State → Option (Nat × Word)) : State × Option (Nat × Word) :=
  match test s with
  | some e => (s, some e)
  | none => let s1 := arraysWalked s c l; (s1, test s1)

/-- A DCOR record names its solve record, which is read and checked. -/
def readSolve (s : State) (c : Cmd) : State × Cmd :=
  let a := dcSolve c.img
  if bits c.img 511 192 ≠ 0 then (s, c.faulted (cILLEGAL, 0))
  else if a % 64 ≠ 0 then (s, c.faulted (cALIGN, BitVec.ofNat 64 a))
  else
    match engReadSpan s c (BitVec.ofNat 64 a) 192 with
    | .error e => (s, c.faulted e)
    | .ok (s1, r) =>
      if r.poison then (s1, c.faulted (cPOISON, r.poisonAt (BitVec.ofNat 64 a)))
      else
        match afterWalks s1 c ((solveArrays r.nat (solveNnz s1 c r.nat)).map (fun a => (a.2.2.1, a.2.2.2))) (fun s => solveFault s c r.nat) with
        | (s2, some e) => (s2, c.faulted e)
        | (s2, none) => (s2, { c with stage := .after, recProp := c.recProp || r.prop, pr := { c.pr with solve := r.nat } })

/-! ### QUEUED, RECORD and AFTER (R287) -/

/-- The earlier commands of a command's context that have not finished. -/
def earlierOf (s : State) (c : Cmd) : List Cmd :=
  s.cmds.filter (fun x => x.owner.task = c.owner.task && x.ctx = c.ctx && c.ctx.isSome && x.num < c.num)

/-- Every earlier command of its sub-context has left AFTER. -/
def subReady (s : State) (c : Cmd) : Bool := (earlierOf s c).all (fun x => x.stage ≠ .queued && x.stage ≠ .after)

/-- RECORD: the record is read and checked. -/
def recordStep (s : State) (c : Cmd) : State × Cmd :=
  let r := readRecord s c c.kind.recLen 128
  if r.2.stage = .draining then r
  else
    match headerBad c.kind r.2.img with
    | some e => (r.1, r.2.faulted (e, 0))
    | none =>
      if c.kind = .dcor then readSolve r.1 r.2
      else
        match afterWalks r.1 r.2 (nmopArrays r.2.img) (fun s => nmopFault s r.2) with
        | (s1, some e) => (s1, r.2.faulted e)
        | (s1, none) => (s1, { r.2 with stage := .after })

/-- R287: the stack controller reads and checks a command record. -/
def execStackRecordRead (cmd : Nat) (s : State) : Out :=
  match s.findCmd cmd with
  | none => .next s
  | some c =>
    if (c.kind = .dcor ∨ c.kind = .nmop) ∧ c.stage = .queued ∧ subReady s c then
      let r := recordStep s c
      .next (r.1.putCmd r.2)
    else .next s

/-- The after field of an NMOP is satisfied; a DCOR has none. -/
def afterMet (s : State) (c : Cmd) : Bool :=
  c.kind ≠ .nmop || !nmAen c.img ||
  match s.findTask c.owner.task with
  | some t => tlValue t (nmAfterId c.img) ≥ nmAfterVal c.img
  | none => false

/-- R128: a command starts at a step at which its after counter is reached; a DCOR's cycles count from here (R308). -/
def execAfterSatisfied (cmd : Nat) (s : State) : Out :=
  match s.findCmd cmd with
  | none => .next s
  | some c =>
    if c.stage = .after && afterMet s c then .next (s.putCmd { c with stage := .running, since := if c.kind = .dcor then s.tick else 0 })
    else .next s

/-! ### GEMV (R289, R293, R294)

A GEMV keeps in pr: a its row block, flag whether it holds all-bank mode, pois whether the row block has read poison, and in acc the
partial sums, the column reached and the cycles of this slice in each bank, and the vector registers. A sum or an element of x is
kept as its code plus 1. -/

def gvPart (b ii : Nat) : Nat := b * 16 + ii
def gvPos (b : Nat) : Nat := 2 ^ 20 + b
def gvCyc (b : Nat) : Nat := 2 ^ 21 + b
def gvVec (b t : Nat) : Nat := 2 ^ 22 + b * 256 + t

/-- The column of position t of a bank's vector register. -/
def gvCol (b t : Nat) : Nat := 16 * (2048 * (t / 16) + b) + t % 16

/-- The line of a slab that a bank index names. -/
def gvLine (b : Nat) : Nat := 128 * (b % 16) + 64 * (b / 16 % 2) + b / 32

/-- The address of the 16 elements of a row block in the column at position t. -/
def gvAddr (i rb b t : Nat) : Nat :=
  let q := 2 * ((rb * gvU i + t / 16) * 16 + t % 16) * 16
  nmA i + 2 ^ 17 * (q / 64) + 64 * gvLine b + q % 64

/-- A bank has taken every column of the row block. -/
def gvBankDone (c : Cmd) (b : Nat) : Bool :=
  let t := sget 0 c.pr.acc (gvPos b)
  t ≥ 16 * gvU c.img || gvCol b t ≥ nmCols c.img

def gvBlockDone (c : Cmd) : Bool := (List.range (gvBanks c.img)).all (gvBankDone c)

/-- A GEMV has a row block under way: it holds the partial sums and the vector registers of its banks (R286). -/
def gvUnderWay (c : Cmd) : Bool := (List.range (gvBanks c.img)).any (fun b => sget 0 c.pr.acc (gvPos b) ≠ 0)

/-- A slice has room for a column access of a GEMV: a row block is begun only where all of it fits, so that a slice ends between two row blocks
and the partial sums and vector registers are free then (R286, R289). -/
def gvRoom (c : Cmd) : Bool :=
  gvUnderWay c || (List.range (gvBanks c.img)).all (fun b => sget 0 c.pr.acc (gvCyc b) + 16 * gvU c.img ≤ 4096)

/-- A GEMV may enter all-bank mode: none holds it in the quarter, every access that was waiting when the last slice began is performed, and of the
GEMVs that wait it is the one whose last slice is oldest, the lower sub-context first. -/
def gvMayEnter (s : State) (c : Cmd) : Bool :=
  (s.cmds.filter (fun x => isGemv x && x.quarter = c.quarter && x.id ≠ c.id)).all (fun x =>
    !x.pr.flag && (c.since < x.since || (c.since = x.since && hdrSub c.img ≤ hdrSub x.img))) &&
  !s.barred.any (fun b => b.q = c.quarter && b.old)

/-- Enters all-bank mode: every access that had arrived is performed first, and the turns that still wait are noted. -/
def gvEnter (s : State) (c : Cmd) : Option (State × Cmd) :=
  if c.pr.flag then some (s, c)
  else if gvMayEnter s c then
    let s1 := settle s
    some ({ s1 with barred := s1.barred.map (fun b => if b.q = c.quarter then { b with old := true } else b) },
      { c with pr := { c.pr with flag := true } })
  else none

/-- Keeps poison that the row block has read. -/
def Cmd.notePoison (c : Cmd) (p : Bool) : Cmd :=
  if p then { c with poisoned := true, pr := { c.pr with pois := sset false c.pr.pois 0 true } } else c

/-- Loads a bank's vector register with its elements of x. -/
def gvLoad (s : State) (c : Cmd) (b : Nat) : Except (Nat × Word) (State × Cmd) :=
  let ts := (List.range (16 * gvU c.img)).filter (fun t => gvCol b t < nmCols c.img)
  match engReadList c 2 (ts.map (fun t => nmX c.img + 2 * gvCol b t)) s with
  | .error e => .error e
  | .ok (s1, l) =>
    let acc := ssetMany 0 c.pr.acc ((ts.zip l).map (fun p => (gvVec b p.1, p.2.nat + 1)))
    .ok (s1, ({ c with pr := { c.pr with acc := acc } } : Cmd).notePoison (l.any (·.poison)))

/-- A partial sum after one more term; both are f32 codes, kept plus 1. -/
def gvAdd (old a x : Nat) : Nat :=
  let p := (mulV (valOf 8 a) (valOf 8 x)).1
  if old = 0 then (roundTo fmtF32 1 0 p).1 + 1
  else (roundTo fmtF32 1 0 (addV false (valOf 10 (old - 1)) (valOf 10 (roundTo fmtF32 1 0 p).1)).1).1 + 1

/-- The rows of the row block under way. -/
def gvRows (c : Cmd) : Nat := min 16 (nmRows c.img - 16 * c.pr.a)

/-- A read of an array of a quarter's controllers: its latent errors are logged, and one that cannot be corrected is consumed (R337, R347). -/
def arrayMet (s : State) (array q : Nat) (p : Nat → Bool) : State × Bool :=
  (touchArray s array q p, s.errs.latent.any (fun l => l.array = array && l.core = q && p l.addr && bitCount l.bits ≥ 2))

/-- The partial sums of a bank, and the accumulator of a sub-context, by the numbers that their errors have (R347). -/
def sumsOf (b : Nat) (a : Nat) : Bool := a / 32 = b && a % 32 ≥ 16

/-- One column of 16 rows enters a bank's partial sums; it reads the vector register and, but for the first column, the sums. -/
def gvColumn (s : State) (c : Cmd) (b : Nat) : Except (Nat × Word) (State × Cmd) :=
  let t := sget 0 c.pr.acc (gvPos b)
  let v := arrayMet s 0x11 c.quarter (· = b)
  let m := if t = 0 then (v.1, false) else arrayMet v.1 0x12 c.quarter (sumsOf b)
  match engRead m.1 c (BitVec.ofNat 64 (gvAddr c.img c.pr.a b t)) 32 with
  | .error e => .error e
  | .ok (s1, r) =>
    let x := sget 0 c.pr.acc (gvVec b t) - 1
    let sums := (List.range (gvRows c)).map (fun ii =>
      (gvPart b ii, gvAdd (sget 0 c.pr.acc (gvPart b ii)) (leNat ((r.bytes.drop (2 * ii)).take 2)) x))
    let acc := ssetMany 0 c.pr.acc (sums ++ [(gvPos b, t + 1), (gvCyc b, sget 0 c.pr.acc (gvCyc b) + 1)])
    .ok (s1, ({ c with pr := { c.pr with acc := acc } } : Cmd).notePoison (r.poison || v.2 || m.2))

/-- R294: one column access of one bank. -/
def execGemvColumnAccess (cmd bank : Nat) (s : State) : Out :=
  match s.findCmd cmd with
  | none => .next s
  | some c =>
    if !isGemv c || bank ≥ gvBanks c.img || gvBankDone c bank || !gvRoom c then .next s
    else
      match gvEnter s c with
      | none => .next s
      | some (s1, c1) =>
        match (if sget 0 c1.pr.acc (gvPos bank) = 0 then gvLoad s1 c1 bank else .ok (s1, c1)) with
        | .error e => .next (s1.putCmd (c1.faulted e))
        | .ok (s2, c2) =>
          match gvColumn s2 c2 bank with
          | .error e => .next (s2.putCmd (c2.faulted e))
          | .ok (s3, c3) => .next (s3.putCmd c3)

/-- The result of a row, the banks' partial sums combined in ascending order. -/
def gvResult (c : Cmd) (ii : Nat) : Nat :=
  (List.range (gvBanks c.img)).foldl (fun y b =>
    let p := sget 0 c.pr.acc (gvPart b ii)
    if p = 0 then y
    else if y = 0 then p
    else (roundTo fmtF32 1 0 (addV false (valOf 10 (y - 1)) (valOf 10 (p - 1))).1).1 + 1) 0 - 1

/-- The results of the row block, proposals, with the poison that it and its sums have met. -/
def gvWrite (s0 : State) (c : Cmd) : State × Cmd :=
  let m := arrayMet s0 0x12 c.quarter (fun a => a / 32 < gvBanks c.img && sumsOf (a / 32) a)
  let poi := sget false c.pr.pois 0 || m.2
  let n := gvRows c
  afterWrites c (engWriteSpan m.1 c (nmY c.img + 64 * c.pr.a) ((List.range n).flatMap (fun ii => leBytes 4 (gvResult c ii))) true (fun _ => poi))
    (fun s1 =>
      let cyc := (List.range (gvBanks c.img)).map (fun b => (gvCyc b, sget 0 c.pr.acc (gvCyc b)))
      let c1 := { c with
        value := c.value + n, poisoned := c.poisoned || m.2
        pr := { c.pr with a := c.pr.a + 1, pois := [], acc := ssetMany 0 [] cyc } }
      (s1, if c1.pr.a ≥ gvBlocks c.img then c1.ended c1.value else c1))

/-- R294: the partial sums of a row block are read back, combined and written. -/
def execGemvRowBlockCombine (cmd : Nat) (s : State) : Out :=
  match s.findCmd cmd with
  | none => .next s
  | some c => if isGemv c && gvBlockDone c then let r := gvWrite s c; .next (r.1.putCmd r.2) else .next s

/-- R289: a slice ends between two row blocks; the GEMV leaves all-bank mode. -/
def execAllBankSliceEnd (cmd : Nat) (s : State) : Out :=
  match s.findCmd cmd with
  | none => .next s
  | some c =>
    if isGemv c && c.pr.flag && !gvUnderWay c then
      .next (s.putCmd { c with since := s.tick + 1, pr := { c.pr with flag := false, acc := sfilter (fun k => k / 2 ^ 21 ≠ 1) c.pr.acc } })
    else .next s

/-! ### What all-bank mode holds back (R289) -/

/-- Whether a step that leads from s to t reads or writes in a bank that a GEMV in all-bank mode holds. -/
def reachesHeld (c : Cmd) (s t : State) : Bool :=
  let held := gvHolds s c
  let w := fun (x : Write) => held x.place
  t.seen.any held || !(sfilter held s.mem = sfilter held t.mem && sfilter held s.utag = sfilter held t.utag &&
    sfilter held s.upoison = sfilter held t.upoison && s.homeQ.filter w = t.homeQ.filter w)

/-- A turn without its pace, and the group that it is a turn of. -/
def Turn.plain : Turn → Turn
  | .slow t => t.plain
  | t => t
def turnGroup (s : State) (t : Turn) : GroupKey := match t.plain with | .event _ => GroupKey.zero | _ => s.g.key

/-- A turn of the state s waits for the GEMVs of a list. -/
def barTurn (s : State) (l : List Cmd) (t : Turn) : State :=
  let new := l.map (fun c => ({ q := c.quarter, grp := turnGroup s t, turn := t.plain, old := false } : Barred))
  { s with barred := s.barred ++ new.filter (fun b => !s.barred.any (fun x => x.q = b.q && x.grp = b.grp && x.turn = b.turn)) }

/-- A turn of the state s that is not held back, and leads to u, waits no longer. -/
def passTurn (s u : State) (t : Turn) : State :=
  if u.barred.isEmpty then u
  else { u with barred := u.barred.filter (fun x => !(x.grp = turnGroup s t && x.turn = t.plain)) }

/-- A step that would read or write there waits instead, until it is taken up again. DESIGN CHOICE, log entry 68. -/
def allBankGate (s : State) (own : Option Nat) (turn : Turn) (o : Out) : Out :=
  match o with
  | .next u =>
    .next (match (gvHolders s own).filter (fun c => reachesHeld c s u) with
      | [] => passTurn s u turn
      | l => barTurn s l turn)
  | o => o

/-! ### The optimiser step (R290, R295) -/

def rne32 (v : Val) : Nat := (roundTo fmtF32 1 0 v).1
def f32 (c : Nat) : Val := valOf 10 c
def mulE (a b : Val) : Val := (mulV a b).1
def addE (a b : Val) : Val := (addV false a b).1
def subE (a b : Val) : Val := addE a (negV b)

/-- The new w, m and v of one element. -/
def adamStep (i g w m v : Nat) : Nat × Nat × Nat :=
  let lr := f32 (bits i 639 608)
  let b1 := f32 (bits i 671 640)
  let b2 := f32 (bits i 703 672)
  let eps := f32 (bits i 735 704)
  let wd := f32 (bits i 767 736)
  let one := Val.fin false 1 1
  let m1 := rne32 (addE (mulE b1 (f32 m)) (mulE (subE one b1) (f32 g)))
  let v1 := rne32 (addE (mulE b2 (f32 v)) (mulE (mulE (subE one b2) (f32 g)) (f32 g)))
  let mh := rne32 (mulE (f32 m1) (f32 (bits i 799 768)))
  let vh := rne32 (mulE (f32 v1) (f32 (bits i 831 800)))
  let dn := rne32 (addE (f32 (rne32 (evalRFun .sqrt (f32 vh)).1)) eps)
  let u := rne32 (divV (f32 mh) (f32 dn)).1
  (rne32 (subE (f32 w) (mulE lr (addE (f32 u) (mulE wd (f32 w))))), m1, v1)

/-- A line of an array carries a tag. -/
def arrayTagged (s : State) (c : Cmd) (a n : Nat) : Bool :=
  (List.range (ceilDiv n 64)).any (fun k => match c.xlat s .load (BitVec.ofNat 64 (a + 64 * k)) with | .ok x => homeTag s x.pa | .error _ => false)

/-- The arrays of an optimiser step include a proposal: one has been read, or stands in them now (R76). -/
def adamTagged (s : State) (c : Cmd) : Bool :=
  c.recProp || c.pr.prop || [nmG c.img, nmA c.img, nmX c.img, nmY c.img].any (fun a => arrayTagged s c a (4 * nmN c.img))

/-- One element: it is read and written in one step. pr.a is the element, pr.prop whether a proposal has been read. -/
def adamUpdate (s : State) (c : Cmd) : State × Cmd :=
  let i := c.img
  let o := 4 * c.pr.a
  match engReadList c 4 [nmG i + o, nmA i + o, nmX i + o, nmY i + o] s with
  | .error e => (s, c.faulted e)
  | .ok (s1, l) =>
    let r := fun k => ((l[k]?).map EngRead.nat).getD 0
    let prop := adamTagged s c || l.any (·.prop)
    let poi := l.any (·.poison)
    let x := adamStep i (r 0) (r 1) (r 2) (r 3)
    let put := fun (a v : Nat) (s : State) => engWriteSpan s c (a + o) (leBytes 4 v) prop (fun _ => poi)
    afterWrites c (put (nmA i) x.1 s1) (fun s2 => afterWrites c (put (nmX i) x.2.1 s2) (fun s3 => afterWrites c (put (nmY i) x.2.2 s3) (fun s4 =>
      let c1 := { c with value := c.value + 1, poisoned := c.poisoned || poi, pr := { c.pr with a := c.pr.a + 1, prop := prop } }
      (s4, if c1.pr.a ≥ nmN i then c1.ended c1.value else c1))))

/-- R295: one element of an optimiser step. -/
def execAdamElementUpdate (cmd : Nat) (s : State) : Out :=
  match s.findCmd cmd with
  | none => .next s
  | some c =>
    if c.kind = .nmop ∧ nmOp c.img = 2 ∧ c.stage = .running then let r := adamUpdate s c; .next (r.1.putCmd r.2) else .next s

end Sys2Proof.Machine
end

