-- ==== Sys2Proof/Machine/ProductKey.lean ====
section
/-! DEFINITION. The product-key unit: queries and gradient scatters (R76, R203, R297 to R302).

A running PKQ keeps in pr: a the query, b the entry of the query, and for a scatter c the next element of its row, d the IW entry, flag its
poison. -/

namespace Sys2Proof.Machine

/-! ### The record (R203) -/

def pkQ (i : Nat) : Nat := bits i 191 128
def pkV (i : Nat) : Nat := bits i 255 192
def pkO (i : Nat) : Nat := bits i 319 256
def pkIw (i : Nat) : Nat := bits i 383 320
def pkB (i : Nat) : Nat := bits i 399 384
def pkKw (i : Nat) : Nat := bits i 409 400
def pkK (i : Nat) : Nat := bits i 415 410
def pkNsub (i : Nat) : Nat := bits i 428 416
def pkVw (i : Nat) : Nat := bits i 440 430 + 1
def pkMode (i : Nat) : Nat := bits i 447 446
def pkHofs (i : Nat) : Nat := bits i 470 448
def pkScale (i : Nat) : Nat := bits i 511 480

/-- The bytes of the two half-key tables. -/
def pkTables (i : Nat) : Nat := 2 * pkNsub i * pkKw i

def pkqIllegal (i : Nat) : Bool :=
  bits i 479 471 ≠ 0 || bits i 445 441 ≠ 0 || bit1 i 429 || pkMode i > 1 || pkHofs i % 64 ≠ 0 || pkNsub i = 0 || pkNsub i > 4096 ||
  pkK i = 0 || pkK i > 32 || pkK i > pkNsub i || pkKw i % 2 ≠ 0 || pkKw i < 2 || pkKw i > 512 || pkB i = 0 ||
  pkHofs i + pkTables i > 2 ^ 23

/-- An array whose elements are not aligned (R88): its address. DEDUCED, log entry 78. -/
def pkqMisaligned (i : Nat) : Option Nat :=
  ((if pkMode i = 0 then [(pkQ i, 2)] else []) ++ [(pkO i, 2), (pkIw i, 4)]).findSome? (fun (a : Nat × Nat) => if a.1 % a.2 = 0 then none else some a.1)

/-- The loaded length of the command's half-key region in its quarter (R297). -/
def hkLoaded (s : State) (c : Cmd) : Nat :=
  match s.findTask c.owner.task with
  | some t => if bit1 (recHkq t.img) c.quarter then t.hk.length else 0
  | none => 0

/-- The record is read and checked, once every earlier command of the context has started (R302). -/
def pkqStart (s : State) (c : Cmd) : State × Cmd :=
  let r := readRecord s c 64 128
  if r.2.stage = .draining then r
  else
    match headerBad .pkq r.2.img with
    | some e => (r.1, r.2.faulted (e, 0))
    | none =>
      if pkqIllegal r.2.img then (r.1, r.2.faulted (cILLEGAL, 0))
      else if let some a := pkqMisaligned r.2.img then (r.1, r.2.faulted (cALIGN, BitVec.ofNat 64 a))
      else if pkHofs r.2.img + pkTables r.2.img > hkLoaded r.1 r.2 then (r.1, r.2.faulted (cPROT, 0))
      else (r.1, { r.2 with stage := .running })

/-! ### Scoring (R298, R299) -/

/-- Whether the first of two scored candidates ranks before the second: the greater score, NaN below every number, then the lower index. -/
def ranksBefore (a b : Nat × Nat) : Bool :=
  let x := valOf 10 a.1
  let y := valOf 10 b.1
  if isNan x || isNan y then (if isNan x && isNan y then decide (a.2 < b.2) else isNan y)
  else if eqV x y then decide (a.2 < b.2) else ltV y x

/-- Puts a candidate into a ranked list. -/
def rankIn (a : Nat × Nat) : List (Nat × Nat) → List (Nat × Nat)
  | [] => [a]
  | b :: t => if ranksBefore a b then a :: b :: t else b :: rankIn a t

/-- The k best candidates, best first. -/
def bestOf (k : Nat) (l : List (Nat × Nat)) : List (Nat × Nat) := l.foldl (fun r a => (rankIn a r).take k) []

/-- A bf16 element of a list of bytes. -/
def bf16At (b : List Byte) (ofs : Nat) : Val := valOf 9 (leNat ((b.drop ofs).take 2))

/-- The exact sum of products, rounded once to f32. -/
def dotOf (q k : List Val) : Nat := rne32 (sumV false ((q.zip k).map (fun p => mulE p.1 p.2))).1

/-- The best sub-keys of half h: score and index. -/
def halfBest (i : Nat) (hk : List Byte) (q : List Byte) (h : Nat) : List (Nat × Nat) :=
  let n := pkKw i / 2
  let qs := (List.range n).map (fun e => bf16At q (2 * (h * n + e)))
  bestOf (pkK i) ((List.range (pkNsub i)).map (fun j =>
    (dotOf qs ((List.range n).map (fun e => bf16At hk (pkHofs i + h * pkNsub i * pkKw i + j * pkKw i + 2 * e))), j)))

/-- The best pairs: score and row. -/
def pairBest (i : Nat) (a b : List (Nat × Nat)) : List (Nat × Nat) :=
  bestOf (pkK i) (a.flatMap (fun x => b.map (fun y => (rne32 (addE (valOf 10 x.1) (valOf 10 y.1)), x.2 * pkNsub i + y.2))))

/-- The weights of ranked scores. -/
def weightsOf (l : List Nat) : List Nat :=
  let e := l.map (fun s => rne32 (expV (subE (valOf 10 s) (valOf 10 (l.headD 0)))))
  let z := rne32 (sumV false (e.map (valOf 10))).1
  e.map (fun x => rne32 (divV (valOf 10 x) (valOf 10 z)).1)

/-! ### Value rows (R203) -/

/-- A value row is checked as it is met: its alignment (R88), and each page it touches. -/
def rowFault (s : State) (c : Cmd) (acc : Acc) (r : Nat) : Option (Nat × Word) :=
  let n := 2 * pkVw c.img
  let a := pkV c.img + r * n
  if a % 2 ≠ 0 then some (cALIGN, BitVec.ofNat 64 a) else [a, a + n - 1].findSome? (fun x => pageFault s c acc false x)

/-! ### Queries (R300, R302) -/

/-- Poison in the sectors of the tables. -/
def hkPoisoned (s : State) (c : Cmd) : Bool :=
  let i := c.img
  match s.findTask c.owner.task with
  | some t => (List.range (pkTables i / 32 + 2)).any (fun k =>
      let x := pkHofs i / 32 + k
      decide (32 * x < pkHofs i + pkTables i) && sget false t.hkPoison (c.quarter * 2 ^ 18 + x))
  | none => false

/-- A query reads its sectors: latent errors of the half-key SRAM poison them (R340). -/
def touchHalfKeys (s : State) (c : Cmd) : State :=
  match s.findTask c.owner.task with
  | none => s
  | some t =>
    let q := c.quarter
    let base := sget 0 t.hkAt q / 32
    let lo := base + pkHofs c.img / 32
    let hi := base + ceilDiv (pkHofs c.img + pkTables c.img) 32
    let met := fun (a : Nat) => decide (lo ≤ a) && decide (a < hi)
    let bad := (s.errs.latent.filter (fun l => l.array = 0x13 && l.core = q && met l.addr && bitCount l.bits ≥ 2)).map (fun l => (q * 2 ^ 18 + (l.addr - base), true))
    (touchArray s 0x13 q met).upTask t.id (fun t => { t with hkPoison := ssetMany false t.hkPoison bad })

/-- Writes IW and the output row of a query, proposals. -/
def pkqWrite (s : State) (c : Cmd) (pairs : List (Nat × Nat)) (rows : List EngRead) (poi : Bool) : State × Cmd :=
  let i := c.img
  let w := weightsOf (pairs.map (·.1))
  let vw := pkVw i
  let iw := (pairs.zip w).flatMap (fun p => leBytes 4 p.1.2 ++ leBytes 4 p.2)
  let out := (List.range vw).flatMap (fun e =>
    leBytes 2 (roundTo fmtBF16 1 0 (sumV false ((w.zip rows).map (fun p => mulE (valOf 10 p.1) (bf16At p.2.bytes (2 * e))))).1).1)
  let b := c.pr.a
  afterWrites c (engWriteSpan s c (pkIw i + 8 * b * pkK i) iw true (fun _ => poi)) (fun s1 =>
    afterWrites c (engWriteSpan s1 c (pkO i + 2 * b * vw) out true (fun _ => poi)) (fun s2 =>
      let c1 := { c with value := c.value + 1, poisoned := c.poisoned || poi, pr := { c.pr with a := b + 1 } }
      (s2, if c1.pr.a ≥ pkB i then c1.ended c1.value else c1)))

/-- One forward query. -/
def pkqForward (s : State) (c : Cmd) : State × Cmd :=
  let i := c.img
  match engReadSpan s c (BitVec.ofNat 64 (pkQ i + 2 * c.pr.a * pkKw i)) (2 * pkKw i) with
  | .error e => (s, c.faulted e)
  | .ok (s1, q) =>
    let s2 := touchHalfKeys s1 c
    let hk := match s2.findTask c.owner.task with | some t => t.hk | none => []
    let pairs := pairBest i (halfBest i hk q.bytes 0) (halfBest i hk q.bytes 1)
    match pairs.findSome? (fun p => rowFault s2 c .load p.2) with
    | some e => (s2, c.faulted e)
    | none =>
      match engReadList c (2 * pkVw i) (pairs.map (fun p => pkV i + 2 * p.2 * pkVw i)) s2 with
      | .error e => (s2, c.faulted e)
      | .ok (s3, rows) => pkqWrite s3 c pairs rows (q.poison || hkPoisoned s3 c || rows.any (·.poison))

/-- Every scatter of the context's earlier commands has been performed (R302). -/
def scattersDone (s : State) (c : Cmd) : Bool :=
  (earlierOf s c).all (fun x => !(x.stage = .queued || (x.stage = .running && pkMode x.img = 1)))

/-- The earlier commands of the context have started. -/
def pkqTurn (s : State) (c : Cmd) : Bool := (earlierOf s c).all (fun x => x.stage ≠ .queued)

/-- R300: one forward query; the first step of a command reads its record. -/
def execPkqQuery (cmd : Nat) (s : State) : Out :=
  match s.findCmd cmd with
  | none => .next s
  | some c =>
    if c.kind ≠ .pkq then .next s
    else if c.stage = .queued then
      if pkqTurn s c then let r := pkqStart s c; .next (r.1.putCmd r.2) else .next s
    else if c.stage = .running ∧ pkMode c.img = 0 ∧ scattersDone s c then let r := pkqForward s c; .next (r.1.putCmd r.2)
    else .next s

/-! ### Scatters (R301, R302) -/

/-- The reduction store of one value element, at home; whether it met or carried poison. -/
def scatterElem (c : Cmd) (row w : Nat) (s : State) (e : Nat) : Except (Nat × Word) (State × Bool) :=
  let i := c.img
  let a := BitVec.ofNat 64 (pkV i + 2 * (row * pkVw i + e))
  match engReadSpan s c (BitVec.ofNat 64 (pkO i + 2 * (c.pr.a * pkVw i + e))) 2 with
  | .error x => .error x
  | .ok (s0, g) =>
    let s1 := c.walked s0 a
    match c.xlat s1 .reduce a with
    | .error x => .error (x, a)
    | .ok x =>
      let r := placeRead s1 c x.pa 2
      if r.2.poison then .ok (r.1, true)
      else
        let v := (roundTo fmtBF16 1 0 (addE (valOf 9 r.2.nat) (mulE (mulE (valOf 10 (pkScale i)) (valOf 10 w)) (valOf 9 g.nat)))).1
        .ok (placeWrite r.1 c ((leBytes 2 v).zipIdx.map (fun p => (x.pa + p.2, p.1))) true (g.poison || c.pr.flag), g.poison || c.pr.flag)

/-- The next element of the row of the IW entry that the command holds; the entry, the query and the command end with their last. -/
def scatterNext (s : State) (c : Cmd) : State × Cmd :=
  let i := c.img
  match scatterElem c (c.pr.d % 2 ^ 32) (c.pr.d / 2 ^ 32) s c.pr.c with
  | .error e => (s, c.faulted e)
  | .ok (s1, poi) =>
    let row := decide (c.pr.c + 1 ≥ pkVw i)
    let query := row && decide (c.pr.b + 1 ≥ pkK i)
    let c1 := { c with
      poisoned := c.poisoned || poi, value := if query then c.value + 1 else c.value
      pr := { c.pr with a := if query then c.pr.a + 1 else c.pr.a, b := if query then 0 else if row then c.pr.b + 1 else c.pr.b
                        c := if row then 0 else c.pr.c + 1 } }
    (s1, if c1.pr.a ≥ pkB i then c1.ended c1.value else c1)

/-- One reduction store of a gradient command; the first of a row reads its IW entry and checks the row. -/
def pkqGradient (s : State) (c : Cmd) : State × Cmd :=
  let i := c.img
  if c.pr.c ≠ 0 then scatterNext s c
  else
    match engReadSpan s c (BitVec.ofNat 64 (pkIw i + 8 * (c.pr.a * pkK i + c.pr.b))) 8 with
    | .error e => (s, c.faulted e)
    | .ok (s1, iw) =>
      let row := iw.nat % 2 ^ 32
      if row ≥ pkNsub i * pkNsub i then (s1, c.faulted (cILLEGAL, 0))
      else
        match rowFault s1 c .reduce row with
        | some e => (s1, c.faulted e)
        | none => scatterNext s1 { c with pr := { c.pr with d := iw.nat, flag := iw.poison } }

/-- R301: one reduction store of a gradient command; the first step of a command reads its record. -/
def execPkqScatter (cmd : Nat) (s : State) : Out :=
  match s.findCmd cmd with
  | none => .next s
  | some c =>
    if c.kind ≠ .pkq then .next s
    else if c.stage = .queued then
      if pkqTurn s c then let r := pkqStart s c; .next (r.1.putCmd r.2) else .next s
    else if c.stage = .running ∧ pkMode c.img = 1 then let r := pkqGradient s c; .next (r.1.putCmd r.2)
    else .next s

end Sys2Proof.Machine
end

