-- ==== Sys2Proof/Machine/SaveRestore.lean ====
section
/-! DEFINITION. Saving a block for pre-emption and restoring its groups (R22, R29, R93, R135, R136, R163, R185, R320, R324 to R326, R328).

A saved group stays in the list of groups, not bound, with what its record has no place for: its argument block, the values that COORD and the
other launch fields give it, and what an interrupted handler keeps. What its record holds is written to memory at the save and read back at the
restore. -/

namespace Sys2Proof.Machine

/-! ### The group context record (R325) -/

/-- The copy commands of a group that have not completed: its replay list. -/
def replayOf (s : State) (k : GroupKey) : List Cmd :=
  s.cmds.filter (fun c => c.owner = k && (match c.kind with | .copy | .copymm _ | .fixline _ => true | _ => false))

/-- Those that carry a record image into the list: a fixed line that has still to read its anchor has none. -/
def Cmd.listed (c : Cmd) : Bool := match c.kind with | .fixline _ => c.stage ≠ .queued | _ => true

/-- The next anchor of a channel. -/
def nextAnchor (s : State) (k : GroupKey) (ch : Nat) : Nat :=
  match (replayOf s k).find? (fun c => match c.kind with | .fixline x => x = ch | _ => false) with
  | some c => if c.stage = .queued then c.addr.toNat else bits c.img 575 512
  | none => 0

/-- Bytes 0x0000 to 0x003F. -/
def controlWord (s : State) (g : Group) : Nat :=
  g.pc.toNat * 2 ^ 448 + g.elapsedNow s.tick % 2 ^ 64 * 2 ^ 384 + pathWord g.ln.l1 * 2 ^ 320 + pathWord g.ln.l0 * 2 ^ 256 +
    nextAnchor s g.key 1 % 2 ^ 64 * 2 ^ 192 + nextAnchor s g.key 0 % 2 ^ 64 * 2 ^ 128 +
    (List.range 16).foldl (fun a t => a + bitNat (g.tileTag t) * 2 ^ (112 + t)) 0 + (g.ln.stack.length + g.ln.biv) % 512 * 2 ^ 103 +
    g.ln.mstep % 256 * 2 ^ 95 + bitNat g.ln.mslot * 2 ^ 94 + bitNat g.cap.lscaleTag * 2 ^ 93 + bitNat (g.lvl ≠ 0) * 2 ^ 92 +
    ((replayOf s g.key).filter Cmd.listed).length % 128 * 2 ^ 85

/-- The future state of a register in 2 bits, and its handle. -/
def futCode (f : RegFut) : Nat := match f with | .none => 0 | .pending _ => 1 | .resolved .. => 2 | .busy => 1
def handleWord (s : State) (g : Group) (r : Nat) : Nat :=
  let v := r % 64 * 2 ^ 58 + 2 ^ 57
  match g.fut r with
  | .pending id => (match s.findCmd id with | some c => c.ctx.getD 0 * 2 ^ 64 + v + c.num % 2 ^ 57 | none => v)
  | .resolved _ n ctx => ctx * 2 ^ 64 + v + n % 2 ^ 57
  | _ => 0

/-- What the record gives as the value of a register: a RESOLVED one holds its completion word (R181). -/
def regWord (g : Group) (i : Nat) : Word := match g.fut i with | .resolved w _ _ => w | _ => g.sval i

/-- The level and number of barrier word k. -/
def barNth (k : Nat) : Nat × Nat := if k < 2 then (0, k) else if k < 18 then (1, k - 2) else if k < 26 then (2, k - 18) else if k < 30 then (3, k - 26) else (4, 0)

/-- The barrier that a waiting group waits at. -/
def waitingAt (s : State) (g : Group) : Option (Nat × Nat) :=
  g.barWaiting.bind (fun p => match p.w with
    | .barSync sa level num | .barWait sa level num =>
      (match barCheck { s with g := g } sa level num with | .ok x => some (level.toNat, x.2.2) | .error _ => none)
    | _ => none)

/-- A barrier word: arrived, waiting, LAST. -/
def barWord (s : State) (g : Group) (k : Nat) : Nat :=
  let x := barNth k
  let arrived := match s.findTask g.key.task with | some t => (findBar t (barOf x.1 x.2 g.key)).arr.contains g.key | none => false
  bitNat arrived * 2 ^ 15 + bitNat (waitingAt s g = some x) * 2 ^ 14 + (sget 0 g.barLast (barKey x.1 x.2) - 1) % 2 ^ 14

/-- The fields at 0x0C00: CENT, XPC, PFB, CFB, XMASK, PP, PC, and the suspended path with its EXMASK. The spec gives no places within
these 64 bytes: DESIGN CHOICE, log entry 18. -/
def genWord (l : GenLoop) : Nat :=
  let susp := match l.susp with | none => 0 | some x => 1 + 2 * (x.path.pc.toNat + 2 ^ 22 * (x.path.mask.toNat + 2 ^ 32 * (bitNat x.path.p + 2 * x.exmask.toNat)))
  l.cent.toNat + 2 ^ 22 * l.xpc.toNat + 2 ^ 44 * (l.pfb % 16) + 2 ^ 48 * (l.cfb % 16) + 2 ^ 52 * l.xmask.toNat + 2 ^ 84 * bitNat l.pp + 2 ^ 85 * bitNat l.pc +
    2 ^ 128 * susp

/-- One entry of the replay list: image, number, MSTEP, MMA only, token. -/
def replayBytes (c : Cmd) : List Byte :=
  leBytes 128 c.img ++ leBytes 16 (c.num % 2 ^ 64 * 2 ^ 64 + c.pr.a % 128 * 2 ^ 4 * bitNat (c.stage = .followOn) + bitNat (c.stage = .followOn) * 8 + c.tok % 8)

/-- The tiles of a mask, ascending. -/
def maskTiles (m : BitVec 16) : List Nat := (List.range 16).filter (fun t => m.getLsbD t)

def bitMask (n : Nat) (f : Nat → Bool) : Nat := (List.range n).foldl (fun a i => a + bitNat (f i) * 2 ^ i) 0

/-- The whole record of a group, byte by byte. -/
def contextBytes (s : State) (g : Group) : List Byte :=
  let r32 := List.range 32
  let v := { s with g := g }
  leBytes 64 (controlWord s g) ++
  (List.range 64).flatMap (fun i => leBytes 8 (regWord g i).toNat) ++
  leBytes 8 (bitMask 64 g.stag) ++ leBytes 16 ((List.range 64).foldl (fun a i => a + futCode (g.fut i) * 4 ^ i) 0) ++ zeroBytes 40 ++
  (let hs := (List.range 64).filter (fun i => futCode (g.fut i) ≠ 0)
   (List.range 16).flatMap (fun k => leBytes 16 (match hs[k]? with | some i => handleWord s g i | none => 0))) ++
  (List.range 64).flatMap (fun id => leBytes 8 (if srListed id then (srRead v id).toNat else 0)) ++
  trapBytes g.sp ++
  (List.range 31).flatMap (fun k => leBytes 2 (barWord s g k)) ++ zeroBytes 2 ++
  r32.flatMap (fun l => leBytes 4 (g.srcCount l).toNat) ++
  (List.range 8).flatMap (fun k => leBytes 4 (g.pred k).toNat) ++ leBytes 8 (bitMask 8 g.ptag) ++
  (List.range 8).flatMap (fun t => leBytes 1 (g.tok t).count) ++ (List.range 8).flatMap (fun t => leBytes 1 (g.tok t).status) ++
  zeroBytes 8 ++ (List.range 8).flatMap (fun t => leBytes 8 (g.tok t).faddr.toNat) ++
  stackBytes g.ln ++ queueBytes g.ln ++
  leBytes 64 (genWord g.ln.gl) ++ zeroBytes 192 ++
  (List.range 4).flatMap (fun n => r32.flatMap (fun l =>
    let d := g.dElem n l
    [d.res, d.na, d.nx, d.nb].flatMap (fun x => leBytes 24 (wrapInt 192 x)))) ++
  (List.range 4).flatMap (fun n => leBytes 4 (bitMask 32 (fun l => (g.dElem n l).sys))) ++ zeroBytes 48 ++
  (List.range 256).flatMap (fun i => match g.ln.gl.cairn[i]? with
    | some e => e.words.flatMap (fun w => leBytes 4 w.1.toNat)
    | none => zeroBytes 16) ++
  leBytes 128 ((List.range 256).foldl (fun a i => match g.ln.gl.cairn[i]? with
    | some e => a + (e.words.zipIdx.foldl (fun b w => b + bitNat w.1.2 * 2 ^ w.2) 0) * 16 ^ i
    | none => a) 0) ++
  zeroBytes 576 ++
  (maskTiles g.place.tmask).flatMap (fun t => (List.range 1024).flatMap (fun e => leBytes 8 (g.tileEl t e).toNat)) ++
  (List.range g.place.lregs).flatMap (fun n => r32.flatMap (fun l => leBytes 4 (g.velem n l).toNat)) ++
  (List.range g.place.lregs).flatMap (fun n => leBytes 4 (bitMask 32 (g.vtag n))) ++
  ((replayOf s g.key).filter Cmd.listed).flatMap replayBytes

/-! ### Reading it back -/

/-- The special registers of the record, at 0x0380: their reserved bits are not looked at (R5). -/
def specialOf (b : RecBytes) (id : Nat) : Word := BitVec.ofNat 64 (recNat b (0x380 + 8 * id) 8) &&& definedBits id

/-- The handle of a register in the record: its TLID and its number. -/
def savedHandle (b : RecBytes) (r : Nat) : Option (Nat × Nat) :=
  (List.range 16).findSome? (fun k => let w := recNat b (0x280 + 16 * k) 16; if bit1 w 57 && bits w 63 58 = r then some (w / 2 ^ 64, w % 2 ^ 57) else none)

/-- The future state of a register: a PENDING one whose command has completed meanwhile is RESOLVED (R185). A handle that names no command and
no completion is NONE. DESIGN CHOICE, log entry 119. -/
def savedFut (s : State) (g : Group) (b : RecBytes) (r : Nat) : RegFut :=
  match bits (recNat b 0x248 16) (2 * r + 1) (2 * r), savedHandle b r with
  | 2, some (ctx, n) => .resolved (BitVec.ofNat 64 (recNat b (0x40 + 8 * r) 8)) n ctx
  | 1, some (ctx, n) =>
    match s.cmds.find? (fun c => c.owner = g.key && c.ctx = some ctx && c.num % 2 ^ 57 = n), g.fut r with
    | some c, _ => .pending c.id
    | none, .resolved w m ctx' => if m % 2 ^ 57 = n ∧ ctx' = ctx then .resolved w m ctx else .none
    | none, _ => .none
  | _, _ => .none

/-- LAST of barrier word k, the field modulo 2^14 (R325): the saved group's own where the field agrees with it. -/
def savedLast (b : RecBytes) (g : Group) (k : Nat) : Nat × Nat :=
  let x := barNth k
  let f := bits (recNat b (0x5C0 + 2 * k) 2) 13 0
  let live := sget 0 g.barLast (barKey x.1 x.2)
  (barKey x.1 x.2, if (live - 1) % 2 ^ 14 = f then live else f + 1)

def loadSpecials (b : RecBytes) (p : Specials) : Specials :=
  let x := specialOf b
  let tk := (specialOf b 0x00B).toNat
  { p with
    status := x 1, exmask := (x 2).setWidth 32, coord := x 3, ucause := x 4
    seed := x 6, stream := x 7, ftok := bits tk 34 32, fcause := bits tk 47 40, dstat := x 0x00E
    elapsed := bits (recNat b 0 64) 447 384
    uaddr := x 0x00F, trapc := BitVec.ofNat 64 (recNat b 0x580 8) &&& definedBits 0x100, trappc := BitVec.ofNat 64 (recNat b 0x588 8)
    traplpc := BitVec.ofNat 64 (recNat b 0x590 8) &&& definedBits 0x102, trapaddr := BitVec.ofNat 64 (recNat b 0x598 8) }

def loadCaps (b : RecBytes) : Caps :=
  { mode := specialOf b 0, lscale := (specialOf b 8).setWidth 32, lscaleTag := bit1 (recNat b 0 64) 93, rgn := specialOf b 9
    drange := specialOf b 0xA, dctl := specialOf b 0xD
    shape := ssetMany 0 [] ((List.range 4).map (fun i => (i, specialOf b (0x10 + i))))
    bnd := ssetMany 0 [] ((List.range 16).map (fun i => (i, specialOf b (0x20 + i)))) }

/-- The register files; an element that was bad has been written anew (R337). -/
def loadRegs (s : State) (b : RecBytes) (g : Group) : Regs :=
  let ln := List.range 32
  let vs := List.range g.place.lregs
  let tiles := maskTiles g.place.tmask
  let v0 := 0x5000 + 8192 * tiles.length
  let t0 := v0 + 128 * g.place.lregs
  let ctl := recNat b 0 64
  let sx := fun o => toSigned 192 (recNat b o 24)
  { g.r with
    sreg := ssetMany 0 [] ((List.range 63).map (fun i => (i + 1, BitVec.ofNat 64 (recNat b (0x40 + 8 * (i + 1)) 8))))
    stag := ssetMany false [] ((List.range 63).map (fun i => (i + 1, bit1 (recNat b 0x240 8) (i + 1))))
    fut := ssetMany .none [] ((List.range 63).map (fun i => (i + 1, savedFut s g b (i + 1))))
    vreg := ssetMany 0 [] (vs.flatMap (fun n => ln.map (fun l => (n * 32 + l, BitVec.ofNat 32 (recNat b (v0 + 128 * n + 4 * l) 4)))))
    vtag := ssetMany false [] (vs.flatMap (fun n => ln.map (fun l => (n * 32 + l, bit1 (recNat b (t0 + 4 * n) 4) l))))
    kreg := ssetMany 0 [] ((List.range 7).map (fun k => (k + 1, BitVec.ofNat 32 (recNat b (0x680 + 4 * (k + 1)) 4))))
    ktag := ssetMany false [] ((List.range 7).map (fun k => (k + 1, bit1 (recNat b 0x6A0 1) (k + 1))))
    tile := ssetMany 0 [] (tiles.zipIdx.flatMap (fun t => (List.range 1024).map (fun e =>
      (t.1 * 1024 + e, BitVec.ofNat 48 (recNat b (0x5000 + 8192 * t.2 + 8 * e) 8)))))
    ttag := ssetMany false [] (tiles.map (fun t => (t, bit1 ctl (112 + t))))
    dreg := ssetMany DElem.zero [] ((List.range 4).flatMap (fun n => ln.map (fun l =>
      let o := 0xD00 + 3072 * n + 96 * l
      (n * 32 + l, { res := sx o, na := sx (o + 24), nx := sx (o + 48), nb := sx (o + 72), sys := bit1 (recNat b (0x3D00 + 4 * n) 4) l }))))
    src := ssetMany 0 [] (ln.map (fun l => (l, BitVec.ofNat 32 (recNat b (0x600 + 4 * l) 4))))
    tok := ssetMany Token.ok [] ((List.range 8).map (fun t =>
      (t, { g.tok t with count := recNat b (0x6A8 + t) 1, status := recNat b (0x6B0 + t) 1, faddr := BitVec.ofNat 64 (recNat b (0x6C0 + 8 * t) 8) })))
    bad := [] }

def loadLoop (b : RecBytes) (l : GenLoop) : GenLoop :=
  let w := recNat b 0xC00 64
  let st := (specialOf b 0x00C).toNat
  let x := w / 2 ^ 129
  { l with
    body := bits st 31 30, done := BitVec.ofNat 32 (bits st 63 32), cap := bits st 26 18, hi := bits st 17 9
    cent := BitVec.ofNat 22 w, xpc := BitVec.ofNat 22 (w / 2 ^ 22), pfb := bits w 47 44, cfb := bits w 51 48, xmask := BitVec.ofNat 32 (w / 2 ^ 52)
    pp := bit1 w 84, pc := bit1 w 85
    susp := if bit1 w 128 then some { path := { pc := BitVec.ofNat 22 x, mask := BitVec.ofNat 32 (x / 2 ^ 22), p := bit1 x 54 }
                                      exmask := BitVec.ofNat 32 (x / 2 ^ 55), stack := (l.susp.map (·.stack)).getD [] } else none
    cairn := (List.range (bits st 8 0)).map (fun i => { words := (List.range 4).map (fun k =>
      (BitVec.ofNat 32 (recNat b (0x3D40 + 16 * i + 4 * k) 4), bit1 (recNat b (0x4D40 + i / 2) 1) (4 * (i % 2) + k))) }) }

/-- The lane stream with its loop. -/
def loadLane (b : RecBytes) (l : LaneCtl) : LaneCtl := { savedLane b l with gl := loadLoop b l.gl }

/-- A group as its record gives it. -/
def loadContext (s : State) (b : RecBytes) (g : Group) : Group :=
  { g with r := loadRegs s b g, barLast := ssetMany 0 [] ((List.range 31).map (savedLast b g)), cap := loadCaps b, sp := loadSpecials b g.sp, pc := BitVec.ofNat 64 (bits (recNat b 0 64) 511 448)
           ln := loadLane b g.ln, passed := 0 }

/-- The bytes of a group's record before its replay list, and with it. -/
def contextBase (p : Place) : Nat := 0x5000 + 8192 * (maskTiles p.tmask).length + 132 * p.lregs
def contextSize (p : Place) (n : Nat) : Nat := contextBase p + 144 * n

/-! ### The block save record (R326) -/

/-- Every byte of a block's windows, in the order of the record. -/
def windowPlaces (p : Place) : List Nat :=
  (List.range (p.spSlots * 1024)).map (spPlace p.bid) ++ (List.range (p.tsFr * 2048)).map (tsPlace p.bid) ++
  (List.range p.bsu).flatMap (fun u => (List.range 64).flatMap (fun sl => (List.range 1024).map (fun b => bsPlace p.bid sl (u * 1024 + b))))

/-- The sectors of the windows, in the same order. -/
def windowSectors (p : Place) : List Nat := (windowPlaces p).filter (fun a => a % 32 = 0)

def blockBytes (s : State) (p : Place) : List Byte :=
  let tags := (List.range p.spSlots).flatMap (fun e => leBytes 8 (sget 0 s.tagTab (p.bid * 1024 + e)).toNat)
  let secs := windowSectors p
  let map := leBytes (secs.length / 4 + 1) (secs.zipIdx.foldl (fun a x => a + (bitNat (homeTag s x.1) + 2 * bitNat (homePoison s x.1)) * 4 ^ x.2) 0)
  let pad := fun (l : List Byte) => l ++ zeroBytes (ceilDiv l.length 64 * 64 - l.length)
  pad (leBytes 64 (p.spSlots * 2 ^ 14 + p.tsFr * 2 ^ 6 + p.bsu)) ++ pad tags ++ pad (map.take (ceilDiv secs.length 4)) ++ (windowPlaces p).map (homeByte s)

/-- Where the parts of a block's record begin, and its size. -/
def mapAt (p : Place) : Nat := 64 + ceilDiv (8 * p.spSlots) 64 * 64
def windowsAt (p : Place) : Nat := mapAt p + ceilDiv (ceilDiv (windowSectors p).length 4) 64 * 64
def blockSize (p : Place) : Nat := windowsAt p + (windowPlaces p).length

/-- The windows of a block as its record gives them; poison in a line of the record marks the sectors read from it (R337). -/
def loadBlock (s : State) (p : Place) (b : RecBytes) (linePoison : Nat → Bool) : State :=
  let secs := (windowSectors p).zipIdx
  let m := fun i => bits (recNat b (mapAt p + i / 4) 1) (i % 4 * 2 + 1) (i % 4 * 2)
  { s with
    mem := ssetMany 0 s.mem ((windowPlaces p).zipIdx.map (fun x => (x.1, BitVec.ofNat 8 (recNat b (windowsAt p + x.2) 1))))
    utag := ssetMany false s.utag (secs.map (fun x => (x.1, m x.2 % 2 = 1)))
    upoison := ssetMany false s.upoison (secs.map (fun x => (x.1, m x.2 / 2 % 2 = 1 || linePoison ((windowsAt p + 32 * x.2) / 64))))
    tagTab := ssetMany 0 s.tagTab ((List.range p.spSlots).map (fun e => (p.bid * 1024 + e, BitVec.ofNat 64 (recNat b (64 + 8 * e) 8 % 2 ^ 50)))) }

/-! ### Save (R324) -/

/-- The bound group that a record with ACT 3 names. -/
def savedBy (s : State) (r : Nat) : Option Group :=
  s.groups.find? (fun g => g.place.bound && g.key.cluster = bindCluster r && g.key.block = bindBlock r && g.key.group = bindGroup r &&
    g.place.coreNo = bindQ r * 64 + bindCore r && g.place.slot = bindSlot r)

def blockOf (s : State) (bid : Nat) : List Group := s.groups.filter (fun g => g.place.bound && g.place.bid = bid)

/-- A group may be saved: its accesses are performed, no word waits but one that stands not completed, no scalar word has met a cause whose
handler is still to be entered (R162, R336), no bivouac entry is still to be reloaded, and no copy of it stands between its end and its completion
(R135, R163, R324). -/
def saveReady (s : State) (g : Group) : Bool :=
  drained s g && g.qs.pendL.isNone && g.met.isNone && g.qs.lateV.isEmpty && !g.accWaiting && !g.ln.owesReload &&
  (replayOf s g.key).all (fun c => c.stage ≠ .draining && c.stage ≠ .issued && cmdAcked s c)

/-- Spans of a core leave room for n more units below a limit. -/
def roomFor (limit n : Nat) (spans : List (Nat × Nat)) : Bool :=
  (List.range (limit + 1 - n)).any (fun b => spans.all (fun x => apart x.1 x.2 b n))

/-- The groups of class 0 that are still to be bound. -/
def waitingZero (s : State) : List (Task × GroupKey) :=
  (s.tasks.filter (fun t => t.cls = 0 && t.phase = .admitted)).flatMap (fun t => ((taskGroups t).filter (fun k => !t.launched.contains k)).map (fun k => (t, k)))

/-- The window space of each kind that is free on a core suffices for a task's block. -/
def windowRoom (s : State) (core : Nat) (t : Task) : Bool × Bool × Bool :=
  let spans := fun (f : Place → Nat × Nat) => (s.groups.filter (fun h => h.place.bound && h.place.coreNo = core)).map (fun h => f h.place)
  (roomFor 1024 (recSpslots t.img) (spans (fun p => (p.spBase, p.spSlots))), roomFor 128 (recTsfr t.img) (spans (fun p => (p.tsBase, p.tsFr))),
   roomFor 32 (recBsu t.img) (spans (fun p => (p.bsBase, p.bsu))))

/-- Slot 15 of a core is not held. -/
def slotZeroFree (s : State) (core : Nat) : Bool := !s.groups.any (fun h => h.place.bound && h.place.coreNo = core && h.place.slot = 15)

/-- A core can take a group of class 0 as it is. -/
def coreTakes (s : State) (x : Task × GroupKey) (core : Nat) : Bool :=
  let r := windowRoom s core x.1
  slotZeroFree s core && r.1 && r.2.1 && r.2.2 &&
  (s.groups.filter (fun h => h.place.bound && h.place.coreNo = core)).all (fun h => h.place.tmask &&& BitVec.ofNat 16 (recTmask x.1.img x.2.group) = 0)

/-- A group of class 0 still to be bound needs tiles or window space that a block holds on its core (R321): more of them wait than there are cores
that can take them as they are. -/
def classZeroNeeds (s : State) (g : Group) : Bool :=
  let core := g.place.coreNo
  slotZeroFree s core && (waitingZero s).any (fun x =>
    let r := windowRoom s core x.1
    ((blockOf s g.place.bid).any (fun h => h.place.tmask &&& BitVec.ofNat 16 (recTmask x.1.img x.2.group) ≠ 0) ||
     (!r.1 && g.place.spSlots ≠ 0) || (!r.2.1 && g.place.tsFr ≠ 0) || (!r.2.2 && g.place.bsu ≠ 0)) &&
    ((List.range 256).filter (fun c => c % 64 < s.svc.coreCount && coreTakes s x c)).length < (waitingZero s).length)

/-- A block gives way: it is no block of class 0, and a group of class 0 needs what it holds (R321). -/
def givesWay (s : State) (g : Group) : Bool :=
  (match s.findTask g.key.task with | some t => t.cls ≠ 0 | none => false) && classZeroNeeds s g

/-- A copy that the save cancels (R324): one that has not read its record reads it now, and a running copy starts over at its restore; what is
only an MMA, or a fixed line that has still to read its anchor, stays as it is. A record that cannot be read is read again at the restore. -/
def cancelCopy (s : State) (c : Cmd) : State :=
  let afresh := fun (s : State) (c : Cmd) => s.putCmd { c with stage := .running, pr := Prog.zero, poisoned := false }
  match c.kind, c.stage with
  | .fixline _, .queued => s
  | _, .queued => let r := readRecord s c c.kind.recLen 0; if r.2.stage = .draining then s else afresh r.1 r.2
  | _, .running => afresh s c
  | _, _ => s

/-- Writes bytes as the dispatch hardware does, settled. -/
def dispWrite (s : State) (g : Group) (a : Word) (b : List Byte) : State × Option (Nat × Word) :=
  let d := dispatchReader g.place.q g.sp.asid.toNat g.sp.gen.toNat true
  (List.range (b.length / 64 + 1)).foldl (fun r k =>
    match r.2 with
    | some _ => r
    | none =>
      let l := (b.drop (64 * k)).take 64
      if l.isEmpty then r
      else match engWrite r.1 d (a + BitVec.ofNat 64 (64 * k)) l false false with | .ok s1 => (s1, none) | .error e => (r.1, some e)) (s, none)

/-- The bind record of a bound group: the one that asks for the save, or what the slot table holds. -/
def bindOf (s : State) (rec : Nat) (named g : Group) : Nat := if g.key = named.key then rec else sget 0 s.bindTab (slotKey g.place)

/-- What stands of a group at its save: a word that waits is executed again, but a barrier's arrival stands (R29, R163); ELAPSED stops; the
addresses are those of its bind record. -/
def Group.asSaved (g : Group) (rec tick : Nat) (replay : List Nat) : Group :=
  { g with
    qs := { g.qs with pendS := g.barWaiting }, met := none, replay := replay
    sp := { g.sp with elapsed := g.elapsedNow tick, since := tick, ctxaddr := BitVec.ofNat 64 (bindCtx rec) } }

/-- Saves the groups of a block one by one: each acts as a release of scope SYSTEM, its copies are cancelled, its registers are read, and its
context is written (R135, R324, R340). -/
def saveGroups (rec : Nat) (named : Group) : List Group → State → Option State
  | [], s => some s
  | g :: t, s =>
    let s0 := sendReleases (touchRegsOf s g.key (fun _ _ => true)) g.key
    let s1 := (replayOf s0 g.key).foldl cancelCopy s0
    match s1.findGroup g.key with
    | none => none
    | some h =>
      let r := bindOf s1 rec named h
      let h1 := h.asSaved r s1.tick ((replayOf s1 g.key).map (·.id))
      let w := dispWrite s1 h h1.sp.ctxaddr (contextBytes s1 h)
      if w.2.isSome then none
      else saveGroups rec named t ((w.1.upGroup g.key (fun _ => h1)).putBind h.place (setBits r 352 350 3))

/-- Saves a block: contexts, then windows; the slots, registers, tiles and windows are free then, and the bind records read ACT = 3. Nothing
changes if a record cannot be written. -/
def saveBlock (s : State) (g : Group) (rec : Nat) : Option State :=
  let gs := blockOf s g.place.bid
  match saveGroups rec g gs (settle s) with
  | none => none
  | some s1 =>
    let s2 := if s1.quiet then s1 else (windowSectors g.place).foldl (fun s a => touchBy s 0 a) s1
    match dispWrite s2 g (BitVec.ofNat 64 (bindBlk rec)) (blockBytes s2 g.place) with
    | (_, some _) => none
    | (s3, none) =>
      let free := fun (h : Group) => if h.place.bid = g.place.bid then { h with place := { h.place with bound := false } } else h
      some ({ s3 with g := free s3.g, rest := s3.rest.map free }.upTask g.key.task (fun t => { t with saved := t.saved ++ [g.place.bid] }))

/-- R324: a bind record with ACT 3 saves the block of its group, once every group of it is ready. Accesses that other groups have on their way to
the block wait with them (R89). Its bits below BLKADDR are not looked at (R5). -/
def execBindSave (rec : Nat) (s : State) : Out :=
  if bindAct rec ≠ 3 then .next s
  else
    match savedBy s rec with
    | none => .next s
    | some g =>
      if !givesWay s g || !(blockOf s g.place.bid).all (saveReady s) then .next s
      else
        match saveBlock s g rec with
        | none => .next s
        | some s1 => .next s1

/-! ### Restore (R324) -/

/-- The saved group that a record with ACT 2 names by its place in the grid; of several tasks' groups, the one whose context record it names. -/
def restoredBy (s : State) (r : Nat) : Option Group :=
  let l := s.groups.filter (fun g => !g.place.bound && g.key ≠ GroupKey.zero && g.key.cluster = bindCluster r && g.key.block = bindBlock r &&
    g.key.group = bindGroup r)
  (l.find? (fun g => g.sp.ctxaddr = BitVec.ofNat 64 (bindCtx r))).or l.head?

/-- Reads a record of n bytes with the poison of its lines. -/
def dispLines (s : State) (g : Group) (a : Word) (n : Nat) : Option (State × List EngRead) :=
  let d := dispatchReader g.place.q g.sp.asid.toNat g.sp.gen.toNat true
  (List.range (ceilDiv n 64)).foldl (fun r k =>
    match r with
    | none => none
    | some (s1, l) =>
      match engRead s1 d (a + BitVec.ofNat 64 (64 * k)) (min 64 (n - 64 * k)) with
      | .ok (s2, x) => some (s2, l ++ [x])
      | .error _ => none) (some (s, []))

/-- The image, MSTEP and token of entry j of a replay list. -/
def replayed (p : Place) (b : RecBytes) (j : Nat) (c : Cmd) : Cmd :=
  let o := contextBase p + 144 * j
  let w := recNat b (o + 128) 16
  { c with img := recNat b o 128, num := bits w 127 64, tok := bits w 2 0
           pr := if c.stage = .followOn then { c.pr with a := bits w 10 4 } else c.pr }

/-- A group's replay list begins anew with its images as its record holds them, in its new windows; an image that the checks of R192
refuse ends its command. -/
def reissue (s : State) (key : GroupKey) (old new : Place) (b : RecBytes) : State :=
  let list := (replayOf s key).filter Cmd.listed
  let ctl := recNat b 0 64
  { s with cmds := s.cmds.map (fun c =>
      if c.owner ≠ key then c
      else
        let c1 := { c with place := new }
        match c.kind with
        | .fixline ch =>
          if c.stage = .queued then { c1 with addr := BitVec.ofNat 64 (if ch = 1 then bits ctl 255 192 else bits ctl 191 128) }
          else again s list c1 old b
        | .copy | .copymm _ => again s list c1 old b
        | _ => c1) }
where
  /-- A command takes its entry of the list, and its image is checked again. -/
  again (s : State) (list : List Cmd) (c : Cmd) (old : Place) (b : RecBytes) : Cmd :=
    match list.findIdx? (fun x => x.id = c.id) with
    | none => c
    | some j =>
      let c1 := replayed old b j c
      if c1.stage = .running then (match copyCheck s c1 c1.copyImg with | some e => c1.faulted e | none => c1) else c1

/-- Restores one group at a place: the windows with the first group of its block, then the replay list and the context. -/
def restoreGroup (s : State) (g : Group) (p : Place) (r : Nat) : Option State :=
  let first := ((s.findTask g.key.task).map (fun t => t.saved.contains g.place.bid)).getD false
  match (if first then dispLines s g (BitVec.ofNat 64 (bindBlk r)) (blockSize g.place) else some (s, [])) with
  | none => none
  | some (s1, blk) =>
    match dispLines s1 g (BitVec.ofNat 64 (bindCtx r)) (contextSize g.place ((replayOf s1 g.key).filter Cmd.listed).length) with
    | none => none
    | some (s2, ctx) =>
      if ctx.any (·.poison) then none
      else
        let b := ctx.flatMap (·.bytes)
        let s3 := if first then (refillWindows (loadBlock s2 p (blk.flatMap (·.bytes)) (fun k => ((blk[k]?).map (·.poison)).getD false)) p).upTask
          g.key.task (fun t => { t with saved := t.saved.filter (· ≠ g.place.bid) }) else s2
        let s4 := touchVbase (reissue s3 g.key g.place p b) g.sp.asid.toNat
        let vb := vbaseOf s4 g.sp.asid.toNat
        some ((s4.upGroup g.key (fun g =>
          let h := loadContext s4 b g
          armWritten s4 { h with place := p, replay := []
                                 sp := { h.sp with vbase := vb, bivbase := BitVec.ofNat 64 (bindBiv r), ctxaddr := BitVec.ofNat 64 (bindCtx r), since := s4.tick } })).putBind p r)

/-- R324: a bind record with ACT 2 restores a saved group, unless it is refused (R320). -/
def execBindRestore (rec : Nat) (s : State) : Out :=
  if bindAct rec ≠ 2 then .next s
  else
    match restoredBy s rec with
    | none => .next s
    | some g =>
      match s.findTask g.key.task with
      | none => .next s
      | some t =>
        let p := bindPlace rec t
        if !placeFits s p t.cls || !placeFree s g.key p then .next s
        else
          match restoreGroup s g p rec with
          | none => .next s
          | some s1 => .next s1

end Sys2Proof.Machine
end

