-- ==== Sys2Proof/Machine/ScalarArith.lean ====
section
/-! DEFINITION. Scalar arithmetic: SALU, the immediate forms, SSEL (R161, R164 to R166). -/

namespace Sys2Proof.Machine

/-- A result from two registers, with the OR of their tags (R161). -/
def aluRR (f : Word → Word → Word) (sd sa sb : BitVec 6) (s : State) : Out :=
  scalarWord [sa.toNat, sb.toNat] [sd.toNat] (fun s =>
    guardDst s sd.toNat
      (.ok (s.putS sd.toNat (f (s.g.sval sa.toNat) (s.g.sval sb.toNat)) (s.g.stag sa.toNat || s.g.stag sb.toNat)))) s

/-- A result from one register. -/
def aluR (f : Word → Word) (sd sa : BitVec 6) (s : State) : Out :=
  scalarWord [sa.toNat] [sd.toNat] (fun s =>
    guardDst s sd.toNat (.ok (s.putS sd.toNat (f (s.g.sval sa.toNat)) (s.g.stag sa.toNat)))) s

/-- A division or remainder: INTDIV for a zero divisor (R165). -/
def aluDiv (f : Word → Word → Word) (sd sa sb : BitVec 6) (s : State) : Out :=
  scalarWord [sa.toNat, sb.toNat] [sd.toNat] (fun s =>
    if s.g.sval sb.toNat = 0 then .trap (mkTrap cINTDIV)
    else guardDst s sd.toNat
      (.ok (s.putS sd.toNat (f (s.g.sval sa.toNat) (s.g.sval sb.toNat)) (s.g.stag sa.toNat || s.g.stag sb.toNat)))) s

/-- The signed quotient, truncated toward zero, and the remainder with the sign of a; −2^63 by −1 wraps (R165). -/
def divI (a b : Word) : Word := BitVec.ofInt 64 (a.toInt.tdiv b.toInt)
def remI (a b : Word) : Word := BitVec.ofInt 64 (a.toInt.tmod b.toInt)
def divN (a b : Word) : Word := BitVec.ofNat 64 (a.toNat / b.toNat)
def remN (a b : Word) : Word := BitVec.ofNat 64 (a.toNat % b.toNat)

/-- Counts over the 64 bits of a word (R165). -/
def popc (a : Word) : Word := BitVec.ofNat 64 ((List.range 64).countP (fun i => a.getLsbD i))
def clz (a : Word) : Word := BitVec.ofNat 64 (((List.range 64).find? (fun i => a.getLsbD (63 - i))).getD 64)
def ctz (a : Word) : Word := BitVec.ofNat 64 (((List.range 64).find? (fun i => a.getLsbD i)).getD 64)

/-- The conditions of SCMPI, m sign-extended (R157). -/
def scmpiHolds (cond : Nat) (a m : Word) : Bool :=
  match cond with
  | 0 => a = m
  | 1 => a ≠ m
  | 2 => a.slt m
  | 3 => a.ult m
  | 4 => !m.slt a
  | 5 => !m.ult a
  | 6 => m.slt a
  | 7 => m.ult a
  | 8 => !a.slt m
  | _ => !a.ult m

/-- R165: a + b. -/
def execSadd (sd sa sb : BitVec 6) (s : State) : Out := aluRR (fun a b => a + b) sd sa sb s

/-- R165: a − b. -/
def execSsub (sd sa sb : BitVec 6) (s : State) : Out := aluRR (fun a b => a - b) sd sa sb s

/-- R165: bitwise and. -/
def execSand (sd sa sb : BitVec 6) (s : State) : Out := aluRR (fun a b => a &&& b) sd sa sb s

/-- R165: bitwise or. -/
def execSor (sd sa sb : BitVec 6) (s : State) : Out := aluRR (fun a b => a ||| b) sd sa sb s

/-- R165: bitwise exclusive or. -/
def execSxor (sd sa sb : BitVec 6) (s : State) : Out := aluRR (fun a b => a ^^^ b) sd sa sb s

/-- R165: a shifted left by b[5:0]. -/
def execSshl (sd sa sb : BitVec 6) (s : State) : Out := aluRR (fun a b => a <<< (b.toNat % 64)) sd sa sb s

/-- R165: logical right by b[5:0]. -/
def execSshr (sd sa sb : BitVec 6) (s : State) : Out := aluRR (fun a b => a >>> (b.toNat % 64)) sd sa sb s

/-- R165: arithmetic right by b[5:0]. -/
def execSsra (sd sa sb : BitVec 6) (s : State) : Out := aluRR (fun a b => a.sshiftRight (b.toNat % 64)) sd sa sb s

/-- R165: low half of the product. -/
def execSmul (sd sa sb : BitVec 6) (s : State) : Out := aluRR (fun a b => a * b) sd sa sb s

/-- R165: high half of the signed product. -/
def execSmulhI (sd sa sb : BitVec 6) (s : State) : Out := aluRR (fun a b => BitVec.ofInt 64 (a.toInt * b.toInt / 2 ^ 64)) sd sa sb s

/-- R165: high half of the unsigned product. -/
def execSmulhN (sd sa sb : BitVec 6) (s : State) : Out := aluRR (fun a b => BitVec.ofNat 64 (a.toNat * b.toNat / 2 ^ 64)) sd sa sb s

/-- R165: the lesser, signed. -/
def execSminI (sd sa sb : BitVec 6) (s : State) : Out := aluRR (fun a b => if b.slt a then b else a) sd sa sb s

/-- R165: the greater, signed. -/
def execSmaxI (sd sa sb : BitVec 6) (s : State) : Out := aluRR (fun a b => if a.slt b then b else a) sd sa sb s

/-- R165: the lesser, unsigned. -/
def execSminN (sd sa sb : BitVec 6) (s : State) : Out := aluRR (fun a b => if b.ult a then b else a) sd sa sb s

/-- R165: the greater, unsigned. -/
def execSmaxN (sd sa sb : BitVec 6) (s : State) : Out := aluRR (fun a b => if a.ult b then b else a) sd sa sb s

/-- R165: 1 if a = b. -/
def execSceq (sd sa sb : BitVec 6) (s : State) : Out := aluRR (fun a b => if a = b then 1 else 0) sd sa sb s

/-- R165: 1 if a ≠ b. -/
def execScne (sd sa sb : BitVec 6) (s : State) : Out := aluRR (fun a b => if a = b then 0 else 1) sd sa sb s

/-- R165: 1 if a < b, signed. -/
def execScltI (sd sa sb : BitVec 6) (s : State) : Out := aluRR (fun a b => if a.slt b then 1 else 0) sd sa sb s

/-- R165: 1 if a < b, unsigned. -/
def execScltN (sd sa sb : BitVec 6) (s : State) : Out := aluRR (fun a b => if a.ult b then 1 else 0) sd sa sb s

/-- R165: 1 if a ≤ b, signed. -/
def execScleI (sd sa sb : BitVec 6) (s : State) : Out := aluRR (fun a b => if b.slt a then 0 else 1) sd sa sb s

/-- R165: 1 if a ≤ b, unsigned. -/
def execScleN (sd sa sb : BitVec 6) (s : State) : Out := aluRR (fun a b => if b.ult a then 0 else 1) sd sa sb s

/-- R165: signed quotient. -/
def execSdivI (sd sa sb : BitVec 6) (s : State) : Out := aluDiv divI sd sa sb s

/-- R165: unsigned quotient. -/
def execSdivN (sd sa sb : BitVec 6) (s : State) : Out := aluDiv divN sd sa sb s

/-- R165: signed remainder. -/
def execSremI (sd sa sb : BitVec 6) (s : State) : Out := aluDiv remI sd sa sb s

/-- R165: unsigned remainder. -/
def execSremN (sd sa sb : BitVec 6) (s : State) : Out := aluDiv remN sd sa sb s

/-- R165: number of 1 bits. -/
def execSpopc (sd sa : BitVec 6) (s : State) : Out := aluR popc sd sa s

/-- R165: leading zeros. -/
def execSclz (sd sa : BitVec 6) (s : State) : Out := aluR clz sd sa s

/-- R165: trailing zeros. -/
def execSctz (sd sa : BitVec 6) (s : State) : Out := aluR ctz sd sa s

/-- R166: sa + sext(imm14). -/
def execSaddi (sd sa : BitVec 6) (imm : BitVec 14) (s : State) : Out := aluR (fun a => a + imm.signExtend 64) sd sa s

/-- R166: sa AND sext(imm14). -/
def execSandi (sd sa : BitVec 6) (imm : BitVec 14) (s : State) : Out := aluR (fun a => a &&& imm.signExtend 64) sd sa s

/-- R166: sa OR zext(imm14). -/
def execSori (sd sa : BitVec 6) (imm : BitVec 14) (s : State) : Out := aluR (fun a => a ||| imm.zeroExtend 64) sd sa s

/-- R166: sa XOR zext(imm14). -/
def execSxori (sd sa : BitVec 6) (imm : BitVec 14) (s : State) : Out := aluR (fun a => a ^^^ imm.zeroExtend 64) sd sa s

/-- R166: shift left. -/
def execSshli (sd sa : BitVec 6) (n : BitVec 6) (s : State) : Out := aluR (fun a => a <<< n.toNat) sd sa s

/-- R166: logical shift right. -/
def execSshri (sd sa : BitVec 6) (n : BitVec 6) (s : State) : Out := aluR (fun a => a >>> n.toNat) sd sa s

/-- R166: arithmetic shift right. -/
def execSsrai (sd sa : BitVec 6) (n : BitVec 6) (s : State) : Out := aluR (fun a => a.sshiftRight n.toNat) sd sa s

/-- R166: sd = sext(imm20), settled. -/
def execSli (sd : BitVec 6) (imm : BitVec 20) (s : State) : Out :=
  scalarWord [] [sd.toNat] (fun s => guardDst s sd.toNat (.ok (s.putS sd.toNat (imm.signExtend 64) false))) s

/-- R166: sd = (sd << 20) OR zext(imm20), with the old tag of sd. -/
def execSlui (sd : BitVec 6) (imm : BitVec 20) (s : State) : Out := aluR (fun a => a <<< 20 ||| imm.zeroExtend 64) sd sd s

/-- R157, R166: 1 when the condition holds for sa and m. -/
def execScmpi (sd sa : BitVec 6) (cond : BitVec 4) (m : BitVec 10) (s : State) : Out :=
  aluR (fun a => if scmpiHolds cond.toNat a (m.signExtend 64) then 1 else 0) sd sa s

/-- R166: sa if sc ≠ 0, else sb; the tag is the OR of all three. -/
def execSsel (sd sa sb sc : BitVec 6) (s : State) : Out :=
  scalarWord [sc.toNat, sa.toNat, sb.toNat] [sd.toNat] (fun s =>
    guardDst s sd.toNat
      (.ok (s.putS sd.toNat (if s.g.sval sc.toNat ≠ 0 then s.g.sval sa.toNat else s.g.sval sb.toNat)
        (s.g.stag sa.toNat || s.g.stag sb.toNat || s.g.stag sc.toNat)))) s

end Sys2Proof.Machine
end

