-- ==== Sys2Proof/Machine/ScalarMem.lean ====
section
/-! DEFINITION. Scalar loads and stores, kernel arguments, SATOM and SLTAG (R167 to R170, R208, R209, R211). -/

namespace Sys2Proof.Machine

/-- The address of a load or store (R167). -/
def memAddr (s : State) (sa : BitVec 6) (imm : BitVec 14) : Word := s.g.sval sa.toNat + imm.signExtend 64

/-- Completes a scalar word whose accesses have performed: POISON when one met poison, else the register is written
(R168, R209, R211). -/
def finishScalarWord (w : Instr) (r : LaneRes) (s : State) : SRes :=
  let s1 := s.upG Group.noPendS
  let poisoned : SRes := .trapIn s { cause := cPOISON, addr := r.va, restart := true }
  let put := fun (sd : BitVec 6) (v : Word) (t : Bool) => SRes.ok (s1.putS sd.toNat v t)
  if r.down then .trapIn s r.trap
  else
  match w with
  | .sldw sd sa _ => if r.poison then poisoned else put sd ((r.val.setWidth 32).signExtend 64) (r.prop || s.g.stag sa.toNat)
  | .sldd sd sa _ => if r.poison then poisoned else put sd r.val (r.prop || s.g.stag sa.toNat)
  | .satom sd sa _ _ _ _ typ =>
    if r.poison then poisoned
    else put sd (if typ = 0 then (r.val.setWidth 32).signExtend 64 else r.val) (r.prop || s.g.stag sa.toNat)
  | .sltagMem sd _ => put sd ((if r.prop then 1 else 0) + (if r.poison then 2 else 0)) false
  | .sltagSp sd _ => put sd ((if r.prop then 1 else 0) + (if r.poison then 2 else 0)) false
  | _ => .ok s1

/-- A scalar word whose accesses may all have performed: it completes, or goes on waiting. -/
def finishScalar (s : State) : SRes :=
  match s.g.qs.pendS with
  | some p => (match p.got with
    | r :: _ => finishScalarWord p.w r s
    | [] => .ok s)
  | none => .ok s

/-- A scalar word that reads memory: issued again while its access waits, it completes once that has performed (R163). -/
def readWord (reads writes : List Nat) (f : State → SRes) (s : State) : Out :=
  match s.g.qs.pendS with
  | some p => if p.done then scalarEnd s (finishScalar s) else .next s
  | none => scalarWord reads writes f s

/-- Enters one read of a scalar word and completes it when it has performed. -/
def scalarRead (w : Instr) (e : Entry) (s : State) : SRes := finishScalar (startReads s false w [e])

/-- A scalar load of n bytes (R168). The poison of a walk is reported before a PENDING destination, both being causes of class 4. DESIGN CHOICE,
log entry 122. -/
def scalarLoad (w : Instr) (n : Nat) (sd sa : BitVec 6) (imm : BitVec 14) (s : State) : Out :=
  readWord [sa.toNat] [sd.toNat] (fun s =>
    match scalarTarget s .load (memAddr s sa imm) n with
    | .error t => .trap t
    | .ok t => guardDst s sd.toNat (scalarRead w (t.entry .load n) s)) s

/-- A scalar store of n bytes; its bytes carry the OR of the data tag and the address tag (R168, R73). -/
def scalarStore (n : Nat) (sd sa : BitVec 6) (imm : BitVec 14) (s : State) : Out :=
  scalarWord [sd.toNat, sa.toNat] [] (fun s =>
    match scalarTarget s .store (memAddr s sa imm) n with
    | .error t => .trap t
    | .ok t =>
      .ok ((s.upG (fun g => g.addIq [t.store n (s.g.sval sd.toNat).toNat (g.stag sd.toNat || g.stag sa.toNat)])).advance)) s

/-- R168: sd = sext of 4 bytes. -/
def execSldw (sd sa : BitVec 6) (imm : BitVec 14) (s : State) : Out := scalarLoad (.sldw sd sa imm) 4 sd sa imm s

/-- R168: sd = 8 bytes. -/
def execSldd (sd sa : BitVec 6) (imm : BitVec 14) (s : State) : Out := scalarLoad (.sldd sd sa imm) 8 sd sa imm s

/-- R168: stores sd[31:0]. -/
def execSstw (sd sa : BitVec 6) (imm : BitVec 14) (s : State) : Out := scalarStore 4 sd sa imm s

/-- R168: stores sd. -/
def execSstd (sd sa : BitVec 6) (imm : BitVec 14) (s : State) : Out := scalarStore 8 sd sa imm s

/-- The 8 argument bytes at an offset. -/
def argWord (g : Group) (o : Nat) : Word := BitVec.ofNat 64 (leNat ((List.range 8).map (fun i => g.sp.args.getD (o + i) 0)))

/-- R170: one kernel argument, with the tag of its line. -/
def execSldk (sd sa : BitVec 6) (imm : BitVec 14) (s : State) : Out :=
  scalarWord [sa.toNat] [sd.toNat] (fun s =>
    let o := memAddr s sa imm
    if o.toNat % 8 ≠ 0 then .trap (mkTrap cALIGN o)
    else if o.toNat ≥ s.g.sp.args.length then .trap (mkTrap cPROT o)
    else guardDst s sd.toNat
      (.ok (s.putS sd.toNat (argWord s.g o.toNat) (sget false s.g.sp.argTag (o.toNat / 8) || s.g.stag sa.toNat)))) s

/-- The target of SATOM (R208, R209): alignment, then the page or the window. -/
def satomTarget (s : State) (space ret : BitVec 1) (a : Word) (w : Nat) : Except Trap Target :=
  if a.toNat % w ≠ 0 then .error (mkTrap cALIGN a)
  else if space = 1 then spTarget s w a
  else globalTarget s (if ret = 1 then .atomic else .reduce) a

/-- R209: an atomic at its place, or a reduction store at home. The poison of a walk is reported before a PENDING destination. DESIGN CHOICE, log
entry 122. -/
def execSatom (sd sa sb : BitVec 6) (space : BitVec 1) (opn : BitVec 3) (ret : BitVec 1) (typ : BitVec 3) (s : State) : Out :=
  let reads := [sa.toNat, sb.toNat] ++ (if opn = 6 then [sd.toNat] else [])
  readWord reads (if ret = 1 then [sd.toNat] else []) (fun s =>
    let w := atomWidth typ.toNat
    match satomTarget s space ret (s.g.sval sa.toNat) w with
    | .error t => .trap t
    | .ok t =>
      let e := { t.entry (if ret = 1 then .atomic else .reduce) w with
        opn := opn.toNat, typ := typ.toNat, data := s.g.sval sb.toNat, cmp := s.g.sval sd.toNat
        prop := s.g.stag sa.toNat || s.g.stag sb.toNat || (opn = 6 && s.g.stag sd.toNat) }
      if ret = 1 then guardDst s sd.toNat (scalarRead (.satom sd sa sb space opn ret typ) e s)
      else .ok ((s.upG (fun g => g.addIq [e])).advance)) s

/-- R211: the tag of a register. -/
def execSltag (sd sa : BitVec 6) (s : State) : Out :=
  scalarWord [sa.toNat] [sd.toNat] (fun s => guardDst s sd.toNat (.ok (s.putS sd.toNat (if s.g.stag sa.toNat then 1 else 0) false))) s

/-- R211: the tag and the poison mark of the global unit that holds byte sa. -/
def execSltagMem (sd sa : BitVec 6) (s : State) : Out :=
  readWord [sa.toNat] [sd.toNat] (fun s =>
    match globalTarget s .load (s.g.sval sa.toNat) with
    | .error t => .trap t
    | .ok t => guardDst s sd.toNat (scalarRead (.sltagMem sd sa) { t.entry .load 1 with opn := 8 } s)) s

/-- R211: the same for the scratchpad unit at sa[23:0]. -/
def execSltagSp (sd sa : BitVec 6) (s : State) : Out :=
  readWord [sa.toNat] [sd.toNat] (fun s =>
    match spTarget s 1 (s.g.sval sa.toNat) with
    | .error t => .trap t
    | .ok t => guardDst s sd.toNat (scalarRead (.sltagSp sd sa) { t.entry .load 1 with opn := 8 } s)) s

end Sys2Proof.Machine
end

