-- ==== Sys2Proof/Machine/Solver.lean ====
section
/-! DEFINITION. Defect correction near memory: passes, decisions and corrections of DCOR (R79, R80, R83, R84, R286, R303 to R310).

A running DCOR keeps in pr: a PASS, b BESTPASS, c GCNT, d the number of the pass (which does not stop at 255), norm1 PNORM, norm2 BNORM, and
its solve record; and of the pass under way: flag that its residual phase has begun, acc the elements that it has read, rows the rows
that it has finished, written the lines of residual images that it has written, prop whether a unit of A or b was a proposal. -/

namespace Sys2Proof.Machine

/-! ### What a pass reads (R305)

The elements of a pass are named by their array (0 x, 1 A, 2 b, 3 row pointers, 4 column indices) and their number in it. -/

/-- What a pass has read of a unit: its tag and its poison. -/
structure Mark where
  prop : Bool
  poison : Bool
  deriving DecidableEq, Repr

def EngRead.mark (r : EngRead) : Mark := ⟨r.prop, r.poison⟩
def Mark.join (a b : Mark) : Mark := ⟨a.prop || b.prop, a.poison || b.poison⟩
def readMarks (l : List EngRead) : Mark := l.foldl (fun m r => m.join r.mark) ⟨false, false⟩

/-- Element i of an array of type T. -/
def dcAt (v base i : Nat) : Nat := base + dvEl v * i
def dcVal (v : Nat) (r : EngRead) : Val := valOf (dvTy v) r.nat

/-- The address and the size of an element. -/
def dcAddr (v arr i : Nat) : Nat :=
  match arr with
  | 0 => dcAt v (dvX v) i
  | 1 => if dvCsr v then dcAt v (dvA v) i else dcAt v (dvA v + i / dvN v * dvStride v) (i % dvN v)
  | 2 => dcAt v (dvB v) i
  | 3 => dvPtr v + 4 * i
  | _ => dvCol v + 4 * i
def dcSize (v arr : Nat) : Nat := if arr < 3 then dvEl v else 4

/-- Where an element that has been read is kept, and how. -/
def dcKey (arr i : Nat) : Nat := arr * 2 ^ 64 + i
def dcKept (r : EngRead) : Nat := 1 + 4 * r.nat + 2 * bitNat r.prop + bitNat r.poison
def dcRead (v arr k : Nat) : EngRead :=
  { bytes := leBytes (dcSize v arr) ((k - 1) / 4), prop := bit1 (k - 1) 1, poison := bit1 (k - 1) 0
    clean := if bit1 (k - 1) 0 then 0 else dcSize v arr }

/-- An element that the pass has read. -/
def dcHas (c : Cmd) (arr i : Nat) : Bool := sget 0 c.pr.acc (dcKey arr i) ≠ 0
def dcGet (c : Cmd) (arr i : Nat) : EngRead := dcRead c.pr.solve arr (sget 0 c.pr.acc (dcKey arr i))

/-- An element, as the pass has read it or as it reads it now. -/
def dcElem (s : State) (c : Cmd) (arr i : Nat) : Except (Nat × Word) (State × EngRead) :=
  if dcHas c arr i then .ok (s, dcGet c arr i) else engReadSpan s c (BitVec.ofNat 64 (dcAddr c.pr.solve arr i)) (dcSize c.pr.solve arr)

/-- Elements of an array, in order. -/
def dcElems (c : Cmd) (arr : Nat) : List Nat → State → Except (Nat × Word) (State × List EngRead)
  | [], s => .ok (s, [])
  | i :: t, s =>
    match dcElem s c arr i with
    | .error e => .error e
    | .ok (s1, r) =>
      match dcElems c arr t s1 with
      | .error e => .error e
      | .ok (s2, l) => .ok (s2, r :: l)

/-- Reads elements of an array and keeps them for the rest of the pass. -/
def dcFetch (s : State) (c : Cmd) (arr : Nat) (l : List Nat) : Except (Nat × Word) (State × Cmd) :=
  let new := l.filter (fun i => !dcHas c arr i)
  match dcElems c arr new s with
  | .error e => .error e
  | .ok (s1, rs) =>
    .ok (s1, { c with pr := { c.pr with
      acc := ssetMany 0 c.pr.acc ((new.zip rs).map (fun p => (dcKey arr p.1, dcKept p.2))) } })

/-! ### Rows (R305, R306) -/

/-- The stored terms of a row: value and column, with what was read of A. -/
def dcTerms (s : State) (c : Cmd) (i : Nat) : Except (Nat × Word) (State × List (Val × Nat) × Mark) :=
  let v := c.pr.solve
  if dvCsr v then
    match dcElems c 3 [i, i + 1] s with
    | .error e => .error e
    | .ok (s0, ptrs) =>
      let p := fun k => ((ptrs[k]?).map EngRead.nat).getD 0
      if p 1 < p 0 then .error (cILLEGAL, 0)
      else
        let ks := (List.range (p 1 - p 0)).map (fun k => p 0 + k)
        match dcElems c 4 ks s0 with
        | .error e => .error e
        | .ok (s1, cols) =>
          if cols.any (fun r => r.nat ≥ dvN v) then .error (cILLEGAL, 0)
          else
            match dcElems c 1 ks s1 with
            | .error e => .error e
            | .ok (s2, vals) =>
              .ok (s2, (vals.zip cols).map (fun x => (dcVal v x.1, x.2.nat)), ((readMarks ptrs).join (readMarks cols)).join (readMarks vals))
  else
    match dcElems c 1 ((List.range (dvN v)).map (fun j => i * dvN v + j)) s with
    | .error e => .error e
    | .ok (s1, vals) => .ok (s1, vals.zipIdx.map (fun x => (dcVal v x.1, x.2)), readMarks vals)

/-- The exact sums of a row, or none for RANGE: products are tested each, sums in their final value (R305, R306). -/
def rowSums (v i : Nat) (b : Val) (x : Nat → Val) (terms : List (Val × Nat)) : Option (Int × Int × Int × Int) :=
  let I := dvI v
  let F := dvF v
  let start := (toFixed I F b).map (fun n => (n, (0 : Int), (0 : Int), (n.natAbs : Int)))
  let sum := terms.foldl (fun acc t =>
    match acc, toFixed I F t.1, toFixed I F (x t.2) with
    | some (r, rs, dg, nb), some a, some x =>
      (fxMul I F a x).map (fun p => (r - p, rs + a.natAbs, if t.2 = i then dg + a else dg, nb))
    | _, _, _ => none) start
  match sum with
  | some (r, rs, dg, nb) => if fxFits I F r && fxFits I F rs && fxFits I F dg && fxFits I F nb then some (r, rs, dg, nb) else none
  | none => none

/-- How a row, or the rows of a pass, came out. -/
inductive RowsEnd where
  | whole
  | range
  | fault (e : Nat × Word)
  deriving DecidableEq, Repr

def Cmd.row (c : Cmd) (i : Nat) : Option DRow := (c.pr.rows.find? (fun r => r.1 = i)).map (·.2)

/-- Row i is formed and finished: the row pointers and the elements of x that it reads are kept. Its sums stand in the accumulators of the
command's sub-context, of any bank, which meet their errors (R305, R347). -/
def dcRow (s : State) (c : Cmd) (i : Nat) : State × Cmd × RowsEnd :=
  let v := c.pr.solve
  if (c.row i).isSome then (s, c, .whole)
  else
    match (if dvCsr v then dcFetch s c 3 [i, i + 1] else .ok (s, c)) with
    | .error e => (s, c, .fault e)
    | .ok (s1, c1) =>
      match dcTerms s1 c1 i with
      | .error e => (s1, c1, .fault e)
      | .ok (s2, terms, m) =>
        match dcFetch s2 c1 0 ((terms.map (·.2)).eraseDups) with
        | .error e => (s2, c1, .fault e)
        | .ok (s3, c2) =>
          match dcElem s3 c2 2 i with
          | .error e => (s3, c2, .fault e)
          | .ok (s4, b) =>
            let mm := m.join b.mark
            let c3 := { c2 with pr := { c2.pr with prop := c2.pr.prop || mm.prop } }
            match rowSums v i (dcVal v b) (fun j => dcVal v (dcGet c3 0 j)) terms with
            | none => (s4, c3, .range)
            | some (r, rs, dg, nb) =>
              let m := arrayMet s4 0x12 c.quarter (fun a => a % 32 = hdrSub c.img)
              let d : DRow := { res := r, rs := rs, dg := dg, nb := nb, poison := mm.poison || terms.any (fun t => (dcGet c3 0 t.2).poison) || m.2 }
              (m.1, { c3 with pr := { c3.pr with rows := c3.pr.rows ++ [(i, d)] } }, .whole)

/-- The rows of a list, in order, until one does not finish. -/
def dcRows : List Nat → State → Cmd → State × Cmd × RowsEnd
  | [], s, c => (s, c, .whole)
  | i :: t, s, c =>
    match dcRow s c i with
    | (s1, c1, .whole) => dcRows t s1 c1
    | r => r

/-! ### What a pass writes -/

/-- Bytes padded with zeros to whole lines. -/
def padLine (l : List Byte) : List Byte := l ++ List.replicate (lineUp l.length - l.length) 0

/-- Line k of an array holds a part of an element of n bytes for which p holds. -/
def lineMeets (n k : Nat) (p : Nat → Bool) : Bool :=
  (List.range (64 / n + 2)).any (fun j => let i := 64 * k / n + j; decide (i * n < 64 * k + 64) && p i)

/-- Byte o of an array of images, zero past its end or where a row is missing. -/
def imageByte (row : Nat → Option DRow) (o : Nat) : Byte :=
  match row (o / 24) with
  | some r => ((leBytes 24 (wrapInt 192 r.res))[o % 24]?).getD 0
  | none => 0

/-- The rows of which line k of an array of images holds a part. -/
def lineRows (n k : Nat) : List Nat := (List.range 4).filterMap (fun j => let i := 64 * k / 24 + j; if i < n ∧ 24 * i < 64 * k + 64 then some i else none)

/-- Line k of the residual images: all of it when its rows are finished, or the parts of those that are. -/
def writeImageLine (s : State) (c : Cmd) (a k : Nat) (prop : Bool) : State × Option (Nat × Word) :=
  let rows := lineRows (dvN c.pr.solve) k
  let bad := rows.any (fun i => ((c.row i).map (·.poison)).getD false)
  if rows.all (fun i => (c.row i).isSome) then
    engWriteSpan s c (a + 64 * k) ((List.range 64).map (fun b => imageByte c.row (64 * k + b))) prop (fun _ => bad)
  else
    (rows.filter (fun i => (c.row i).isSome)).foldl (fun r i =>
      if r.2.isSome then r
      else
        let lo := max (24 * i) (64 * k)
        let hi := min (24 * i + 24) (64 * k + 64)
        engWriteSpan r.1 c (a + lo) ((List.range (hi - lo)).map (fun b => imageByte c.row (lo + b))) prop
          (fun _ => ((c.row i).map (·.poison)).getD false)) (s, none)

/-- Lines of the residual images, in order. -/
def writeImageLines (c : Cmd) (a : Nat) (prop : Bool) : List Nat → State → State × Option (Nat × Word)
  | [], s => (s, none)
  | k :: t, s =>
    match writeImageLine s c a k prop with
    | (s1, none) => writeImageLines c a prop t s1
    | r => r

/-- The number of lines of an array of images. -/
def imageLines (v : Nat) : Nat := ceilDiv (24 * dvN v) 64

/-- A line that has been written as settled becomes a proposal when the pass has read one (R307). -/
def retagLine (s : State) (c : Cmd) (k : Nat) : State :=
  let a := dvR c.pr.solve + 64 * k
  match engReadSpan { s with hold := false } c (BitVec.ofNat 64 a) 64 with
  | .error _ => s
  | .ok (s1, r) => { (engWriteSpan s1 c a r.bytes true (fun _ => r.poison)).1 with hold := s.hold }

/-- The residual images of a pass whose rows have come out: the lines not yet written, and the tags of the others. -/
def writeResiduals (s : State) (c : Cmd) : State × Option (Nat × Word) :=
  let v := c.pr.solve
  if dvR v = 0 then (s, none)
  else
    let done := (List.range (imageLines v)).filter (sget false c.pr.written)
    let s1 := if c.pr.prop then done.foldl (fun s k => retagLine s c k) s else s
    writeImageLines c (dvR v) c.pr.prop ((List.range (imageLines v)).filter (fun k => !sget false c.pr.written k)) s1

/-- The residual of a new best iterate. -/
def writeBest (s : State) (c : Cmd) : State × Option (Nat × Word) :=
  let v := c.pr.solve
  if dvBr v = 0 then (s, none) else writeImageLines c (dvBr v) c.pr.prop (List.range (imageLines v)) s

/-- An array of N elements of T, in whole lines. -/
def writeElems (s : State) (c : Cmd) (a : Nat) (els : List (List Byte)) (prop : Bool) (poison : Nat → Bool) : State × Option (Nat × Word) :=
  engWriteSpan s c a (padLine els.flatten) prop (fun k => lineMeets (dvEl c.pr.solve) k poison)

def poisonIn (l : List EngRead) (i : Nat) : Bool := ((l[i]?).map (·.poison)).getD false

/-- Writes bytes into the solve record. -/
def recordPut (s : State) (c : Cmd) (ofs : Nat) (b : List Byte) (prop : Bool) : State × Option (Nat × Word) :=
  engWriteSpan s c (dcSolve c.img + ofs) b prop (fun _ => false)

/-- STATE with PASS, BESTPASS and GCNT as the command holds them, in one word. -/
def stateWord (c : Cmd) (st : Nat) : List Byte := leBytes 8 (c.pr.a * 2 ^ 24 + c.pr.b * 2 ^ 16 + c.pr.c * 2 ^ 12 + st)

/-- The record at the end of a pass: the norms, then the word that holds STATE. -/
def recordPass (s : State) (c : Cmd) (st : Nat) (prop : Bool) (k : State → State × Cmd) : State × Cmd :=
  afterWrites c (recordPut s c 120 (leBytes 24 (wrapInt 192 c.pr.norm1) ++ leBytes 24 (wrapInt 192 c.pr.norm2)) prop) (fun s1 =>
    afterWrites c (recordPut s1 c 112 (stateWord c st) false) k)

/-- Only STATE is written, as 0 (R306). -/
def recordZero (s : State) (c : Cmd) (k : State → State × Cmd) : State × Cmd := afterWrites c (recordPut s c 112 [0] false) k

/-- A DCOR's own end: VALUE holds PASS and BESTPASS (R308). -/
def Cmd.solved (c : Cmd) (stat : Nat) : Cmd := c.finish stat 0 (c.pr.a + c.pr.b * 256) 0

/-! ### Deciding (R83, R308, R309) -/

/-- The controller's cycles since the command's first entry into RUN. -/
def dcElapsed (s : State) (c : Cmd) : Nat := cyclesOver (256 + hdrQtr c.img) c.since s.tick
def dcExpired (s : State) (c : Cmd) : Bool :=
  dvDeadline c.pr.solve ≠ 0 && dcElapsed s c ≥ dvDeadline c.pr.solve * 1024

/-- The DEADLINE outcome: the best iterate goes to x as a proposal. -/
def dcDeadline (s : State) (c : Cmd) (k : State → State × Cmd) : State × Cmd :=
  let v := c.pr.solve
  match engReadList c (dvEl v) ((List.range (dvN v)).map (dcAt v (dvBx v))) s with
  | .error e => (s, c.faulted e)
  | .ok (s1, bx) => afterWrites c (writeElems s1 c (dvX v) (bx.map (·.bytes)) true (poisonIn bx)) k

/-- One element of JACOBI's correction. -/
def jacobi (v : Nat) (x : Val) (r : DRow) : Nat :=
  (roundTo (tyFmt (dvTy v)) 1 0 (addE x (divV (mulE (valOf 10 (dvOmega v)) (fixedVal (dvF v) r.res)) (fixedVal (dvF v) r.dg)).1)).1

/-- The four norms of a pass. -/
def passNorms (I F : Nat) (xs : List Val) (rows : List DRow) : Option (Int × Int × Int × Int) :=
  let nx := xs.foldl (fun m x => match m, toFixed I F x with | some m, some n => some (max m (n.natAbs : Int)) | _, _ => none) (some (0 : Int))
  let big := fun (f : DRow → Int) => rows.foldl (fun m r => max m (f r)) 0
  match nx with
  | none => none
  | some nx =>
    let res := big (fun r => r.res.natAbs)
    if fxFits I F res && fxFits I F nx then some (res, big (·.rs), nx, big (·.nb)) else none

/-- PASS, GCNT, PNORM, and with a new best BESTPASS and BNORM (R83). -/
def countPass (c : Cmd) (norm : Int) : Cmd × Bool :=
  let v := c.pr.solve
  let pass := min (c.pr.a + 1) 255
  let g := if pass > 1 ∧ grew (dvGrowth v) norm c.pr.norm1 then min (c.pr.c + 1) 15 else 0
  let best := decide (pass = 1) || decide (norm < c.pr.norm2)
  ({ c with pr := { c.pr with a := pass, c := g, d := c.pr.d + 1, norm1 := norm, b := if best then pass else c.pr.b
                              norm2 := if best then norm else c.pr.norm2 } }, best)

/-- The x that a pass has read. -/
def dcXs (c : Cmd) : List EngRead := (List.range (dvN c.pr.solve)).map (dcGet c 0)

/-- JACOBI's corrected elements. -/
def jacobiAll (c : Cmd) : List (List Byte) :=
  let v := c.pr.solve
  (dcXs c).zipIdx.map (fun p => match c.row p.2 with | some r => leBytes (dvEl v) (jacobi v (dcVal v p.1) r) | none => p.1.bytes)

/-- The outcome of a pass: poison and proposals in A or b end the command (R307); else the order of R83. Of the two poison goes first: DESIGN
CHOICE, log entry 129. A proposal that comes into A or b after pass 1 ends the command in the pass that reads it: DESIGN CHOICE, log entry
130. -/
def dcDecide (s : State) (c : Cmd) (poison ok : Bool) : State × Cmd :=
  let v := c.pr.solve
  let xs := dcXs c
  let put := fun (s : State) (els : List (List Byte)) (prop : Bool) => writeElems s c (dvX v) els prop (poisonIn xs)
  let same := xs.map (·.bytes)
  let last := fun (stat st : Nat) (s : State) => recordPass s c st c.pr.prop (fun s => (s, c.solved stat))
  if poison then afterWrites c (put s same true) (last 1 0)
  else if c.pr.prop then afterWrites c (put s same true) (last 0x15 0)
  else if ok then afterWrites c (put s same false) (last 0x10 2)
  else if dcExpired s c then dcDeadline s c (last 0x11 3)
  else if (dvG v ≠ 0 ∧ c.pr.c ≥ dvG v) ∨ (dvMaxp v ≠ 0 ∧ c.pr.a > dvMaxp v) then afterWrites c (put s same true) (last 0x12 4)
  else if dvCorr v = 0 then afterWrites c (put s same true) (last 0x14 0)
  else if dvCorr v = 2 then recordPass s c 1 c.pr.prop (fun s => (s, { c with stage := .extern }))
  else if c.pr.rows.any (fun r => r.2.dg = 0) then afterWrites c (put s same true) (last 0x16 0)
  else afterWrites c (put s (jacobiAll c) true) (fun s => recordPass s c 1 c.pr.prop (fun s => (s, c)))

/-- A pass whose rows are whole: the range of the norms, then the best iterate and the decision. -/
def dcFinish (s : State) (c : Cmd) : State × Cmd :=
  let v := c.pr.solve
  let xs := dcXs c
  match passNorms (dvI v) (dvF v) (xs.map (dcVal v)) (c.pr.rows.map (·.2)) with
  | none => recordZero s c (fun s => (s, c.solved 0x13))
  | some (res, na, nx, nb) =>
    let poison := xs.any (·.poison) || c.pr.rows.any (fun r => r.2.poison)
    let ok := !poison && !c.pr.prop && !c.recProp && (certifies (dvF v) res na nx nb (valOf 10 (dvTol v))).1
    let k := countPass c res
    if k.2 then
      afterWrites c (writeElems s c (dvBx v) (xs.map (·.bytes)) (!ok) (poisonIn xs)) (fun s =>
        afterWrites c (writeBest s c) (fun s => dcDecide s k.1 poison ok))
    else dcDecide s k.1 poison ok

/-! ### The steps of a pass (R286, R305) -/

/-- A command between two passes; one that FCANCEL has asked to stop stops there (R310). VALUE of a DCOR that is CANCELLED is 0: DESIGN CHOICE,
log entry 124. -/
def Cmd.betweenPasses (c : Cmd) (stop : Bool) : Cmd :=
  let c1 := { c with pr := { c.pr with flag := false, prop := false, acc := [], rows := [], written := [] } }
  if stop && c.stage ≠ .draining then c1.finish 2 0 c1.value 0 else c1

/-- A slow turn ends before a read that is still to be made. -/
def RowsEnd.held : RowsEnd → Bool
  | .fault e => isHeld e.1
  | _ => false

/-- The residual phase ends: its images are written, and the pass is decided, or stops for RANGE or a fault. A pass that stops for RANGE ends so
also where it has read poison: DESIGN CHOICE, log entry 131. -/
def dcEnd (s : State) (c : Cmd) (e : RowsEnd) : State × Cmd :=
  let r := if e.held then (s, c.faulted (match e with | .fault e => e | _ => (0, 0))) else afterWrites c (writeResiduals s c) (fun s1 =>
    match e with
    | .whole => dcFinish s1 c
    | .range => recordZero s1 c (fun s => (s, c.solved 0x13))
    | .fault e => (s1, c.faulted e))
  if s.hold && isHeld r.2.cause then r else (r.1, r.2.betweenPasses (c.stage = .stopping))

/-- The rest of a pass: the rows that have not finished, in order, and what is left of x. A slow turn ends with the rows, before the writes. -/
def dcRest (s : State) (c : Cmd) : State × Cmd :=
  let pause := fun (c1 : Cmd) (e : RowsEnd) => s.hold && !e.held && decide (c.pr.rows.length < c1.pr.rows.length)
  match dcRows (List.range (dvN c.pr.solve)) s c with
  | (s1, c1, .whole) =>
    match dcFetch s1 c1 0 (List.range (dvN c.pr.solve)) with
    | .error e => if pause c1 (.fault e) then (s1, c1) else dcEnd s1 c1 (.fault e)
    | .ok (s2, c2) => if pause c2 .whole then (s2, c2) else dcEnd s2 c2 .whole
  | (s1, c1, e) => if pause c1 e then (s1, c1) else dcEnd s1 c1 e

/-- No unit of A or b carries a tag now. -/
def dcClean (s : State) (c : Cmd) : Bool :=
  let v := c.pr.solve
  let n := dvN v
  let nnz := match dcElem { s with hold := false } c 3 n with | .ok r => r.2.nat | .error _ => 0
  !((if dvCsr v then [(dvPtr v, 4 * (n + 1)), (dvCol v, 4 * nnz), (dvA v, dvEl v * nnz)] else [(dvA v, (n - 1) * dvStride v + n * dvEl v)]) ++
    [(dvB v, n * dvEl v)]).any (fun a => arrayTagged s c (a.1 / 64 * 64) (a.2 + a.1 % 64))

/-- Line k of the images can be written before the pass ends: its rows are finished, and it is known for a proposal or no unit of A or b is
one now. -/
def dcLineReady (s : State) (c : Cmd) (k : Nat) : Bool :=
  let v := c.pr.solve
  dvR v ≠ 0 && decide (k < imageLines v) && !sget false c.pr.written k && (lineRows (dvN v) k).all (fun i => (c.row i).isSome) &&
  (c.pr.prop || dcClean s c)

/-- Term k is one of a row whose pointers the pass has read. -/
def termKnown (c : Cmd) (k : Nat) : Bool :=
  (List.range (dvN c.pr.solve)).any (fun r => dcHas c 3 r && dcHas c 3 (r + 1) && decide ((dcGet c 3 r).nat ≤ k) && decide (k < (dcGet c 3 (r + 1)).nat))

/-- Element i of an array is one that the pass reads, as far as it knows by now. -/
def dcKnown (c : Cmd) (arr i : Nat) : Bool :=
  let n := dvN c.pr.solve
  let csr := dvCsr c.pr.solve
  match arr with
  | 1 => if csr then termKnown c i else i < n * n
  | 3 => csr && i < n + 1
  | 4 => csr && termKnown c i
  | _ => i < n

/-- One step of a pass: below 5 it reads element i of an array; 5 finishes row i; 6 writes line i of the residual images; the rest of the pass,
or all of it, is one step more. -/
def dcPart (s : State) (c : Cmd) (part i : Nat) : State × Cmd :=
  let v := c.pr.solve
  let n := dvN v
  let put := fun (r : State × Cmd × RowsEnd) => match r.2.2 with | .whole => (r.1, r.2.1) | e => dcEnd r.1 r.2.1 e
  if part < 5 then
    if !dcKnown c part i then (s, c)
    else match dcFetch s c part [i] with | .ok r => r | .error e => dcEnd s c (.fault e)
  else if part = 5 then (if i < n then put (dcRow s c i) else (s, c))
  else if part = 6 then
    if !dcLineReady s c i then (s, c)
    else afterWrites c (writeImageLine s c (dvR v) i c.pr.prop) (fun s1 => (s1, { c with pr := { c.pr with written := sset false c.pr.written i true } }))
  else dcRest s c

/-- A pass may begin: no other DCOR of its quarter and sub-context has a residual phase under way, and none that was accepted before it waits
to begin one (R286). DEDUCED, log entry 111. -/
def dcMayBegin (s : State) (c : Cmd) : Bool :=
  (s.cmds.filter (fun x => x.kind = .dcor && x.stage = .running && x.quarter = c.quarter && hdrSub x.img = hdrSub c.img && x.id ≠ c.id)).all (fun x =>
    !x.pr.flag && (c.entered < x.entered || (c.entered = x.entered && decide (c.id < x.id)))) &&
  s.cmds.all (fun x => !(x.kind = .dcor && x.stage = .stopping && x.pr.flag && x.quarter = c.quarter && hdrSub x.img = hdrSub c.img))

/-- R305, R308: a step of an exact residual pass, its decision with the last. -/
def execDcorPass (at_ : PassStep) (s : State) : Out :=
  match s.findCmd at_.cmd with
  | none => .next s
  | some c =>
    if c.kind = .dcor ∧ ((c.stage = .running ∧ (c.pr.flag ∨ dcMayBegin s c)) ∨ (c.stage = .stopping ∧ c.pr.flag)) then
      let r := dcPart s { c with pr := { c.pr with flag := true } } at_.part at_.k
      .next (r.1.putCmd r.2)
    else .next s

/-! ### The EXTERN wait (R309) -/

/-- The correction of EXTERN: x and d are read at home, and x is written as a proposal. -/
def dcExtern (s : State) (c : Cmd) : State × Cmd :=
  let v := c.pr.solve
  let at_ := fun (a : Nat) => (List.range (dvN v)).map (dcAt v a)
  match engReadList c (dvEl v) (at_ (dvD v)) s with
  | .error e => (s, c.faulted e)
  | .ok (s1, d) =>
    if d.any (·.poison) then recordZero s1 c (fun s => (s, c.finish 1 0 (c.pr.a + c.pr.b * 256) 0))
    else
      match engReadList c (dvEl v) (at_ (dvX v)) s1 with
      | .error e => (s1, c.faulted e)
      | .ok (s2, x) =>
        let new := (x.zip d).map (fun p => leBytes (dvEl v) (roundTo (tyFmt (dvTy v)) 1 0 (addE (dcVal v p.1) (dcVal v p.2))).1)
        afterWrites c (writeElems s2 c (dvX v) new true (poisonIn x)) (fun s => (s, { c with stage := .running }))

/-- The counter of an EXTERN wait has reached its value. -/
def externMet (s : State) (c : Cmd) : Bool :=
  match s.findTask c.owner.task with
  | some t => tlValue t (dvCid c.pr.solve) ≥ dvCbase c.pr.solve + c.pr.d
  | none => false

/-- R309: the counter reaches its value before the deadline, and the correction is applied. -/
def execDcorExternWait (cmd : Nat) (s : State) : Out :=
  match s.findCmd cmd with
  | none => .next s
  | some c =>
    if c.kind = .dcor ∧ c.stage = .extern ∧ externMet s c ∧ !dcExpired s c then let r := dcExtern s c; .next (r.1.putCmd r.2)
    else .next s

/-- R309: the deadline passes during the wait; it goes before the counter. -/
def execDcorDeadlineExpiry (cmd : Nat) (s : State) : Out :=
  match s.findCmd cmd with
  | none => .next s
  | some c =>
    if c.kind = .dcor ∧ c.stage = .extern ∧ dcExpired s c then
      let r := dcDeadline s c (fun s => afterWrites c (recordPut s c 112 (stateWord c 3) false) (fun s => (s, c.solved 0x11)))
      .next (r.1.putCmd r.2)
    else .next s

end Sys2Proof.Machine
end

