-- ==== Sys2Proof/Machine/Dispatch.lean ====
section
/-! DEFINITION. The meaning of every instruction and event: one arm per constructor. -/

namespace Sys2Proof.Machine

def exec (i : Instr) (s : State) : Host.Outcome State Fault Refusal :=
  match i with
  | .sadd sd sa sb => Sys2Proof.Machine.execSadd sd sa sb s
  | .ssub sd sa sb => Sys2Proof.Machine.execSsub sd sa sb s
  | .sand sd sa sb => Sys2Proof.Machine.execSand sd sa sb s
  | .sor sd sa sb => Sys2Proof.Machine.execSor sd sa sb s
  | .sxor sd sa sb => Sys2Proof.Machine.execSxor sd sa sb s
  | .sshl sd sa sb => Sys2Proof.Machine.execSshl sd sa sb s
  | .sshr sd sa sb => Sys2Proof.Machine.execSshr sd sa sb s
  | .ssra sd sa sb => Sys2Proof.Machine.execSsra sd sa sb s
  | .smul sd sa sb => Sys2Proof.Machine.execSmul sd sa sb s
  | .smulhI sd sa sb => Sys2Proof.Machine.execSmulhI sd sa sb s
  | .smulhN sd sa sb => Sys2Proof.Machine.execSmulhN sd sa sb s
  | .sdivI sd sa sb => Sys2Proof.Machine.execSdivI sd sa sb s
  | .sdivN sd sa sb => Sys2Proof.Machine.execSdivN sd sa sb s
  | .sremI sd sa sb => Sys2Proof.Machine.execSremI sd sa sb s
  | .sremN sd sa sb => Sys2Proof.Machine.execSremN sd sa sb s
  | .sminI sd sa sb => Sys2Proof.Machine.execSminI sd sa sb s
  | .smaxI sd sa sb => Sys2Proof.Machine.execSmaxI sd sa sb s
  | .sminN sd sa sb => Sys2Proof.Machine.execSminN sd sa sb s
  | .smaxN sd sa sb => Sys2Proof.Machine.execSmaxN sd sa sb s
  | .sceq sd sa sb => Sys2Proof.Machine.execSceq sd sa sb s
  | .scne sd sa sb => Sys2Proof.Machine.execScne sd sa sb s
  | .scltI sd sa sb => Sys2Proof.Machine.execScltI sd sa sb s
  | .scltN sd sa sb => Sys2Proof.Machine.execScltN sd sa sb s
  | .scleI sd sa sb => Sys2Proof.Machine.execScleI sd sa sb s
  | .scleN sd sa sb => Sys2Proof.Machine.execScleN sd sa sb s
  | .spopc sd sa => Sys2Proof.Machine.execSpopc sd sa s
  | .sclz sd sa => Sys2Proof.Machine.execSclz sd sa s
  | .sctz sd sa => Sys2Proof.Machine.execSctz sd sa s
  | .saddi sd sa imm => Sys2Proof.Machine.execSaddi sd sa imm s
  | .sandi sd sa imm => Sys2Proof.Machine.execSandi sd sa imm s
  | .sori sd sa imm => Sys2Proof.Machine.execSori sd sa imm s
  | .sxori sd sa imm => Sys2Proof.Machine.execSxori sd sa imm s
  | .sshli sd sa n => Sys2Proof.Machine.execSshli sd sa n s
  | .sshri sd sa n => Sys2Proof.Machine.execSshri sd sa n s
  | .ssrai sd sa n => Sys2Proof.Machine.execSsrai sd sa n s
  | .sli sd imm => Sys2Proof.Machine.execSli sd imm s
  | .slui sd imm => Sys2Proof.Machine.execSlui sd imm s
  | .scmpi sd sa cond m => Sys2Proof.Machine.execScmpi sd sa cond m s
  | .ssel sd sa sb sc => Sys2Proof.Machine.execSsel sd sa sb sc s
  | .sldw sd sa imm => Sys2Proof.Machine.execSldw sd sa imm s
  | .sldd sd sa imm => Sys2Proof.Machine.execSldd sd sa imm s
  | .sstw sd sa imm => Sys2Proof.Machine.execSstw sd sa imm s
  | .sstd sd sa imm => Sys2Proof.Machine.execSstd sd sa imm s
  | .sldk sd sa imm => Sys2Proof.Machine.execSldk sd sa imm s
  | .br cond sa off => Sys2Proof.Machine.execBr cond sa off s
  | .call sd imm => Sys2Proof.Machine.execCall sd imm s
  | .jmpr sd sa => Sys2Proof.Machine.execJmpr sd sa s
  | .lissue nm1 index => Sys2Proof.Machine.execLissue nm1 index s
  | .lrun index => Sys2Proof.Machine.execLrun index s
  | .lwait => Sys2Proof.Machine.execLwait s
  | .smfs sd id => Sys2Proof.Machine.execSmfs sd id s
  | .smts sa id => Sys2Proof.Machine.execSmts sa id s
  | .barSync sa level num => Sys2Proof.Machine.execBarSync sa level num s
  | .barArrive sa level num => Sys2Proof.Machine.execBarArrive sa level num s
  | .barWait sa level num => Sys2Proof.Machine.execBarWait sa level num s
  | .yld => Sys2Proof.Machine.execYld s
  | .ftest sd sa => Sys2Proof.Machine.execFtest sd sa s
  | .fcancel sa => Sys2Proof.Machine.execFcancel sa s
  | .fpass sd sa => Sys2Proof.Machine.execFpass sd sa s
  | .copy sa tok => Sys2Proof.Machine.execCopy sa tok s
  | .copymm sa tile tok => Sys2Proof.Machine.execCopymm sa tile tok s
  | .fixline sa chan tok => Sys2Proof.Machine.execFixline sa chan tok s
  | .taglk sd sa => Sys2Proof.Machine.execTaglk sd sa s
  | .tagset sd sa => Sys2Proof.Machine.execTagset sd sa s
  | .taginv sd sa => Sys2Proof.Machine.execTaginv sd sa s
  | .satom sd sa sb space opn ret typ => Sys2Proof.Machine.execSatom sd sa sb space opn ret typ s
  | .fenceAcq scope => Sys2Proof.Machine.execFenceAcq scope s
  | .fenceRel scope => Sys2Proof.Machine.execFenceRel scope s
  | .fenceAcqrel scope => Sys2Proof.Machine.execFenceAcqrel scope s
  | .fenceAll scope => Sys2Proof.Machine.execFenceAll scope s
  | .tlwait sd sa sb => Sys2Proof.Machine.execTlwait sd sa sb s
  | .tladv sd sa => Sys2Proof.Machine.execTladv sd sa s
  | .dcor sd sa => Sys2Proof.Machine.execDcor sd sa s
  | .pkq sd sa => Sys2Proof.Machine.execPkq sd sa s
  | .nmop sd sa => Sys2Proof.Machine.execNmop sd sa s
  | .spg sd sa => Sys2Proof.Machine.execSpg sd sa s
  | .kick sd sa => Sys2Proof.Machine.execKick sd sa s
  | .trap code => Sys2Proof.Machine.execTrap code s
  | .eret => Sys2Proof.Machine.execEret s
  | .sysAsidbase sd sa => Sys2Proof.Machine.execSysAsidbase sd sa s
  | .sysGenstep sd sa => Sys2Proof.Machine.execSysGenstep sd sa s
  | .sysTinv sd sa => Sys2Proof.Machine.execSysTinv sd sa s
  | .sysTinvall sd sa => Sys2Proof.Machine.execSysTinvall sd sa s
  | .endGroup => Sys2Proof.Machine.execEndGroup s
  | .sltag sd sa => Sys2Proof.Machine.execSltag sd sa s
  | .sltagMem sd sa => Sys2Proof.Machine.execSltagMem sd sa s
  | .sltagSp sd sa => Sys2Proof.Machine.execSltagSp sd sa s
  | .vadd w => Sys2Proof.Machine.execVadd w s
  | .vsub w => Sys2Proof.Machine.execVsub w s
  | .vmul w => Sys2Proof.Machine.execVmul w s
  | .vmulh w => Sys2Proof.Machine.execVmulh w s
  | .vmad w => Sys2Proof.Machine.execVmad w s
  | .vand w => Sys2Proof.Machine.execVand w s
  | .vor w => Sys2Proof.Machine.execVor w s
  | .vxor w => Sys2Proof.Machine.execVxor w s
  | .vshl w => Sys2Proof.Machine.execVshl w s
  | .vshr w => Sys2Proof.Machine.execVshr w s
  | .vsra w => Sys2Proof.Machine.execVsra w s
  | .vmin w => Sys2Proof.Machine.execVmin w s
  | .vmax w => Sys2Proof.Machine.execVmax w s
  | .vcmp w => Sys2Proof.Machine.execVcmp w s
  | .vsel w => Sys2Proof.Machine.execVsel w s
  | .vmovi w => Sys2Proof.Machine.execVmovi w s
  | .fadd w => Sys2Proof.Machine.execFadd w s
  | .fsub w => Sys2Proof.Machine.execFsub w s
  | .fmul w => Sys2Proof.Machine.execFmul w s
  | .ffma w => Sys2Proof.Machine.execFfma w s
  | .fmin w => Sys2Proof.Machine.execFmin w s
  | .fmax w => Sys2Proof.Machine.execFmax w s
  | .fcmp w => Sys2Proof.Machine.execFcmp w s
  | .frcp w => Sys2Proof.Machine.execFrcp w s
  | .frsq w => Sys2Proof.Machine.execFrsq w s
  | .fsqrt w => Sys2Proof.Machine.execFsqrt w s
  | .fexp2 w => Sys2Proof.Machine.execFexp2 w s
  | .flog2 w => Sys2Proof.Machine.execFlog2 w s
  | .vcvt w => Sys2Proof.Machine.execVcvt w s
  | .vqnt w => Sys2Proof.Machine.execVqnt w s
  | .vdq w => Sys2Proof.Machine.execVdq w s
  | .vhad w => Sys2Proof.Machine.execVhad w s
  | .vrng w => Sys2Proof.Machine.execVrng w s
  | .vshf w => Sys2Proof.Machine.execVshf w s
  | .vred w => Sys2Proof.Machine.execVred w s
  | .vscan w => Sys2Proof.Machine.execVscan w s
  | .vbal w => Sys2Proof.Machine.execVbal w s
  | .vxts w => Sys2Proof.Machine.execVxts w s
  | .vld w => Sys2Proof.Machine.execVld w s
  | .vst w => Sys2Proof.Machine.execVst w s
  | .vlds w => Sys2Proof.Machine.execVlds w s
  | .vsts w => Sys2Proof.Machine.execVsts w s
  | .vatom w => Sys2Proof.Machine.execVatom w s
  | .vrds w => Sys2Proof.Machine.execVrds w s
  | .lbr w => Sys2Proof.Machine.execLbr w s
  | .lend w => Sys2Proof.Machine.execLend w s
  | .lmask w => Sys2Proof.Machine.execLmask w s
  | .vprop w => Sys2Proof.Machine.execVprop w s
  | .vtag w => Sys2Proof.Machine.execVtag w s
  | .dacc w => Sys2Proof.Machine.execDacc w s
  | .dsum w => Sys2Proof.Machine.execDsum w s
  | .dapply w => Sys2Proof.Machine.execDapply w s
  | .mma w => Sys2Proof.Machine.execMma w s
  | .mzero w => Sys2Proof.Machine.execMzero w s
  | .mrda w => Sys2Proof.Machine.execMrda w s
  | .mwra w => Sys2Proof.Machine.execMwra w s
  | .mtld w => Sys2Proof.Machine.execMtld w s
  | .mspl w => Sys2Proof.Machine.execMspl w s
  | .mfil w => Sys2Proof.Machine.execMfil w s
  | .genbeg w => Sys2Proof.Machine.execGenbeg w s
  | .yield w => Sys2Proof.Machine.execYield w s
  | .gstep w => Sys2Proof.Machine.execGstep w s
  | .cpop w => Sys2Proof.Machine.execCpop w s
  | .genend w => Sys2Proof.Machine.execGenend w s
  | .loadPerforms g k => Sys2Proof.Machine.execLoadPerforms g k s
  | .writeLeaves g k => Sys2Proof.Machine.execWriteLeaves g k s
  | .writeDrains g kind k => Sys2Proof.Machine.execWriteDrains g kind k s
  | .corePointDrains k => Sys2Proof.Machine.execCorePointDrains k s
  | .homePerforms k => Sys2Proof.Machine.execHomePerforms k s
  | .placePerforms g k => Sys2Proof.Machine.execPlacePerforms g k s
  | .markerPerforms g k => Sys2Proof.Machine.execMarkerPerforms g k s
  | .tableWalk core asid gen va => Sys2Proof.Machine.execTableWalk core asid gen va s
  | .copyEngineStep cmd k reading => Sys2Proof.Machine.execCopyEngineStep cmd k reading s
  | .copyCompletes cmd => Sys2Proof.Machine.execCopyCompletes cmd s
  | .copymmFollowOn cmd => Sys2Proof.Machine.execCopymmFollowOn cmd s
  | .fixedLineAnchor cmd => Sys2Proof.Machine.execFixedLineAnchor cmd s
  | .sparseGatherStep cmd => Sys2Proof.Machine.execSparseGatherStep cmd s
  | .engineCommandCompletes cmd => Sys2Proof.Machine.execEngineCommandCompletes cmd s
  | .stackRecordRead cmd => Sys2Proof.Machine.execStackRecordRead cmd s
  | .afterSatisfied cmd => Sys2Proof.Machine.execAfterSatisfied cmd s
  | .gemvColumnAccess cmd bank => Sys2Proof.Machine.execGemvColumnAccess cmd bank s
  | .gemvRowBlockCombine cmd => Sys2Proof.Machine.execGemvRowBlockCombine cmd s
  | .allBankSliceEnd cmd => Sys2Proof.Machine.execAllBankSliceEnd cmd s
  | .adamElementUpdate cmd => Sys2Proof.Machine.execAdamElementUpdate cmd s
  | .dcorPass p => Sys2Proof.Machine.execDcorPass p s
  | .dcorExternWait cmd => Sys2Proof.Machine.execDcorExternWait cmd s
  | .dcorDeadlineExpiry cmd => Sys2Proof.Machine.execDcorDeadlineExpiry cmd s
  | .pkqQuery cmd => Sys2Proof.Machine.execPkqQuery cmd s
  | .pkqScatter cmd => Sys2Proof.Machine.execPkqScatter cmd s
  | .kickRegisterWrite slot patch => Sys2Proof.Machine.execKickRegisterWrite slot patch s
  | .taskAdmit task => Sys2Proof.Machine.execTaskAdmit task s
  | .bindLaunch rec => Sys2Proof.Machine.execBindLaunch rec s
  | .bindRestore rec => Sys2Proof.Machine.execBindRestore rec s
  | .bindSave rec => Sys2Proof.Machine.execBindSave rec s
  | .memberMessageDelivery k => Sys2Proof.Machine.execMemberMessageDelivery k s
  | .starvationBound g => Sys2Proof.Machine.execStarvationBound g s
  | .rowTest core e lasting => Sys2Proof.Machine.execRowTest core e lasting s
  | .dramRowTest q e lasting => Sys2Proof.Machine.execDramRowTest q e lasting s
  | .hostMemRead addr size => Sys2Proof.Machine.execHostMemRead addr size s
  | .hostMemWrite addr bytes poison => Sys2Proof.Machine.execHostMemWrite addr bytes poison s
  | .hostAtomic addr size opn typ data cmp => Sys2Proof.Machine.execHostAtomic addr size opn typ data cmp s
  | .hostChanWrite set anchor => Sys2Proof.Machine.execHostChanWrite set anchor s
  | .errorLogFree q e => Sys2Proof.Machine.execErrorLogFree q e s
  | .linkStatusClear g ones => Sys2Proof.Machine.execLinkStatusClear g ones s
  | .registerWrite off size v => Sys2Proof.Machine.execRegisterWrite off size v s
  | .svcAttest => Sys2Proof.Machine.execSvcAttest s
  | .svcConditionReport => Sys2Proof.Machine.execSvcConditionReport s
  | .svcReadConfig => Sys2Proof.Machine.execSvcReadConfig s
  | .svcReadAmendment arg => Sys2Proof.Machine.execSvcReadAmendment arg s
  | .svcBadOperation op => Sys2Proof.Machine.execSvcBadOperation op s
  | .svcCommandDone => Sys2Proof.Machine.execSvcCommandDone s
  | .groupFlitReceive rg dir flits => Sys2Proof.Machine.execGroupFlitReceive rg dir flits s
  | .nakReceive rg dir nseq => Sys2Proof.Machine.execNakReceive rg dir nseq s
  | .laneFailure rg rail => Sys2Proof.Machine.execLaneFailure rg rail s
  | .repairPauseEnd rg rail => Sys2Proof.Machine.execRepairPauseEnd rg rail s
  | .railLost rg rail => Sys2Proof.Machine.execRailLost rg rail s
  | .remoteRequest src num r => Sys2Proof.Machine.execRemoteRequest src num r s
  | .remoteResponse k data prop poison => Sys2Proof.Machine.execRemoteResponse k data prop poison s
  | .targetUnreachable dev => Sys2Proof.Machine.execTargetUnreachable dev s
  | .releaseMessage dev stream => Sys2Proof.Machine.execReleaseMessage dev stream s
  | .powerOn => Sys2Proof.Machine.execPowerOn s
  | .leafIndexWritten => Sys2Proof.Machine.execLeafIndexWritten s
  | .wearAmendmentWrite => Sys2Proof.Machine.execWearAmendmentWrite s
  | .powerLoss => Sys2Proof.Machine.execPowerLoss s
  | .guardBandStep q kind index wear mark => Sys2Proof.Machine.execGuardBandStep q kind index wear mark s
  | .droopResponse q kind index => Sys2Proof.Machine.execDroopResponse q kind index s
  | .notAnInstruction lane w => Sys2Proof.Machine.execNotAnInstruction lane w s
  | .softError array core addr bits => Sys2Proof.Machine.execSoftError array core addr bits s
  | .hostCxlCompletion k => Sys2Proof.Machine.execHostCxlCompletion k s

end Sys2Proof.Machine
end

