-- ==== Sys2Proof/Machine/Issue.lean ====
section
/-! DEFINITION. What a step does next: the turn of the schedule, the fetch of a word, and the placing of a program (R12, R18, R20, R31,
R138, R141, R320, R372). -/

namespace Sys2Proof.Machine

/-- What a step comes to before any meaning: an instruction or event to run in a state, or an outcome already reached. -/
inductive Next where
  | run (i : Instr) (s : State)
  | done (o : Out)

/-! ### Words of the focus group -/

/-- A group of a co-resident grid issues nothing until every group of the grid is bound (R320). -/
def gridHolds (s : State) (g : Group) : Bool :=
  match s.findTask g.key.task with
  | some t => recCor t.img && !(taskGroups t).all t.launched.contains
  | none => false

/-- The deterministic groups of a core, but for class 0, which never gives way (R31). -/
def turnGroups (s : State) (core : Nat) : List Group :=
  s.groups.filter (fun g => g.place.bound && g.det && g.place.slot ≠ 15 && g.place.coreNo = core)

/-- A ready group in slot 15 of the core: class 0 pre-empts (R31). -/
def classZeroReady (s : State) (core : Nat) : Bool :=
  s.groups.any (fun g => g.place.bound && g.place.slot = 15 && g.place.coreNo = core && s.ready g)

/-- In deterministic mode one group of a core issues: it goes on until it waits at a barrier, yields or is gone, and then the ready group
with the least wave index is next; a ready group of class 0 goes before them (R31). -/
def hasTurn (s : State) (g : Group) : Bool :=
  !g.det || g.place.slot = 15 ||
  (!classZeroReady s g.place.coreNo &&
   (let l := turnGroups s g.place.coreNo
    let next := decide ((leastWave (l.filter s.ready)).map (·.key) = some g.key)
    match l.find? (·.holds) with
    | none => next
    | some x => decide (x.key = g.key) || (!s.ready x && next)))

/-- A group that may issue. -/
def canIssue (s : State) : Bool := s.g.place.bound && !isStopped s s.g && !gridHolds s s.g && hasTurn s s.g

/-- A fetch reads its units: latent errors are met, those of its walks among them (R340). -/
def touchCode (s : State) (va : Word) (n : Nat) : State :=
  [va, va + BitVec.ofNat 64 (n - 1)].foldl (fun s v => touchVa s s.g s.g.priv .fetch v) s

/-- The global addresses of the data that a scalar word reaches. -/
def scalarVas (s : State) (i : Instr) : List Word :=
  match i with
  | .sldw _ sa imm | .sldd _ sa imm | .sstw _ sa imm | .sstd _ sa imm => [memAddr s sa imm]
  | .satom _ sa _ sp .. => if sp = 0 then [s.g.sval sa.toNat] else []
  | .sltagMem _ sa => [s.g.sval sa.toNat]
  | _ => []

/-- The global addresses of the data that a lane word reaches. -/
def laneVas (s : State) (i : Instr) : List Word :=
  match i.general with
  | some (op, w) =>
    let c := laneCtx s.g
    let sp := w.mod8.getLsbD 7
    if op = 0x27 || op = 0x28 || ((op = 0x2B || op = 0x2C) && !sp) then
      (lanesOf (actMask s.g c &&& predMask s.g w.pn w.pk)).map (laneAddr s.g c w (accessSize w.ty.toNat))
    else if (op = 0x3A || op = 0x3B) && !sp then [s.g.sval w.vb.toNat, s.g.sval w.vb.toNat + 8191]
    else []
  | none => []

/-- The walks that translate a word's addresses meet their errors (R337, R340). -/
def walksTouched (s : State) (l : List Word) : State :=
  if s.quiet then s
  else l.foldl (fun s a => walkTouched s s.g.place.coreNo s.g.sp.asid.toNat s.g.sp.gen.toNat a) s

/-- Runs a scalar word, or a lane word, of the focus group. -/
def runScalar (i : Instr) (s : State) : Next := .run i (walksTouched s (scalarVas s i))
def runLane (i : Instr) (s : State) : Next := .run i (walksTouched s (laneVas s i))

/-- The next word of the scalar stream; a word that waits is taken up again. A cause that the stream has met is reported once the runs
before its word are finished (R162). -/
def nextScalar (s : State) : Next :=
  if !canIssue s then .done (.next s)
  else
    match s.g.met, s.g.qs.pendS with
    | some t, _ => .done (.next (if s.g.lanesDone then scalarTrap s t else s))
    | none, some p => .run p.w s
    | none, none =>
      let s1 := touchCode s s.g.pc 4
      match fetchCode s1 s1.g s1.g.pc 4 with
      | .error t => .done (scalarFetchTrap t s1)
      | .ok n =>
        match decodeScalarBytes (leBytes 4 n) with
        | .ok r => runScalar r.1 s1
        | .error _ => runScalar (.notAnInstruction false (BitVec.ofNat 96 n)) s1

/-- A slot that holds a path which is not parked at the top entry (R20). -/
def slotOpen (l : LaneCtl) (slot : Bool) : Bool :=
  match (if slot then l.l1 else l.l0) with
  | none => false
  | some p => match l.stack with | [] => true | e :: _ => p.pc ≠ e.rpc

/-- In deterministic mode the path whose lowest active lane is lower goes first; without active lanes the path masks decide (R31). -/
def detSlot (g : Group) : Bool :=
  match g.ln.l0, g.ln.l1 with
  | some a, some b =>
    let x := g.sp.exmask &&& a.mask
    let y := g.sp.exmask &&& b.mask
    if x = 0 || y = 0 then lowLane b.mask < lowLane a.mask else lowLane y < lowLane x
  | _, _ => false

/-- The slot that issues, when slot is wanted; none when no path can issue. In deterministic mode the path that has been chosen issues
until it parks (R31). -/
def pickSlot (g : Group) (slot : Bool) : Option Bool :=
  match g.ln.runs with
  | [] => none
  | r :: _ =>
    if !r.lrun then some false
    else
      let want := if g.det then (if g.ln.kept then g.ln.slot else detSlot g) else slot
      if slotOpen g.ln want then some want else if slotOpen g.ln (!want) then some (!want) else none

/-- Makes the pops that are due, each with the reload that it owes; a bivouac entry that is read with poison ends them, with its address
(R20, R21). -/
def settleLane : Nat → State → State × Option Word
  | 0, s => (s, none)
  | n + 1, s =>
    let s1 := s.upG Group.popDue
    if !s1.g.ln.owesReload then (s1, none)
    else
      match reloadDiv s1 with
      | (s2, some a) => (s2, some a)
      | (s2, none) => settleLane n s2

/-- Why the lane stream cannot go on before its next word: a bad stack entry, or a poisoned bivouac entry (R21, R337). -/
def laneStop (s : State) (biv : Option Word) : Option Trap :=
  match biv, s.g.stuckEntry with
  | some a, _ => some (mkTrap cPOISON a)
  | none, some i => some (poisonTrap (regPoison 0x0B (s.g.place.slot * 16 + i)))
  | none, none => none

/-- The state in which a slot's word issues. -/
def onSlot (s : State) (k : Bool) : State := s.upG (fun g => { g with ln := { g.ln with slot := k, kept := g.det } })

/-- The word of a slot, fetched and decoded. -/
def nextWord (s : State) : Next :=
  let i := (laneCtx s.g).idx
  let s1 := touchCode s (s.g.lcbNow + BitVec.ofNat 64 (12 * i.toNat)) 12
  match fetchLane s1 s1.g i with
  | .error t => .done (laneFetchTrap t s1)
  | .ok w =>
    match decodeLaneBytes (leBytes 12 w.toNat) with
    | .ok r => runLane r.1 s1
    | .error _ => runLane (.notAnInstruction true w) s1

/-- The next word of the lane stream: a word that waits, an MMA under way, which is not fetched or decoded again (R268), or the word of a
slot, once the pops that are due are made. -/
def nextLane (s : State) (slot : Bool) : Next :=
  if !canIssue s then .done (.next s)
  else
    match s.g.qs.pendL, s.g.ln.mword with
    | some p, _ => .run p.w s
    | none, some m => .run (.mma m.2) s
    | none, none =>
      let x := settleLane 17 (s.upG Group.startRun)
      let s0 := x.1
      match laneStop s0 x.2 with
      | some t => .done (laneEnd s0 (laneCtx s0.g) (.trap t 0))
      | none =>
        match pickSlot s0.g slot with
        | none => .done (.next s0)
        | some k => nextWord (onSlot s0 k)

/-! ### Going on past an access (R16, R114) -/

/-- Marks the accesses of a stream that its waiting word still needs as late: they stand in the issue queue or are out. -/
def markLate (s : State) (lw : Bool) (dst : Entry → Option LateDst) : State :=
  let mark := fun (e : Entry) => if e.kind.isRead && e.lw = lw && e.late.isNone then { e with late := dst e } else e
  { s with
    g := { s.g with qs := { s.g.qs with iq := s.g.qs.iq.map mark } }
    outs := s.outs.map (fun o => if o.grp = s.g.key && o.cmd.isNone then { o with entry := mark o.entry } else o) }

/-- The accesses that a stream's waiting word still needs. -/
def awaited (s : State) (lw : Bool) : List Entry :=
  (s.g.qs.iq ++ (groupOuts s s.g).map (·.entry)).filter (fun e => e.kind.isRead && e.lw = lw && e.late.isNone)

/-- An access of a group that would trap if it were performed now (R331, R338, R357). -/
def failsAt (s : State) (g : Group) (e : Entry) : Bool :=
  e.opn ≠ 8 && (noRoute s g.place.q e.addr ||
    (!isRemote e.addr &&
      (let s1 := touchUnit s g e.addr
       if e.kind = .load then (performLoad s1 g e).poison else homePoison s1 e.addr)))

/-- An access of a waiting word that would trap if it were performed now, so that its stream cannot go past it (R331). -/
def failsNow (s : State) (e : Entry) : Bool := failsAt s s.g e

/-- The first access that its stream has gone past and that would trap after a step, and could be performed before it. -/
def lastChance (s t : State) : Option (GroupKey × Nat) :=
  s.groups.findSome? (fun g =>
    ((List.range g.qs.iq.length).find? (fun k =>
      match g.qs.iq[k]? with
      | some e => e.late.isSome && e.kind.isRead && failsAt t ((t.findGroup g.key).getD g) e && !failsAt s g e && canLeave s g k &&
          memberReady s e && routeRoom s g.place.q e.addr && !bankHeld s e.addr
      | none => false)).map (fun k => (g.key, k)))

/-- The scalar register that a waiting load, atomic or SLTAG writes, and how. -/
def aheadDst (g : Group) (i : Instr) : Option (Nat × LateDst) :=
  match i with
  | .sldw sd sa _ | .sldd sd sa _ => some (sd.toNat, .sreg sd.toNat (g.stag sa.toNat))
  | .satom sd sa _ _ _ ret _ => if ret = 1 then some (sd.toNat, .sreg sd.toNat (g.stag sa.toNat)) else none
  | .sltagMem sd _ | .sltagSp sd _ => some (sd.toNat, .mark sd.toNat)
  | _ => none

/-- The scalar stream goes on past its access; the register is busy until the access performs. -/
def aheadScalar (s : State) : State :=
  match s.g.qs.pendS with
  | none => s
  | some p =>
    match aheadDst s.g p.w with
    | some (sd, d) =>
      if !p.got.isEmpty || (awaited s false).any (failsNow s) then s
      else
        (markLate s false (fun _ => some d)).upG (fun g =>
          let g1 := g.noPendS.setFut sd .busy
          g1.setPc (g1.pc + 4))
    | none => s

/-- The lanes that take what an access of a lane word returns: its own, or of an atomic add those that add at its address. -/
def lateLanes (g : Group) (c : LCtx) (w : LWord) (atomic : Bool) (e : Entry) : List (Nat × Nat × Bool) :=
  let ty := w.ty.toNat
  if !atomic then [(e.lane, 0, resultTag g c w (narrowTy ty) (addrSrcs c w e.lane))]
  else
    let pt := lanesOf (actMask g c &&& predMask g w.pn w.pk)
    (pt.filter (fun l => if atomOpn w = 0 then decide (laneAddr g c w (accessSize ty) l = e.va) else l = e.lane)).map (fun l =>
      (l, (atomLower g c w pt l).foldl (fun a k => a + opC g c w ty k) 0, atomTag g c w pt l))

/-- A lane word that the stream has gone past is done, but for the registers or tile elements of a list. -/
def passedBy (c : LCtx) (late : List Nat) : LRes → State → State
  | .ok s1, _ => s1.upG (fun g => ({ g with qs := { g.qs with lateV := g.qs.lateV ++ late } } : Group).laneNext c)
  | _, s => s

/-- The lane stream goes on past a load or an atomic: the lanes that have returned are written, and the others when their accesses perform. -/
def aheadWord (w : LWord) (p : Pend) (atomic : Bool) (s : State) : State :=
  let c := laneCtx s.g
  let n := if tyPair w.ty.toNat then 2 else 1
  let r := c.rn w.vd.toNat
  let lanes := lateLanes s.g c w atomic
  let s0 := markLate s true (fun e => some (.vreg r n (lanes e)))
  passedBy c ((awaited s true).flatMap (fun e => (lanes e).flatMap (fun x => (List.range n).map (fun i => (r + i) * 32 + x.1))))
    (if atomic then finishAtom w c p s0 else finishLoad w c p s0) s

/-- The lane stream goes on past a fill: what has returned is written, and the other elements of the tile when their reads perform. -/
def aheadFill (w : LWord) (p : Pend) (s : State) : State :=
  let c := laneCtx s.g
  let t := w.vd.toNat
  passedBy c ((awaited s true).map (fun e => lateTileKey t e.lane)) (finishFill w c p (markLate s true (fun _ => some (.tile t)))) s

/-- The lane stream goes on past the word that waits. A word that tests the tags of its units is not gone past (R66). -/
def aheadLane (s : State) : State :=
  match s.g.qs.pendL with
  | none => s
  | some p =>
    if (firstPoison p.got).isSome || (awaited s true).any (failsNow s) then s
    else
      match p.w with
      | .vld w | .vlds w => if w.tg = 1 then s else aheadWord w p false s
      | .vatom w => if w.tg = 1 then s else aheadWord w p true s
      | .mfil w => if w.tg = 1 then s else aheadFill w p s
      | _ => s

/-- A stream goes on past the access that it waits for: it may issue later words, which meet the access in their registers only (R16,
R114). The pass words of a defect correction are not gone past. DESIGN CHOICE, log entry 20. -/
def goAhead (s : State) (lane : Bool) : State := if !canIssue s then s else if lane then aheadLane s else aheadScalar s

/-! ### The choice of groups (R31) -/

def turnFocus (s : State) (k : GroupKey) : State :=
  match s.findGroup k with
  | some h => if h.place.bound then focusOn s k else s
  | none => s

/-- A group that issues in deterministic mode holds its core from then on. -/
def keepCore (s : State) : State := if s.g.det && s.g.place.slot ≠ 15 && canIssue s then giveCore s s.g else s

/-- The ready groups of a core that are passed over when another issues. -/
def countPassed (s : State) : State :=
  let s1 := keepCore s
  { s1 with
    g := { s1.g with passed := 0 }
    rest := s1.rest.map (fun h => if s.ready h && h.place.coreNo = s.g.place.coreNo then { h with passed := h.passed + 1 } else h) }

/-! ### Turns -/

/-- A turn that the schedule leaves open: the lane stream when a run waits, the scalar stream otherwise. -/
def defaultTurn (s : State) : Turn := if s.g.ln.runs.isEmpty then .scalar else .lane s.g.ln.slot

/-- The turn of this step, and the state without it. -/
def takeTurn (s : State) : Turn × State :=
  match s.turns with
  | [] => (defaultTurn s, { s with tick := s.tick + 1 })
  | t :: rest => (t, { s with turns := rest, tick := s.tick + 1 })

/-- A turn that saves a block, which goes at one pace only. -/
def Turn.saves : Turn → Bool
  | .event (.bindSave _) => true
  | _ => false

/-- What a turn comes to. -/
def nextOf (t : Turn) (s : State) : Next :=
  match t with
  | .scalar => nextScalar (armFocus (countPassed s))
  | .lane slot => nextLane (armFocus (countPassed s)) slot
  | .focus k => .done (.next (turnFocus s k))
  | .ahead lane => .done (.next (goAhead (armFocus s) lane))
  | .event i =>
    (match i with
    | .notAnInstruction .. => .done (.next s)
    | i => if i.isEvent then .run i (armFocus s) else .done (.next s))
  | .slow u => nextOf u { s with hold := !u.saves }

/-- Without power only the return of power is a step. -/
def nextPower (t : Turn) (s : State) : Next :=
  if s.svc.powered then nextOf t s
  else match t with | .event .powerOn => .run .powerOn s | _ => .done (.fault .poweredOff)

/-- The command that an event of a stack controller belongs to. -/
def ownCmd (i : Instr) : Option Nat :=
  match i with
  | .gemvColumnAccess c _ => some c
  | .gemvRowBlockCombine c => some c
  | _ => none

/-- The command that an event takes a step of, where a slow turn may cut the step. -/
def stepCmd (t : Turn) : Option Nat :=
  match t with
  | .event (.copyEngineStep c _ _) | .event (.fixedLineAnchor c) | .event (.sparseGatherStep c) | .event (.stackRecordRead c)
  | .event (.pkqQuery c) | .event (.pkqScatter c) | .event (.dcorExternWait c) | .event (.dcorDeadlineExpiry c) => some c
  | .event (.dcorPass p) => some p.cmd
  | _ => none

/-- What a step of a command comes to that a slow turn has cut: the command stands as before, and the sector is read or the line is written. The
step that goes through forgets them (R125). A pass of DCOR that has begun keeps its accumulators (R286). -/
def cutStep (s t : State) (cmd : Nat) : State :=
  match s.findCmd cmd, t.findCmd cmd with
  | some c, some d =>
    if d.stage = .draining && isHeld d.cause then
      let c1 := { c with pr := { c.pr with flag := if c.kind = .dcor then d.pr.flag else c.pr.flag } }
      if d.cause = heldWrite then t.putCmd c1
      else
        match engRead { s with hold := false } c d.faddr (d.cause - 256) with
        | .ok (s1, r) =>
          ({ s1 with hold := true, early := s1.early ++ [{ cmd := cmd, va := d.faddr, size := d.cause - 256, got := some r }] } : State).putCmd c1
        | .error _ => s
    else { t with early := t.early.filter (fun x => x.cmd ≠ cmd) }
  | _, _ => t

/-- The pace of a turn: what it has cut, and whether its messages go out (R125, R352). -/
def pace (s : State) (turn : Turn) (t : State) : State :=
  match stepCmd turn.plain with
  | some cmd => if t.hold || !t.early.isEmpty then cutStep s t cmd else t
  | none => t

/-- Ends a step that began in s: what all-bank mode holds back waits (R289), armed injections fire (R342), stopped tasks whose accesses are
performed end (R334), and the messages of a turn that is not slow go out (R352). An access that its stream has gone past is performed before a
step after which it would trap, and the turn comes next: a trap of it would not be precise any more (R331). DESIGN CHOICE, log entry 20. -/
def finish (s : State) (own : Option Nat) (turn : Turn) (o : Out) : Out :=
  match allBankGate s own turn (match o with | .next t => .next (pace s turn t) | o => o) with
  | .next t =>
    let u := endStopped (fireFocus t)
    match lastChance s u with
    | some x => .next { flushLinks (leaveRead s x.1 x.2) with turns := turn :: s.turns, seen := [], hold := false }
    | none => .next { (if u.hold then u else flushLinks u) with seen := [], hold := false }
  | o => o

/-! ### Placing a program (R97, R100 to R103, R311, R320) -/

/-- The node record of a placed program: one group, one block, one cluster, the whole of a core's windows, 256 lane registers. -/
def placedNode : Nat :=
  0xFFFF * 2 ^ 2576 + 15 * 2 ^ 2572 + 1 * 2 ^ 1312 + 2 * 2 ^ 1294 + 1 * 2 ^ 1279 + 1024 * 2 ^ 1268 + 128 * 2 ^ 1260 + 32 * 2 ^ 1254

def placedTask : Task :=
  { id := 1, replay := 0, node := 0, img := placedNode, q := 0, asid := 1, gen := 0, cls := 1, seed := 0, phase := .admitted, adm := 0,
    args := [], argTag := [], launched := [⟨1, 0, 0, 0⟩], gone := [], retired := [], bars := [], cl := [], clGo := [], saved := [], tl := [],
    ctxNum := [], ctxDone := [], hk := [], hkAt := [], hkTag := [], hkPoison := [] }

/-- A group in slot 0 of core 0 with everything that its core grants. -/
def placedGroup : Group :=
  { Group.idle with
    key := ⟨1, 0, 0, 0⟩
    place := { q := 0, core := 0, slot := 0, bound := true, bid := blockId 1 0 0, spBase := 0, spSlots := 1024, tsBase := 0, tsFr := 128,
               bsBase := 0, bsu := 32, lrBase := 0, lregs := 256, tmask := 0xFFFF }
    sp := { Specials.reset with exmask := 0xFFFFFFFF, launchEx := 0xFFFFFFFF, asid := 1, lcb := 0x10000 }
    pc := 0x1000 }

/-- The ASID entry, the root and one leaf: the first GiB of virtual space maps to the second GiB of DRAM, readable, writable and
executable, in R pages with ATOM 1. -/
def placedTables : List (Nat × Byte) :=
  placeBytes 8 8 (0x40000 + 1) ++ placeBytes 0x40000 8 (0x80000 + 1) ++
  placeBytes 0x80000 8 (1 * 2 ^ 60 + 1 * 2 ^ 58 + 0x40000000 + 0x1F)

/-- A device that has started and runs one group. -/
def placeProgram (s : State) : State :=
  { s with
    g := placedGroup, tasks := s.tasks ++ [placedTask], asidBase := 0, mem := ssetMany 0 s.mem placedTables
    svc := { s.svc with powered := true, stage := 9, ready := true, coreCount := 64, usable := [(0, quarterSize)] } }

/-- Where a fetch of the focus group reads a virtual address. -/
def codePlace (s : State) (va : Word) : Option Nat :=
  if !canIssue s then none
  else
    match translate s s.g.place.coreNo s.g.sp.asid.toNat s.g.sp.gen.toNat s.g.priv .fetch va with
    | .ok x => some x.pa
    | .error _ => none

/-- Puts the bytes of a word where the focus group fetches an address. -/
def placeCode (s : State) (va : Word) (n w : Nat) : State :=
  match codePlace s va with
  | some p => { s with mem := ssetMany 0 s.mem (placeBytes p n w) }
  | none => s

/-- A lane program whose next word stands first in its section. -/
def placedRun (g : Group) : Group :=
  { g with
    ln := { LaneCtl.empty with
      l0 := some (Path.full 0)
      runs := [{ lrun := true, started := true, first := 0, next := 0, left := 0, cap := g.cap }] } }

/-- A device whose next step runs the instruction w: a program is placed first where no group can issue. -/
def placeWord (s : State) (nbits w : Nat) : State :=
  let s1 := if (codePlace s s.g.pc).isSome && s.svc.powered then s else placeProgram s
  if nbits ≤ 32 then { placeCode s1 s1.g.pc 4 w with turns := [.scalar] }
  else
    let s2 := s1.upG placedRun
    { placeCode s2 s2.g.lcbNow 12 w with turns := [.lane false] }

end Sys2Proof.Machine
end

