-- ==== Sys2Proof/Machine/Step.lean ====
section
/-! DEFINITION. One step of the device, and the placing of one instruction where the next step runs it. -/

namespace Sys2Proof.Machine

/-- One step: the turn of the schedule, and the meaning of the instruction or event that it brings. -/
def step (s : State) : Host.Outcome State Fault Refusal :=
  let t := takeTurn s
  match nextPower t.1 t.2 with
  | .run i s1 => finish t.2 (ownCmd i) t.1 (exec i s1)
  | .done o => finish t.2 none t.1 o

/-- s with an instruction stored where the next step fetches it. The spec has no loader: a program is in memory, and is launched, by
a host's doing. -/
def State.withFetchWord (s : State) (nbits w : Nat) : State := placeWord s nbits w

end Sys2Proof.Machine
end

