-- ==== Sys2Proof/Safety.lean ====
section
/-! DEFINITION. What statements about the machine are said in: runs that do not stop, the canonical form of memory and of the register
files, when a word issues, and what an element of a lane word comes to. -/

namespace Sys2Proof

open Machine

/-! ### Runs and canonical form -/

/-- A run of n steps reaches a state: no fault and no refusal. -/
def RunsTo (n : Nat) (s t : State) : Prop := core.run n s = .next t

/-- Memory in its canonical form: addresses strictly rising, no listed byte zero. -/
def Memory.wf (m : Store Byte) : Bool := swf 0 m

/-- Memory, the tags and the poison of units, and the tag tables are in canonical form. -/
def StoresOk (s : State) : Prop :=
  Memory.wf s.mem = true ∧ swf false s.utag = true ∧ swf false s.upoison = true ∧ swf 0 s.tagTab = true

/-- The register files of a group are in canonical form. -/
def RegsOk (r : Regs) : Prop :=
  swf 0 r.sreg = true ∧ swf false r.stag = true ∧ swf RegFut.none r.fut = true ∧ swf 0 r.vreg = true ∧ swf false r.vtag = true ∧
  swf 0 r.kreg = true ∧ swf false r.ktag = true ∧ swf 0 r.tile = true ∧ swf false r.ttag = true ∧ swf DElem.zero r.dreg = true ∧
  swf 0 r.src = true ∧ swf Token.ok r.tok = true

/-- Two states agree on everything but the focus group and the error logs. -/
def SameButGroup (s t : State) : Prop := t = { s with g := t.g, errs := t.errs }

/-- Two groups agree on everything but their scalar registers, the bookkeeping of bad elements and the program counter. -/
def SameButScalars (g h : Group) : Prop :=
  h = { g with pc := h.pc, r := { g.r with sreg := h.r.sreg, stag := h.r.stag, fut := h.r.fut, bad := h.r.bad } }

/-! ### When a scalar word issues (R16, R161, R162, R181) -/

/-- The state once a scalar word has read its registers: latent errors that it met are logged. -/
def scalarMet (s : State) (reads : List Nat) : State := touchRegs s (fun a i => a = 0x02 && reads.contains i)

/-- The state in which a scalar word has its own effect: the handles that it reads are freed for their completion words. -/
def scalarIssued (s : State) (reads : List Nat) : State := (scalarMet s reads).upG (fun g => reads.foldl Group.consume g)

/-- A scalar word that reads and writes these registers may issue: no word waits before it, no run holds a register, no register that
it reads is pending. -/
def ScalarIssues (s : State) (reads writes : List Nat) : Prop :=
  s.g.qs.pendS = none ∧ scoreboardHolds s reads writes = false ∧ ∀ n ∈ reads, s.g.blocked n = false

/-- It issues, no register that it reads is bad, and no register that it writes is pending. -/
def ScalarReady (s : State) (reads writes : List Nat) : Prop :=
  ScalarIssues s reads writes ∧ badScalar s.g reads = none ∧ ∀ n ∈ writes, (scalarIssued s reads).g.blocked n = false

/-- A scalar word that is ready writes register d with a value and a tag, and goes to the next word. -/
def PutsScalar (i : Instr) (s : State) (reads : List Nat) (d : BitVec 6) (v : Word) (t : Bool) : Prop :=
  exec i s = .next ((scalarIssued s reads).putS d.toNat v t)

/-- A scalar word that may issue enters the handler for a trap, or restarts its region, from the state in which its registers are read. -/
def TrapsScalar (i : Instr) (s : State) (reads : List Nat) (t : Trap) : Prop :=
  exec i s = .next (scalarTrap (scalarMet s reads) t)

/-- A request of the focus group for a place of its own device leaves at once: a route leads there, and it may take another request
(R113, R356, R357). -/
def Reaches (s : State) (a : Nat) : Prop :=
  (isLocal a = true ∨ isDie a = true) ∧ noRoute s s.g.place.q a = false ∧ routeRoom s s.g.place.q a = true

/-- The group has no access of its own under way: nothing in its issue queue, no write held, no request out. -/
def Quiet (s : State) : Prop := s.g.qs.iq = [] ∧ heldWrites s s.g = [] ∧ groupOuts s s.g = []

/-! ### Trap frames (R325, R327, R332, R333) -/

/-- The hardware of the focus group finds the frame of a level in 0xC00 bytes of memory, whatever stands in them: no walk for its pages
reads them. -/
def FrameAt (s : State) (lvl base : Nat) : Prop :=
  base % 64 = 0 ∧ base + 0xC00 ≤ 2 ^ 52 ∧
  ∀ u : State, u.tlb = s.tlb → u.asidBase = s.asidBase → u.genCopy = s.genCopy → u.svc = s.svc →
    (∀ a, a < base ∨ base + 0xC00 ≤ a → homeByte u a = homeByte s a ∧ homePoison u a = homePoison s a) →
    ∀ o < 0xC00, ∀ acc ∈ [Acc.load, Acc.store], ∃ x, ownPlace u s.g acc (frameAddr s.g lvl o) = some x ∧ x.pa = base + o

/-- A run whose counts and captured registers a run queue entry holds. -/
def RunFits (r : Run) : Prop :=
  (if r.lrun then r.left = 0 else 1 ≤ r.left ∧ r.first.toNat ≤ r.next.toNat ∧ r.next.toNat + r.left ≤ r.first.toNat + 16) ∧
  r.cap.mode &&& definedBits 0x000 = r.cap.mode ∧ r.cap.rgn &&& definedBits 0x009 = r.cap.rgn ∧
  r.cap.drange &&& definedBits 0x00A = r.cap.drange ∧ r.cap.dctl &&& definedBits 0x00D = r.cap.dctl ∧
  ∀ j, sget 0 r.cap.shape j &&& definedBits 0x010 = sget 0 r.cap.shape j

/-- The control state of a group is one that its frame holds. -/
def FrameFits (g : Group) : Prop :=
  g.ln.stack.length = min 16 (g.ln.stack.length + g.ln.biv) ∧ g.ln.stack.length + g.ln.biv < 512 ∧ g.ln.runs.length ≤ 4 ∧
  (∀ r ∈ g.ln.runs, RunFits r) ∧ g.sp.trapc &&& definedBits 0x100 = g.sp.trapc ∧ g.sp.traplpc &&& definedBits 0x102 = g.sp.traplpc

/-- Two runs stand at the same place with the same captured registers. -/
def SameRun (r q : Run) : Prop :=
  r.lrun = q.lrun ∧ r.started = q.started ∧ r.first = q.first ∧ r.next = q.next ∧ r.left = q.left ∧ r.cap.mode = q.cap.mode ∧
  r.cap.lscale = q.cap.lscale ∧ r.cap.lscaleTag = q.cap.lscaleTag ∧ r.cap.rgn = q.cap.rgn ∧ r.cap.drange = q.cap.drange ∧
  r.cap.dctl = q.cap.dctl ∧ (∀ j < 4, sget 0 r.cap.shape j = sget 0 q.cap.shape j) ∧ ∀ j < 16, sget 0 r.cap.bnd j = sget 0 q.cap.bnd j

/-- What the frame of a group holds stands in a record. -/
def HoldsFrame (b : RecBytes) (g : Group) : Prop := ∀ p ∈ frameParts g, (b.drop p.1).take p.2.length = p.2

/-! ### When a lane word issues (R10, R14, R150, R153, R194) -/

/-- The state once the run of a lane word has begun. -/
def laneBegun (s : State) : State := s.upG Group.startRun

/-- The context of the next lane word. -/
def ctxOf (s : State) : LCtx := laneCtx (laneBegun s).g

/-- The state once a lane word has read its registers. -/
def laneRead (n : LaneNames) (s : State) : State := touchRegs (laneBegun s) (readsElem n (laneBegun s).g (ctxOf s))

/-- The state in which a lane word has its own effect. -/
def laneIssued (n : LaneNames) (s : State) : State := (laneRead n s).upG (fun g => n.sreads.foldl Group.consume g)

/-- A lane word issues: no word waits before it, its tokens are complete, its checks of class 1 hold, and no register or tile that it
names is pending, still to be loaded, or held. -/
def LaneIssues (n : LaneNames) (s : State) : Prop :=
  s.g.qs.pendL = none ∧ tokensBusy s.g n.wt = false ∧ issueOk (laneBegun s).g (ctxOf s) n.op n.uses n.tiles = true ∧
  (∀ r ∈ n.sreads, s.g.blocked r = false) ∧ lateHit n s.g (ctxOf s) = false ∧ ∀ t ∈ n.tiles, ∀ i < t.2, tileHeld s (t.1 + i) = false

/-- It issues, and no token that it waits for has the status FAULT. -/
def LaneReady (n : LaneNames) (s : State) : Prop := LaneIssues n s ∧ lateToken s.g n.wt = none

/-- The state after a lane word: its path, or its run, stands at the next word. -/
def laneDone (c : LCtx) (s : State) : State := s.upG (Group.laneNext c)

/-- A lane word enters the handler for a trap of one of its lanes, from the state in which it has read its registers. -/
def TrapsLane (i : Instr) (n : LaneNames) (s : State) (t : Trap) (lane : Nat) : Prop :=
  exec i s = .next (takeTrap (laneRead n s) t ⟨true, (ctxOf s).slot, (ctxOf s).idx, lane, (ctxOf s).cap.rgn⟩ s.g.pc)

/-! ### Lane loops (R215) -/

/-- The lanes that a word works on: active and predicated true. -/
def workLanes (g : Group) (c : LCtx) (w : LWord) : List Nat := lanesOf (actMask g c &&& predMask g w.pn w.pk)

/-- The checks that a lane loop makes come out well: a lane is active, TG = 1 finds no proposal, no source is bad, no bound is broken. -/
def LoopRuns {α : Type} (w : LWord) (c : LCtx) (g : Group) (srcs tests : Nat → List Src) (f : Nat → Option α) : Prop :=
  actMask g c ≠ 0 ∧ settledTest g c w (lanesOf (actMask g c)) tests = none ∧ badLane g w (workLanes g c w) srcs = none ∧
  ∀ l ∈ workLanes g c w, (f l).isSome = true

/-- What a lane loop writes, lane by lane. -/
def loopOuts (g : Group) (c : LCtx) (w : LWord) (ty : Nat) (f : Nat → Option Rounded) : List (Nat × List Elem × Flags) :=
  (workLanes g c w).filterMap (fun l => (f l).map (fun x => (l, toElems ty x.1, x.2)))

/-- The registers of a value. -/
def regCount (ty : Nat) : Nat := if tyPair ty then 2 else 1

/-- The state after a lane loop: every working lane holds its result with the tag of R64, its flags stand in STATUS, and the lanes
that drew have counted their draw. -/
def elementDone (w : LWord) (ty : Nat) (srcs : Nat → List Src) (marked drew : Nat → Bool) (f : Nat → Option Rounded) (c : LCtx) (s : State) : State :=
  s.upG (writeLanes c w (c.rn w.vd.toNat) (regCount ty) (loopOuts s.g c w ty f) (fun l => resultTag s.g c w (marked l) (srcs l))
    ((workLanes s.g c w).filter drew))

/-- A lane word whose result is one value per lane: f gives a lane's value from the state in which the word issues; cross says that
TG = 1 tests only the lanes that are written, and that a value of no source at all is not rounded. -/
def ElementResult (op : Nat) (i : Instr) (w : LWord) (ty : Nat) (cross : Bool) (srcs : Group → LCtx → Nat → List Src)
    (marked draws : LCtx → Bool) (f : Group → LCtx → Nat → Option Rounded) : Prop :=
  ∀ s : State, LaneReady (namesOf op w) s →
    let c := ctxOf s
    let s1 := laneIssued (namesOf op w) s
    let tests := fun l => if !cross || (actMask s1.g c &&& predMask s1.g w.pn w.pk).getLsbD l then srcs s1.g c l else []
    LoopRuns w c s1.g (srcs s1.g c) tests (f s1.g c) →
    let rounds := fun l => !cross || !(srcs s1.g c l).isEmpty
    exec i s = .next (laneDone c (elementDone w ty (srcs s1.g c) (fun l => marked c && rounds l) (fun l => draws c && rounds l) (f s1.g c) c s1))

/-- A lane word whose result is one bit per lane of predicate register VD (R67, R221). -/
def PredicateResult (op : Nat) (i : Instr) (w : LWord) (srcs : Group → LCtx → Nat → List Src) (f : Group → LCtx → Nat → Bool × Flags) : Prop :=
  ∀ s : State, LaneReady (namesOf op w) s →
    let c := ctxOf s
    let s1 := laneIssued (namesOf op w) s
    let pt := workLanes s1.g c w
    LoopRuns w c s1.g (srcs s1.g c) (srcs s1.g c) (fun l => some (f s1.g c l)) →
    exec i s = .next (laneDone c (s1.setG
      ((s1.g.writePred w.vd.toNat (pt.map (fun l => (l, (f s1.g c l).1)))
        (pt.any (fun l => resultTag s1.g c w false (srcs s1.g c l))) (predTag s1.g w.pk)).orStatus
        (pt.foldl (fun a l => a ||| (f s1.g c l).2) 0))))

/-- A lane word whose result is one scalar register (R239, R242): value gives it with its flags from the working lanes; without a
working lane sd takes idle. -/
def ScalarResult (op : Nat) (i : Instr) (w : LWord) (srcs : Group → LCtx → Nat → List Src) (marked draws : LCtx → Bool) (idle : Word)
    (value : Group → LCtx → List Nat → Word × Flags) : Prop :=
  ∀ s : State, LaneReady (namesOf op w) s →
    let c := ctxOf s
    let s1 := laneIssued (namesOf op w) s
    let g := s1.g
    let pt := workLanes g c w
    let n := w.vd.toNat
    LoopRuns w c g (srcs g c) (fun l => if pt.contains l then srcs g c l else []) (fun l => some l) →
    s1.g.blocked n = false →
    exec i s = .next (laneDone c (s1.setG (
      if pt.isEmpty then g.setS n idle (taint g c w)
      else
        let g1 := g.setS n (value g c pt).1 (resultTag g c w (marked c) (pt.flatMap (srcs g c)))
        (if draws c then (pt.take 1).foldl Group.bumpSrc g1 else g1).orStatus (value g c pt).2)))

/-! ### Lane words that reach memory (R243 to R249) -/

/-- The checks of a memory word come out well, with the places that its working lanes reach: a lane is active, TG = 1 finds no proposal,
every address is accepted, no operand is bad. -/
def MemRuns (w : LWord) (sp : Bool) (acc : Acc) (z : Nat) (srcs : Nat → List Src) (c : LCtx) (s : State) (ts : List (Nat × Target)) : Prop :=
  actMask s.g c ≠ 0 ∧ settledTest s.g c w (lanesOf (actMask s.g c)) srcs = none ∧ laneTargets s c w sp acc z (workLanes s.g c w) = .ok ts ∧
  badLane s.g w (workLanes s.g c w) srcs = none

/-- The accesses of a waiting word came back clean: none met poison or a peer that is down, and TG = 1 finds no proposal. -/
def CameClean (w : LWord) (p : Pend) : Prop := firstPoison p.got = none ∧ (w.tg = 1 → ∀ r ∈ p.got, r.prop = false)

/-- The state after a word whose reads have performed: each lane that has a value holds it. -/
def readsWritten (w : LWord) (lanes : List Nat) (value : Nat → Option (List Elem × Bool)) (c : LCtx) (s : State) : State :=
  (s.upG (fun g => g.clearPend true)).upG (writeLanes c w (c.rn w.vd.toNat) (regCount w.ty.toNat)
    (lanes.filterMap (fun l => (value l).map (fun v => (l, v.1, (0 : Flags)))))
    (fun l => match value l with | some v => v.2 | none => false) [])

/-- A lane word that reads memory: it waits while its accesses are out, writes its lanes when they are back, and where they perform at
once it does so at once. -/
def ReadsMemory (op : Nat) (i : Instr) (w : LWord) (sp : Bool) (acc : Acc) (srcs : LCtx → Nat → List Src)
    (entries : Group → LCtx → List (Nat × Target) → List Entry) (lanes : Group → LCtx → Pend → List Nat)
    (value : Group → LCtx → Pend → Nat → Option (List Elem × Bool)) : Prop :=
  (∀ (s : State) (p : Pend), s.g.qs.pendL = some p → p.w = i →
    (p.done = false → exec i s = .next s) ∧
    (p.done = true → CameClean w p →
      exec i s = .next (laneDone (laneCtx s.g) (readsWritten w (lanes s.g (laneCtx s.g) p) (value s.g (laneCtx s.g) p) (laneCtx s.g) s)))) ∧
  (∀ (s : State) (ts : List (Nat × Target)), LaneReady (namesOf op w) s →
    let c := ctxOf s
    let s1 := laneIssued (namesOf op w) s
    MemRuns w sp acc (accessSize w.ty.toNat) (srcs c) c s1 ts →
    let u := startReads s1 true i (entries s1.g c ts)
    ∀ p, u.g.qs.pendL = some p →
      (p.done = false → exec i s = .next u) ∧
      (p.done = true → CameClean w p → exec i s = .next (laneDone c (readsWritten w (lanes u.g c p) (value u.g c p) c u))))

/-! ### Conversions and scaled narrow data (R42, R229, R231) -/

/-- An exact value is a NaN or infinite. -/
def NotFinite (v : Val) : Prop := isNan v = true ∨ ∃ neg, v = .inf neg

/-- Output i of the step of R42 on the values x: the exact sum over j of (−1)^popcount(i AND j) · s(j) · x(j), by 2^−3, or in the inverse step
s(i) · 2^−2 by the sum without s(j); rounded once to f32 under RNE. -/
def hadamard (inverse : Bool) (W : BitVec 32) (x : Nat → Val) (i : Nat) : Rounded :=
  let odd := fun j => decide (((List.range 5).filter (fun b => i.testBit b && j.testBit b)).length % 2 = 1)
  let y := sumV false ((List.range 32).map (fun j => if odd j != (!inverse && W.getLsbD j) then negV (x j) else x j))
  let v := (mulV y.1 (.fin false 1 (if inverse then 4 else 8))).1
  let r := roundTo fmtF32 1 0 (if inverse && W.getLsbD i then negV v else v)
  (r.1, r.2 ||| y.2)

/-- One value converted from type src to type dst by the row of R229 that applies. -/
def convertedTo (sat : Bool) (m u src dst code : Nat) : Rounded :=
  let v := valOf src code
  if tyInt src && tyInt dst then
    intResult (tyWidth dst) (tySigned dst) sat (if tySigned src then toSigned (tyWidth src) code else (code % 2 ^ tyWidth src : Nat))
  else
    let r := if tyInt dst then convInt (tyWidth dst) (tySigned dst) m u v else roundSat (tyFmt dst) m u sat v
    (r.1, r.2 ||| sigFlag v)

/-- The scale that R231 gives a block of quotients, with its flag. -/
def IsScale (ys : List Val) (sc : Rounded) : Prop :=
  ((∃ y ∈ ys, NotFinite y) ∧ sc = (0xFF, fNV)) ∨
  ((∀ y ∈ ys, ∃ neg, y = .zero neg) ∧ sc = (0x60, 0)) ∨
  ((∀ y ∈ ys, ¬ NotFinite y) ∧ ∃ a ∈ ys, (∀ neg, a ≠ .zero neg) ∧ (∀ y ∈ ys, ltV (absV a) (absV y) = false) ∧
    let q := (divV (absV a) (.fin false 6 1)).1
    sc = if ltV (.fin false 31 1) q then (0xFE, fOF) else ((roundTo fmtE3M5 3 0 q).1, 0))

/-! ### Families of scalar words -/

/-- The registers that a word of SALU or an immediate form reads and writes, and its divisor if it divides (R164 to R166). -/
def aluNames : Instr → Option (List Nat × Nat × Option Nat)
  | .sadd d a b | .ssub d a b | .sand d a b | .sor d a b | .sxor d a b | .sshl d a b | .sshr d a b | .ssra d a b | .smul d a b
  | .smulhI d a b | .smulhN d a b | .sminI d a b | .smaxI d a b | .sminN d a b | .smaxN d a b | .sceq d a b | .scne d a b
  | .scltI d a b | .scltN d a b | .scleI d a b | .scleN d a b => some ([a.toNat, b.toNat], d.toNat, none)
  | .sdivI d a b | .sdivN d a b | .sremI d a b | .sremN d a b => some ([a.toNat, b.toNat], d.toNat, some b.toNat)
  | .spopc d a | .sclz d a | .sctz d a | .sltag d a => some ([a.toNat], d.toNat, none)
  | .saddi d a _ | .sandi d a _ | .sori d a _ | .sxori d a _ | .sshli d a _ | .sshri d a _ | .ssrai d a _ | .scmpi d a _ _ =>
    some ([a.toNat], d.toNat, none)
  | .sli d _ => some ([], d.toNat, none)
  | .slui d _ => some ([d.toNat], d.toNat, none)
  | .ssel d a b c => some ([c.toNat, a.toNat, b.toNat], d.toNat, none)
  | _ => none

end Sys2Proof
end

