-- ==== Sys2Proof/Certificates/Slice0/Obligations.lean ====
section
/-! DEFINITION. The statements about the machine that are to be proved, each formalising what the spec says of it. -/

open Sys2Proof Sys2Proof.Machine

/-! ### Encodings -/

/-- R139, R154 to R157: decoding the word of a well-formed scalar instruction gives it back. -/
def Obligations.ScalarDecodeInvertsEncode : Prop :=
  ∀ (i : Instr) (w : BitVec 32), i.wf = true → encodeScalar i = some w → decodeScalar w = .ok i

/-- R142 to R150, R250, R276: decoding the word of a well-formed lane instruction gives it back. -/
def Obligations.LaneDecodeInvertsEncode : Prop :=
  ∀ (i : Instr) (w : BitVec 96), i.wf = true → encodeLane i = some w → decodeLane w = .ok i

/-- R151, R152: every word that decodes is the word of the well-formed instruction that it decodes to, so that no bit is dropped.
R154, R158: an opcode that the maps do not assign is refused as ILLEGAL, whatever the rest of the word, the lane word of zeros among them; the
scalar word of zeros alone is refused by its own name. -/
def Obligations.DecodeIsExact : Prop :=
  ((∀ (w : BitVec 32) (i : Instr), decodeScalar w = .ok i → i.wf = true ∧ encodeScalar i = some w) ∧
  (∀ (w : BitVec 96) (i : Instr), decodeLane w = .ok i → i.wf = true ∧ encodeLane i = some w)) ∧
  ((∀ w : BitVec 32, 0x31 ≤ (w.extractLsb' 26 6).toNat → decodeScalar w = .error .illegal) ∧
  (∀ w : BitVec 32, (w.extractLsb' 26 6).toNat = 0 → w ≠ 0 → decodeScalar w = .error .illegal) ∧
  decodeScalar 0 = .error .zeroWord ∧
  (∀ w : BitVec 96, 0x41 ≤ (w.extractLsb' 88 8).toNat → decodeLane w = .error .illegal) ∧
  (∀ w : BitVec 96, (w.extractLsb' 88 8).toNat = 0 → decodeLane w = .error .illegal) ∧
  decodeLane 0 = .error .illegal)

/-- The words that the instruction-format chapter works (SADD s3, s1, s2; BR.nez s9 three words back; SMFS s4, STATUS; LISSUE 2 at index 3;
FFMA.f32.rne v3, v1, s8, 2.0 if k2 after t0 t3), those of R166 (the four that build s4; SCMPI.lt.i s6, s1, −5; SSHLI s5, s5, 3), the CALL and
the JMPR beside R171, and FADD.f32.rne v3, v1, v2 of the first steps. -/
def Obligations.WorkedEncodings : Prop :=
  decodeScalar 0x04304200 = .ok (.sadd 3 1 2) ∧
  decodeScalar 0x4089FFFD = .ok (.br 2 9 0xFFFD) ∧
  decodeScalar 0x58400001 = .ok (.smfs 4 1) ∧
  decodeScalar 0x4C400003 = .ok (.lissue 1 3) ∧
  decodeLane 0x140301080051082460004000 = .ok (.ffma
    { vd := 3, va := 1, vb := 8, vc := 0, ty := 0x0A, rm := 1, sat := 0, pn := 0, pk := 2, wt := 9, tg := 0, bk := 1, ck := 2, mod8 := 0,
      imm := 0x4000 }) ∧
  decodeScalar 0x1C400000 = .ok (.sli 4 0) ∧
  decodeScalar 0x204ABCDE = .ok (.slui 4 0xABCDE) ∧
  decodeScalar 0x20412345 = .ok (.slui 4 0x12345) ∧
  decodeScalar 0x20467890 = .ok (.slui 4 0x67890) ∧
  decodeScalar 0x24604BFB = .ok (.scmpi 6 1 2 0x3FB) ∧
  decodeScalar 0x18514003 = .ok (.sshli 5 5 3) ∧
  decodeScalar 0x47F0000A = .ok (.call 63 10) ∧
  decodeScalar 0x480FC000 = .ok (.jmpr 0 63) ∧
  decodeLane 0x110301020051000000000000 = .ok (.fadd
    { vd := 3, va := 1, vb := 2, vc := 0, ty := 0x0A, rm := 1, sat := 0, pn := 0, pk := 0, wt := 0, tg := 0, bk := 0, ck := 0, mod8 := 0,
      imm := 0 })

/-! ### Scalar words -/

/-- R161, R165: the results of the SALU operations, each in the arithmetic of the numbers that its operands stand for.
R165: the counts of bits.
R165: quotient and remainder by a divisor that is not zero; −2^63 by −1 wraps.
R165, R162: a division or remainder by zero, of registers that are not bad, raises INTDIV and writes nothing, once the runs before it are
finished. -/
def Obligations.ScalarArithmetic : Prop :=
  (∀ (s : State) (d a b : BitVec 6), ScalarReady s [a.toNat, b.toNat] [d.toNat] →
    let g := (scalarIssued s [a.toNat, b.toNat]).g
    let x := g.sval a.toNat
    let y := g.sval b.toNat
    let t := g.stag a.toNat || g.stag b.toNat
    let puts := fun (i : Instr) (v : Word) => PutsScalar i s [a.toNat, b.toNat] d v t
    puts (.sadd d a b) (BitVec.ofNat 64 (x.toNat + y.toNat)) ∧
    puts (.ssub d a b) (BitVec.ofInt 64 (x.toInt - y.toInt)) ∧
    (∃ v, puts (.sand d a b) v ∧ ∀ i, v.getLsbD i = (x.getLsbD i && y.getLsbD i)) ∧
    (∃ v, puts (.sor d a b) v ∧ ∀ i, v.getLsbD i = (x.getLsbD i || y.getLsbD i)) ∧
    (∃ v, puts (.sxor d a b) v ∧ ∀ i, v.getLsbD i = (x.getLsbD i ^^ y.getLsbD i)) ∧
    puts (.sshl d a b) (BitVec.ofNat 64 (x.toNat * 2 ^ (y.toNat % 64))) ∧
    puts (.sshr d a b) (BitVec.ofNat 64 (x.toNat / 2 ^ (y.toNat % 64))) ∧
    puts (.ssra d a b) (BitVec.ofInt 64 (x.toInt / 2 ^ (y.toNat % 64))) ∧
    puts (.smul d a b) (BitVec.ofNat 64 (x.toNat * y.toNat)) ∧
    (∃ v, puts (.smulhI d a b) v ∧ ∃ low : Word, x.toInt * y.toInt = v.toInt * 2 ^ 64 + low.toNat) ∧
    (∃ v, puts (.smulhN d a b) v ∧ ∃ low : Word, x.toNat * y.toNat = v.toNat * 2 ^ 64 + low.toNat) ∧
    (∃ v, puts (.sminI d a b) v ∧ v.toInt = min x.toInt y.toInt) ∧
    (∃ v, puts (.smaxI d a b) v ∧ v.toInt = max x.toInt y.toInt) ∧
    (∃ v, puts (.sminN d a b) v ∧ v.toNat = min x.toNat y.toNat) ∧
    (∃ v, puts (.smaxN d a b) v ∧ v.toNat = max x.toNat y.toNat) ∧
    puts (.sceq d a b) (if x = y then 1 else 0) ∧
    puts (.scne d a b) (if x = y then 0 else 1) ∧
    puts (.scltI d a b) (if x.toInt < y.toInt then 1 else 0) ∧
    puts (.scltN d a b) (if x.toNat < y.toNat then 1 else 0) ∧
    puts (.scleI d a b) (if x.toInt ≤ y.toInt then 1 else 0) ∧
    puts (.scleN d a b) (if x.toNat ≤ y.toNat then 1 else 0)) ∧
  (∀ (s : State) (d a : BitVec 6), ScalarReady s [a.toNat] [d.toNat] →
    let g := (scalarIssued s [a.toNat]).g
    let x := g.sval a.toNat
    let puts := fun (i : Instr) (v : Word) => PutsScalar i s [a.toNat] d v (g.stag a.toNat)
    (∃ v, puts (.spopc d a) v ∧ ∃ l : List Nat, l.Nodup ∧ (∀ i, i ∈ l ↔ x.getLsbD i = true) ∧ v.toNat = l.length) ∧
    (∃ v, puts (.sclz d a) v ∧ v.toNat ≤ 64 ∧ x.toNat < 2 ^ (64 - v.toNat) ∧ (v.toNat < 64 → 2 ^ (63 - v.toNat) ≤ x.toNat)) ∧
    (∃ v, puts (.sctz d a) v ∧ v.toNat ≤ 64 ∧ 2 ^ v.toNat ∣ x.toNat ∧ (v.toNat = 64 ↔ x = 0) ∧ (x ≠ 0 → ¬ 2 ^ (v.toNat + 1) ∣ x.toNat))) ∧
  (∀ (s : State) (d a b : BitVec 6), ScalarReady s [a.toNat, b.toNat] [d.toNat] →
    let g := (scalarIssued s [a.toNat, b.toNat]).g
    let x := g.sval a.toNat
    let y := g.sval b.toNat
    let puts := fun (i : Instr) (v : Word) => PutsScalar i s [a.toNat, b.toNat] d v (g.stag a.toNat || g.stag b.toNat)
    y ≠ 0 →
    (∃ q r : Word, puts (.sdivI d a b) q ∧ puts (.sremI d a b) r ∧
      (if x.toInt = -2 ^ 63 ∧ y.toInt = -1 then q = x ∧ r = 0
       else x.toInt = q.toInt * y.toInt + r.toInt ∧ r.toInt.natAbs < y.toInt.natAbs ∧ (0 ≤ x.toInt → 0 ≤ r.toInt) ∧ (x.toInt ≤ 0 → r.toInt ≤ 0))) ∧
    (∃ q r : Word, puts (.sdivN d a b) q ∧ puts (.sremN d a b) r ∧ x.toNat = q.toNat * y.toNat + r.toNat ∧ r.toNat < y.toNat)) ∧
  (∀ (s : State) (d a b : BitVec 6), ScalarIssues s [a.toNat, b.toNat] [d.toNat] → badScalar s.g [a.toNat, b.toNat] = none →
    (scalarIssued s [a.toNat, b.toNat]).g.sval b.toNat = 0 → s.g.lanesDone = true →
    ∀ i ∈ [Instr.sdivI d a b, .sdivN d a b, .sremI d a b, .sremN d a b], TrapsScalar i s [a.toNat, b.toNat] (mkTrap 0x15 0))

/-- R166: the immediate forms.
R166: SLI, SLUI and SSEL. -/
def Obligations.ImmediateForms : Prop :=
  (∀ (s : State) (d a : BitVec 6), ScalarReady s [a.toNat] [d.toNat] →
    let g := (scalarIssued s [a.toNat]).g
    let x := g.sval a.toNat
    let puts := fun (i : Instr) (v : Word) => PutsScalar i s [a.toNat] d v (g.stag a.toNat)
    ∀ (k : BitVec 14) (n : BitVec 6) (cond : BitVec 4) (m : BitVec 10), cond.toNat ≤ 9 →
    puts (.saddi d a k) (BitVec.ofInt 64 (x.toInt + k.toInt)) ∧
    (∃ v, puts (.sandi d a k) v ∧ ∀ i, v.getLsbD i = (x.getLsbD i && (if i < 14 then k.getLsbD i else k.getLsbD 13))) ∧
    (∃ v, puts (.sori d a k) v ∧ ∀ i, v.getLsbD i = (x.getLsbD i || k.getLsbD i)) ∧
    (∃ v, puts (.sxori d a k) v ∧ ∀ i, v.getLsbD i = (x.getLsbD i ^^ k.getLsbD i)) ∧
    puts (.sshli d a n) (BitVec.ofNat 64 (x.toNat * 2 ^ n.toNat)) ∧
    puts (.sshri d a n) (BitVec.ofNat 64 (x.toNat / 2 ^ n.toNat)) ∧
    puts (.ssrai d a n) (BitVec.ofInt 64 (x.toInt / 2 ^ n.toNat)) ∧
    puts (.scmpi d a cond m) (if [decide (x.toInt = m.toInt), decide (x.toInt ≠ m.toInt), decide (x.toInt < m.toInt),
      decide (x.toNat < (m.signExtend 64).toNat), decide (x.toInt ≤ m.toInt), decide (x.toNat ≤ (m.signExtend 64).toNat),
      decide (m.toInt < x.toInt), decide ((m.signExtend 64).toNat < x.toNat), decide (m.toInt ≤ x.toInt),
      decide ((m.signExtend 64).toNat ≤ x.toNat)].getD cond.toNat false then 1 else 0)) ∧
  ((∀ (s : State) (d : BitVec 6) (k : BitVec 20), ScalarReady s [] [d.toNat] →
    PutsScalar (.sli d k) s [] d (BitVec.ofInt 64 k.toInt) false) ∧
  (∀ (s : State) (d : BitVec 6) (k : BitVec 20), ScalarReady s [d.toNat] [d.toNat] →
    let g := (scalarIssued s [d.toNat]).g
    PutsScalar (.slui d k) s [d.toNat] d (BitVec.ofNat 64 ((g.sval d.toNat).toNat * 2 ^ 20 + k.toNat)) (g.stag d.toNat)) ∧
  (∀ (s : State) (d a b c : BitVec 6), ScalarReady s [c.toNat, a.toNat, b.toNat] [d.toNat] →
    let g := (scalarIssued s [c.toNat, a.toNat, b.toNat]).g
    PutsScalar (.ssel d a b c) s [c.toNat, a.toNat, b.toNat] d (if g.sval c.toNat = 0 then g.sval b.toNat else g.sval a.toNat)
      (g.stag a.toNat || g.stag b.toNat || g.stag c.toNat)))

/-- R140, R161: what a register-only scalar word leaves alone when it goes on: everything but its destination, the handles that it
reads, the marks of bad elements and the program counter. A destination s0 takes nothing. -/
def Obligations.ScalarFrame : Prop :=
  ∀ (i : Instr) (s : State) (reads : List Nat) (d : Nat) (div : Option Nat), aluNames i = some (reads, d, div) →
    RegsOk s.g.r → s.errs.latent = [] → ScalarReady s reads [d] →
    (∀ b, div = some b → (scalarIssued s reads).g.sval b ≠ 0) →
    ∃ t, exec i s = .next t ∧
      SameButGroup s t ∧ t.errs = s.errs ∧ SameButScalars s.g t.g ∧ t.g.pc = s.g.pc + 4 ∧
      (∀ n, n ≠ d → s.g.fut n = .none → t.g.sval n = s.g.sval n ∧ t.g.stag n = s.g.stag n ∧ t.g.fut n = .none) ∧
      (∀ n, n ≠ d → n ∉ reads → t.g.sval n = s.g.sval n ∧ t.g.stag n = s.g.stag n ∧ t.g.fut n = s.g.fut n) ∧
      (d ≠ 0 → t.g.fut d = .none) ∧ t.g.sval 0 = 0 ∧ t.g.stag 0 = false ∧
      (∀ a, homeByte t a = homeByte s a)

/-- R12, R141: an aligned scalar word is fetched from home, at the physical address of its own translation; that a fetch reads home as it is
at the step, where R141 lets it return an older line, is the model's choice (log entry 106).
R12, R138: a scalar turn runs the word at the program counter, where that decodes: the step is exec of it, with the bookkeeping
of all-bank mode, of armed injections and of errors met by its walks around it. R162, R163: a word that waits for its access runs again
without a fetch, and a cause that the stream has met is reported once the runs before its word are finished.
R151: a fetched scalar word that decodes to no instruction raises ZEROWORD or ILLEGAL, through the same step. -/
def Obligations.StepRunsTheScalarWord : Prop :=
  (∀ (s : State) (g : Machine.Group) (pc : Word) (x : Xlat), pc.toNat % 4 = 0 →
    translate s g.place.coreNo g.sp.asid.toNat g.sp.gen.toNat g.priv .fetch pc = .ok x → homePoison s x.pa = false →
    fetchCode s g pc 4 = .ok (homeNat s x.pa 4)) ∧
  (∀ (s : State) (n : Nat) (i : Instr), s.svc.powered = true → (takeTurn s).1 = .scalar →
    let s1 := armFocus (countPassed (takeTurn s).2)
    let s2 := touchCode s1 s1.g.pc 4
    canIssue s1 = true → s1.g.met = none → s1.g.qs.pendS = none → fetchCode s2 s2.g s2.g.pc 4 = .ok n →
    decodeScalarBytes (leBytes 4 n) = .ok (i, []) →
    step s = finish (takeTurn s).2 (ownCmd i) (takeTurn s).1 (exec i (walksTouched s2 (scalarVas s2 i)))) ∧
  (∀ s : State, s.svc.powered = true → (takeTurn s).1 = .scalar →
    let s1 := armFocus (countPassed (takeTurn s).2)
    (∀ p, canIssue s1 = true → s1.g.met = none → s1.g.qs.pendS = some p → step s = finish (takeTurn s).2 (ownCmd p.w) (takeTurn s).1 (exec p.w s1)) ∧
    (∀ t, canIssue s1 = true → s1.g.met = some t →
      step s = finish (takeTurn s).2 none (takeTurn s).1 (.next (if s1.g.lanesDone then scalarTrap s1 t else s1)))) ∧
  (∀ (s : State) (n : Nat) (e : DecodeError), s.svc.powered = true → (takeTurn s).1 = .scalar →
    let s1 := armFocus (countPassed (takeTurn s).2)
    let s2 := touchCode s1 s1.g.pc 4
    canIssue s1 = true → s1.g.met = none → s1.g.qs.pendS = none → fetchCode s2 s2.g s2.g.pc 4 = .ok n → n < 2 ^ 32 →
    decodeScalarBytes (leBytes 4 n) = .error e → s2.g.lanesDone = true → s2.g.qs.pendS = none →
    step s = finish (takeTurn s).2 none (takeTurn s).1 (.next (scalarTrap (scalarMet s2 []) (mkTrap (if n = 0 then 0x02 else 0x01) 0))))

/-- R12, R18, R20, R21: a lane turn makes the pops that are due, with their reloads, and runs the word at which the run, or the path of the
slot, stands, where that decodes. R163, R268: a word that waits for its accesses, and an MMA under way, run again without a fetch. -/
def Obligations.StepRunsTheLaneWord : Prop :=
  ∀ (s : State) (slot : Bool), s.svc.powered = true → (takeTurn s).1 = .lane slot →
    let s1 := armFocus (countPassed (takeTurn s).2)
    canIssue s1 = true →
    (∀ p, s1.g.qs.pendL = some p → step s = finish (takeTurn s).2 (ownCmd p.w) (takeTurn s).1 (exec p.w s1)) ∧
    (∀ m, s1.g.qs.pendL = none → s1.g.ln.mword = some m → step s = finish (takeTurn s).2 none (takeTurn s).1 (exec (.mma m.2) s1)) ∧
    (∀ (k : Bool) (w : BitVec 96) (i : Instr), s1.g.qs.pendL = none → s1.g.ln.mword = none →
      let x := settleLane 17 (s1.upG Group.startRun)
      let s2 := onSlot x.1 k
      let s3 := touchCode s2 (s2.g.lcbNow + BitVec.ofNat 64 (12 * (laneCtx s2.g).idx.toNat)) 12
      laneStop x.1 x.2 = none → pickSlot x.1.g slot = some k → fetchLane s3 s3.g (laneCtx s2.g).idx = .ok w →
      decodeLaneBytes (leBytes 12 w.toNat) = .ok (i, []) →
      step s = finish (takeTurn s).2 (ownCmd i) (takeTurn s).1 (exec i (walksTouched s3 (laneVas s3 i))))

/-- R16, R114: the scalar stream goes on past a load, an atomic or an SLTAG that is out: the word is left behind it, its register is busy, and
nothing else of registers or memory changes. A word that names the register waits, and the access gives it its value when it performs: the
value with the tag of the unit and of the address, or of SLTAG tag and poison mark. A lane word that names a register which such an access of
the lane stream has still to write waits. R331: a stream does not go past an access that would trap if it were performed at that step, and an
access that it has gone past is performed before a step after which it would trap, the turn of which comes next.
How far a stream goes past its accesses is the model's choice (log entry 20). -/
def Obligations.StreamsGoAhead : Prop :=
  (∀ (s : State) (lane : Bool), s.svc.powered = true → (takeTurn s).1 = .ahead lane →
    step s = finish (takeTurn s).2 none (takeTurn s).1 (.next (goAhead (armFocus (takeTurn s).2) lane))) ∧
  (∀ (s : State) (d a b : BitVec 6) (k : BitVec 14) (sp : BitVec 1) (opn typ : BitVec 3) (p : Pend),
    RegsOk s.g.r → canIssue s = true → s.g.qs.pendS = some p →
    p.w ∈ [Instr.sldw d a k, .sldd d a k, .satom d a b sp opn 1 typ, .sltagMem d a, .sltagSp d a] → p.got = [] →
    (∀ e ∈ awaited s false, failsNow s e = false) →
    let t := goAhead s false
    t.g.pc = s.g.pc + 4 ∧ t.g.qs.pendS = none ∧ (d ≠ 0 → t.g.fut d.toNat = .busy) ∧ (∀ n, n ≠ d.toNat → t.g.fut n = s.g.fut n) ∧
    (∀ n, t.g.sval n = s.g.sval n ∧ t.g.stag n = s.g.stag n) ∧ t.rest = s.rest ∧
    t.g.qs.iq.map (fun e => (e.kind, e.addr, e.size)) = s.g.qs.iq.map (fun e => (e.kind, e.addr, e.size)) ∧
    (∀ e ∈ t.g.qs.iq, e.kind.isRead = true → e.lw = false → e.late.isSome = true) ∧ (∀ x, homeByte t x = homeByte s x)) ∧
  (∀ (s : State) (p : Pend) (lane : Bool), (if lane then s.g.qs.pendL else s.g.qs.pendS) = some p →
    (∃ e ∈ awaited s lane, failsNow s e = true) → goAhead s lane = s) ∧
  (∀ (g : Machine.Group) (e : Entry) (r : LaneRes) (n : Nat) (t : Bool), RegsOk g.r → n ≠ 0 → e.late = some (.sreg n t) → e.kind = .load →
    let h := g.answer e r
    h.sval n = (if e.size = 4 then BitVec.ofInt 64 (r.val.setWidth 32).toInt else r.val) ∧ h.stag n = (r.prop || t) ∧ h.fut n = .none ∧
    h.pc = g.pc ∧ h.qs = g.qs ∧ ∀ m, m ≠ n → h.sval m = g.sval m ∧ h.stag m = g.stag m ∧ h.fut m = g.fut m) ∧
  (∀ (g : Machine.Group) (e : Entry) (r : LaneRes) (n : Nat), RegsOk g.r → n ≠ 0 → e.late = some (.mark n) →
    let h := g.answer e r
    h.sval n = (if r.prop then 1 else 0) + (if r.poison then 2 else 0) ∧ h.stag n = false ∧ h.fut n = .none ∧
    h.pc = g.pc ∧ h.qs = g.qs ∧ ∀ m, m ≠ n → h.sval m = g.sval m ∧ h.stag m = g.stag m ∧ h.fut m = g.fut m) ∧
  (∀ (s : State) (i : Instr) (op : Nat) (w : LWord), i.general = some (op, w) → i ∈ [Instr.vadd w, .vmul w, .fadd w, .vst w, .vld w] →
    s.g.qs.pendL = none → tokensBusy s.g w.wt = false →
    issueOk (laneBegun s).g (ctxOf s) op (laneRegs op w) (laneTiles op w) = true → lateHit (namesOf op w) s.g (ctxOf s) = true →
    exec i s = .next s) ∧
  (∀ (s t u : State) (own : Option Nat) (turn : Turn) (key : GroupKey) (k : Nat),
    allBankGate s own turn (.next (pace s turn t)) = .next u → lastChance s (endStopped (fireFocus u)) = some (key, k) →
    finish s own turn (.next t) = .next { flushLinks (leaveRead s key k) with turns := turn :: s.turns, seen := [], hold := false })

/-- An event of the schedule runs as it stands. Without power nothing runs but the return of power: R375 does not say so, and the stop is the
model's choice (log entry 86).
R114, R125, R352: a slow turn is its turn, in which the accesses that enter stand in their queue, an engine's step comes to one sector or line, and
messages wait for others; that the schedule chooses the pace is the model's choice (log entry 132).
R289, R334, R342: the end of a step sends what messages wait, in a slow turn none, and changes nothing else where no GEMV holds all-bank
mode and no turn waits for one, no injection is armed, no task is stopped, no step of an engine stands cut and no access stands in an issue
queue that its stream has gone past. -/
def Obligations.StepTakesEvents : Prop :=
  ((∀ (s : State) (i : Instr), s.svc.powered = true → i.isEvent = true → (∀ l w, i ≠ .notAnInstruction l w) → (takeTurn s).1 = .event i →
    step s = finish (takeTurn s).2 (ownCmd i) (takeTurn s).1 (exec i (armFocus (takeTurn s).2))) ∧
  (∀ s : State, s.svc.powered = false → (takeTurn s).1 ≠ .event .powerOn → step s = .fault .poweredOff) ∧
  (∀ s : State, s.svc.powered = false → (takeTurn s).1 = .event .powerOn →
    step s = finish (takeTurn s).2 none (takeTurn s).1 (exec .powerOn (takeTurn s).2))) ∧
  (∀ (s : State) (u : Turn), s.svc.powered = true → (takeTurn s).1 = .slow u →
    step s = match nextOf u { (takeTurn s).2 with hold := !u.saves } with
      | .run i s1 => finish (takeTurn s).2 (ownCmd i) (.slow u) (exec i s1)
      | .done o => finish (takeTurn s).2 none (.slow u) o) ∧
  (∀ (s t : State) (own : Option Nat) (turn : Turn), (∀ g ∈ s.groups, ∀ e ∈ g.qs.iq, e.late = none) →
    gvHolders s own = [] → t.barred = [] → t.early = [] →
    (t.hold = true → stepCmd turn.plain = none) → t.errs.inj = [] → (∀ x ∈ t.tasks, ∀ c, x.phase ≠ .stopped c) →
    finish s own turn (.next t) = .next { (if t.hold then t else flushLinks t) with seen := [], hold := false }) ∧
  (∀ t : State, (∀ r ∈ t.links.rg, r.d0.queue = [] ∧ r.d1.queue = []) → flushLinks t = t)

/-- R72, R167, R168: a load of a group that has no access under way, from a place of its own device, takes the bytes that the
group sees there, little-endian, sign-extended for SLDW, with the tags of the bytes and of the base. R356: a load of another quarter
crosses a bridge, and one of its own quarter or die leaves the links alone. R112: in a slow turn the load enters the issue queue and waits there.
That the load completes in the step of its issue in other turns is the model's choice (log entry 20).
R163, R168: a load that waits completes when its access has performed; poison in it raises POISON and writes nothing. -/
def Obligations.LoadResults : Prop :=
  (∀ (s : State) (d a : BitVec 6) (k : BitVec 14) (t : Target), ScalarReady s [a.toNat] [d.toNat] → Quiet s → s.quiet = true →
    let s1 := scalarIssued s [a.toNat]
    let at_ := BitVec.ofInt 64 ((s1.g.sval a.toNat).toInt + k.toInt)
    let seen := fun n => leNat ((List.range n).map (fun i => viewByte s1 s1.g t.pk (t.addr + i)))
    let clean := fun n => (List.range n).all (fun i => !viewPoison s1 s1.g t.pk (t.addr + i))
    let tag := fun n => (List.range n).any (fun i => viewTag s1 s1.g t.pk (t.addr + i)) || s1.g.stag a.toNat
    let sent := fun n => crossing s1 s1.g.place.q (t.entry .load n)
    Reaches s1 t.addr → t.member = none → s.hold = false →
    (scalarTarget s1 .load at_ 4 = .ok t → clean 4 = true →
      exec (.sldw d a k) s = .next ((sent 4).putS d.toNat (BitVec.ofInt 64 (BitVec.ofNat 32 (seen 4)).toInt) (tag 4))) ∧
    (scalarTarget s1 .load at_ 8 = .ok t → clean 8 = true →
      exec (.sldd d a k) s = .next ((sent 8).putS d.toNat (BitVec.ofNat 64 (seen 8)) (tag 8)))) ∧
  (∀ (s : State) (d a : BitVec 6) (k : BitVec 14) (t : Target), ScalarReady s [a.toNat] [d.toNat] → s.hold = true →
    let s1 := scalarIssued s [a.toNat]
    let at_ := BitVec.ofInt 64 ((s1.g.sval a.toNat).toInt + k.toInt)
    let waits := fun (i : Instr) (n : Nat) => ∃ u, exec i s = .next u ∧ u.g.qs.pendS = some { w := i, need := 1, got := [] } ∧
      u.g.qs.iq = s1.g.qs.iq ++ [t.entry .load n] ∧ u.g.pc = s.g.pc ∧ ∀ x, homeByte u x = homeByte s x
    (scalarTarget s1 .load at_ 4 = .ok t → waits (.sldw d a k) 4) ∧ (scalarTarget s1 .load at_ 8 = .ok t → waits (.sldd d a k) 8)) ∧
  (∀ (s : State) (q : Nat) (e : Entry), (∃ l, crossing s q e = { s with links := l }) ∧
    (isLocal e.place = false ∨ homeQuarter e.place = q → crossing s q e = s)) ∧
  (∀ (s : State) (d a : BitVec 6) (k : BitVec 14) (r : LaneRes) (p : Pend), s.g.qs.pendS = some p → p.got = [r] → p.need = 1 → r.down = false →
    let s1 := s.upG Group.noPendS
    (r.poison = false →
      (p.w = .sldw d a k → exec (.sldw d a k) s = .next (s1.putS d.toNat (BitVec.ofInt 64 (r.val.setWidth 32).toInt) (r.prop || s.g.stag a.toNat))) ∧
      (p.w = .sldd d a k → exec (.sldd d a k) s = .next (s1.putS d.toNat r.val (r.prop || s.g.stag a.toNat)))) ∧
    (r.poison = true → s.g.lanesDone = true →
      (p.w = .sldw d a k → exec (.sldw d a k) s = .next (scalarTrap s ⟨0x08, r.va, true⟩)) ∧
      (p.w = .sldd d a k → exec (.sldd d a k) s = .next (scalarTrap s ⟨0x08, r.va, true⟩))))

/-- R112, R168: a store enters the issue queue, behind what stands there, with the address that its operands give, its bytes
little-endian and the OR of the tags of data and base; no byte of memory changes, and the program goes on. -/
def Obligations.StoreEnters : Prop :=
  ∀ (s : State) (d a : BitVec 6) (k : BitVec 14) (t : Target), ScalarReady s [d.toNat, a.toNat] [] →
    let s1 := scalarIssued s [d.toNat, a.toNat]
    let at_ := BitVec.ofInt 64 ((s1.g.sval a.toNat).toInt + k.toInt)
    let v := s1.g.sval d.toNat
    let tag := s1.g.stag d.toNat || s1.g.stag a.toNat
    let enters := fun (i : Instr) (n : Nat) => ∃ (e : Entry) (u : State),
      exec i s = .next u ∧ u = (s1.upG (fun g => g.addIq [e])).advance ∧ u.g.qs.iq = s1.g.qs.iq ++ [e] ∧ e.kind = .store ∧ e.pk = t.pk ∧
      e.prop = tag ∧ e.poison = false ∧ e.wr = (List.range n).map (fun i => (t.addr + i, v.extractLsb' (8 * i) 8)) ∧
      (∀ x, homeByte u x = homeByte s x)
    (scalarTarget s1 .store at_ 4 = .ok t → enters (.sstw d a k) 4) ∧ (scalarTarget s1 .store at_ 8 = .ok t → enters (.sstd d a k) 8)

/-- R167, R168, R88: an address that is not aligned raises ALIGN, one in no space PAGE, and a scratchpad form with A[59:24] set PROT.
R170: a kernel argument is eight bytes of the block, little-endian, with the tag that its copy carries; elsewhere ALIGN or PROT.
R211: SLTAG of a register gives its tag, settled; of memory it gives the unit's tag in bit 0 and its poison mark in bit 1. That SLTAG of
memory, where the turn is not a slow one, and SLDK complete in the step of their issue is the model's choice (log entry 20). -/
def Obligations.ArgumentsTagsAndAddressTraps : Prop :=
  (∀ (s : State) (d a : BitVec 6) (k : BitVec 14) (i : Instr) (n : Nat) (reads writes : List Nat),
    (i, n, reads, writes) ∈ [(Instr.sldw d a k, 4, [a.toNat], [d.toNat]), (.sldd d a k, 8, [a.toNat], [d.toNat]),
      (.sstw d a k, 4, [d.toNat, a.toNat], []), (.sstd d a k, 8, [d.toNat, a.toNat], [])] →
    ScalarIssues s reads writes → s.g.lanesDone = true →
    let at_ := BitVec.ofInt 64 (((scalarIssued s reads).g.sval a.toNat).toInt + k.toInt)
    (at_.toNat % n ≠ 0 → TrapsScalar i s reads (mkTrap 0x04 at_)) ∧
    (at_.toNat % n = 0 → at_.toNat / 2 ^ 60 ≠ 0 → at_.toNat / 2 ^ 60 ≠ 15 → TrapsScalar i s reads (mkTrap 0x05 at_)) ∧
    (at_.toNat % n = 0 → at_.toNat / 2 ^ 60 = 15 → at_.toNat / 2 ^ 24 % 2 ^ 36 ≠ 0 → TrapsScalar i s reads (mkTrap 0x06 at_))) ∧
  (∀ (s : State) (d a : BitVec 6) (k : BitVec 14),
    let g := (scalarIssued s [a.toNat]).g
    let o := BitVec.ofInt 64 ((g.sval a.toNat).toInt + k.toInt)
    (ScalarReady s [a.toNat] [d.toNat] → o.toNat % 8 = 0 → o.toNat < g.sp.args.length →
      ∃ v : Word, PutsScalar (.sldk d a k) s [a.toNat] d v (sget false g.sp.argTag (o.toNat / 8) || g.stag a.toNat) ∧
        ∀ i < 8, v.extractLsb' (8 * i) 8 = g.sp.args.getD (o.toNat + i) 0) ∧
    (ScalarIssues s [a.toNat] [d.toNat] → s.g.lanesDone = true →
      (o.toNat % 8 ≠ 0 → TrapsScalar (.sldk d a k) s [a.toNat] (mkTrap 0x04 o)) ∧
      (o.toNat % 8 = 0 → g.sp.args.length ≤ o.toNat → TrapsScalar (.sldk d a k) s [a.toNat] (mkTrap 0x06 o)))) ∧
  ((∀ (s : State) (d a : BitVec 6), ScalarReady s [a.toNat] [d.toNat] →
    PutsScalar (.sltag d a) s [a.toNat] d (if (scalarIssued s [a.toNat]).g.stag a.toNat then 1 else 0) false) ∧
  (∀ (s : State) (d a : BitVec 6) (t : Target), ScalarReady s [a.toNat] [d.toNat] → Quiet s → s.quiet = true →
    let s1 := scalarIssued s [a.toNat]
    let v := BitVec.ofNat 64 ((if viewUnitTag s1 s1.g t.pk t.addr then 1 else 0) + (if viewUnitPoison s1 s1.g t.pk t.addr then 2 else 0))
    let sent := crossing s1 s1.g.place.q { t.entry .load 1 with opn := 8 }
    Reaches s1 t.addr → t.member = none → s.hold = false →
    (globalTarget s1 .load (s1.g.sval a.toNat) = .ok t → exec (.sltagMem d a) s = .next (sent.putS d.toNat v false)) ∧
    (spTarget s1 1 (s1.g.sval a.toNat) = .ok t → exec (.sltagSp d a) s = .next (sent.putS d.toNat v false))))

/-- R209: a reduction enters the issue queue and returns nothing; an atomic with a result, of a group that has no access under way,
performs in one step at its place and gives sd the old value; from another quarter it crosses a bridge. That it does so in the step of its issue,
where the turn is not a slow one, is the model's choice (log entry 20).
R209: the operations of an atomic on old value o and operand b, as codes of the type's width.
R74, R137, R209: an atomic reads its place at home and writes the operation's result there, in one step; nothing else at home changes; a
poisoned unit is left as it is. -/
def Obligations.Atomics : Prop :=
  (∀ (s : State) (d a b : BitVec 6) (space ret : BitVec 1) (opn typ : BitVec 3) (t : Target), 
    let reads := [a.toNat, b.toNat] ++ (if opn = 6 then [d.toNat] else [])
    let s1 := scalarIssued s reads
    let n := if typ = 2 ∨ typ = 3 then 8 else 4
    let e := { t.entry (if ret = 1 then .atomic else .reduce) n with
      opn := opn.toNat, typ := typ.toNat, data := s1.g.sval b.toNat, cmp := s1.g.sval d.toNat
      prop := s1.g.stag a.toNat || s1.g.stag b.toNat || (opn = 6 && s1.g.stag d.toNat) }
    satomTarget s1 space ret (s1.g.sval a.toNat) n = .ok t →
    (ret = 0 → ScalarReady s reads [] → exec (.satom d a b space opn ret typ) s = .next ((s1.upG (fun g => g.addIq [e])).advance)) ∧
    (ret = 1 → ScalarReady s reads [d.toNat] → Quiet s → s.quiet = true → Reaches s1 t.addr → t.member = none → s.hold = false →
      let x := performAtomic (crossing s1 s1.g.place.q e) e
      x.2.poison = false →
      exec (.satom d a b space opn ret typ) s = .next (x.1.putS d.toNat
        (if typ = 0 then BitVec.ofInt 64 (x.2.val.setWidth 32).toInt else x.2.val) (x.2.prop || s1.g.stag a.toNat)))) ∧
  (∀ (typ o b c : Nat), typ ≤ 3 →
    let w := if typ = 2 ∨ typ = 3 then 64 else 32
    let num := fun x : Nat => if typ = 0 ∨ typ = 2 then (if x < 2 ^ (w - 1) then (x : Int) else x - 2 ^ w) else x
    o < 2 ^ w → b < 2 ^ w →
    atomNew 0 typ o b c = (o + b) % 2 ^ w ∧ atomNew 1 typ o b c = o &&& b ∧ atomNew 2 typ o b c = o ||| b ∧
    (atomNew 3 typ o b c = o ∨ atomNew 3 typ o b c = b) ∧ num (atomNew 3 typ o b c) = min (num o) (num b) ∧
    (atomNew 4 typ o b c = o ∨ atomNew 4 typ o b c = b) ∧ num (atomNew 4 typ o b c) = max (num o) (num b) ∧
    atomNew 5 typ o b c = b ∧ atomNew 6 typ o b c = (if o = c then b else o)) ∧
  (∀ (s : State) (e : Entry), StoresOk s → e.typ ≤ 4 → e.addr % atomWidth e.typ = 0 →
    let w := atomWidth e.typ
    let t := (performAtomic s e).1
    let old := homeNat (settle s) e.addr w
    (performAtomic s e).2.val = BitVec.ofNat 64 old ∧
    (homePoison (settle s) e.addr = false →
      homeNat t e.addr w = atomNew e.opn e.typ old (e.data.toNat % 2 ^ (8 * w)) (e.cmp.toNat % 2 ^ (8 * w)) % 2 ^ (8 * w) ∧
      (∀ a, a < e.addr ∨ e.addr + w ≤ a → homeByte t a = homeByte (settle s) a) ∧
      homeTag t e.addr = (homeTag (settle s) e.addr || e.prop)) ∧
    (homePoison (settle s) e.addr = true → t = settle s))

/-- R138, R156, R171: a branch whose condition holds goes to pc + 4·off, any other to the next word; a proposal condition raises PROPCTL,
and a target that is not aligned or lies outside the address space ALIGN or PAGE.
R171: CALL goes to pc + 4·imm20 and JMPR to sa; both write pc + 4, settled, to sd. A proposal target raises PROPCTL. -/
def Obligations.TransfersOfControl : Prop :=
  (∀ (s : State) (cond : BitVec 4) (a : BitVec 6) (off : BitVec 16), cond.toNat ≤ 6 →
    let s1 := scalarIssued s [a.toNat]
    let x := (s1.g.sval a.toNat).toInt
    let t := BitVec.ofInt 64 (s1.g.pc.toNat + 4 * off.toInt)
    let holds := [true, decide (x = 0), decide (x ≠ 0), decide (x < 0), decide (0 ≤ x), decide (x ≤ 0), decide (0 < x)].getD cond.toNat false
    let traps := fun (c : Nat) (v : Word) => TrapsScalar (.br cond a off) s [a.toNat] (mkTrap c v)
    (ScalarReady s [a.toNat] [] → s1.g.stag a.toNat = false ∨ cond = 0 →
      (holds = true → t.toNat % 4 = 0 → t.toNat < 2 ^ 60 → exec (.br cond a off) s = .next (s1.upG (fun g => g.setPc t))) ∧
      (holds = false → exec (.br cond a off) s = .next s1.advance)) ∧
    (ScalarIssues s [a.toNat] [] → s.g.lanesDone = true →
      (s1.g.stag a.toNat = true → cond ≠ 0 → traps 0x0C 0) ∧
      (s1.g.stag a.toNat = false ∨ cond = 0 → holds = true →
        (t.toNat % 4 ≠ 0 → traps 0x04 t) ∧ (t.toNat % 4 = 0 → 2 ^ 60 ≤ t.toNat → traps 0x05 t)))) ∧
  ((∀ (s : State) (d : BitVec 6) (imm : BitVec 20), ScalarReady s [] [d.toNat] →
    let s1 := scalarIssued s []
    let t := BitVec.ofInt 64 (s1.g.pc.toNat + 4 * imm.toInt)
    t.toNat % 4 = 0 → t.toNat < 2 ^ 60 →
    exec (.call d imm) s = .next ((s1.upG (fun g => g.setS d.toNat (g.pc + 4) false)).upG (fun g => g.setPc t))) ∧
  (∀ (s : State) (d a : BitVec 6),
    let s1 := scalarIssued s [a.toNat]
    let t := s1.g.sval a.toNat
    (ScalarReady s [a.toNat] [d.toNat] → s1.g.stag a.toNat = false → t.toNat % 4 = 0 → t.toNat < 2 ^ 60 →
      exec (.jmpr d a) s = .next ((s1.upG (fun g => g.setS d.toNat (g.pc + 4) false)).upG (fun g => g.setPc t))) ∧
    (ScalarIssues s [a.toNat] [d.toNat] → s.g.lanesDone = true →
      (s1.g.stag a.toNat = true → TrapsScalar (.jmpr d a) s [a.toNat] (mkTrap 0x0C 0)) ∧
      (s1.g.stag a.toNat = false → t.toNat % 4 ≠ 0 → TrapsScalar (.jmpr d a) s [a.toNat] (mkTrap 0x04 t)) ∧
      (s1.g.stag a.toNat = false → t.toNat % 4 = 0 → 2 ^ 60 ≤ t.toNat → TrapsScalar (.jmpr d a) s [a.toNat] (mkTrap 0x05 t)))))

/-- R13, R172 to R174: LISSUE and LRUN put a run behind those outstanding, with the special registers as they stand; both wait while
four are outstanding, those whose last words have issued and whose loads are still out among them (R15), and LWAIT waits until none is. A
LISSUE run past word 2^22 − 1 is ILLEGAL. -/
def Obligations.RunWords : Prop :=
  ∀ (s : State) (n : BitVec 4) (ix : LIdx), ScalarReady s [] [] →
    let s1 := scalarIssued s []
    let enq := fun (r : Run) => (s1.upG (fun g => { g with ln := { g.ln with runs := g.ln.runs ++ [r] } })).advance
    let out := s1.g.ln.runs.length + s1.g.ln.late.length
    (out < 4 →
      (ix.toNat + n.toNat < 2 ^ 22 → exec (.lissue n ix) s = .next (enq ⟨false, false, ix, ix, n.toNat + 1, s1.g.cap⟩)) ∧
      exec (.lrun ix) s = .next (enq ⟨true, false, ix, ix, 0, s1.g.cap⟩)) ∧
    (4 ≤ out →
      (ix.toNat + n.toNat < 2 ^ 22 → exec (.lissue n ix) s = .next (scalarMet s [])) ∧ exec (.lrun ix) s = .next (scalarMet s [])) ∧
    (2 ^ 22 ≤ ix.toNat + n.toNat → s.g.lanesDone = true → TrapsScalar (.lissue n ix) s [] (mkTrap 0x01 0)) ∧
    exec .lwait s = .next (if s.g.ln.runs = [] ∧ s.g.qs.pendL = none ∧ s.g.qs.lateV = [] then s1.advance else scalarMet s [])

/-- R178: ARRIVE makes the group's arrival and goes on; SYNC makes it and waits for its phase; WAIT waits for the phase of the last
arrival. The arrival waits for the release of the level's scope.
R27, R178: a barrier number that is a proposal raises PROPCTL; one of a register that is not bad, which the task has not declared, or of which
the group is no member, or a chain outside deterministic mode, raises BARRIER with the level and the number in TRAPADDR.
R27, R28: an arrival completes its phase exactly when it is the last one wanted: every member has arrived or is gone, and the copies
declared have arrived; the next phase then begins without arrivals. That a barrier word whose release may not yet perform is not issued,
and waits so, is the model's choice (log entry 28). -/
def Obligations.Barriers : Prop :=
  (∀ (s : State) (a : BitVec 6) (level : BitVec 3) (num : BitVec 4) (t : Task) (b : Bar) (m : Nat), ScalarReady s [a.toNat] [] →
    let s1 := scalarIssued s [a.toNat]
    barCheck s1 a level num = .ok (t, b, m) → 
    let holds := fun (u : State) (w : Instr) => u.upG (fun g => { g with qs := { g.qs with pendS := some ⟨w, 1, []⟩ } })
    let passes := fun (u : State) => ∃ x, u.findTask u.g.key.task = some x ∧ barPassed x b (sget 0 u.g.barLast (barKey b.level m) - 1) = true
    let u := makeArrival s1 t b m
    let go := s1.upG Group.noPendS
    (s1.g.key ∉ (findBar t b).arr → releaseOk s1 s1.g (barScope level.toNat) = true →
      exec (.barArrive a level num) s = .next u.advance ∧
      (passes u → exec (.barSync a level num) s = .next (u.upG Group.noPendS).advance) ∧
      (¬ passes u → exec (.barSync a level num) s = .next (holds u (.barSync a level num)))) ∧
    (s1.g.key ∉ (findBar t b).arr → releaseOk s1 s1.g (barScope level.toNat) = false →
      exec (.barArrive a level num) s = .next (scalarMet s [a.toNat]) ∧ exec (.barSync a level num) s = .next (scalarMet s [a.toNat])) ∧
    (sget 0 s1.g.barLast (barKey b.level m) ≠ 0 →
      (passes s1 → exec (.barWait a level num) s = .next go.advance) ∧
      (¬ passes s1 → exec (.barWait a level num) s = .next (holds s1 (.barWait a level num)))) ∧
    (s.g.lanesDone = true →
      (s1.g.key ∈ (findBar t b).arr →
        TrapsScalar (.barArrive a level num) s [a.toNat] (mkTrap 0x10 (BitVec.ofNat 64 (level.toNat * 16 + m))) ∧
        TrapsScalar (.barSync a level num) s [a.toNat] (mkTrap 0x10 (BitVec.ofNat 64 (level.toNat * 16 + m)))) ∧
      (sget 0 s1.g.barLast (barKey b.level m) = 0 →
        TrapsScalar (.barWait a level num) s [a.toNat] (mkTrap 0x10 (BitVec.ofNat 64 (level.toNat * 16 + m)))))) ∧
  (∀ (s : State) (a : BitVec 6) (level : BitVec 3) (num : BitVec 4) (i : Instr),
    i ∈ [Instr.barSync a level num, .barArrive a level num, .barWait a level num] → ScalarIssues s [a.toNat] [] → s.g.lanesDone = true →
    let s1 := scalarIssued s [a.toNat]
    let b := (s1.g.sval a.toNat + BitVec.ofNat 64 num.toNat).toNat
    (s1.g.stag a.toNat = true → TrapsScalar i s [a.toNat] (mkTrap 0x0C 0)) ∧
    (∀ t, badScalar s.g [a.toNat] = none → s1.g.stag a.toNat = false → s1.findTask s1.g.key.task = some t →
      [2, 16, 8, 4, 1].getD level.toNat 1 ≤ b ∨ barDeclared t.img level.toNat b = false ∨ barMember t.img level.toNat b s1.g.key = false ∨
        (level = 4 ∧ s1.g.det = false) →
      TrapsScalar i s [a.toNat] (mkTrap 0x10 (BitVec.ofNat 64 (level.toNat * 16 + b))))) ∧
  (∀ (t : Task) (b : Bar) (k : GroupKey),
    let x := findBar t b
    let y := findBar (barArriveGroup t b k) b
    let last := (∀ m ∈ barMembers t x, m = k ∨ m ∈ x.arr ∨ (x.level, m) ∈ t.gone) ∧ barCopies t.img x.level x.num ≤ x.copies
    (last → y.phase = x.phase + 1 ∧ y.arr = [] ∧ y.copies = x.copies - barCopies t.img x.level x.num) ∧
    (¬ last → y.phase = x.phase ∧ y.arr = x.arr ++ [k] ∧ y.copies = x.copies))

/-- R179: outside deterministic mode YLD only goes on. In deterministic mode the core turns to the ready group with the next higher wave
index, or else to the lowest; R31: class 0, in slot 15, takes no part.
R26, R30, R116, R180: END waits until its runs and tokens are done, then makes the arrivals of the five levels in order, each once the release
at its own scope may perform; it waits until its accesses have performed, and then gives up the slot. An open generator loop raises CAIRN,
R162: kept while runs before the word go on. -/
def Obligations.YieldAndEnd : Prop :=
  (∀ s : State, ScalarReady s [] [] →
    let s1 := scalarIssued s []
    let mates := s1.rest.filter (fun g => s1.ready g && g.det && decide (g.place.slot ≠ 15) && g.place.coreNo = s1.g.place.coreNo)
    (s1.g.det = false → exec .yld s = .next s1.advance) ∧
    (s1.g.det = true → mates = [] → exec .yld s = .next s1.advance) ∧
    (s1.g.det = true → ∀ h ∈ mates,
      (∀ g ∈ mates, waveIndex g.key ≠ waveIndex h.key ∨ g = h) →
      ((waveIndex s1.g.key < waveIndex h.key ∧ ∀ g ∈ mates, waveIndex s1.g.key < waveIndex g.key → waveIndex h.key ≤ waveIndex g.key) ∨
        (∀ g ∈ mates, waveIndex g.key ≤ waveIndex s1.g.key ∧ waveIndex h.key ≤ waveIndex g.key)) →
      exec .yld s = .next (focusOn (giveCore s1.advance h) h.key))) ∧
  (∀ s : State, ScalarReady s [] [] →
    let s1 := scalarIssued s []
    let first := s1.g.endStep - 1
    (s1.g.endStep ≤ 5 → (s1.g.endStep = 0 → s1.g.ln.gl.isOpen = false ∧ s1.g.lanesDone = true ∧ s1.g.tokensDone = true) →
      ∃ u n, exec .endGroup s = .next u ∧ first ≤ n ∧ n ≤ 5 ∧ (∀ l, first ≤ l → l < n → releaseOk s1 s1.g (barScope l) = true) ∧
        (n < 5 → releaseOk s1 s1.g (barScope n) = false) ∧ u.g = { s1.g with endStep := n + 1 } ∧ u.rest = s1.rest ∧ u.mem = s1.mem ∧
        u.tasks = s1.tasks.map (fun t => if t.id = s1.g.key.task
          then (List.range' first (n - first)).foldl (fun t l => goneAt t l s1.g.key) t else t)) ∧
    (s1.g.endStep = 0 → s1.g.ln.gl.isOpen = false → (s1.g.lanesDone && s1.g.tokensDone) = false → exec .endGroup s = .next (scalarMet s [])) ∧
    (6 ≤ s1.g.endStep →
      (drained s1 s1.g = true → windowsFree s1 = true → exec .endGroup s = .next (releaseSlot s1) ∧
        (∀ x ∈ (releaseSlot s1).links.sent, x.grp ≠ s1.g.key)) ∧
      ((drained s1 s1.g && windowsFree s1) = false → exec .endGroup s = .next (scalarMet s []))) ∧
    (s1.g.endStep = 0 → s1.g.ln.gl.isOpen = true →
      (s.g.lanesDone = true → TrapsScalar .endGroup s [] (mkTrap 0x13 0)) ∧
      (s.g.lanesDone = false → exec .endGroup s = .next ((scalarMet s []).upG (fun g => g.meet (mkTrap 0x13 0))))))

/-- R212, R330: TRAP raises SWTRAP with its code in TRAPADDR, and resumes at the next word.
R327, R329, R332: what taking a trap saves and where it goes: TRAPC names the cause, level, stream, restarts and lane; both streams start
afresh in the handler, and no register of the program changes. R325, R327: the frame of the new level in memory holds the paths, EXMASK, the
trap registers, the stack and the run queue in their formats, and no other byte changes. That a barrier wait and an MMA under way are kept
beside the frame, and what happens where the frame's area does not translate, are the model's choices (log entry 25). -/
def Obligations.TrapEntry : Prop :=
  (∀ (s : State) (code : BitVec 14), ScalarIssues s [] [] → s.g.lanesDone = true →
    exec (.trap code) s = .next (takeTrap ((scalarMet s []).upG Group.noPendS) ⟨0x14, BitVec.ofNat 64 code.toNat, false⟩
      ⟨false, false, 0, 0, s.g.cap.rgn⟩ (s.g.pc + 4))) ∧
  (∀ (s : State) (t : Trap) (src : TrapSrc) (resume : Word) (v : Word × Word × Word × Word), t.cause < 256 → src.lane < 32 → s.g.lvl < 2 →
    ¬ (t.restart = true ∧ t.cause = 0x08 ∧ s.g.lvl = 0 ∧ bit1 src.rgn.toNat 0 = true ∧ bits s.g.sp.trapc.toNat 13 12 < 2) →
    readVector s s.g = some v → s.quiet = true →
    let g := s.g
    let u := (takeTrap s t src resume).g
    let user := decide (g.lvl = 0) && userCause t.cause && decide (v.2.2.1 ≠ 0)
    let tc := u.sp.trapc.toNat
    u.pc = (if user then v.2.2.1 else v.1) ∧ u.lvl = (if user then 1 else 2) ∧
    bits tc 7 0 = t.cause ∧ bit1 tc 10 = src.lw ∧ bits tc 13 12 = bits g.sp.trapc.toNat 13 12 ∧ bits tc 20 16 = src.lane ∧
    u.sp.trappc = resume ∧ u.sp.trapaddr = t.addr ∧ u.sp.exmask = 0xFFFFFFFF ∧ u.sp.plcb = v.2.1 ∧ u.sp.ulcb = v.2.2.2 ∧
    bit1 u.sp.traplpc.toNat 63 = src.lw ∧ (src.lw = true → bit1 u.sp.traplpc.toNat 62 = src.slot ∧ bits u.sp.traplpc.toNat 21 0 = src.word.toNat) ∧
    (user = true → u.sp.uaddr = t.addr ∧ bits u.sp.ucause.toNat 7 0 = t.cause) ∧
    u.ln.l0 = none ∧ u.ln.l1 = none ∧ u.ln.stack = [] ∧ u.ln.biv = 0 ∧ u.ln.runs = [] ∧ u.qs.pendS = none ∧ u.qs.pendL = none ∧
    (∃ h, (if user then u.held1 else u.held2) = some h ∧ h.resume = resume ∧ h.bar = g.barWaiting ∧ h.mword = g.ln.mword) ∧
    u.r = g.r ∧ u.cap = g.cap ∧ u.ln.gl = g.ln.gl ∧
    (∀ base, StoresOk s → FrameAt s (if user then 1 else 2) base →
      (∀ p ∈ frameParts g, ∀ i < p.2.length, homeByte (takeTrap s t src resume) (base + p.1 + i) = p.2.getD i 0) ∧
      (∀ a, (∀ p ∈ frameParts g, a < base + p.1 ∨ base + p.1 + p.2.length ≤ a) → homeByte (takeTrap s t src resume) a = homeByte s a)))

/-- R213, R333: ERET reads the frame of its level from memory and goes to TRAPPC; outside a handler it raises PRIV, it waits for its runs and for
its own writes to the frame, and poison in the frame raises POISON at its first byte.
R325, R327, R333: what an entry has written is what a return reads, and a return from a scalar word's trap with those bytes restores both
streams, EXMASK, the mode and the trap registers, and resumes where the entry said; R163: a barrier wait goes on. That the frame is read as the
group sees it, that ERET waits for the group's own writes to it, and that the barrier wait is kept beside it are the model's choices
(log entry 25). -/
def Obligations.TrapReturn : Prop :=
  (∀ s : State, ScalarReady s [] [] →
    let s1 := scalarIssued s []
    (s1.g.lvl = 0 → s.g.lanesDone = true → TrapsScalar .eret s [] (mkTrap 0x03 0)) ∧
    (s1.g.lvl ≠ 0 → s1.g.lanesDone = false → exec .eret s = .next (scalarMet s [])) ∧
    (s1.g.lvl ≠ 0 → s1.g.lanesDone = true → s.quiet = true →
      (frameBusy s1 s1.g s1.g.lvl = true → exec .eret s = .next (scalarMet s [])) ∧
      (frameBusy s1 s1.g s1.g.lvl = false →
        (∀ a, framePoison s1 s1.g s1.g.lvl = some a → TrapsScalar .eret s [] (mkTrap 0x08 a)) ∧
        (framePoison s1 s1.g s1.g.lvl = none → ∀ h, (if s1.g.lvl = 1 then s1.g.held1 else s1.g.held2) = some h →
          exec .eret s = .next (s1.upG (fun g => returnFrom g (frameBytes s1 s1.g s1.g.lvl) h)) ∧
          (returnFrom s1.g (frameBytes s1 s1.g s1.g.lvl) h).pc = s1.g.sp.trappc)))) ∧
  (∀ (s : State) (t : Trap) (src : TrapSrc) (resume : Word) (v : Word × Word × Word × Word) (base : Nat), s.g.lvl < 2 → t.restart = false →
    t.cause < 256 → src.lane < 32 → readVector s s.g = some v → s.quiet = true → StoresOk s → ownWrites s s.g = [] →
    let u := takeTrap s t src resume
    FrameAt s u.g.lvl base → HoldsFrame (frameBytes u u.g u.g.lvl) s.g) ∧
  (∀ (g : Machine.Group) (t : Trap) (rgn resume : Word) (new : Nat) (v : Word × Word × Word × Word) (b : RecBytes), t.cause < 256 →
    new = 1 ∨ new = 2 → FrameFits g → HoldsFrame b g →
    let h := returnFrom (enterHandler g t ⟨false, false, 0, 0, rgn⟩ resume new v) b (g.heldNow resume)
    h.pc = resume ∧ h.lvl = g.lvl ∧ h.ln.l0 = g.ln.l0 ∧ h.ln.l1 = g.ln.l1 ∧ h.ln.stack = g.ln.stack ∧ h.ln.biv = g.ln.biv ∧
    h.ln.runs.length = g.ln.runs.length ∧ (∀ p ∈ h.ln.runs.zip g.ln.runs, SameRun p.1 p.2) ∧ h.sp.exmask = g.sp.exmask ∧ h.sp.trapc = g.sp.trapc ∧ h.sp.trappc = g.sp.trappc ∧
    h.sp.traplpc = g.sp.traplpc ∧ h.sp.trapaddr = g.sp.trapaddr ∧ h.qs.pendS = g.barWaiting ∧ h.r = g.r ∧ h.cap = g.cap ∧
    (new = 2 → h.held1 = g.held1))

/-- R334, R339: a POISON trap of a reader inside an idempotent region restarts the region, at most twice: the scalar stream goes to its
entry, both lane streams are emptied, EXMASK takes its launch value and RCNT counts. A trap in the privileged handler, or one whose
vector block cannot be read, is logged and stops the task: each of its groups is gone, or issues nothing more. -/
def Obligations.RestartAndDoubleFault : Prop :=
  (∀ (s : State) (t : Trap) (src : TrapSrc) (resume : Word), t.restart = true → t.cause = 0x08 → s.g.lvl = 0 → bit1 src.rgn.toNat 0 = true →
    bits s.g.sp.trapc.toNat 13 12 < 2 →
    let u := (takeTrap s t src resume).g
    u.pc.toNat = src.rgn.toNat / 4 * 4 ∧ u.sp.exmask = s.g.sp.launchEx ∧ bits u.sp.trapc.toNat 13 12 = bits s.g.sp.trapc.toNat 13 12 + 1 ∧
    u.lvl = 0 ∧ u.ln.runs = [] ∧ u.ln.l0 = none ∧ u.ln.l1 = none ∧ u.ln.stack = [] ∧ u.ln.gl.body = 0 ∧ u.ln.gl.cairn = [] ∧ u.r = s.g.r) ∧
  (∀ (s : State) (t : Trap) (src : TrapSrc) (resume : Word),
    s.g.lvl = 2 ∨ (s.g.lvl < 2 ∧ readVector s s.g = none ∧ s.quiet = true ∧
      ¬ (t.restart = true ∧ t.cause = 0x08 ∧ s.g.lvl = 0 ∧ bit1 src.rgn.toNat 0 = true ∧ bits s.g.sp.trapc.toNat 13 12 < 2)) →
    (s.findTask s.g.key.task).isSome = true →
    let u := takeTrap s t src resume
    (∀ x ∈ u.groups, x.key.task = s.g.key.task → x = Group.idle ∨ isStopped u x = true) ∧ (isStopped u u.g = true → canIssue u = false) ∧
    u.errs.coreLog = logAdd s.errs.coreLog (s.g.place.coreNo * 64) 16 (sget 0 s.errs.seq s.g.place.coreNo) (logWord0 false 3 false 0) 0 0 (logWho s.g))

/-- R17, R175, R176: SMFS of a register of the table gives its value, settled but for LSCALE, which keeps its tag. A privileged id raises
PRIV in user mode before anything else, an id outside the table ILLEGAL, and CYC DETVIOL in deterministic mode. STATUS, EXMASK, TOKST,
GENST and DSTAT wait for the runs. R335: DETVIOL is of the causes of deterministic mode.
R17, R175: SMTS of a register that may be written, with a value that its layout takes, writes it and goes on. A read-only id or a
refused value is ILLEGAL; a proposal raises PROPCTL, except for LSCALE. R275: whether GENST may be written is known once the runs are
finished. -/
def Obligations.SpecialRegisterMoves : Prop :=
  (∀ (s : State) (d : BitVec 6) (id : BitVec 12),
    let s1 := scalarIssued s []
    let n := id.toNat
    let listed := decide (n ≤ 0x13) || (decide (0x20 ≤ n) && decide (n ≤ 0x2F)) || (decide (0x100 ≤ n) && decide (n ≤ 0x107)) ||
      (decide (0x180 ≤ n) && decide (n ≤ 0x1FF))
    let waits := decide (n ∈ [0x001, 0x002, 0x00B, 0x00C, 0x00E])
    (ScalarReady s [] [d.toNat] → n < 0x100 ∨ s1.g.lvl = 2 → listed = true → n ≠ 5 ∨ s1.g.det = false →
      (waits = false ∨ s1.g.lanesDone = true → PutsScalar (.smfs d id) s [] d (srRead s1 n) (decide (n = 8) && s1.g.cap.lscaleTag)) ∧
      (waits = true → s1.g.lanesDone = false → exec (.smfs d id) s = .next (scalarMet s []))) ∧
    (ScalarIssues s [] [d.toNat] → s.g.lanesDone = true →
      (0x100 ≤ n → s1.g.lvl ≠ 2 → TrapsScalar (.smfs d id) s [] (mkTrap 0x03 0)) ∧
      (n < 0x100 ∨ s1.g.lvl = 2 → listed = false → TrapsScalar (.smfs d id) s [] (mkTrap 0x01 0)) ∧
      (n = 5 → s1.g.det = true → TrapsScalar (.smfs d id) s [] (mkTrap 0x0F 0)))) ∧
  (∀ (s : State) (a : BitVec 6) (id : BitVec 12),
    let s1 := scalarIssued s [a.toNat]
    let n := id.toNat
    let v := s1.g.sval a.toNat
    let waits := decide (n ∈ [0x001, 0x002, 0x00B, 0x00C, 0x00E])
    n < 0x100 ∨ s1.g.lvl = 2 → srListed n = true →
    (ScalarReady s [a.toNat] [] → srReadOnly n = false → srRefuses s1 n v.toNat = false → s1.g.stag a.toNat = false ∨ n = 8 →
      (waits = false ∨ s1.g.lanesDone = true → exec (.smts a id) s = .next (srWrite s1 n v (s1.g.stag a.toNat)).advance) ∧
      (waits = true → s1.g.lanesDone = false → exec (.smts a id) s = .next (scalarMet s [a.toNat]))) ∧
    (ScalarReady s [a.toNat] [] → n = 0x00C → s1.g.lanesDone = false → exec (.smts a id) s = .next (scalarMet s [a.toNat])) ∧
    (ScalarIssues s [a.toNat] [] → s.g.lanesDone = true →
      (srReadOnly n = true ∨ srRefuses s1 n v.toNat = true → TrapsScalar (.smts a id) s [a.toNat] (mkTrap 0x01 0)) ∧
      (srReadOnly n = false → srRefuses s1 n v.toNat = false → s1.g.stag a.toNat = true → n ≠ 8 →
        TrapsScalar (.smts a id) s [a.toNat] (mkTrap 0x0C 0))))

/-- R51 to R53, R60, R82, R175, R262, R329, R342: a special register reads back what was written in its writable bits and keeps the others;
no other special register changes, except RCNT of TRAPC, which a write of RGN clears. R51: RND 0 and 7 of MODE are taken as 1, and DET and its
other bits stay. R275: of GENST only HI is written. R341: a write of word 0 of a log record with V = 0 frees the record, and one with V = 1 does
nothing. -/
def Obligations.SpecialRegisterReadBack : Prop :=
  (∀ (s : State) (v : Word) (tag : Bool) (id : Nat) (mask : Word),
    (id, mask) ∈ [(0x001, 0x7F), (0x002, 0xFFFFFFFF), (0x008, 0xFFFFFFFF), (0x009, 0xFFFFFFFFFFFFFFFD), (0x00A, 0xFFFF),
      (0x00D, 0xFFFFFFF0FFFFFFFD), (0x00E, 0xFFFFF007), (0x010, 0x03FFFFFFF8FFF00F), (0x011, 0x03FFFFFFF8FFF00F), (0x012, 0x03FFFFFFF8FFF00F),
      (0x013, 0x03FFFFFFF8FFF00F), (0x100, 0x1F37FF), (0x101, 0xFFFFFFFFFFFFFFFF),
      (0x102, 0xC0000000003FFFFF), (0x103, 0xFFFFFFFFFFFFFFFF), (0x104, 0xFFFFFFFFFFFFFFC0), (0x1C0, 0x80FF), (0x1C1, 0xFFFFFFFFFFFFFFFF),
      (0x1C2, 0xFFFFFFFFFFFFFFFF)] ++ (List.range 16).map (fun j => (0x020 + j, (0xFFFFFFFFFFFFFFFF : Word))) →
    swf 0 s.g.cap.shape = true → swf 0 s.g.cap.bnd = true → swf 0 s.errs.inj = true →
    let t := srWrite s id v tag
    (∀ i < 64, (srRead t id).getLsbD i = if mask.getLsbD i then v.getLsbD i else (srRead s id).getLsbD i) ∧
    (∀ j, j ≠ id → (id = 0x009 → j ≠ 0x100) → srRead t j = srRead s j) ∧
    (id = 0x009 → ∀ i < 64, (srRead t 0x100).getLsbD i = (decide (i < 12 ∨ 13 < i) && (srRead s 0x100).getLsbD i)) ∧
    t.g.r = s.g.r ∧ t.g.pc = s.g.pc ∧ (∀ a, homeByte t a = homeByte s a)) ∧
  (∀ (s : State) (v : Word) (tag : Bool),
    let t := srWrite s 0x000 v tag
    bits (srRead t 0x000).toNat 2 0 = (if v.toNat % 8 = 0 ∨ v.toNat % 8 = 7 then 1 else v.toNat % 8) ∧
    (∀ i < 64, 3 ≤ i → (srRead t 0x000).getLsbD i = (srRead s 0x000).getLsbD i) ∧ (∀ j, j ≠ 0x000 → srRead t j = srRead s j) ∧ t.g.r = s.g.r) ∧
  (∀ (s : State) (v : Word) (tag : Bool),
    let t := srWrite s 0x00C v tag
    t.g.ln.gl = { s.g.ln.gl with hi := bits v.toNat 17 9 } ∧
    srRead t 0x00C + BitVec.ofNat 64 (s.g.ln.gl.hi * 2 ^ 9) = srRead s 0x00C + BitVec.ofNat 64 (bits v.toNat 17 9 * 2 ^ 9) ∧
    (∀ j, j ≠ 0x00C → srRead t j = srRead s j) ∧ t.g.r = s.g.r) ∧
  (∀ (s : State) (v : Word) (tag : Bool) (e : Nat), e < 16 → swf 0 s.errs.coreLog = true →
    let id := 0x180 + 4 * e
    let t := srWrite s id v tag
    (v.getLsbD 63 = true → t = s) ∧
    (v.getLsbD 63 = false → (∀ i < 64, (srRead t id).getLsbD i = (decide (i ≠ 63) && (srRead s id).getLsbD i)) ∧
      (∀ j, j ≠ id → srRead t j = srRead s j) ∧ t.g = s.g))

/-- R181, R184: FTEST gives 0 while a command runs and 1 when it has ended, or where the register is no handle, and keeps the handle.
FPASS gives up a handle for its command's number, also into a register whose command still runs.
R181: another word that would write a register whose command still runs raises FUTURE; a word that reads one waits.
R127, R184: FCANCEL of a running command stops it: its end is CANCELLED with what it has done, that of a DCOR at the end of its pass. Of an
ended one it only goes on, and of a register without a handle it raises FUTURE. R335: in deterministic mode FTEST and FCANCEL raise DETVIOL.
R16: each of them waits for the runs that read or write its registers. That a register whose command has ended keeps its completion word with
no handle once it is read is the model's choice (log entry 31). -/
def Obligations.FutureWords : Prop :=
  (∀ (s : State) (d a : BitVec 6), swf RegFut.none s.g.r.fut = true →
    let s1 := scalarIssued s []
    let f := s1.g.fut a.toNat
    let tests := ScalarReady s [] [d.toNat] ∧ scoreboardHolds s [a.toNat] [d.toNat] = false
    let passes := ScalarReady s [] [] ∧ scoreboardHolds s [a.toNat] [d.toNat, a.toNat] = false ∧ s1.g.fut d.toNat ≠ .busy
    (tests → s1.g.det = false →
      (∀ c, f = .pending c → PutsScalar (.ftest d a) s [] d 0 false) ∧
      (∀ w n x, f = .resolved w n x → PutsScalar (.ftest d a) s [] d 1 false) ∧
      (f = .none → s1.g.stag a.toNat = false → PutsScalar (.ftest d a) s [] d 1 false)) ∧
    (tests → s1.g.det = true → s.g.lanesDone = true → TrapsScalar (.ftest d a) s [] (mkTrap 0x0F 0)) ∧
    (scoreboardHolds s [a.toNat] [d.toNat] = true → exec (.ftest d a) s = .next s) ∧
    (passes →
      (∀ w n x, f = .resolved w n x → exec (.fpass d a) s =
        .next ((s1.upG (fun g => g.setS a.toNat 0 false)).putS d.toNat (BitVec.ofNat 64 n) false)) ∧
      (∀ c k, f = .pending c → s1.findCmd c = some k → k.stage ≠ .issued → exec (.fpass d a) s =
        .next (((s1.upCmd c (fun k => { k with reg := none })).upG (fun g => g.setS a.toNat 0 false)).putS d.toNat (BitVec.ofNat 64 k.num) false)) ∧
      (f = .none → s1.g.stag a.toNat = false → s.g.lanesDone = true → TrapsScalar (.fpass d a) s [] (mkTrap 0x11 0)))) ∧
  ((∀ (s : State) (d : BitVec 6) (imm : BitVec 20) (c : Nat), ScalarIssues s [] [d.toNat] → s.g.lanesDone = true → s.g.fut d.toNat = .pending c →
    TrapsScalar (.sli d imm) s [] (mkTrap 0x11 0)) ∧
  (∀ (s : State) (d a b : BitVec 6) (i : Instr), i ∈ [Instr.sadd d a b, .ssub d a b, .smul d a b, .sceq d a b] →
    s.g.blocked a.toNat = true ∨ s.g.blocked b.toNat = true → exec i s = .next s) ∧
  (∀ (s : State) (d a b : BitVec 6) (w : Word) (n x : Nat), ScalarReady s [a.toNat, b.toNat] [d.toNat] → RegsOk s.g.r →
    s.g.fut a.toNat = .resolved w n x → a ≠ b → d ≠ a →
    ∃ t, exec (.sadd d a b) s = .next t ∧ t.g.sval a.toNat = w ∧ t.g.stag a.toNat = false ∧ t.g.fut a.toNat = .none)) ∧
  (∀ (s : State) (a : BitVec 6), ScalarReady s [] [] → scoreboardHolds s [a.toNat] [a.toNat] = false →
    let s1 := scalarIssued s []
    let f := s1.g.fut a.toNat
    (s1.g.det = true → s.g.lanesDone = true → TrapsScalar (.fcancel a) s [] (mkTrap 0x0F 0)) ∧
    (s1.g.det = false →
      (∀ w n x, f = .resolved w n x → exec (.fcancel a) s = .next s1.advance) ∧
      (∀ c k, f = .pending c → s1.findCmd c = some k → k.kind ≠ .kick → k.stage ≠ .issued → k.stage ≠ .draining → k.stage ≠ .stopping →
        exec (.fcancel a) s = .next (if k.kind = .dcor ∧ k.pr.flag = true then s1.upCmd c (fun k => { k with stage := .stopping })
          else s1.upCmd c (fun k => k.finish 2 0 k.value 0))) ∧
      (f = .none → s1.g.stag a.toNat = false → s.g.lanesDone = true → TrapsScalar (.fcancel a) s [] (mkTrap 0x11 0))))

/-- R188, R189: TLWAIT of a counter that has reached n gives its value; of one that has not it holds the stream, and gives the value once it
has, whatever has retired since; an identifier that names no counter raises FUTURE. TLADV puts a release into the issue queue that advances the group's counter, and keeps its destination busy until then.
R210: each fence puts its marker, with its parts and its scope, into the issue queue. R357: a SYSTEM release of a group whose stores
were dropped raises LINKDOWN, once; R162: the runs before it are finished first. -/
def Obligations.TimelinesAndFences : Prop :=
  ((∀ (s : State) (d a b : BitVec 6) (t : Task), ScalarReady s [a.toNat, b.toNat] [d.toNat] →
    let s1 := scalarIssued s [a.toNat, b.toNat]
    let id := (s1.g.sval a.toNat).toNat
    let n := (s1.g.sval b.toNat).toNat
    let dead := tlKind id = 0 ∧ tlGroup t.id id ∈ t.retired ∧ tlValue t id < n
    s1.g.stag a.toNat = false → s1.g.stag b.toNat = false → s1.findTask s1.g.key.task = some t →
    (tlOk t id = true → n ≤ tlValue t id → PutsScalar (.tlwait d a b) s [a.toNat, b.toNat] d (BitVec.ofNat 64 (tlValue t id)) false) ∧
    (tlOk t id = true → tlValue t id < n → ¬ dead → exec (.tlwait d a b) s =
      .next (s1.upG (fun g => { g with qs := { g.qs with pendS := some ⟨.tlwait d a b, 1, []⟩ } }))) ∧
    (tlOk t id = false ∨ dead → s.g.lanesDone = true → TrapsScalar (.tlwait d a b) s [a.toNat, b.toNat] (mkTrap 0x11 0))) ∧
  (∀ (s : State) (d a b : BitVec 6) (p : Pend) (t : Task), s.g.qs.pendS = some p → p.w = .tlwait d a b →
    s.findTask s.g.key.task = some t →
    let v := tlValue t (s.g.sval a.toNat).toNat
    ((s.g.sval b.toNat).toNat ≤ v → exec (.tlwait d a b) s = .next ((s.upG Group.noPendS).putS d.toNat (BitVec.ofNat 64 v) false)) ∧
    (v < (s.g.sval b.toNat).toNat → ∃ u, exec (.tlwait d a b) s = .next u ∧ u.g.qs.pendS = some ⟨.tlwait d a b, 1, []⟩ ∧ u.g.pc = s.g.pc ∧
      u.g.r = s.g.r)) ∧
  (∀ (s : State) (d a : BitVec 6), ScalarReady s [a.toNat] [d.toNat] →
    let s1 := scalarIssued s [a.toNat]
    (s1.g.stag a.toNat = false → ∃ e u, exec (.tladv d a) s = .next u ∧ u = (s1.upG (fun g => (g.setFut d.toNat .busy).addIq [e])).advance ∧
      u.g.qs.iq = s1.g.qs.iq ++ [e] ∧ e.kind = .tladv (s1.g.sval a.toNat) d) ∧
    (s1.g.stag a.toNat = true → s.g.lanesDone = true → TrapsScalar (.tladv d a) s [a.toNat] (mkTrap 0x0C 0)))) ∧
  (∀ (s : State) (scope : BitVec 3) (i : Instr) (acq rel all : Bool),
    (i, acq, rel, all) ∈ [(Instr.fenceAcq scope, true, false, false), (.fenceRel scope, false, true, false),
      (.fenceAcqrel scope, true, true, false), (.fenceAll scope, true, true, true)] →
    let s1 := scalarIssued s []
    (ScalarReady s [] [] → rel = false ∨ scope ≠ 4 ∨ (∀ x ∈ s1.links.dropped, x.1 ≠ s1.g.key) →
      ∃ e u, exec i s = .next u ∧ u = (s1.upG (fun g => g.addIq [e])).advance ∧ u.g.qs.iq = s1.g.qs.iq ++ [e] ∧
        e.kind = .fence acq rel all scope.toNat ∧ e.wr = [] ∧ (∀ x, homeByte u x = homeByte s x)) ∧
    (∀ va, ScalarIssues s [] [] → rel = true → scope = 4 → droppedOf s1 s1.g.key = some va → s.g.lanesDone = true →
      ∃ u, exec i s = .next (scalarTrap u (mkTrap 0x16 va)) ∧ u.g = s1.g ∧ droppedOf u u.g.key = none) ∧
    (∀ va, ScalarIssues s [] [] → rel = true → scope = 4 → droppedOf s1 s1.g.key = some va → s.g.lanesDone = false →
      exec i s = .next (scalarMet s [])))

/-- R90 to R92: TAGLK finds a key, valid or being filled, or takes the lowest free entry, or finds the table full; TAGSET makes a filling entry
valid; TAGINV frees an entry. The results carry their code and the slot's scratchpad address. That a TAGSET whose release may not yet
perform is not issued is the model's choice (log entry 28). -/
def Obligations.TagTableWords : Prop :=
  ∀ (s : State) (d a : BitVec 6), ScalarReady s [a.toNat] [d.toNat] → (scalarIssued s [a.toNat]).g.stag a.toNat = false →
    let s1 := scalarIssued s [a.toNat]
    let v := s1.g.sval a.toNat
    let key := v.toNat % 2 ^ 48
    let n := s1.g.place.spSlots
    let st := fun e => entSt (tagEntry s1 e)
    let word := fun (code e : Nat) => BitVec.ofNat 64 (code * 2 ^ 60 + 2 ^ 23 + 1024 * e)
    let puts := fun (i : Instr) (w : Word) => PutsScalar i s [a.toNat] d w false
    (∀ e < n, (st e ≠ 0 ∧ entKey (tagEntry s1 e) = key) → (∀ f < e, ¬ (st f ≠ 0 ∧ entKey (tagEntry s1 f) = key)) →
      puts (.taglk d a) (word (if st e = 2 then 0 else 2) e)) ∧
    ((∀ f < n, ¬ (st f ≠ 0 ∧ entKey (tagEntry s1 f) = key)) →
      (∀ e < n, st e = 0 → (∀ f < e, st f ≠ 0) →
        exec (.taglk d a) s = .next ((setTagEntry s1 e (2 ^ 48 + key)).putS d.toNat (word 1 e) false)) ∧
      ((∀ f < n, st f ≠ 0) → puts (.taglk d a) (BitVec.ofNat 64 (3 * 2 ^ 60)))) ∧
    (∀ e, tagSlot s1 v = some e →
      (st e = 1 → releaseOk s1 s1.g 1 = true →
        exec (.tagset d a) s = .next ((setTagEntry s1 e (2 * 2 ^ 48 + entKey (tagEntry s1 e))).putS d.toNat 0 false)) ∧
      (st e = 1 → releaseOk s1 s1.g 1 = false → exec (.tagset d a) s = .next (scalarMet s [a.toNat])) ∧
      (st e ≠ 1 → puts (.tagset d a) (BitVec.ofNat 64 (4 * 2 ^ 60))) ∧
      (st e ≠ 0 → exec (.taginv d a) s = .next ((setTagEntry s1 e 0).putS d.toNat 0 false)) ∧
      (st e = 0 → puts (.taginv d a) (BitVec.ofNat 64 (4 * 2 ^ 60)))) ∧
    (tagSlot s1 v = none → s.g.lanesDone = true →
      TrapsScalar (.tagset d a) s [a.toNat] (mkTrap 0x06 v) ∧ TrapsScalar (.taginv d a) s [a.toNat] (mkTrap 0x06 v))

/-- R104, R105, R107, R214: SYS in the privileged mode, with the group's accesses performed: ASIDBASE takes an aligned base; GENSTEP counts the
generation of an address space and drops the translations and walk entries of the new one; TINV and TINVALL drop translations and walk entries.
R153, R214: a base that ASIDBASE does not take is ILLEGAL in either mode; else SYS in user mode raises PRIV. That the controllers hold a copy of
each generation, in which GENSTEP counts, and that an entry outside usable DRAM leaves that copy alone written, are the model's choices
(log entries 22 and 99). -/
def Obligations.SystemWords : Prop :=
  (∀ (s : State) (d a : BitVec 6), ScalarReady s [a.toNat] [d.toNat] →
    let s1 := scalarIssued s [a.toNat]
    let v := (s1.g.sval a.toNat).toNat
    let asid := v % 2 ^ 16
    s1.g.lvl = 2 → drained s1 s1.g = true →
    (v % 2 ^ 19 = 0 → v < 2 ^ 52 → exec (.sysAsidbase d a) s = .next (({ s1 with asidBase := v } : State).putS d.toNat 0 false)) ∧
    (∀ s2 : State, asidQuiet s1 asid = true →
      s2 = (if localOk (settle s1) (s1.asidBase + 8 * asid) then
        applyWrite (settle s1) (placeBytes (s1.asidBase + 8 * asid) 8 (setBits (homeNat (settle s1) (s1.asidBase + 8 * asid) 8) 15 8 ((ctlGen s1 asid + 1) % 256)))
          false false else settle s1) →
      exec (.sysGenstep d a) s = .next (({ s2 with
        genCopy := sset 0 s2.genCopy asid ((ctlGen s1 asid + 1) % 256 + 1)
        tlb := s2.tlb.filter (fun x => !(x.asid = asid && x.gen = (ctlGen s1 asid + 1) % 256))
        wcache := s2.wcache.filter (fun x => !(x.asid = asid && x.gen = (ctlGen s1 asid + 1) % 256)) } : State).putS d.toNat
          (BitVec.ofNat 64 ((ctlGen s1 asid + 1) % 256)) false)) ∧
    (asidQuiet s1 asid = false → exec (.sysGenstep d a) s = .next (scalarMet s [a.toNat])) ∧
    exec (.sysTinv d a) s = .next (({ s1 with tlb := s1.tlb.filter (fun x => x.asid ≠ asid), wcache := s1.wcache.filter (fun x => x.asid ≠ asid) } : State).putS d.toNat 0 false) ∧
    exec (.sysTinvall d a) s = .next (({ s1 with tlb := [], wcache := [] } : State).putS d.toNat 0 false)) ∧
  (∀ (s : State) (d a : BitVec 6) (i : Instr), i ∈ [Instr.sysAsidbase d a, .sysGenstep d a, .sysTinv d a, .sysTinvall d a] →
    ScalarIssues s [a.toNat] [d.toNat] → s.g.lanesDone = true →
    let v := ((scalarIssued s [a.toNat]).g.sval a.toNat).toNat
    let takes := v % 2 ^ 19 = 0 ∧ v < 2 ^ 52
    (s.g.lvl ≠ 2 → i ≠ .sysAsidbase d a ∨ takes → TrapsScalar i s [a.toNat] (mkTrap 0x03 0)) ∧
    (i = .sysAsidbase d a → ¬ takes → TrapsScalar i s [a.toNat] (mkTrap 0x01 0)))

/-- R190, R194, R196: a copy word makes one command, with the record's address and the registers captured, puts its entry into the issue queue
and binds its token: a token that was not busy starts from OK.
R181, R199: DCOR, PKQ, NMOP, SPG and KICK make one command whose destination is a handle, pending from then on.
R190, R199: a record address that is a proposal, not aligned or outside the address space is refused at issue. -/
def Obligations.CommandWords : Prop :=
  (∀ (s : State) (a : BitVec 6) (tok : BitVec 3) (i : Instr) (kind : CmdKind) (align : Nat), ScalarReady s [a.toNat] [] →
    let s1 := scalarIssued s [a.toNat]
    let v := s1.g.sval a.toNat
    (i, kind, align) ∈ [(Instr.copy a tok, CmdKind.copy, 64), (.fixline a 0 tok, .fixline 0, 128), (.fixline a 1 tok, .fixline 1, 128)] ∨
      (∃ tile : BitVec 4, i = .copymm a tile tok ∧ kind = .copymm tile.toNat ∧ align = 128 ∧ s1.g.place.tmask.getLsbD tile.toNat = true) →
    s1.g.stag a.toNat = false → v.toNat % align = 0 → v.toNat < 2 ^ 60 → copiesOn s1 s1.g.place.coreNo < 64 →
    (∀ k, kind = .fixline k → chanBusy s1 k = false) →
    ∃ u c, exec i s = .next u ∧ u.cmds = s1.cmds ++ [c] ∧ c.id = s1.uid ∧ c.kind = kind ∧ c.owner = s1.g.key ∧ c.addr = v ∧ c.cap = s1.g.cap ∧
      c.tok = tok.toNat ∧ c.stage = .issued ∧ u.uid = s1.uid + 1 ∧ (∃ e, u.g.qs.iq = s1.g.qs.iq ++ [e] ∧ e.kind = .command s1.uid) ∧
      u.g.pc = s1.g.pc + 4 ∧ u.g.r.sreg = s1.g.r.sreg ∧ u.g.r.vreg = s1.g.r.vreg ∧ (swf Token.ok s1.g.r.tok = true →
        u.g.tok tok.toNat = (if (s1.g.tok tok.toNat).count = 0 then ⟨1, 0, 0, kind.tiles⟩ else { s1.g.tok tok.toNat with
          count := (s1.g.tok tok.toNat).count + 1, tiles := (s1.g.tok tok.toNat).tiles ++ kind.tiles })) ∧
      (∀ x, homeByte u x = homeByte s x)) ∧
  (∀ (s : State) (d a : BitVec 6) (i : Instr) (kind : CmdKind), ScalarReady s [a.toNat] [d.toNat] →
    let s1 := scalarIssued s [a.toNat]
    let v := s1.g.sval a.toNat
    (i, kind) ∈ [(Instr.dcor d a, CmdKind.dcor), (.pkq d a, .pkq), (.nmop d a, .nmop), (.spg d a, .spg), (.kick d a, .kick)] →
    s1.g.stag a.toNat = false → v.toNat % 64 = 0 → v.toNat < 2 ^ 60 →
    (s1.g.handles < 16 → ∃ u c, exec i s = .next u ∧ u.cmds = s1.cmds ++ [c] ∧ c.id = s1.uid ∧ c.kind = kind ∧ c.owner = s1.g.key ∧ c.addr = v ∧
      c.cap = s1.g.cap ∧ c.reg = (if d = 0 then none else some d.toNat) ∧ c.stage = .issued ∧
      (∃ e, u.g.qs.iq = s1.g.qs.iq ++ [e] ∧ e.kind = .command s1.uid) ∧ u.g.pc = s1.g.pc + 4 ∧ u.g.r.vreg = s1.g.r.vreg ∧
      (d ≠ 0 → swf RegFut.none s1.g.r.fut = true → u.g.fut d.toNat = .pending s1.uid) ∧ (∀ x, homeByte u x = homeByte s x)) ∧
    (16 ≤ s1.g.handles → exec i s = .next (scalarMet s [a.toNat]))) ∧
  (∀ (s : State) (d a : BitVec 6) (tok : BitVec 3) (chan : BitVec 1) (tile : BitVec 4) (i : Instr) (align : Nat) (writes : List Nat),
    ScalarIssues s [a.toNat] writes → s.g.lanesDone = true →
    let s1 := scalarIssued s [a.toNat]
    let v := s1.g.sval a.toNat
    (i, align, writes) ∈ [(Instr.copy a tok, 64, []), (.fixline a chan tok, 128, []), (.dcor d a, 64, [d.toNat]), (.pkq d a, 64, [d.toNat]),
      (.nmop d a, 64, [d.toNat]), (.spg d a, 64, [d.toNat]), (.kick d a, 64, [d.toNat])] ∨
      ((i, align, writes) = (.copymm a tile tok, 128, []) ∧ s1.g.place.tmask.getLsbD tile.toNat = true) →
    (s1.g.stag a.toNat = true → TrapsScalar i s [a.toNat] (mkTrap 0x0C 0)) ∧
    (s1.g.stag a.toNat = false → v.toNat % align ≠ 0 → TrapsScalar i s [a.toNat] (mkTrap 0x04 v)) ∧
    (s1.g.stag a.toNat = false → v.toNat % align = 0 → 2 ^ 60 ≤ v.toNat → TrapsScalar i s [a.toNat] (mkTrap 0x05 v)))

/-! ### Lane words -/

/-- R215, R219, R220, R222: integer lane words: the sub-elements of each working lane, from the exact integer under SAT, or from the codes of
logic and shifts.
R34, R220: an exact integer that does not fit is clamped under SAT 1 and otherwise taken modulo 2^w; one that fits is kept. -/
def Obligations.LaneIntegerResults : Prop :=
  (∀ w : LWord,
    let ty := w.ty.toNat
    let ab := fun (_ : Machine.Group) (c : LCtx) (l : Nat) => srcA c w ty l ++ srcB c w ty l
    let a := fun (g : Machine.Group) (c : LCtx) (l j : Nat) => intOf ty (opA g c w ty l) j
    let b := fun (g : Machine.Group) (c : LCtx) (l j : Nat) => intOf ty (opB g c w ty l) j
    let x := fun (g : Machine.Group) (c : LCtx) (l j : Nat) => subOf ty (opA g c w ty l) j
    let y := fun (g : Machine.Group) (c : LCtx) (l j : Nat) => subOf ty (opB g c w ty l) j
    let W := tyWidth ty
    let int := fun (op : Nat) (i : Instr) (f : Int → Int → Int) =>
      ElementResult op i w ty false ab (fun _ => false) (fun _ => false) (fun g c l => eachSub ty (fun j => intWritten c w (f (a g c l j) (b g c l j))))
    let code := fun (op : Nat) (i : Instr) (f : Nat → Nat → Nat) =>
      ElementResult op i w ty false ab (fun _ => false) (fun _ => false) (fun g c l => eachSub ty (fun j => some (f (x g c l j) (y g c l j) % 2 ^ W, 0)))
    int 0x01 (.vadd w) (fun a b => a + b) ∧ int 0x02 (.vsub w) (fun a b => a - b) ∧ int 0x03 (.vmul w) (fun a b => a * b) ∧
    int 0x04 (.vmulh w) (fun a b => (a * b).fdiv (2 ^ W)) ∧ int 0x0C (.vmin w) min ∧ int 0x0D (.vmax w) max ∧
    ElementResult 0x05 (.vmad w) w ty false (fun _ c l => srcA c w ty l ++ srcB c w ty l ++ srcC c w ty l) (fun _ => false) (fun _ => false)
      (fun g c l => eachSub ty (fun j => intWritten c w (a g c l j * b g c l j + intOf ty (opC g c w ty l) j))) ∧
    code 0x06 (.vand w) (fun x y => x &&& y) ∧ code 0x07 (.vor w) (fun x y => x ||| y) ∧ code 0x08 (.vxor w) (fun x y => x ^^^ y) ∧
    code 0x09 (.vshl w) (fun x y => x * 2 ^ (y % W)) ∧ code 0x0A (.vshr w) (fun x y => x / 2 ^ (y % W)) ∧
    code 0x0B (.vsra w) (fun x y => wrapInt W (toSigned W x / 2 ^ (y % W))) ∧
    ElementResult 0x0F (.vsel w) w ty false (fun _ c l => srcA c w ty l ++ srcB c w ty l ++ (if w.vc = 0 then [] else [.k w.vc.toNat]))
      (fun _ => narrowTy ty) (fun _ => false)
      (fun g c l => movedBits c w (if (g.pred w.vc.toNat).getLsbD l then opA g c w ty l else opB g c w ty l)) ∧
    ElementResult 0x10 (.vmovi w) w ty false (fun _ c l => srcB c w ty l) (fun _ => narrowTy ty) (fun _ => false)
      (fun g c l => movedBits c w (opB g c w ty l))) ∧
  (∀ (wd : Nat) (signed sat : Bool) (i : Int), 0 < wd →
    let lo : Int := if signed then -2 ^ (wd - 1) else 0
    let hi : Int := if signed then 2 ^ (wd - 1) - 1 else 2 ^ wd - 1
    let r := (intResult wd signed sat i).1
    let v : Int := if signed then toSigned wd r else r
    r < 2 ^ wd ∧ (lo ≤ i → i ≤ hi → v = i) ∧ (sat = true → hi < i → v = hi) ∧ (sat = true → i < lo → v = lo) ∧
    (intResult wd signed sat i).2 = (if sat = true ∧ ¬ (lo ≤ i ∧ i ≤ hi) then fSATF else 0) ∧
    (sat = false → (2 ^ wd : Int) ∣ i - v))

/-- R215, R223 to R225, R227: floating lane words round the exact value of each sub-element once; FMIN and FMAX give an operand's bits; narrow
and stochastic results are proposals.
R47: rounding leaves every finite value of the format f32 as it is, without a flag, in every mode and for every draw.
R58: the functions of special operands; 1/x is exact; a square root, of x or of 1/x, lies on the same side of every p/2^K as the true value,
for K to 200; 2^n and log2 2^n are exact. Elsewhere 2^x and log2 x are the midpoint of a bracket that the series below give in fixed point: that
is the model's choice (log entry 23). -/
def Obligations.LaneFloatResults : Prop :=
  (∀ w : LWord,
    let ty := w.ty.toNat
    let ab := fun (_ : Machine.Group) (c : LCtx) (l : Nat) => srcA c w ty l ++ srcB c w ty l
    let sr := fun (c : LCtx) => decide (rndMode c w = 6)
    let mk := fun (c : LCtx) => narrowTy ty || sr c
    let a := fun (g : Machine.Group) (c : LCtx) (l j : Nat) => valOf ty (subOf ty (opA g c w ty l) j)
    let b := fun (g : Machine.Group) (c : LCtx) (l j : Nat) => valOf ty (subOf ty (opB g c w ty l) j)
    let d := fun (g : Machine.Group) (c : LCtx) (l j : Nat) => valOf ty (subOf ty (opC g c w ty l) j)
    let rdn := fun (c : LCtx) => decide (rndMode c w = 4)
    let bin := fun (op : Nat) (i : Instr) (f : Bool → Val → Val → Val × Flags) => ElementResult op i w ty false ab mk sr
      (fun g c l => eachSub ty (fun j => floatWritten c w ty (drawSR g l j) (f (rdn c) (a g c l j) (b g c l j))))
    let pick := fun (op : Nat) (i : Instr) (less : Bool) => ElementResult op i w ty false ab (fun _ => narrowTy ty) (fun _ => false)
      (fun g c l => eachSub ty (fun j => satBound c w ty (pickCode ty less (subOf ty (opA g c w ty l) j) (subOf ty (opB g c w ty l) j))))
    let fn := fun (op : Nat) (i : Instr) (f : RFun) => ElementResult op i w 10 false (fun _ c l => srcA c w 10 l) sr sr
      (fun g c l => floatWritten c w 10 (drawSR g l 0) (evalRFun f (valOf 10 (opA g c w 10 l))))
    bin 0x11 (.fadd w) addV ∧ bin 0x12 (.fsub w) (fun r x y => addV r x (negV y)) ∧ bin 0x13 (.fmul w) (fun _ x y => mulV x y) ∧
    ElementResult 0x14 (.ffma w) w ty false (fun _ c l => srcA c w ty l ++ srcB c w ty l ++ srcC c w ty l) mk sr
      (fun g c l => eachSub ty (fun j => floatWritten c w ty (drawSR g l j) (fmaV (rdn c) (a g c l j) (b g c l j) (d g c l j)))) ∧
    pick 0x15 (.fmin w) true ∧ pick 0x16 (.fmax w) false ∧
    fn 0x18 (.frcp w) .rcp ∧ fn 0x19 (.frsq w) .rsq ∧ fn 0x1A (.fsqrt w) .sqrt ∧ fn 0x1B (.fexp2 w) .exp2 ∧ fn 0x1C (.flog2 w) .log2) ∧
  (∀ (code m u : Nat), code < 2 ^ 32 → code / 2 ^ 23 % 2 ^ 8 ≠ 255 → roundTo fmtF32 m u (decodeF fmtF32 code) = (code, 0)) ∧
  ((∀ (f : RFun) (sig : Bool), evalRFun f (.nan sig) = (.nan false, if sig then fNV else 0)) ∧
  (∀ s : Bool, evalRFun .rcp (.zero s) = (.inf s, fDZ) ∧ evalRFun .rsq (.zero s) = (.inf s, fDZ) ∧ evalRFun .sqrt (.zero s) = (.zero s, 0) ∧
    evalRFun .exp2 (.zero s) = (.fin false 1 1, 0) ∧ evalRFun .log2 (.zero s) = (.inf true, fDZ) ∧ evalRFun .rcp (.inf s) = (.zero s, 0) ∧
    evalRFun .exp2 (.inf s) = (if s then .zero false else .inf false, 0)) ∧
  evalRFun .rsq (.inf false) = (.zero false, 0) ∧ evalRFun .sqrt (.inf false) = (.inf false, 0) ∧ evalRFun .log2 (.inf false) = (.inf false, 0) ∧
  (∀ f ∈ [RFun.rsq, .sqrt, .log2], evalRFun f (.inf true) = (.nan false, fNV) ∧ ∀ n d, evalRFun f (.fin true n d) = (.nan false, fNV))) ∧
  (∀ n d : Nat, 0 < n → 0 < d →
    let near := fun (n d : Nat) (v : Val × Flags) => ∃ a b, v = (.fin false a b, 0) ∧ 0 < b ∧
      ∀ p k : Nat, k ≤ 200 → (p * p * d < n * 4 ^ k ↔ p * b < a * 2 ^ k) ∧ (p * p * d = n * 4 ^ k ↔ p * b = a * 2 ^ k)
    (∀ s, evalRFun .rcp (.fin s n d) = (.fin s d n, 0)) ∧ near n d (evalRFun .sqrt (.fin false n d)) ∧ near d n (evalRFun .rsq (.fin false n d))) ∧
  (∀ (s : Bool) (n d : Nat), 0 < n → 0 < d →
    let x : Int := if s then -n else n
    let i := x.fdiv d
    let up := 2 ^ i.toNat
    let dn := 2 ^ (-i).toNat
    let y := evalRFun .exp2 (.fin s n d)
    (n / d < 1024 → d ∣ n → y = (.fin false up dn, 0)) ∧
    (n / d < 1024 → ¬ d ∣ n → ∃ m, m = expFix ((x.fmod d).toNat * atanhFix 1 3 / d) / 2 ^ 64 ∧ 2 ^ 256 ≤ m ∧ m < 2 ^ 257 ∧
      y = (.fin false ((2 * m + 1) * up) (2 ^ 257 * dn), 0)) ∧
    (1024 ≤ n / d → ∃ a b, y = (.fin false a b, 0) ∧ if s then 0 < a ∧ a * 2 ^ 1024 ≤ b else b * 2 ^ 1024 ≤ a)) ∧
  (∀ (n d : Nat) (e : Int), 0 < n → 0 < d →
    let a := n * 2 ^ (-e).toNat
    let b := d * 2 ^ e.toNat
    b ≤ a → a < 2 * b →
    (a = b → evalRFun .log2 (.fin false n d) = (ofInt e, 0)) ∧
    (a ≠ b → ∃ m, m = atanhFix (a - b) (a + b) * 2 ^ 320 / atanhFix 1 3 / 2 ^ 64 ∧ m ≤ 2 ^ 256 ∧
      evalRFun .log2 (.fin false n d) = (ofQ false (e * 2 ^ 257 + (2 * m + 1)) (2 ^ 257), 0))) ∧
  (∀ x : Nat, ∃ t : Nat → Nat, t 0 = 2 ^ 320 ∧ (∀ i, t (i + 1) = t i * x / 2 ^ 320 / (i + 1)) ∧ expFix x = ((List.range 81).map t).sum) ∧
  (∀ a b : Nat, ∃ p : Nat → Nat, p 0 = a * 2 ^ 320 / b ∧ (∀ i, p (i + 1) = p i * (p 0 * p 0 / 2 ^ 320) / 2 ^ 320) ∧
    atanhFix a b = ((List.range 120).map (fun i => 2 * p i / (2 * i + 1))).sum)

/-- R221, R226: VCMP and FCMP write one bit per working lane.
R228, R229: VCVT writes the sub-elements that PART names, each converted by its row, and keeps the others. R232: VDQ multiplies code, scale and
factor and rounds once. R42, R233: the Hadamard step. R234: random draws.
R231: VQNT writes each working lane's packed codes of the quotients of the run, or of its Hadamard image, by the divisor, and for e2m1 its block's
scale in the next register, as proposals; under SR only the lowest written lane's count advances. That the inverse step gives an exact zero the
sign of its factor, and that VQNT raises the flags of the rounded image too, are the model's choices (log entries 103 and 34). -/
def Obligations.LaneConversions : Prop :=
  (∀ w : LWord,
    let ty := w.ty.toNat
    let ab := fun (_ : Machine.Group) (c : LCtx) (l : Nat) => srcA c w ty l ++ srcB c w ty l
    PredicateResult 0x0E (.vcmp w) w ab (fun g c l =>
      let a := intOf ty (opA g c w ty l) 0
      let b := intOf ty (opB g c w ty l) 0
      ([decide (a = b), decide (a ≠ b), decide (a < b), decide (a ≤ b), decide (b < a)].getD w.mod8.toNat (decide (b ≤ a)), 0)) ∧
    PredicateResult 0x17 (.fcmp w) w ab (fun g c l =>
      floatCond w.mod8.toNat (valOf ty (opA g c w ty l)) (valOf ty (opB g c w ty l)))) ∧
  (∀ w : LWord,
    let ty := w.ty.toNat
    let src := w.mod8.toNat % 32
    let sr := fun (c : LCtx) => decide (rndMode c w = 6)
    let cv := fun (c : LCtx) => sr c && !(tyInt src && tyInt ty)
    let known := fun (t : Nat) => t ≤ 14 ∨ t = 16
    (known src → known ty → ∃ f : Machine.Group → LCtx → Nat → Rounded, ElementResult 0x1D (.vcvt w) w ty false
        (fun _ c l => srcA c w src l ++ (if tyWidth src > tyWidth ty then srcD c w ty l else [])) (fun c => narrowTy src || narrowTy ty || cv c) cv
        (fun g c l => some (f g c l)) ∧
      ∀ g c l,
        let ws := tyWidth src
        let wd := tyWidth ty
        let n := if ws ≤ 32 ∧ wd ≤ 32 then 32 / max ws wd else 1
        let at_ := w.mod8.toNat / 32 * n
        let di := if wd < ws then at_ else 0
        let row := fun j => convertedTo (w.sat = 1) (rndMode c w) (drawSR g l j) src ty (subOf src (opA g c w src l) ((if ws < wd then at_ else 0) + j))
        (∀ j < n, subOf ty (f g c l).1 (di + j) = (row j).1 % 2 ^ wd) ∧
        (wd < ws → ∀ k, k < di ∨ di + n ≤ k → subOf ty (f g c l).1 k = subOf ty (opD g c w ty l) k) ∧
        (f g c l).2 = (List.range n).foldl (fun a j => a ||| (row j).2) 0) ∧
    ElementResult 0x1F (.vdq w) w 10 false
      (fun _ c l => [.v (c.rn w.va.toNat) l] ++ (if w.ty = 14 then [.v (c.rn w.va.toNat + 1) l] else []) ++ srcB c w 10 l) (fun _ => true) sr
      (fun g c l =>
        let e := g.velem (c.rn w.va.toNat) l
        let s := valOf 10 (opB g c w 10 l)
        let p := if w.ty = 14 then mulV (decodeF fmtE2M1 (e.toNat / 2 ^ (4 * (l % 8)) % 16)) (decodeF fmtE3M5 ((g.velem (c.rn w.va.toNat + 1) l).toNat % 256))
          else (decodeF (tyFmt ty) (e.toNat / 2 ^ (8 * (l % 4)) % 256), 0)
        floatWritten c w 10 (drawSR g l 0) ((mulV p.1 s).1, p.2 ||| (mulV p.1 s).2)) ∧
    ElementResult 0x20 (.vhad w) w 10 false
      (fun _ c _ => (List.range 32).flatMap (fun m => srcA c w 10 m) ++ [.s w.vb.toNat, .s (w.vb.toNat + 1)]) (fun _ => false) (fun _ => false)
      (fun g c l =>
        let p := g.sval (w.vb.toNat + 1)
        let W := (gen (g.sval w.vb.toNat) 0x48414431 0 (p.extractLsb' 32 32) (p.extractLsb' 0 32)).extractLsb' 0 32
        satBound c w 10 (hadamard (w.mod8.getLsbD 4) W (fun m => valOf 10 (opA g c w 10 m)) l)) ∧
    ElementResult 0x21 (.vrng w) w ty false (fun _ _ _ => []) (fun _ => false) (fun _ => true) (fun g _ l => some (rngBits g ty l, 0))) ∧
  (∀ (w : LWord) (s : State), LaneReady (namesOf 0x1E w) s →
    let c := ctxOf s
    let s1 := laneIssued (namesOf 0x1E w) s
    let had := w.mod8.getLsbD 4
    let pt := actMask s1.g c &&& predMask s1.g w.pn w.pk
    let srcs := fun l => (if had then List.range 32 else quantBlock w.ty.toNat l).flatMap (srcA c w 10) ++ (quantBlock w.ty.toNat l).flatMap (srcB c w 10) ++
      (if had then [Src.s w.vc.toNat, .s (w.vc.toNat + 1)] else [])
    let narrow := decide (w.ty.toNat = 14)
    let p := s1.g.sval (w.vc.toNat + 1)
    let W := (gen (s1.g.sval w.vc.toNat) 0x48414431 0 (p.extractLsb' 32 32) (p.extractLsb' 0 32)).extractLsb' 0 32
    let run := fun m => valOf 10 (opA s1.g c w 10 m)
    let x := fun m => if had then (decodeF fmtF32 (hadamard false W run m).1, (hadamard false W run m).2) else (run m, 0)
    let y := fun m => ((divV (x m).1 (valOf 10 (opB s1.g c w 10 m))).1, (divV (x m).1 (valOf 10 (opB s1.g c w 10 m))).2 ||| (x m).2)
    let draw := fun m => ((groupGen s1.g (s1.g.srcCount (lowLane pt)) (BitVec.ofNat 32 m)).extractLsb' 0 32).toNat
    LoopRuns w c s1.g srcs (fun l => if pt.getLsbD l then srcs l else []) (fun l => some l) →
    ∃ out : Nat → List Elem × Flags,
      exec (.vqnt w) s = .next (laneDone c (s1.upG (writeLanes c w (c.rn w.vd.toNat) (if w.ty = 14 then 2 else 1)
        ((workLanes s1.g c w).map (fun l => (l, out l))) (fun _ => true) (if rndMode c w = 6 then (workLanes s1.g c w).take 1 else [])))) ∧
      ∀ l ∈ workLanes s1.g c w,
        let b := quantBlock w.ty.toNat l
        ∃ (word : Elem) (sc : Rounded), (if narrow then IsScale (b.map (fun m => (y m).1)) sc else sc = (0, 0)) ∧
          let code := fun m =>
            let r := if narrow then
                (if sc.1 = 0xFF then (0, 0) else roundSat fmtE2M1 (rndMode c w) (draw m) (w.sat = 1) (divV (y m).1 (decodeF fmtE3M5 sc.1)).1)
              else roundSat (tyFmt w.ty.toNat) (rndMode c w) (draw m) (w.sat = 1) (y m).1
            (r.1, r.2 ||| (y m).2)
          let n := if narrow then 4 else 8
          (out l).1 = (if narrow then [word, BitVec.ofNat 32 sc.1] else [word]) ∧
          (∀ i < 32 / n, word.extractLsb' (n * i) n = BitVec.ofNat n (code (l / (32 / n) * (32 / n) + i)).1) ∧
          (out l).2 = b.foldl (fun a m => a ||| (code m).2) sc.2)

/-- R237 to R242: VSHF, VSCAN and VBAL write a value per lane from other lanes; VRED and VXTS write one scalar register. That a minimum or
maximum sets NV for every signalling NaN of its set, and that VSCAN.excl of no source is the identity of R240 without a rounding, are the model's
choices (log entries 35 and 61). -/
def Obligations.LaneCrossResults : Prop :=
  ∀ w : LWord,
    let ty := w.ty.toNat
    let o := w.mod8.toNat % 8
    let sr := fun (c : LCtx) => decide (rndMode c w = 6) && decide (o = 0) && !tyInt ty
    let from_ := fun (g : Machine.Group) (c : LCtx) (l : Nat) => shfLane w.mod8.toNat l (opB g c w 6 l % 32)
    let below := fun (g : Machine.Group) (c : LCtx) (l : Nat) => (workLanes g c w).filter (fun k => if w.mod8.getLsbD 3 then k < l else k ≤ l)
    let n := fun (g : Machine.Group) => (if w.bk = 1 then (g.sval w.vb.toNat).toNat else w.imm.toNat) % 32
    ElementResult 0x22 (.vshf w) w ty true (fun g c l => srcA c w ty (from_ g c l) ++ srcB c w 6 l) (fun _ => narrowTy ty) (fun _ => false)
      (fun g c l => some (opA g c w ty (from_ g c l), 0)) ∧
    ElementResult 0x24 (.vscan w) w ty true (fun g c l => (below g c l).flatMap (fun k => srcA c w ty k)) sr sr
      (fun g c l => some (reduceCodes ty o (w.sat = 1) (rndMode c w) (drawSR g l 0) ((below g c l).map (opA g c w ty)))) ∧
    ElementResult 0x25 (.vbal w) w 6 true (fun _ _ _ => if w.va = 0 then [] else [Src.k w.va.toNat]) (fun _ => false) (fun _ => false)
      (fun g c l =>
        let W := actMask g c &&& predMask g w.pn w.pk &&& g.pred w.va.toNat
        some (if w.mod8 = 0 then W.toNat else if w.mod8 = 1 then (lanesOf W).length else ((lanesOf W).filter (fun k => k < l)).length, 0)) ∧
    ScalarResult 0x23 (.vred w) w (fun _ c l => srcA c w ty l) sr sr (extendResult ty (reduceIdentity ty o))
      (fun g c pt =>
        let r := reduceCodes ty o (w.sat = 1) (rndMode c w) (drawSR g (pt.headD 0) 0) (pt.map (opA g c w ty))
        (extendResult ty r.1, r.2)) ∧
    ScalarResult 0x26 (.vxts w) w (fun g c _ => srcA c w ty (n g) ++ (if w.bk = 1 then [Src.s w.vb.toNat] else [])) (fun _ => false) (fun _ => false) 0
      (fun g c _ => (extendResult ty (opA g c w ty (n g)), 0))

/-- R50, R64, R67, R69, R215: what a lane loop writes and what it leaves: a working lane's destination takes its result; every other element
keeps its value, and its tag, but for active lanes under a proposal predicate; scalar registers, predicates, tiles and accumulators stand;
flags are only added to STATUS; no byte of memory changes. -/
def Obligations.LaneElementFrame : Prop :=
  ∀ (op : Nat) (i : Instr) (w : LWord) (ty : Nat) (cross : Bool) (srcs : Machine.Group → LCtx → Nat → List Src) (marked draws : LCtx → Bool)
    (f : Machine.Group → LCtx → Nat → Option Rounded) (s : State), ElementResult op i w ty cross srcs marked draws f →
    LaneReady (namesOf op w) s → RegsOk s.g.r →
    let c := ctxOf s
    let s1 := laneIssued (namesOf op w) s
    let tests := fun l => if !cross || (actMask s1.g c &&& predMask s1.g w.pn w.pk).getLsbD l then srcs s1.g c l else []
    LoopRuns w c s1.g (srcs s1.g c) tests (f s1.g c) →
    let r := c.rn w.vd.toNat
    ∃ t, exec i s = .next t ∧
      (∀ l ∈ workLanes s1.g c w, ∀ x, f s1.g c l = some x → ∀ j < regCount ty,
        t.g.velem (r + j) l = (toElems ty x.1).getD j 0 ∧ t.g.vtag (r + j) l = resultTag s1.g c w (marked c && (!cross || !(srcs s1.g c l).isEmpty)) (srcs s1.g c l)) ∧
      (∀ n l, l < 32 → (n < r ∨ r + regCount ty ≤ n ∨ l ∉ workLanes s1.g c w) → t.g.velem n l = s.g.velem n l) ∧
      (∀ n l, l < 32 → (n < r ∨ r + regCount ty ≤ n ∨ l ∉ lanesOf (actMask s1.g c)) → t.g.vtag n l = s.g.vtag n l) ∧
      (∀ n, s.g.fut n = .none → t.g.sval n = s.g.sval n ∧ t.g.stag n = s.g.stag n) ∧ (∀ k, t.g.pred k = s.g.pred k ∧ t.g.ptag k = s.g.ptag k) ∧
      t.g.r.tile = s.g.r.tile ∧ t.g.r.dreg = s.g.r.dreg ∧ t.g.sp.exmask = s.g.sp.exmask ∧ t.g.sp.status ||| s.g.sp.status = t.g.sp.status ∧
      t.g.pc = s.g.pc ∧ (∀ l, l ∉ workLanes s1.g c w → t.g.srcCount l = s.g.srcCount l) ∧ SameButGroup s t ∧ (∀ a, homeByte t a = homeByte s a)

/-- R33, R239, R242: a lane word that loops over lanes has no effect where no lane is active, whatever status its tokens have, and its path goes to
the next word; VRED and VXTS then write their identity or 0, settled. That the status of a token raises TOKEN only where a word has an effect, VRED
and VXTS among them, is the model's reading (log entry 32).
R10, R14, R150, R194: a lane word waits for the tokens that it names; a control word in a LISSUE run, a register outside the allocation
or a tile outside the mask is ILLEGAL; a token with the status FAULT raises TOKEN with the address that it keeps. -/
def Obligations.LaneSkipsAndChecks : Prop :=
  ((∀ (w : LWord) (s : State) (op : Nat) (i : Instr),
    (op, i) ∈ [(0x01, Instr.vadd w), (0x02, .vsub w), (0x03, .vmul w), (0x04, .vmulh w), (0x05, .vmad w), (0x06, .vand w),
      (0x07, .vor w), (0x08, .vxor w), (0x09, .vshl w), (0x0A, .vshr w), (0x0B, .vsra w), (0x0C, .vmin w), (0x0D, .vmax w),
      (0x0E, .vcmp w), (0x0F, .vsel w), (0x10, .vmovi w), (0x11, .fadd w), (0x12, .fsub w), (0x13, .fmul w), (0x14, .ffma w),
      (0x15, .fmin w), (0x16, .fmax w), (0x17, .fcmp w), (0x18, .frcp w), (0x19, .frsq w), (0x1A, .fsqrt w), (0x1B, .fexp2 w),
      (0x1C, .flog2 w), (0x1D, .vcvt w), (0x1E, .vqnt w), (0x1F, .vdq w), (0x20, .vhad w), (0x21, .vrng w), (0x22, .vshf w),
      (0x24, .vscan w), (0x25, .vbal w), (0x27, .vld w), (0x28, .vst w), (0x29, .vlds w), (0x2A, .vsts w), (0x2B, .vatom w),
      (0x2C, .vrds w), (0x30, .vprop w), (0x31, .vtag w), (0x32, .dacc w), (0x33, .dsum w), (0x34, .dapply w), (0x3D, .yield w)] →
    LaneIssues (namesOf op w) s → actMask (laneIssued (namesOf op w) s).g (ctxOf s) = 0 →
    exec i s = .next (laneDone (ctxOf s) (laneRead (namesOf op w) s))) ∧
  (∀ (w : LWord) (s : State) (op : Nat) (i : Instr) (idle : Word),
    (op, i, idle) ∈ [(0x23, Instr.vred w, extendResult w.ty.toNat (reduceIdentity w.ty.toNat (w.mod8.toNat % 8))), (0x26, .vxts w, 0)] →
    let s1 := laneIssued (namesOf op w) s
    LaneReady (namesOf op w) s → actMask s1.g (ctxOf s) = 0 → s1.g.blocked w.vd.toNat = false →
    exec i s = .next (laneDone (ctxOf s) (s1.upG (fun g => g.setS w.vd.toNat idle false))))) ∧
  (∀ (w : LWord) (s : State) (op : Nat) (i : Instr), (op, i) ∈ [(0x01, Instr.vadd w), (0x11, .fadd w), (0x2E, .lend w), (0x36, .mzero w)] →
    let c := ctxOf s
    let trap := fun (t : Trap) (u : State) => takeTrap u t ⟨true, c.slot, c.idx, 0, c.cap.rgn⟩ s.g.pc
    (∀ t < 8, w.wt.getLsbD t = true → (s.g.tok t).count ≠ 0 → exec i s = .next s) ∧
    (s.g.qs.pendL = none → s.g.qs.pendS = none → tokensBusy s.g w.wt = false →
      issueOk (laneBegun s).g c op (laneRegs op w) (laneTiles op w) = false → exec i s = .next (trap (mkTrap 0x01 0) (laneBegun s))) ∧
    (∀ t, op = 0x2E → LaneIssues (namesOf op w) s → s.g.qs.pendS = none → t < 8 → w.wt.getLsbD t = true → (s.g.tok t).status = 2 →
      (∀ u < t, ¬ (w.wt.getLsbD u = true ∧ (s.g.tok u).status = 2)) → exec i s = .next (trap (mkTrap 0x12 (s.g.tok t).faddr) (laneRead (namesOf op w) s))))

/-- R243, R244: a lane's address is the base, plus the signed 32-bit offset times the access size, plus the displacement where the immediate is
no data operand.
R245, R248: VLD, VLDS and VATOM wait for their accesses and write each lane's element with the tag of its unit and of its operands; a lane of
VATOM gets the value before its own addition. How far the stream goes past such a word while it waits is the model's choice (log entry 20). -/
def Obligations.LaneReadsMemory : Prop :=
  (∀ (g : Machine.Group) (c : LCtx) (w : LWord) (z l : Nat),
    laneAddr g c w z l = BitVec.ofInt 64 ((g.sval w.va.toNat).toInt + (BitVec.ofNat 32 (opB g c w 6 l)).toInt * z + (if w.ck = 2 then 0 else w.imm.toInt))) ∧
  (∀ w : LWord,
    let ty := w.ty.toNat
    let z := accessSize ty
    let load := fun (_ : Machine.Group) (_ : LCtx) (ts : List (Nat × Target)) => ts.map (fun t => { t.2.entry .load z with lane := t.1, lw := true })
    let atoms := fun (g : Machine.Group) (c : LCtx) (ts : List (Nat × Target)) => combineAdds w (ts.map (atomEntry g c w .atomic))
    ReadsMemory 0x27 (.vld w) w false .load (fun c => addrSrcs c w) load (fun _ _ p => p.got.map (·.lane)) (fun g c p => loadedValue g c w p) ∧
    ReadsMemory 0x29 (.vlds w) w true .load (fun c => addrSrcs c w) load (fun _ _ p => p.got.map (·.lane)) (fun g c p => loadedValue g c w p) ∧
    ReadsMemory 0x2B (.vatom w) w (w.mod8.getLsbD 7) .atomic (fun c => atomSrcs c w) atoms (fun g c _ => workLanes g c w)
      (fun g c p => atomValue g c w p (workLanes g c w)))

/-- R246, R248: VST and VSTS put the stores of their working lanes into the issue queue, joined per unit, at the places that the lanes' addresses
give; VRDS puts its reductions there. No byte of memory changes.
R121, R246: of stores of one word to one place the highest lane's bytes are seen, and joined stores hold every byte of their parts: a place
written by any store of the word is written by a joined store to its unit, with the value that the last of them gives. -/
def Obligations.LaneStores : Prop :=
  (∀ (w : LWord) (s : State) (ts : List (Nat × Target)),
    let ty := w.ty.toNat
    let z := accessSize ty
    let srcs := fun (c : LCtx) (l : Nat) => addrSrcs c w l ++ srcC c w ty l
    let c := ctxOf s
    (∀ (op : Nat) (i : Instr) (sp : Bool), (op, i, sp) ∈ [(0x28, Instr.vst w, false), (0x2A, .vsts w, true)] → LaneReady (namesOf op w) s →
      let s1 := laneIssued (namesOf op w) s
      MemRuns w sp .store z (srcs c) c s1 ts → (∀ t ∈ ts, (storedBits s1.g c w t.1).isSome = true) →
      let one := fun (t : Nat × Target) => { t.2.store z ((storedBits s1.g c w t.1).getD (0, 0)).1 (resultTag s1.g c w (narrowTy ty) (srcs c t.1)) with
        lane := t.1, lw := true }
      let flags := ts.foldl (fun f t => f ||| ((storedBits s1.g c w t.1).getD (0, 0)).2) 0
      ∃ u, exec i s = .next u ∧ u = laneDone c (s1.upG (fun g => (g.addIq (mergeStores ((dropOverwritten ts).map one))).orStatus flags)) ∧
        u.g.qs.iq = s.g.qs.iq ++ mergeStores ((dropOverwritten ts).map one) ∧ (∀ a, homeByte u a = homeByte s a)) ∧
    (LaneReady (namesOf 0x2C w) s →
      let s1 := laneIssued (namesOf 0x2C w) s
      MemRuns w (w.mod8.getLsbD 7) .reduce z (atomSrcs c w) c s1 ts →
      ∃ u, exec (.vrds w) s = .next u ∧ u = laneDone c (s1.upG (fun g => g.addIq (combineAdds w (ts.map (atomEntry s1.g c w .reduce))))) ∧
        (∀ a, homeByte u a = homeByte s a))) ∧
  (∀ (l : List Entry) (a : Nat), (∀ e ∈ l, e.kind = .store ∧ e.pk = .r ∧ e.member = none ∧ (∀ p ∈ e.wr, unitOf p.1 = unitOf e.place) ∧
      (e.wr.map (·.1)).Pairwise (· < ·)) →
    let last := l.reverse.findSome? (fun e => (e.wr.find? (fun p => p.1 = a)).map (·.2))
    let seen := (mergeStores l).findSome? (fun e => (e.wr.find? (fun p => p.1 = a)).map (·.2))
    seen = last ∧ ((mergeStores l).map (fun e => unitOf e.place)).Nodup)

/-- R20, R33, R250, R251: LBR. With no active lane the path goes to its reconvergence word; where every active lane takes the branch, or none
does, the path goes there whole; else it splits, under an entry that holds the reconvergence word and the path's mask. R21: a full stack first writes
its bottom entry to the bivouac area.
R20: a split shares the path's mask out: the falling lanes go on in the branch's slot, the others stand at the target in the other slot, the
new top entry holds the whole mask, and the open divergences grow by one. -/
def Obligations.LaneBranches : Prop :=
  (∀ (w : LbrWord) (s : State), LaneReady (namesOnly 0x2D w.wt w.pn w.pk) s →
    let c := ctxOf s
    let s1 := laneIssued (namesOnly 0x2D w.wt w.pn w.pk) s
    let g := s1.g
    let act := actMask g c
    let taken := act &&& predMask g w.pn w.pk
    let fall := act &&& ~~~ predMask g w.pn w.pk
    let p := c.path.p || predTag g w.pk
    let clean := (w.tg = 1 → p = false) ∧ (w.pk ≠ 0 → g.r.bad.contains (0x03, w.pk.toNat) = false)
    let go := fun (pc : LIdx) (p : Bool) => exec (.lbr w) s = .next (s1.setG (g.goTo c pc p).popDue)
    (act = 0 → go w.rpc c.path.p) ∧
    (act ≠ 0 → clean → fall = 0 → go w.tgt p) ∧
    (act ≠ 0 → clean → fall ≠ 0 → taken = 0 → go (c.path.pc + 1) p) ∧
    (act ≠ 0 → clean → fall ≠ 0 → taken ≠ 0 → g.ln.depth < g.divLimit → exec (.lbr w) s =
      .next ((spillDiv s1).upG (fun g => (splitPath g c w fall p).popDue))) ∧
    (act ≠ 0 → clean → fall ≠ 0 → taken ≠ 0 → g.divLimit ≤ g.ln.depth → s.g.qs.pendS = none →
      TrapsLane (.lbr w) (namesOnly 0x2D w.wt w.pn w.pk) s (mkTrap 0x0E (BitVec.ofNat 64 g.ln.depth)) (lowLane act)) ∧
    (act ≠ 0 → w.tg = 1 → p = true → s.g.qs.pendS = none → TrapsLane (.lbr w) (namesOnly 0x2D w.wt w.pn w.pk) s (mkTrap 0x0D 0) (lowLane act))) ∧
  (∀ (g : Machine.Group) (c : LCtx) (w : LbrWord) (fall : BitVec 32) (p : Bool), fall &&& ~~~ c.path.mask = 0 →
    let h := splitPath g c w fall p
    let mine := if c.slot then h.ln.l1 else h.ln.l0
    let other := if c.slot then h.ln.l0 else h.ln.l1
    mine = some ⟨c.path.pc + 1, fall, p⟩ ∧ other = some ⟨w.tgt, c.path.mask &&& ~~~ fall, p⟩ ∧
    fall ||| (c.path.mask &&& ~~~ fall) = c.path.mask ∧ fall &&& (c.path.mask &&& ~~~ fall) = 0 ∧
    (∃ rest, h.ln.stack = ⟨w.rpc, 0, false, false, c.path.p, 0, c.path.mask⟩ :: rest) ∧
    h.ln.stack.length = g.ln.stack.length + 1 ∧ h.ln.depth = g.ln.depth + 1) ∧
  (∀ s : State, s.g.ln.stack.length ≤ 16 →
    let u := spillDiv s
    u.g.ln.depth = s.g.ln.depth ∧ u.g.ln.stack.length ≤ 15 ∧ (s.g.ln.stack.length ≤ 15 → u = s) ∧
    (∀ e x, StoresOk s → s.quiet = true → s.g.ln.stack.length = 16 → s.g.ln.stack.getLast? = some e →
      ownPlace s s.g .store (s.g.sp.bivbase + BitVec.ofNat 64 (16 * s.g.ln.biv)) = some x →
      (∀ i < 16, homeByte u (x.pa + i) = (leBytes 16 (divWord e)).getD i 0) ∧
      ∀ a, a < x.pa ∨ x.pa + 16 ≤ a → homeByte u a = homeByte s a))

/-- R252, R253: LEND ends its run, with no divergence open; LMASK writes EXMASK.
R65, R69, R254, R255: VPROP copies its operand as a proposal; VTAG writes a bit per working lane that says whether what it reports on is a
proposal, settled unless TG = 2; under a proposal predicate active lanes that it does not write mark its destination. -/
def Obligations.LaneEndMaskAndTags : Prop :=
  ((∀ (w : LWord) (s : State), LaneReady (namesOf 0x2E w) s →
    let s1 := laneIssued (namesOf 0x2E w) s
    ((s1.g.ln.gl.isOpen && decide (s1.g.lvl = 0)) = false → s1.g.ln.depth = 0 → exec (.lend w) s = .next (s1.upG Group.endRun)) ∧
    ((s1.g.ln.gl.isOpen && decide (s1.g.lvl = 0)) = true → s.g.qs.pendS = none → TrapsLane (.lend w) (namesOf 0x2E w) s (mkTrap 0x13 0) 0) ∧
    ((s1.g.ln.gl.isOpen && decide (s1.g.lvl = 0)) = false → s1.g.ln.depth ≠ 0 → s.g.qs.pendS = none →
      TrapsLane (.lend w) (namesOf 0x2E w) s (mkTrap 0x0E (BitVec.ofNat 64 s1.g.ln.depth)) 0)) ∧
  (∀ (w : LWord) (s : State), LaneReady (namesOf 0x2F w) s →
    let c := ctxOf s
    let s1 := laneIssued (namesOf 0x2F w) s
    let m := maskOperand s1.g w
    let old := s1.g.sp.exmask
    let new := [m.1, old &&& m.1, old ||| m.1].getD (w.mod8.toNat / 4 % 4) (old &&& ~~~ m.1)
    (m.2.any (Src.tag s1.g c) = false → firstBad s1.g m.2 = none →
      exec (.lmask w) s = .next (laneDone c (s1.upG (fun g => { g with sp := { g.sp with exmask := new } })))) ∧
    (m.2.any (Src.tag s1.g c) = true → s.g.qs.pendS = none → TrapsLane (.lmask w) (namesOf 0x2F w) s (mkTrap 0x0C 0) 0))) ∧
  ((∀ (w : LWord) (s : State), LaneReady (namesOf 0x30 w) s →
    let ty := w.ty.toNat
    let c := ctxOf s
    let s1 := laneIssued (namesOf 0x30 w) s
    LoopRuns w c s1.g (fun l => srcA c w ty l) (fun l => srcA c w ty l) (fun l => some l) →
    exec (.vprop w) s = .next (laneDone c (s1.upG (writeLanes c w (c.rn w.vd.toNat) (regCount ty)
      ((workLanes s1.g c w).map (fun l => (l, toElems ty (opA s1.g c w ty l), 0))) (fun _ => true) [])))) ∧
  (∀ (w : LWord) (s : State), LaneReady (namesOf 0x31 w) s →
    let c := ctxOf s
    let s1 := laneIssued (namesOf 0x31 w) s
    let bit := fun l => if w.mod8 = 3 then c.path.p else (tagSrcs c w l).any (Src.tag s1.g c)
    LoopRuns w c s1.g (fun _ => []) (tagSrcs c w) (fun l => some l) →
    exec (.vtag w) s = .next (laneDone c (s1.setG (s1.g.writePred w.vd.toNat ((workLanes s1.g c w).map (fun l => (l, bit l))) (w.tg = 2)
      (predTag s1.g w.pk && actMask s1.g c &&& ~~~ predMask s1.g w.pn w.pk ≠ 0))))))

/-- R59, R258, R80: DACC adds b − a·x to the residual of each working lane, and the magnitudes to the norms; SYS remembers a proposal among a
and b.
R59, R258: what one accumulation does to an element, where its operands and every quantity fit the range.
R259: DSUM writes the chosen quantity of each working lane, or of its segment's sum, which then stands in the accumulator. That the accumulators of
active lanes that a word does not write stand, with their SYS, under a proposal predicate too is the model's choice (log entry 105). -/
def Obligations.Accumulators : Prop :=
  (∀ (w : LWord) (s : State), LaneReady (namesOf 0x32 w) s → RegsOk s.g.r →
    let ty := w.ty.toNat
    let c := ctxOf s
    let s1 := laneIssued (namesOf 0x32 w) s
    let g := s1.g
    let n := w.vd.toNat
    let clr := w.mod8.getLsbD 0
    let ab := fun l => srcA c w ty l ++ srcC c w ty l
    let all := fun l => srcA c w ty l ++ srcB c w ty l ++ srcC c w ty l ++ (if clr then [] else [Src.d n l])
    let old := fun l => if clr then DElem.zero else g.dElem n l
    let new := fun l => accumulate (rangeI c) (rangeF c) (old l) (valOf ty (opA g c w ty l)) (valOf ty (opB g c w ty l)) (valOf ty (opC g c w ty l))
      (resultTag g c w false (ab l))
    let runs := actMask g c ≠ 0 ∧ settledTest g c w (lanesOf (actMask g c)) ab = none ∧ badLane g w (workLanes g c w) all = none
    (runs → (∀ l ∈ workLanes g c w, (new l).isSome = true) → ∃ t, exec (.dacc w) s = .next t ∧
      (∀ l ∈ workLanes g c w, some (t.g.dElem n l) = new l) ∧ (∀ m l, l < 32 → m ≠ n ∨ l ∉ workLanes g c w → t.g.dElem m l = s.g.dElem m l) ∧
      t.g.r.vreg = s.g.r.vreg ∧ t.g.r.vtag = s.g.r.vtag ∧ (∀ a, homeByte t a = homeByte s a)) ∧
    (∀ l ∈ workLanes g c w, runs → new l = none → (∀ k ∈ workLanes g c w, k < l → (new k).isSome = true) → s.g.qs.pendS = none →
      TrapsLane (.dacc w) (namesOf 0x32 w) s (mkTrap 0x0A 0) l)) ∧
  (∀ (I F : Nat) (d e : DElem) (a x b : Val) (sys : Bool), accumulate I F d a x b sys = some e →
    ∃ fa fx fb p : Int, toFixed I F a = some fa ∧ toFixed I F x = some fx ∧ toFixed I F b = some fb ∧ fxMul I F fa fx = some p ∧
      e.res = d.res + fb - p ∧ e.na = d.na + fa.natAbs ∧ e.nx = max d.nx fx.natAbs ∧ e.nb = d.nb + fb.natAbs ∧ e.sys = (d.sys || sys)) ∧
  (∀ (w : LWord) (s : State), LaneReady (namesOf 0x33 w) s →
    let ty := w.ty.toNat
    let c := ctxOf s
    let s1 := laneIssued (namesOf 0x33 w) s
    let g := s1.g
    let n := w.va.toNat
    let seg := w.mod8.toNat / 4 % 8
    let pt := workLanes g c w
    let mates := fun l => pt.filter (fun k => k / 2 ^ seg = l / 2 ^ seg)
    let item := fun l => if seg = 0 then g.dElem n l else combineD ((mates l).map (g.dElem n))
    let srcs := fun l => (mates l).map (fun k => Src.d n k)
    let fits := fun l => seg = 0 ∨ (fxFits (rangeI c) (rangeF c) (item l).res = true ∧ fxFits (rangeI c) (rangeF c) (item l).na = true ∧
      fxFits (rangeI c) (rangeF c) (item l).nb = true)
    let out := fun l => fromFixed (rangeF c) ty (rndMode c w) (drawSR g l 0) (quantity (w.mod8.toNat % 4) (item l))
    LoopRuns w c g srcs (fun l => if pt.contains l then srcs l else []) (fun l => some l) → (∀ l ∈ pt, fits l) →
    exec (.dsum w) s = .next (laneDone c (s1.setG (writeLanes c w (c.rn w.vd.toNat) (regCount ty)
      (pt.map (fun l => (l, toElems ty (out l).1, (out l).2))) (fun l => (item l).sys || taint g c w || (decide (rndMode c w = 6) && tyInt ty))
      (if rndMode c w = 6 then pt else []) (if seg = 0 then g else pt.foldl (fun h l => h.setD n l (item l)) g)))))

/-- R79, R81, R260: DAPPLY outside a pass keeps each working lane's candidate and settles it exactly where its lane certifies, and with ALL only
where every lane does. In which lanes a proposal tol raises PROPUSE is the model's choice (log entry 104).
R83, R260: a pass whose record has been read counts itself in DSTAT; where every lane certifies it settles the candidates and ends CERTIFIED;
the first pass sets ELAPSED to 0, so that with a lane that does not certify it ends in the state 1 whatever DEADLINE, GROWTH and MAXP hold. That a
record that met poison raises POISON, changes nothing else and restarts no region is the model's choice (log entry 36). -/
def Obligations.Applying : Prop :=
  (∀ (w : LWord) (s : State), LaneReady (namesOf 0x34 w) s →
    let ty := w.ty.toNat
    let c := ctxOf s
    let s1 := laneIssued (namesOf 0x34 w) s
    let g := s1.g
    let pt := workLanes g c w
    let srcs := fun l => srcD c w ty l ++ srcB c w 10 l ++ [Src.d w.va.toNat l]
    let ok := fun l => (laneCertifies g c w l).1
    let every := !(w.mod8.getLsbD 0) || pt.all ok
    actMask g c ≠ 0 → (dctlEn c.cap.dctl = false ∨ pt = []) → (∀ l ∈ pt, (srcB c w 10 l).any (Src.tag g c) = false) → badLane g w pt srcs = none →
    (∀ l ∈ pt, quantitiesFit g c w l = true) →
    exec (.dapply w) s = .next (laneDone c (s1.setG (writeCands c w (pt.map (fun l => (l, candidate g c w l, !(ok l && every)))) (certFlags g c w pt) g)))) ∧
  (∀ (w : LWord) (s : State) (p : Pend), s.g.qs.pendL = some p → p.w = .dapply w → p.done = true →
    let c := laneCtx s.g
    let pt := workLanes s.g c w
    (firstPoison p.got = none → (∀ l ∈ pt, (laneCertifies s.g c w l).1 = true) → ∃ t, exec (.dapply w) s = .next t ∧
      bits t.g.sp.dstat.toNat 2 0 = 2 ∧
      bits t.g.sp.dstat.toNat 31 24 = min ((if bits s.g.sp.dstat.toNat 2 0 = 1 then bits s.g.sp.dstat.toNat 31 24 else 0) + 1) 255 ∧
      t.g.qs.pendL = none ∧ (∀ a, homeByte t a = homeByte s a)) ∧
    (firstPoison p.got = none → (∃ l ∈ pt, (laneCertifies s.g c w l).1 = false) → bits s.g.sp.dstat.toNat 2 0 ≠ 1 → ∃ t, exec (.dapply w) s = .next t ∧
      bits t.g.sp.dstat.toNat 2 0 = 1 ∧ bits t.g.sp.dstat.toNat 31 24 = 1 ∧ t.g.sp.elapsed = 0 ∧ t.g.sp.since = s.tick) ∧
    (∀ x, firstPoison p.got = some x → s.g.qs.pendS = none →
      exec (.dapply w) s = .next (takeTrap (s.upG (fun g => g.clearPend true)) (mkTrap 0x08 x.va) ⟨true, c.slot, c.idx, 0, c.cap.rgn⟩ s.g.pc)))

/-- R56, R263 to R268: a step of an MMA that may run: 32 terms of every result element, on the operands at home, every result tile a proposal; the
word stands at its next step, kept as it was decoded, or is done after the last. R338, R340: every step reads its registers and tiles anew, and
a bad element of them raises POISON. Poison in a unit that the steps to come read raises POISON, with a free address, which is the model's choice
(log entry 9). That a step is one step of the machine, between which others act, is the model's choice (log entry 27). R88: a B operand that is
not aligned to its element raises ALIGN; that the rule applies to it is the model's reading (log entry 133).
R55 to R57: a block of products is added to an accumulator exactly and rounded once; any NaN gives the canonical NaN and NV; a block without
terms leaves a finite accumulator as it is.
R269: a cooperative MMA that has been checked arrives and holds its stream; when the four blocks have arrived with equal words it runs its first
step, and with unequal ones it raises MMASHAPE. -/
def Obligations.MatrixWords : Prop :=
  (∀ (w : LWord) (s : State),
    let steps := fun (c : LCtx) (u : State) (k : Nat) =>
      let j := mmaJob u.g c w
      let units := j.sectorsFrom k
      let u1 := touchRegs (units.foldl (fun s x => touchUnit s s.g x) (settle u)) (mmaReads c j)
      let ends := fun (v : State) (t : Trap) => exec (.mma w) s = .next (takeTrap v t ⟨true, c.slot, c.idx, 0, c.cap.rgn⟩ s.g.pc)
      let r := j.step u1 c.rn k u1.g
      let g1 := r.1.orStatus r.2
      blockBound u j.aBid = true → blockBound u j.bBid = true → sectorsReady { u with homeQ := [] } units = true →
      (k = 0 → w.tg = 1 → units.any (homeTag u1) = false) →
      (∀ a, firstBad u1.g (mmaSrcs c w j) = some a → s.g.qs.pendS = none → ends u1 (poisonTrap a)) ∧
      (firstBad u1.g (mmaSrcs c w j) = none → units.any (homePoison u1) = false → exec (.mma w) s = .next (if k + 1 ≥ j.steps
        then laneDone c (u1.setG { g1 with ln := { g1.ln with mstep := 0, mgo := false, mword := none } })
        else u1.setG { g1 with ln := { g1.ln with mstep := k + 1, mslot := c.slot, mgo := false, mword := some (c.idx, w) } })) ∧
      (firstBad u1.g (mmaSrcs c w j) = none → units.any (homePoison u1) = true → s.g.qs.pendS = none →
        ends { u1 with uid := u1.uid + 1 } ⟨0x08, Config.freeBits u1.uid, true⟩)
    (s.g.ln.mgo = false → s.g.ln.mstep = 0 → LaneReady (namesOf 0x35 w) s →
      let c := ctxOf s
      let s1 := laneIssued (namesOf 0x35 w) s
      let s2 := touchRegs s1 (mmaReads c (mmaJob s1.g c w))
      let j := mmaJob s2.g c w
      mmaDecodeOk s1.g c w (mmaJob s1.g c w) = true → (mmaJob s1.g c w).tiles.any (tileHeld s1) = false →
      (w.tg = 1 → c.path.p = false ∧ (mmaSrcs c w j).any (Src.tag s2.g c) = false) →
      (j.o % max 1 (j.wd / 8) ≠ 0 → s.g.qs.pendS = none →
        exec (.mma w) s = .next (takeTrap s2 (mkTrap 0x04 (s2.g.sval w.vb.toNat)) ⟨true, c.slot, c.idx, 0, c.cap.rgn⟩ s.g.pc)) ∧
      (j.o % max 1 (j.wd / 8) = 0 → j.o < 2 ^ 15 → j.inWindows s2.g.place = true →
      mmaShapeOk s2.g w j = true → firstBad s2.g (mmaSrcs c w j) = none →
      (mmaCl w = false → steps c s2 0) ∧
      (∀ t, mmaCl w = true → s2.findTask s2.g.key.task = some t → (t.cl ++ t.clGo).any (sameBlock s2.g) = false → releaseOk s2 s2.g 2 = true →
        exec (.mma w) s = .next ((s2.upTask t.id (fun t => clArrive t ⟨s2.g.key.cluster, s2.g.key.block, clValues c w j⟩)).upG
          (fun g => { g with ln := { g.ln with mslot := c.slot, mgo := true, mword := some (c.idx, w) } }))))) ∧
    (let s1 := s.upG (fun g => { g with ln := { g.ln with slot := g.ln.mslot } })
     let c := laneCtx s1.g
     (s.g.ln.mgo = false → s.g.ln.mstep ≠ 0 → steps c s1 s.g.ln.mstep) ∧
     (∀ t a, s.g.ln.mgo = true → s1.findTask s1.g.key.task = some t → t.clGo.find? (sameBlock s1.g) = some a →
       let s2 := (s1.upTask s1.g.key.task (fun t => { t with clGo := t.clGo.filter (fun x => !sameBlock s1.g x) })).upG
         (fun g => { g with ln := { g.ln with mstep := 0, mgo := false, mword := none } })
       (a.vals = [1] → steps c s2 0) ∧
       (a.vals ≠ [1] → s.g.qs.pendS = none →
         exec (.mma w) s = .next (takeTrap s2 (mkTrap 0x17 0) ⟨true, c.slot, c.idx, 0, c.cap.rgn⟩ s.g.pc))))) ∧
  ((∀ (mm acc : Nat) (terms : List Val), mm ≠ 4 →
    let v := (sumV false (decodeF fmtAcc acc :: terms)).1
    mmaBlock mm acc terms = if isNan v then (canonNaN fmtAcc, fNV) else roundTo fmtAcc mm 0 v) ∧
  (∀ (mm acc : Nat), mm ≠ 4 → acc < 2 ^ 48 → acc / 2 ^ 37 % 2 ^ 10 ≠ 1023 → mmaBlock mm acc [] = (acc, 0))) ∧
  (∀ t : Task, ∀ a : ClArrival, (t.cl.filter (fun x => x.cluster = a.cluster)).length = 3 →
    (clArrive t a).clGo = t.clGo ++ ((a :: t.cl).filter (fun x => x.cluster = a.cluster)).map (fun x => { x with
      vals := if ((a :: t.cl).filter (fun x => x.cluster = a.cluster)).all (fun x => x.vals = a.vals) then [1] else [0] }))

/-- R270, R272: MZERO clears its tiles; MWRA gives a tile the values of its lane registers, rounded to the accumulator format.
R271: MRDA writes each lane's registers from a row of the tile: each element times the factor, over LSCALE where asked, rounded once.
R273, R274: MTLD, ILLEGAL for a frame number of more than 7 bits, stores 64 sectors of a frame and MSPL every unit of a tile, through the issue queue; MFIL waits for the elements and gives
them to its tile. -/
def Obligations.TileWords : Prop :=
  ((∀ (w : LWord) (s : State), LaneReady (namesOf 0x36 w) s → RegsOk s.g.r →
    let c := ctxOf s
    (w.tg = 1 → c.path.p = false) →
    ∃ t, exec (.mzero w) s = .next t ∧
      (∀ i ≤ w.mod8.toNat, t.g.tileTag (w.vd.toNat + i) = (decide (w.tg = 2) || c.path.p) ∧ ∀ e < 1024, t.g.tileEl (w.vd.toNat + i) e = 0) ∧
      (∀ n e, e < 1024 → n < w.vd.toNat ∨ w.vd.toNat + w.mod8.toNat < n → t.g.tileEl n e = s.g.tileEl n e ∧ t.g.tileTag n = s.g.tileTag n) ∧
      t.g.r.vreg = s.g.r.vreg ∧ (∀ a, homeByte t a = homeByte s a)) ∧
  (∀ (w : LWord) (s : State), LaneReady (namesOf 0x38 w) s → RegsOk s.g.r →
    let ty := w.ty.toNat
    let c := ctxOf s
    let s1 := laneIssued (namesOf 0x38 w) s
    let srcs := wideSrcs c w.va.toNat (rowRegs ty)
    (w.tg = 1 → c.path.p = false ∧ srcs.any (Src.tag s1.g c) = false) → firstBad s1.g srcs = none →
    ∃ t, exec (.mwra w) s = .next t ∧
      (∀ e < 1024, t.g.tileEl w.vd.toNat e =
        BitVec.ofNat 48 (roundTo fmtAcc (mmaMode c w) 0 (valOf ty (rowCode s1.g ty (c.rn w.va.toNat) (e / 32) (e % 32)))).1) ∧
      t.g.tileTag w.vd.toNat = resultTag s1.g c w (narrowTy ty) srcs ∧
      (∀ n e, e < 1024 → n ≠ w.vd.toNat → t.g.tileEl n e = s.g.tileEl n e ∧ t.g.tileTag n = s.g.tileTag n) ∧
      t.g.r.vreg = s.g.r.vreg ∧ (∀ a, homeByte t a = homeByte s a))) ∧
  (∀ (w : LWord) (s : State), LaneReady (namesOf 0x37 w) s →
    let ty := w.ty.toNat
    let c := ctxOf s
    let s1 := laneIssued (namesOf 0x37 w) s
    let g := s1.g
    let srcs := Src.t w.va.toNat :: ((if w.mod8.getLsbD 4 && w.bk = 1 then [Src.s w.vb.toNat] else []) ++ (if w.mod8.getLsbD 5 then [Src.lscale] else []))
    let rows := (List.range 32).map (fun r => (r, (List.range 32).map (readOut g c w r)))
    let sr := decide (rndMode c w = 6)
    let tag := resultTag g c w (narrowTy ty || sr) srcs
    let g1 := rows.foldl (fun h x => h.putElems (c.rn w.vd.toNat) x.1 (packRow ty (x.2.map (fun o => (o.getD (0, 0)).1))) tag) g
    (w.tg = 1 → c.path.p = false ∧ srcs.any (Src.tag g c) = false) → firstBad g srcs = none →
    (∀ r < 32, ∀ n < 32, (readOut g c w r n).isSome = true) →
    exec (.mrda w) s = .next (laneDone c (s1.setG ((if sr then (List.range 32).foldl Group.bumpSrc g1 else g1).orStatus
      (rows.foldl (fun f x => x.2.foldl (fun f o => f ||| (o.getD (0, 0)).2) f) 0))))) ∧
  ((∀ (w : LWord) (s : State), LaneReady (namesOf 0x39 w) s →
    let c := ctxOf s
    let s1 := laneIssued (namesOf 0x39 w) s
    let b := if w.bk = 1 then [Src.s w.vb.toNat] else []
    let srcs := wideSrcs c w.va.toNat 16 ++ b
    let f := (if w.bk = 1 then s1.g.sval w.vb.toNat else w.imm.signExtend 64).toNat
    (128 ≤ f → s.g.qs.pendS = none → TrapsLane (.mtld w) (namesOf 0x39 w) s (mkTrap 0x01 0) 0) ∧
    ((w.tg = 1 → c.path.p = false ∧ srcs.any (Src.tag s1.g c) = false) → f < 128 → f < s1.g.place.tsFr → firstBad s1.g srcs = none → ∃ u es, exec (.mtld w) s = .next u ∧ u = laneDone c (s1.upG (fun g => g.addIq es)) ∧ es.length = 64 ∧
      (∀ i < 64, ∃ e, es[i]? = some e ∧ e.kind = .store ∧ e.wr.map (·.1) = (List.range 32).map (fun k => tsPlace s1.g.place.bid (2048 * f + 32 * i + k)) ∧
        e.wr.map (·.2) = (List.range 32).map (fun k => (s1.g.velem (c.rn w.va.toNat + 8 * (i % 2) + k / 4) (i / 2)).extractLsb' (8 * (k % 4)) 8)) ∧
      (∀ a, homeByte u a = homeByte s a))) ∧
  (∀ (w : LWord) (s : State) (ts : List Target), LaneReady (namesOf 0x3A w) s →
    let c := ctxOf s
    let s1 := laneIssued (namesOf 0x3A w) s
    let srcs := [Src.t w.va.toNat, Src.s w.vb.toNat]
    (w.tg = 1 → c.path.p = false ∧ srcs.any (Src.tag s1.g c) = false) →
    spillTargets s1 (w.mod8.getLsbD 7) .store (s1.g.sval w.vb.toNat) = .ok ts → firstBad s1.g srcs = none →
    ∃ u es, exec (.mspl w) s = .next u ∧ u = laneDone c (s1.upG (fun g => g.addIq es)) ∧
      es = ts.zipIdx.flatMap (fun x => spillEntries s1.g w.va.toNat (resultTag s1.g c w false srcs) x.2 x.1) ∧ (∀ a, homeByte u a = homeByte s a)) ∧
  (∀ (w : LWord) (s : State) (p : Pend), s.g.qs.pendL = some p → p.w = .mfil w → p.done = true → CameClean w p → RegsOk s.g.r →
    (p.got.map (·.lane)).Nodup → ∃ t, exec (.mfil w) s = .next t ∧ t.g.qs.pendL = none ∧
      (∀ r ∈ p.got, r.lane < 1024 → t.g.tileEl w.vd.toNat r.lane = r.val.setWidth 48) ∧
      (∀ n e, e < 1024 → n ≠ w.vd.toNat → t.g.tileEl n e = s.g.tileEl n e) ∧ (∀ a, homeByte t a = homeByte s a)) ∧
  (∀ (w : LWord) (s : State) (ts : List Target), LaneReady (namesOf 0x3B w) s →
    let c := ctxOf s
    let s1 := laneIssued (namesOf 0x3B w) s
    let es := ts.zipIdx.flatMap (fun x => (List.range 8).map (fun q =>
      { (({ x.1 with addr := x.1.addr + 8 * q, va := x.1.va + BitVec.ofNat 64 (8 * q) } : Target).entry .load 8) with lane := 8 * x.2 + q, lw := true }))
    (w.tg = 1 → c.path.p = false ∧ s1.g.stag w.vb.toNat = false) →
    spillTargets s1 (w.mod8.getLsbD 7) .load (s1.g.sval w.vb.toNat) = .ok ts → firstBad s1.g [Src.s w.vb.toNat] = none →
    ∀ p, (startReads s1 true (.mfil w) es).g.qs.pendL = some p → p.done = false →
      exec (.mfil w) s = .next (startReads s1 true (.mfil w) es)))

/-- R280: a decision gives the consumer the turn when the cairn has reached HI entries, or when no producer lane is left and entries remain; else
the producer, with the lanes that are not done; else the loop is left, with the mask that it began with. -/
def Obligations.GeneratorDecision : Prop :=
  ∀ g : Machine.Group,
    let l := g.ln.gl
    let live := l.xmask &&& ~~~ l.done
    let n := l.cairn.length
    let h := g.decide
    h.ln.l1 = none ∧ h.ln.gl.cairn = l.cairn ∧ h.ln.gl.done = l.done ∧
    (l.hi ≤ n ∨ (live = 0 ∧ 0 < n) → h.ln.gl.body = 2 ∧ h.ln.gl.popped = false ∧ h.ln.l0 = some ⟨l.cent, 0xFFFFFFFF, l.pc⟩ ∧ h.sp = g.sp) ∧
    (n < l.hi → live ≠ 0 → h.ln.gl.body = 1 ∧ h.ln.l0 = some ⟨l.gpc + 1, 0xFFFFFFFF, l.pp⟩ ∧ h.sp.exmask = live) ∧
    (n < l.hi → live = 0 → n = 0 → h.ln.gl.exiting = true ∧ h.ln.l0 = some ⟨l.xpc, 0xFFFFFFFF, l.pp || l.pc⟩ ∧ h.sp.exmask = l.xmask)

/-- R276, R283: GENBEG opens a loop with the fields that the spec gives, no lane done and an empty cairn, and decides; GENEND closes it at its
exit. That both leave one HI, GENBEG's own or the one that stood, is the model's choice (log entry 13).
R278: YIELD appends the entries of its working lanes, in lane order, to a cairn with room for them; R282: to a full cairn that holds entries it
appends nothing, and the consumer takes the turn with the producer suspended at the YIELD.
R279: a producer's GSTEP adds its predicated live lanes to DONE and decides; a consumer's, after its CPOP, decides, or gives a suspended
producer its path, stack and mask back.
R281: CPOP takes the oldest entries, at most 32, the oldest into lane 0, and EXMASK has a bit for each; once in a consumer step. -/
def Obligations.GeneratorWords : Prop :=
  ((∀ (w : GenbegWord) (s : State), LaneReady (namesOnly 0x3C w.wt) s →
    let c := ctxOf s
    let s1 := laneIssued (namesOnly 0x3C w.wt) s
    let g := s1.g
    let hi := if w.hi = 0 then g.ln.gl.hi else w.hi.toNat
    let cap := w.capm1.toNat + 1
    let fits := 64 * (max w.pfb.toNat w.cfb.toNat + 1) ≤ g.place.lregs ∧ hi ≤ cap
    let free := g.lvl = 0 ∧ g.ln.gl.isOpen = false ∧ (if c.slot then g.ln.l0 else g.ln.l1) = none ∧ g.ln.depth = 0
    (fits → free → ∃ h : Machine.Group, exec (.genbeg w) s = .next (s1.setG h.decide) ∧
      h.ln.gl = ⟨0, 0, cap, hi, c.path.pc, w.cent, w.xpc, w.pfb.toNat, w.cfb.toNat, g.sp.exmask, c.path.p, c.path.p, false, false, none, []⟩ ∧
      h.sp = g.sp ∧ h.r.vreg = g.r.vreg ∧ h.qs = g.qs) ∧
    (¬ fits → s.g.qs.pendS = none → TrapsLane (.genbeg w) (namesOnly 0x3C w.wt) s (mkTrap 0x01 0) 0) ∧
    (fits → ¬ free → s.g.qs.pendS = none → TrapsLane (.genbeg w) (namesOnly 0x3C w.wt) s (mkTrap 0x13 0) 0)) ∧
  (∀ (w : LWord) (s : State), LaneReady (namesOf 0x40 w) s →
    let c := ctxOf s
    let s1 := laneIssued (namesOf 0x40 w) s
    (s1.g.ln.gl.exiting = true → s1.g.lvl = 0 → ∃ u, exec (.genend w) s = .next (laneDone c u) ∧ u.g.ln.gl.isOpen = false ∧
      u.g.ln.gl.hi = s1.g.ln.gl.hi ∧ u.g.r = s1.g.r ∧ u.g.sp = s1.g.sp) ∧
    (s1.g.ln.gl.exiting = false → s.g.qs.pendS = none → TrapsLane (.genend w) (namesOf 0x40 w) s (mkTrap 0x13 0) 0))) ∧
  (∀ (w : LWord) (s : State), LaneReady (namesOf 0x3D w) s →
    let c := ctxOf s
    let s1 := laneIssued (namesOf 0x3D w) s
    let g := s1.g
    let pt := workLanes g c w
    let es := pt.flatMap (fun l => (List.range (yieldNops w)).map (yieldEntry g c w l))
    actMask g c ≠ 0 → settledTest g c w (lanesOf (actMask g c)) (yieldSrcs c w) = none → g.inStep = true → g.ln.gl.body = 1 → g.ln.depth = 0 →
    badLane g w pt (yieldSrcs c w) = none → predTag g w.pk = false →
    (g.ln.gl.cairn.length + pt.length * yieldNops w ≤ g.ln.gl.cap → ∃ t, exec (.yield w) s = .next t ∧
      t.g.ln.gl.cairn = g.ln.gl.cairn ++ es ∧ t.g.ln.gl.body = 1 ∧ t.g.sp = g.sp ∧ t.g.r.vreg = g.r.vreg ∧ (∀ a, homeByte t a = homeByte s a)) ∧
    (g.ln.gl.cap < g.ln.gl.cairn.length + pt.length * yieldNops w → g.ln.gl.cairn ≠ [] → ∃ t, exec (.yield w) s = .next t ∧
      t.g.ln.gl.cairn = g.ln.gl.cairn ∧ t.g.ln.gl.body = 3 ∧ t.g.ln.gl.susp = some ⟨c.path, g.sp.exmask, g.ln.stack⟩ ∧
      t.g.ln.l0 = some ⟨g.ln.gl.cent, 0xFFFFFFFF, g.ln.gl.pc⟩ ∧ t.g.ln.l1 = none) ∧
    (g.ln.gl.cap < g.ln.gl.cairn.length + pt.length * yieldNops w → g.ln.gl.cairn = [] → s.g.qs.pendS = none →
      TrapsLane (.yield w) (namesOf 0x3D w) s (mkTrap 0x13 0) 0)) ∧
  (∀ (w : LWord) (s : State), LaneReady (namesOf 0x3E w) s →
    let c := ctxOf s
    let s1 := laneIssued (namesOf 0x3E w) s
    let g := s1.g
    let live := g.ln.gl.xmask &&& ~~~ g.ln.gl.done
    g.inStep = true → g.ln.depth = 0 →
    (g.ln.gl.body = 1 → (w.pk ≠ 0 → g.r.bad.contains (0x03, w.pk.toNat) = false) → ∃ h : Machine.Group, exec (.gstep w) s = .next (s1.setG h.decide) ∧
      h.ln.gl.done = (g.ln.gl.done ||| (live &&& predMask g w.pn w.pk)) ∧ h.ln.gl.cairn = g.ln.gl.cairn ∧ h.r = g.r) ∧
    (g.ln.gl.body = 2 → w.pn = 0 → w.pk = 0 → g.ln.gl.popped = true → ∃ h : Machine.Group, exec (.gstep w) s = .next (s1.setG h.decide) ∧
      h.ln.gl.done = g.ln.gl.done ∧ h.ln.gl.cairn = g.ln.gl.cairn ∧ h.ln.gl.pc = c.path.p) ∧
    (∀ x, g.ln.gl.body = 3 → g.ln.gl.susp = some x → w.pn = 0 → w.pk = 0 → g.ln.gl.popped = true → ∃ t, exec (.gstep w) s = .next t ∧
      t.g.ln.l0 = some x.path ∧ t.g.ln.l1 = none ∧ t.g.ln.stack = x.stack ∧ t.g.sp.exmask = x.exmask ∧ t.g.ln.gl.body = 1 ∧ t.g.ln.gl.susp = none) ∧
    (2 ≤ g.ln.gl.body → g.ln.gl.popped = false → s.g.qs.pendS = none → TrapsLane (.gstep w) (namesOf 0x3E w) s (mkTrap 0x13 0) 0)) ∧
  (∀ (w : LWord) (s : State), LaneReady (namesOf 0x3F w) s → RegsOk s.g.r →
    let c := ctxOf s
    let s1 := laneIssued (namesOf 0x3F w) s
    let g := s1.g
    let n := min 32 g.ln.gl.cairn.length
    (g.inStep = true → 2 ≤ g.ln.gl.body → g.ln.gl.popped = false → (∀ e < n, g.r.bad.contains (0x06, e) = false) → (∀ e ∈ g.ln.gl.cairn, e.words.length = 4) → ∃ t, exec (.cpop w) s = .next t ∧
      t.g.ln.gl.cairn = g.ln.gl.cairn.drop n ∧ t.g.ln.gl.popped = true ∧ t.g.sp.exmask.toNat = 2 ^ n - 1 ∧
      (∀ l < n, ∀ e, g.ln.gl.cairn[l]? = some e → ∀ k ≤ w.mod8.toNat % 4, ∀ x, e.words[k]? = some x →
        t.g.velem (c.rn w.vd.toNat + k) l = x.1 ∧ t.g.vtag (c.rn w.vd.toNat + k) l = (x.2 || c.path.p)) ∧
      (∀ l, n ≤ l → l < 32 → ∀ r, t.g.velem r l = s.g.velem r l) ∧
      (∀ a, homeByte t a = homeByte s a)) ∧
    (g.inStep = false ∨ g.ln.gl.body < 2 ∨ g.ln.gl.popped = true → s.g.qs.pendS = none → TrapsLane (.cpop w) (namesOf 0x3F w) s (mkTrap 0x13 0) 0))

/-! ### The ordering machine -/

/-- R113, R123, R137: a load that may leave its queue reads its place in the view of its group; an atomic performs there in one step; both give
their value to their word, and no other group sees a change of the queue. A load of host or peer memory is sent out with the bytes that the group's
own writes supply. An access whose word the stream has gone past, and which would meet poison, waits (log entry 20, the model's choice). R356: an
access to another quarter crosses a bridge; the model's choice of when its number is taken is log entry 42.
R113, R115: a store that may leave joins the write queue, with its bytes, tag and place; home shows what it showed.
R114, R118, R125, R189, R358: a marker that may leave performs: a fence is gone, and a SYSTEM release has sent one numbered message to each peer
noted that can be reached; a TLADV has advanced its group's counter and given its register the new value; a command has entered its engine. -/
def Obligations.QueueEntriesPerform : Prop :=
  (∀ (s : State) (key : GroupKey) (k : Nat) (h : Machine.Group) (e : Entry), s.findGroup key = some h → h.qs.iq[k]? = some e → canLeave s h k = true →
    memberReady s e = true → bankHeld s e.addr = false → noRoute s h.place.q e.addr = false → routeRoom s h.place.q e.addr = true →
    let u := touchUnit s h e.addr
    let u1 := crossing u h.place.q e
    let a := performAtomic u1 e
    let gives := fun (x : State) (r : LaneRes) => x.upGroup key (fun g => (g.dropIq k).answer e r)
    (isRemote e.addr = false → (e.kind = .load ∧ e.heldBack (performLoad u h e) = false → exec (.loadPerforms key k) s = .next (gives u1 (performLoad u h e)) ∧
        ∀ x, homeByte (gives u1 (performLoad u h e)) x = homeByte s x) ∧
      (e.kind = .load ∧ e.heldBack (performLoad u h e) = true → exec (.loadPerforms key k) s = .next u) ∧
      (e.kind = .atomic ∧ e.heldBack a.2 = false → exec (.placePerforms key k) s = .next (gives a.1 a.2)) ∧
      (e.kind = .atomic ∧ e.heldBack a.2 = true → exec (.placePerforms key k) s = .next u) ∧
      (e.kind = .reduce → exec (.placePerforms key k) s = .next (a.1.upGroup key (fun g => g.dropIq k)))) ∧
    (isRemote e.addr = true → e.kind = .load → ∃ t n, exec (.loadPerforms key k) s = .next t ∧ t.findGroup key = some (h.dropIq k) ∧
      t.outs = s.outs ++ [⟨key, none, if isPeer e.addr then some (peerOf e.addr) else none, n, e.withOwn s h⟩] ∧ ∀ x, homeByte t x = homeByte s x)) ∧
  (∀ (g : Machine.Group) (e : Entry) (r : LaneRes), e.late = none → g.answer e r = { g with qs :=
    if e.lw then { g.qs with pendL := g.qs.pendL.map (fun p => { p with got := p.got ++ [r] }) }
    else { g.qs with pendS := g.qs.pendS.map (fun p => { p with got := p.got ++ [r] }) } }) ∧
  (∀ (s : State) (key : GroupKey) (k : Nat) (h : Machine.Group) (e : Entry), s.findGroup key = some h → h.qs.iq[k]? = some e → e.kind = .store →
    canLeave s h k = true →
    ∃ t, exec (.writeLeaves key k) s = .next t ∧ t.findGroup key = some { h with qs := { h.qs with
        iq := h.qs.iq.eraseIdx k, wq := h.qs.wq ++ [⟨h.key, h.place.coreNo, e.pk, e.va, e.wr, e.prop, e.poison, e.member⟩] } } ∧
      ∀ a, homeByte t a = homeByte s a) ∧
  (∀ (s : State) (key : GroupKey) (k : Nat) (h : Machine.Group) (e : Entry), s.findGroup key = some h → h.qs.iq[k]? = some e → canLeave s h k = true →
    let s1 := s.upGroup key (fun h => h.dropIq k)
    (∀ acq rel all scope, e.kind = .fence acq rel all scope →
      (¬ (rel = true ∧ scope = 4) → exec (.markerPerforms key k) s = .next s1) ∧
      (rel = true → scope = 4 → ∃ u, exec (.markerPerforms key k) s = .next u ∧ u.groups = s1.groups ∧ u.mem = s1.mem ∧ u.homeQ = s1.homeQ ∧
        u.links.sent = s1.links.sent.filter (fun x => x.grp ≠ key) ∧
        (swf 0 s1.links.numTo = true → ∀ d, d ∉ s1.links.down →
          let n := (s1.links.sent.filter (fun x => x.grp = key && x.dev = d)).length
          n ≠ 0 → sget 0 u.links.numTo d = (sget 0 s1.links.numTo d + n) % 65536))) ∧
    (∀ n d t, e.kind = .tladv n d → s1.findTask key.task = some t →
      let v := min (tlValue t (tlOfGroup 0 key) + n.toNat) (2 ^ 64 - 1)
      exec (.markerPerforms key k) s = .next ((s1.upTask t.id (fun t => tlSet t (tlOfGroup 0 key) v)).upGroup key (fun g =>
        (g.setFut d.toNat .none).setS d.toNat (BitVec.ofNat 64 v) false))) ∧
    (∀ id c, e.kind = .command id → s1.findCmd id = some c → exec (.markerPerforms key k) s = .next (enterCommand s1 c)))

/-- R113, R115, R119, R132: a write that drains goes to its core point where it is a plain write to the device's DRAM, to its home where its page
is S or its place is on die, to a message where it names a member, and to its agent where it is remote: to a peer's unit in the order of issue,
whatever the page kinds. R356, R357: on its way home it crosses to another quarter, which keeps the request's number with its response; without a
route it is dropped, as it is with the target down or every Ulfer rail group.
R89, R113: a write in a core point with no older write of its core to its unit goes to home, and so does a message whose member is bound. -/
def Obligations.WritesTravel : Prop :=
  (∀ (s : State) (key : GroupKey) (kind : PKind) (k : Nat) (h : Machine.Group) (w : Write), s.findGroup key = some h →
    drainable kind (h.qs.wq.filter (fun w => (if w.pk = .sram then .r else w.pk) = (if kind = .sram then .r else kind))) k = some w →
    noRoute s h.place.q w.place = true ∨ routeRoom s h.place.q w.place = true →
    let s1 := s.upGroup key (fun h => { h with qs := { h.qs with wq := h.qs.wq.erase w } })
    let t := crossing s1 (w.core / 64) (outEntry w)
    let goes := fun (u : State) => exec (.writeDrains key kind k) s = .next u
    let older := ∃ x ∈ h.qs.wq.takeWhile (fun x => decide (x ≠ w)), x.toUnit w.place = true
    let reached := peerOf w.place ∉ s.links.down ∧ (railUp s 6 = true ∨ railUp s 7 = true ∨ railUp s 8 = true)
    (isLocal w.place = true → w.member = none → w.pk = .r ∨ w.pk = .u → goes { s1 with cp := s1.cp ++ [w] }) ∧
    (isLocal w.place = true → w.member = none → w.pk = .s → noRoute s (w.core / 64) w.place = false → goes { t with homeQ := t.homeQ ++ [w] }) ∧
    (∀ g, isLocal w.place = true → w.member = none → w.pk = .s → noRoute s (w.core / 64) w.place = true → s1.findGroup w.grp = some g →
      goes (dropStore s1 g (w.core / 64) w.va)) ∧
    (isDie w.place = true → w.member = none → goes { s1 with homeQ := s1.homeQ ++ [w] }) ∧
    (isDie w.place = true → ∀ m, w.member = some m → goes { s1 with msgs := s1.msgs ++ [w] }) ∧
    (isMmio w.place = true → goes (mmioStore s1 w)) ∧
    (isHost w.place = true → goes (sendOut s1 h.key (outEntry w))) ∧
    (isPeer w.place = true → older → goes s) ∧
    (isPeer w.place = true → ¬ older → reached → goes (sendOut s1 h.key (outEntry w))) ∧
    (isPeer w.place = true → ¬ older → ¬ reached → goes (dropStore s1 h 0 w.va))) ∧
  (∀ (s : State) (k : Nat) (w : Write),
    (s.cp[k]? = some w → (∀ x ∈ s.cp.take k, x.core = w.core → unitOf x.place ≠ unitOf w.place) → noRoute s (w.core / 64) w.place = false →
      routeRoom s (w.core / 64) w.place = true →
      let t := crossing { s with cp := s.cp.eraseIdx k } (w.core / 64) (outEntry w)
      exec (.corePointDrains k) s = .next { t with homeQ := t.homeQ ++ [w] }) ∧
    (s.msgs[k]? = some w → (∀ x ∈ s.msgs.take k, x.grp = w.grp → unitOf x.place ≠ unitOf w.place) → placeOf s w.place ≠ none →
      exec (.memberMessageDelivery k) s = .next { s with msgs := s.msgs.eraseIdx k, homeQ := s.homeQ ++ [w] })) ∧
  (∀ (s : State) (q : Nat) (e : Entry), isLocal e.place = true → q ≠ homeQuarter e.place → swf 0 s.links.numTo = true →
    let n := sget 0 s.links.numTo (64 + 4 * q + homeQuarter e.place)
    ∃ l, crossing s q e = { s with links := l } ∧ sget 0 l.numTo (64 + 4 * q + homeQuarter e.place) = (n + 1) % 65536 ∧
      ∃ y ∈ l.served, y.src = 64 + 4 * q + homeQuarter e.place ∧ y.num = n ∧
        y.data = (if e.kind.isRead then (List.range e.size).map (fun i => homeByte s (e.addr + i)) else []))

/-- R71, R113: a home performs one write, the oldest to its unit; what home shows of any byte, tag or poison mark is what the writes that had arrived
already showed.
R71, R337: a write gives its unit the tag of its data: a proposal marks the unit, settled bytes settle it only where they cover it whole; and
poison in the same way. -/
def Obligations.HomePerforms : Prop :=
  (∀ (s : State) (k : Nat) (w : Write), StoresOk s → s.homeQ[k]? = some w →
    (∀ x ∈ s.homeQ, (x.wr.map (·.1)).Nodup ∧ ∀ p ∈ x.wr, unitOf p.1 = unitOf x.place) →
    (∀ x ∈ s.homeQ.take k, unitOf x.place ≠ unitOf w.place) →
    ∃ t, exec (.homePerforms k) s = .next t ∧ t.homeQ = s.homeQ.eraseIdx k ∧
      (∀ p ∈ w.wr, sget 0 t.mem p.1 = p.2) ∧ (∀ a, (∀ p ∈ w.wr, p.1 ≠ a) → sget 0 t.mem a = sget 0 s.mem a) ∧
      (∀ a, homeByte t a = homeByte s a ∧ homeTag t a = homeTag s a ∧ homePoison t a = homePoison s a)) ∧
  (∀ (s : State) (wr : List (Nat × Byte)) (prop poison : Bool) (a : Nat), StoresOk s → wr.head?.map (fun p => unitOf p.1) = some (unitOf a) →
    (∀ p ∈ wr, unitOf p.1 = unitOf a) →
    let t := applyWrite s wr prop poison
    sget false t.utag (unitOf a) = (prop || (sget false s.utag (unitOf a) && decide (wr.length ≠ unitSize a))) ∧
    sget false t.upoison (unitOf a) = (poison || (sget false s.upoison (unitOf a) && decide (wr.length ≠ unitSize a))) ∧
    (∀ b, unitOf b ≠ unitOf a → sget false t.utag (unitOf b) = sget false s.utag (unitOf b) ∧ sget 0 t.mem b = sget 0 s.mem b))

/-! ### Engines -/

/-- R192, R193, R136: a queued copy whose record is read and passes the checks runs, and one that fails them ends with their cause; a running
copy reads one source sector into its buffers, or writes one destination unit whose sectors are there, with their tags; it has ended once
every unit is written.
R126, R194, R195: a copy whose writes are performed completes: its token loses one of its count and keeps the worse status, with the address
of a fault; the command is gone and no byte of memory changes.
R126, R130, R195: a COPYMM whose copy did not fault makes its arrival and goes on to its MMA: its checks come with the first step, and a later step
tests what it reads anew (R338); a step takes 32 terms, on the bytes that the copy wrote as it wrote them and on the other operands at home, and
the last raises the flags and completes the command. A cause leaves the result tiles and the flags as they stood before the first step. That a
step is one step of the machine, and that the other checks come with the first, are the model's choices (log entries 27 and 38). -/
def Obligations.Copies : Prop :=
  (∀ (s : State) (cmd k : Nat) (c : Cmd), s.findCmd cmd = some c → ownerBound s c = true → engineStalls s = false →
    let img := c.copyImg
    (∀ rd, c.kind = .copy → c.stage = .queued →
      let r := readRecord s c 64 0
      r.2.stage = .queued →
      (copyCheck r.1 r.2 r.2.copyImg = none → exec (.copyEngineStep cmd k rd) s = .next (r.1.putCmd ({ r.2 with stage := .running } : Cmd).copyEnd)) ∧
      (∀ e, copyCheck r.1 r.2 r.2.copyImg = some e →
        exec (.copyEngineStep cmd k rd) s = .next (r.1.putCmd { r.2 with stage := .draining, stat := 3, cause := e.1, value := 0, faddr := e.2 }))) ∧
    (∀ sec p, c.kind.isCopy = true → c.stage = .running → (copySectors img)[k]? = some sec → findBuf c sec = none →
      let s0 := sideWalked s c (cpSk img) (32 * sec)
      linPlace s0 c (cpSk img) .load (32 * sec) = .ok (some p) →
      let r := placeRead s0 c p 32
      exec (.copyEngineStep cmd k true) s = .next (r.1.putCmd ({ c with
        pr := { c.pr with bufs := c.pr.bufs ++ [⟨sec, r.2.bytes, r.2.prop, r.2.poison⟩] }, poisoned := c.poisoned || r.2.poison } : Cmd).copyEnd)) ∧
    (∀ u x p, c.kind.isCopy = true → c.stage = .running → (copyUnits img)[k]? = some u → sget false c.pr.written k = false →
      (unitSectors img u).all (fun x => (findBuf c x).isSome) = true → (unitImage c img u).head? = some x →
      let s0 := sideWalked s c (cpDk img) x.1
      linPlace s0 c (cpDk img) .store x.1 = .ok (some p) →
      let bufs := (unitSectors img u).filterMap (findBuf c)
      exec (.copyEngineStep cmd k false) s = .next ((placeWrite s0 c ((unitImage c img u).map (fun e => (p + (e.1 - x.1), BitVec.ofNat 8 e.2)))
        (c.recProp || bufs.any (·.prop)) (bufs.any (·.poison))).putCmd
          ({ c with pr := { c.pr with written := sset false c.pr.written k true } } : Cmd).copyEnd))) ∧
  (∀ (s : State) (cmd : Nat) (c : Cmd), s.findCmd cmd = some c →
    (c.stage = .draining → cmdAcked s c = true → ownerBound s c = true →
      (∀ g, c.kind = .copy ∨ (∃ t, c.kind = .copymm t ∧ c.stat = 3) → s.findGroup c.owner = some g → swf Token.ok g.r.tok = true →
        ∃ t h, exec (.copyCompletes cmd) s = .next t ∧ t.findCmd cmd = none ∧ t.findGroup c.owner = some h ∧
          (h.tok c.tok).count = (g.tok c.tok).count - 1 ∧
          (h.tok c.tok).status = max (g.tok c.tok).status (if c.stat = 3 then 2 else if c.stat = 1 then 1 else 0) ∧
          (h.tok c.tok).faddr = (if c.stat = 3 then c.faddr else (g.tok c.tok).faddr) ∧ (∀ n, n ≠ c.tok → h.tok n = g.tok n) ∧
          h.r = { g.r with tok := h.r.tok } ∧ (∀ a, homeByte t a = homeByte s a)) ∧
      (∀ t, c.kind = .copymm t → c.stat ≠ 3 → exec (.copyCompletes cmd) s =
        .next ((copyArrive s c c.copyImg true).putCmd { c with stage := .followOn, pr := copiedProg c c.copyImg }))) ∧
    (∀ t g w, c.kind = .copymm t → c.stage = .followOn → ownerGroup s c = some g → followOn c t = some w →
      let j0 := mmaJob g (followCtx c) w
      let s1 := followMet s c w (followJob c w g) c.pr.a
      let h := (s1.findGroup c.owner).getD g
      let j := followJob c w h
      let r := j.step (asCopied s1 c.pr) id c.pr.a h
      let flags := (if c.pr.a = 0 then 0 else BitVec.ofNat 7 c.pr.c) ||| r.2
      let bad := firstBad h (j.tiles.map Src.t) ≠ none ∨ (j.sectorsFrom c.pr.a).any (homePoison (asCopied s1 c.pr)) = true
      let runs := exec (.copymmFollowOn cmd) s = .next (if j.steps ≤ c.pr.a + 1 then endCopy (s1.upGroup c.owner (fun _ => r.1.orStatus flags)) c
        else (s1.upGroup c.owner (fun _ => r.1)).putCmd (c.followed j h r.2))
      g.blocked w.vb.toNat = false → j0.tiles.any g.tileLate = false → blockBound s j0.aBid = true → blockBound s j0.bBid = true →
      mmaCl w = false ∨ c.pr.b ≠ 0 →
      (c.pr.a = 0 → followBad (asCopied s1 c.pr) h w j 0 = none → runs) ∧
      (∀ e, c.pr.a = 0 → followBad (asCopied s1 c.pr) h w j 0 = some e → exec (.copymmFollowOn cmd) s = .next (endCopy s1 (c.faulted (e, 0)))) ∧
      (c.pr.a ≠ 0 → ¬ bad → runs) ∧
      (c.pr.a ≠ 0 → bad → exec (.copymmFollowOn cmd) s =
        .next (endCopy (s1.upGroup c.owner (fun g => g.backTiles j.tiles c.pr)) (c.faulted (0x08, 0)))))) ∧
  (∀ (c : Cmd) (j : MmaJob) (g : Machine.Group) (f : Flags),
    let p := (c.followed j g f).pr
    p.a = c.pr.a + 1 ∧ BitVec.ofNat 7 p.c = (if c.pr.a = 0 then 0 else BitVec.ofNat 7 c.pr.c) ||| f ∧
    (c.pr.a = 0 → p.tile = g.r.tile ∧ p.ttag = g.r.ttag ∧ p.d = j.o) ∧ (c.pr.a ≠ 0 → p.tile = c.pr.tile ∧ p.ttag = c.pr.ttag ∧ p.d = c.pr.d) ∧
    p.acc = c.pr.acc ∧ p.bufs = c.pr.bufs) ∧
  (∀ (g : Machine.Group) (tiles : List Nat) (p : Prog) (n e : Nat), e < 1024 → swf 0 g.r.tile = true → swf false g.r.ttag = true →
    (g.backTiles tiles p).tileEl n e = (if n ∈ tiles then sget 0 p.tile (n * 1024 + e) else g.tileEl n e) ∧
    (g.backTiles tiles p).tileTag n = if n ∈ tiles then sget false p.ttag n else g.tileTag n) ∧
  (∀ (s : State) (p : Prog) (a : Nat), s.homeQ = [] → swf 0 s.mem = true → swf 256 p.acc = true →
    homeByte (asCopied s p) a = match p.acc.find? (fun x => x.1 = a) with | some x => BitVec.ofNat 8 x.2 | none => homeByte s a)

/-- R126, R197, R198, R350: a line reads its next anchor and checks its fields; with OWN = 0 it stops, with OWN = 1 the anchor's copy runs under a
number of its context. When that copy is whole it makes its arrival and its number completes; the ownership word is cleared at home, and once that
write is performed the line goes on at NEXT, or stops where NEXT is 0. A refused anchor stops the line with FAULT; that it arrives exactly where
OWN = 1 is the model's choice (log entry 109).
R88, R205: a gather whose record is read and within its limits runs: it clears its columns one by one, takes rows and entries in order, writes an
entry whose column it covers and passes over any other, and ends OK after its rows; an element that is not aligned ends it with ALIGN. What it does
while its block is saved is the model's choice (log entry 37). -/
def Obligations.LinesAndGathers : Prop :=
  (∀ (s : State) (cmd : Nat) (c : Cmd), s.findCmd cmd = some c → ownerBound s c = true → engineStalls s = false →
    (∃ ch, c.kind = .fixline ch) ∨ (∃ i, c.kind = .hostLine i) →
    let goes := fun (u : State) =>
      let v := match c.kind with | .hostLine i => bumpChcnt u i | _ => u
      exec (.fixedLineAnchor cmd) s = .next (if bits c.img 575 512 = 0 then stopLine v { c with stat := if c.poisoned then 1 else 0 }
        else v.putCmd { c with stage := .queued, addr := BitVec.ofNat 64 (bits c.img 575 512), stat := 0, ctx := none, pr := Prog.zero })
    (c.stage = .queued →
      let r := readRecord s { c with img := 0, recProp := false } 128 0
      r.2.stage = .queued → anchorBad r.2.img = false →
      (∀ x, copyCheck r.1 r.2 r.2.copyImg = some x → exec (.fixedLineAnchor cmd) s =
        .next (stopLine (copyArrive r.1 r.2 r.2.copyImg (anchorOwn r.2.img)) (r.2.finish 3 x.1 0 x.2))) ∧
      (copyCheck r.1 r.2 r.2.copyImg = none → anchorOwn r.2.img = false → exec (.fixedLineAnchor cmd) s = .next (stopLine r.1 { r.2 with stat := if r.2.poisoned then 1 else 0 })) ∧
      (copyCheck r.1 r.2 r.2.copyImg = none → anchorOwn r.2.img = true →
        let e := enterCtx r.1 r.2 (lineCtx r.2)
        exec (.fixedLineAnchor cmd) s = .next (e.1.putCmd { e.2 with stage := .running, pr := Prog.zero }))) ∧
    (c.stage = .draining → cmdAcked s c = true → c.pr.flag = true → goes s) ∧
    (∀ s1, c.stage = .draining → cmdAcked s c = true → c.pr.flag = false → c.stat ≠ 3 →
      engWrite (copyArrive (completeNum s c) c c.copyImg true) c (c.addr + 72) (leBytes 8 0) false false = .ok s1 →
      (cmdAcked s1 c = true → goes s1) ∧
      (cmdAcked s1 c = false → exec (.fixedLineAnchor cmd) s = .next (s1.putCmd { c with pr := { c.pr with flag := true } })))) ∧
  (∀ (s : State) (cmd : Nat) (c : Cmd), s.findCmd cmd = some c → c.kind = .spg → ownerBound s c = true → engineStalls s = false →
    let i := c.img
    let K := bits i 383 352
    let N := bits i 431 416
    (c.stage = .queued →
      let r := readRecord s c 64 0
      r.2.stage = .queued → headerBad .spg r.2.img = none → spgBad r.2 = none →
      exec (.sparseGatherStep cmd) s = .next (r.1.putCmd { r.2 with stage := .running })) ∧
    (c.stage = .running →
      (c.pr.a < N → exec (.sparseGatherStep cmd) s = .next ((spgZero s c c.pr.a).putCmd { c with pr := { c.pr with a := c.pr.a + 1 } })) ∧
      (N ≤ c.pr.a → K ≤ c.pr.b → exec (.sparseGatherStep cmd) s = .next (s.putCmd (c.ended c.value))) ∧
      (N ≤ c.pr.a → c.pr.b < K → c.pr.flag = true → c.pr.d ≤ c.pr.c →
        exec (.sparseGatherStep cmd) s = .next (s.putCmd { c with pr := { c.pr with b := c.pr.b + 1, flag := false } })) ∧
      (N ≤ c.pr.a → c.pr.b < K → c.pr.flag = true → c.pr.c < c.pr.d → bits i 255 192 % 4 ≠ 0 →
        exec (.sparseGatherStep cmd) s = .next (s.putCmd (c.finish 3 0x04 0 (BitVec.ofNat 64 (bits i 255 192 + c.pr.c * 4))))) ∧
      (∀ s1 x, N ≤ c.pr.a → c.pr.b < K → c.pr.flag = true → c.pr.c < c.pr.d → spgRead s c (bits i 255 192) c.pr.c 4 = .ok (s1, x) → x.poison = false →
        let c1 := { c with pr := { c.pr with c := c.pr.c + 1 } }
        let inside := bits i 415 384 ≤ x.nat ∧ x.nat < bits i 415 384 + N
        (¬ inside → exec (.sparseGatherStep cmd) s = .next (s1.putCmd c1)) ∧
        (∀ s2 v, inside → spgRead s1 c (bits i 319 256) c.pr.c (spgZ i) = .ok (s2, v) →
          let p := spgPlace c c.pr.b (x.nat - bits i 415 384)
          exec (.sparseGatherStep cmd) s = .next ((placeWrite s2 c (v.bytes.zipIdx.map (fun b => (p + b.2, b.1))) (c.recProp || v.prop) v.poison).putCmd
            { c1 with value := c.value + 1, poisoned := c.poisoned || v.poison })))))

/-- R125, R181 to R183: an engine command whose end is decided and whose data is written writes its completion word to its mailbox, if it has one, and
completes once that write is performed too: its register that still waits for it becomes RESOLVED with that word and its number, the command is
gone, and no other byte of memory changes. -/
def Obligations.EngineCommandCompletes : Prop :=
  ∀ (s : State) (cmd : Nat) (c : Cmd), s.findCmd cmd = some c → c.stage = .draining → c.kind.isCopy = false → cmdAcked s c = true →
    engineStalls s = false →
    let word := BitVec.ofNat 64 (c.stat % 256 * 2 ^ 56 + c.cause % 256 * 2 ^ 48 + c.value % 2 ^ 48)
    let m := bits c.img 127 64
    let completes := fun (u : State) => ∃ t, exec (.engineCommandCompletes cmd) s = .next t ∧ t.findCmd cmd = none ∧
      (∀ g r, c.reg = some r → u.findGroup c.owner = some g → g.fut r = .pending c.id → swf RegFut.none g.r.fut = true →
        ∃ h, t.findGroup c.owner = some h ∧ h.fut r = .resolved word c.num (c.ctx.getD 0) ∧ ∀ n, n ≠ r → h.fut n = g.fut n) ∧
      ∀ a, homeByte t a = homeByte u a
    (c.mailed = true ∨ m = 0 → completes s) ∧
    (∀ s1, c.mailed = false → m ≠ 0 → m % 16 = 0 →
      engWrite s c (BitVec.ofNat 64 m) (leBytes 8 word.toNat ++ leBytes 8 (if c.stat = 3 then c.faddr.toNat else 0)) false false = .ok s1 →
      (cmdAcked s1 c = true → completes s1) ∧
      (cmdAcked s1 c = false → exec (.engineCommandCompletes cmd) s = .next (s1.putCmd { c with mailed := true })))

/-- R128, R287 to R289, R293 to R295: the stack controller reads a record once every earlier command of its sub-context has started; a command
starts where its counter is reached. A GEMV in all-bank mode loads a bank's elements of x, takes one column of 16 rows into the bank's
partial sums, and writes a row block whose banks are done as the sums combined in ascending order. It begins a row block only where all of it
fits in the slice, and leaves the mode between two row blocks. A step that would read or write in a bank that a GEMV holds waits, and a GEMV
enters the mode only after what waited when the last slice began. R347: errors of vector registers and partial sums are met as they are read.
R290: an optimiser step reads and writes one element in one step, each of w, m and v rounded once where the rule rounds.
The model's choices: which steps wait while a GEMV holds all-bank mode, that a step that waits is taken up again whole, and that a slice ends
between two row blocks (log entry 68); what of the arrays counts for the tag of an element (log entry 69); when a row block's sums are combined
(log entry 70). -/
def Obligations.StackController : Prop :=
  (∀ (s : State) (cmd : Nat) (c : Cmd), s.findCmd cmd = some c →
    (c.kind = .nmop → c.stage = .queued → (∀ x ∈ earlierOf s c, x.stage ≠ .queued ∧ x.stage ≠ .after) →
      let r := readRecord s c 128 128
      let v := arraysWalked r.1 r.2 (nmopArrays r.2.img)
      r.2.stage = .queued → headerBad .nmop r.2.img = none → nmopFault r.1 r.2 = none → nmopFault v r.2 = none →
      exec (.stackRecordRead cmd) s = .next (v.putCmd { r.2 with stage := .after }) ∧ (r.1.quiet = true → v = r.1)) ∧
    (∀ t, c.kind = .nmop → c.stage = .after → s.findTask c.owner.task = some t → bit1 c.img 264 = true →
      (bits c.img 255 192 ≤ tlValue t (bits c.img 191 128) → exec (.afterSatisfied cmd) s = .next (s.putCmd { c with stage := .running, since := 0 })) ∧
      (tlValue t (bits c.img 191 128) < bits c.img 255 192 → exec (.afterSatisfied cmd) s = .next s)) ∧
    (isGemv c = true →
      let part := fun (p : Prog) (b ii : Nat) => sget 0 p.acc (gvPart b ii)
      let col := fun (b t : Nat) => 16 * (2048 * (t / 16) + b) + t % 16
      (∀ b s1 c1, swf 0 c.pr.acc = true → gvLoad s c b = .ok (s1, c1) →
        let l := (List.range (16 * gvU c.img)).filter (fun t => col b t < nmCols c.img)
        ∃ rs, engReadList c 2 (l.map (fun t => nmX c.img + 2 * col b t)) s = .ok (s1, rs) ∧
          ∀ p ∈ l.zip rs, sget 0 c1.pr.acc (gvVec b p.1) = p.2.nat + 1) ∧
      (∀ bank s2 c2 s3 r, c.pr.flag = true → bank < gvBanks c.img → gvBankDone c bank = false →
        (∃ b < gvBanks c.img, sget 0 c.pr.acc (gvPos b) ≠ 0) ∨ (∀ b < gvBanks c.img, sget 0 c.pr.acc (gvCyc b) + 16 * gvU c.img ≤ 4096) →
        (if sget 0 c.pr.acc (gvPos bank) = 0 then gvLoad s c bank else .ok (s, c)) = .ok (s2, c2) →
        let t := sget 0 c2.pr.acc (gvPos bank)
        let q := 2 * (((c2.pr.a * gvU c2.img + t / 16) * 16 + t % 16) * 16)
        let vec := arrayMet s2 0x11 c2.quarter (fun a => decide (a = bank))
        let sum := if t = 0 then (vec.1, false) else arrayMet vec.1 0x12 c2.quarter (sumsOf bank)
        engRead sum.1 c2 (BitVec.ofNat 64 (nmA c2.img + 2 ^ 17 * (q / 64) + 64 * (128 * (bank % 16) + 64 * (bank / 16 % 2) + bank / 32) + q % 64)) 32 = .ok (s3, r) →
        ∃ c3 : Cmd, exec (.gemvColumnAccess cmd bank) s = .next (s3.putCmd c3) ∧ c3.pr.a = c2.pr.a ∧ c3.value = c2.value ∧
          c3.poisoned = (c2.poisoned || r.poison || vec.2 || sum.2) ∧
          (swf 0 c2.pr.acc = true →
            sget 0 c3.pr.acc (gvPos bank) = t + 1 ∧ sget 0 c3.pr.acc (gvCyc bank) = sget 0 c2.pr.acc (gvCyc bank) + 1 ∧
            (∀ b ii, b < 2048 → ii < 16 → (b ≠ bank ∨ gvRows c2 ≤ ii) → part c3.pr b ii = part c2.pr b ii) ∧
            ∀ ii < gvRows c2,
              let p := rne32 (mulE (valOf 8 (leNat ((r.bytes.drop (2 * ii)).take 2))) (valOf 8 (sget 0 c2.pr.acc (gvVec bank t) - 1)))
              part c3.pr bank ii = 1 + (if part c2.pr bank ii = 0 then p else rne32 (addE (valOf 10 (part c2.pr bank ii - 1)) (valOf 10 p))))) ∧
      (∀ ii p ps, (List.range (gvBanks c.img)).filterMap (fun b => if part c.pr b ii = 0 then none else some (part c.pr b ii - 1)) = p :: ps →
        gvResult c ii = ps.foldl (fun y p => rne32 (addE (valOf 10 y) (valOf 10 p))) p) ∧
      (∀ s1, (∀ b < gvBanks c.img, gvBankDone c b = true) →
        let sum := arrayMet s 0x12 c.quarter (fun a => decide (a / 32 < gvBanks c.img) && sumsOf (a / 32) a)
        engWriteSpan sum.1 c (nmY c.img + 64 * c.pr.a) ((List.range (gvRows c)).flatMap (fun ii => leBytes 4 (gvResult c ii))) true
          (fun _ => sget false c.pr.pois 0 || sum.2) = (s1, none) →
        ∃ c1 : Cmd, exec (.gemvRowBlockCombine cmd) s = .next (s1.putCmd c1) ∧ c1.value = c.value + gvRows c ∧ c1.pr.a = c.pr.a + 1 ∧
          c1.poisoned = (c.poisoned || sum.2) ∧
          (∀ b ii, b < 2048 → ii < 16 → part c1.pr b ii = 0) ∧ c1.stage = (if gvBlocks c.img ≤ c.pr.a + 1 then .draining else .running)) ∧
      (∀ b < gvBanks c.img, sget 0 c.pr.acc (gvPos b) ≠ 0 → exec (.allBankSliceEnd cmd) s = .next s) ∧
      (c.pr.flag = true → (∀ b < gvBanks c.img, sget 0 c.pr.acc (gvPos b) = 0) → ∃ p : Prog, p.flag = false ∧ p.a = c.pr.a ∧
        (swf 0 c.pr.acc = true → ∀ b, b < 2048 → sget 0 p.acc (gvCyc b) = 0 ∧ ∀ ii < 16, part p b ii = part c.pr b ii) ∧
        exec (.allBankSliceEnd cmd) s = .next (s.putCmd { c with since := s.tick + 1, pr := p }))) ∧
    (∀ s1 g w m v s2 s3 s4, c.kind = .nmop → nmOp c.img = 2 → c.stage = .running →
      let o := 4 * c.pr.a
      engReadList c 4 [nmG c.img + o, nmA c.img + o, nmX c.img + o, nmY c.img + o] s = .ok (s1, [g, w, m, v]) →
      let x := adamStep c.img g.nat w.nat m.nat v.nat
      let prop := adamTagged s c || [g, w, m, v].any (·.prop)
      let poi := [g, w, m, v].any (·.poison)
      let put := fun (s : State) (a n : Nat) => engWriteSpan s c (a + o) (leBytes 4 n) prop (fun _ => poi)
      put s1 (nmA c.img) x.1 = (s2, none) → put s2 (nmX c.img) x.2.1 = (s3, none) → put s3 (nmY c.img) x.2.2 = (s4, none) →
      ∃ c1 : Cmd, exec (.adamElementUpdate cmd) s = .next (s4.putCmd c1) ∧ c1.value = c.value + 1 ∧ c1.pr.a = c.pr.a + 1 ∧
        c1.pr.prop = prop ∧ c1.poisoned = (c.poisoned || poi) ∧ c1.stage = (if nmN c.img ≤ c.pr.a + 1 then .draining else .running))) ∧
  ((∀ (s t : State) (own : Option Nat) (turn : Turn) (c : Cmd), c ∈ gvHolders s own → reachesHeld c s t = true →
    ∃ l, allBankGate s own turn (.next t) = .next { s with barred := l } ∧ (∀ b ∈ s.barred, b ∈ l) ∧
      ∃ b ∈ l, b.q = c.quarter ∧ b.grp = turnGroup s turn ∧ b.turn = turn.plain) ∧
  (∀ (s : State) (c : Cmd), c.pr.flag = false → (∃ b ∈ s.barred, b.q = c.quarter ∧ b.old = true) → gvEnter s c = none) ∧
  (∀ (s s1 : State) (c c1 : Cmd), c.pr.flag = false → gvEnter s c = some (s1, c1) → c1.pr.flag = true ∧
    s1 = { settle s with barred := s1.barred } ∧ s1.homeQ = [] ∧ (∀ b ∈ s1.barred, b.q = c.quarter → b.old = true) ∧
    s1.barred.map (fun b => (b.q, b.grp, b.turn)) = s.barred.map (fun b => (b.q, b.grp, b.turn))) ∧
  (∀ (s : State) (array q : Nat) (p : Nat → Bool), (∀ l ∈ s.errs.latent, ¬ (l.array = array ∧ l.core = q ∧ p l.addr = true)) →
    arrayMet s array q p = (s, false))) ∧
  (∀ (i g w m v : Nat),
    let k := fun lo => valOf 10 (bits i (lo + 31) lo)
    let x := adamStep i g w m v
    let one := Val.fin false 1 1
    let gg := valOf 10 g
    x.2.1 = rne32 (addE (mulE (k 640) (valOf 10 m)) (mulE (subE one (k 640)) gg)) ∧
    x.2.2 = rne32 (addE (mulE (k 672) (valOf 10 v)) (mulE (mulE (subE one (k 672)) gg) gg)) ∧
    ∃ mh vh dn u : Nat, mh = rne32 (mulE (valOf 10 x.2.1) (k 768)) ∧ vh = rne32 (mulE (valOf 10 x.2.2) (k 800)) ∧
      dn = rne32 (addE (valOf 10 (rne32 (evalRFun .sqrt (valOf 10 vh)).1)) (k 704)) ∧ u = rne32 (divV (valOf 10 mh) (valOf 10 dn)).1 ∧
      x.1 = rne32 (subE (valOf 10 w) (mulE (k 608) (addE (valOf 10 u) (mulE (k 736) (valOf 10 w))))))

/-- R305, R306: a step of a pass reads an element once, of x, b or A, of a CSR matrix also a row pointer, or the value or column of a row whose
pointers have been read; or it finishes a row: its residual, absolute sum and diagonal are exact sums, each product tested on its own and the sums
in their final value. R347: errors of the accumulators are met with the row.
R83, R308, R309: once the rows are whole the pass is decided in the order of the rule: unless a write of it faults, poison ends the command
POISONED, a proposal operand ends it with PROPSYS, a certified iterate SETTLED, then come the deadline, divergence, no correction, an
external correction, a zero diagonal, and the correction x + OMEGA·r/dg. An EXTERN wait whose counter is reached before the deadline adds d
to x and runs on; the deadline ends it with the best iterate.
R298 to R302: a PKQ that the earlier ones have let in reads its record. A query scores every sub-key by an exact sum, keeps the best of each
half and the best pairs, weighs them, and writes IW and the weighted rows as proposals. A scatter performs one reduction store of one
value element.
The model's choices: the counts of cycles (log entry 3), exp to a bracket (log entry 23), the steps of a pass and a correction of EXTERN as one
step (log entries 71 and 75), what a POISONED pass writes (log entry 72), that of poison and a proposal poison goes first, and that a proposal
ends a later pass too (log entries 129 and 130), and the steps and checks of PKQ (log entries 77, 78). -/
def Obligations.SolverAndQueries : Prop :=
  (∀ (s : State) (cmd : Nat) (c : Cmd), s.findCmd cmd = some c →
    let v := c.pr.solve
    let n := dvN v
    let el := dvEl v
    let x0 := { c with pr := { c.pr with flag := true } }
    let late := dvDeadline v ≠ 0 ∧ 1024 * dvDeadline v ≤ cyclesOver (256 + hdrQtr c.img) c.since s.tick
    let ends := fun (st : Nat) (k : Cmd) => k.stage = .draining ∧ k.stat = st ∧ k.value = c.pr.a + c.pr.b * 256
    (c.kind = .dcor → c.stage = .running → (c.pr.flag = true ∨ dcMayBegin s c = true) →
      (∀ part i s1 r,
        let term := ∃ k < n, dcHas c 3 k = true ∧ dcHas c 3 (k + 1) = true ∧ (dcGet c 3 k).nat ≤ i ∧ i < (dcGet c 3 (k + 1)).nat
        (part = 0 ∨ part = 2 → i < n) → (part = 1 → if dvCsr v then term else i < n * n) → (part = 3 → dvCsr v = true ∧ i < n + 1) →
        (part = 4 → dvCsr v = true ∧ term) → part < 5 → dcHas c part i = false →
        engReadSpan s x0 (BitVec.ofNat 64 (dcAddr v part i)) (if part < 3 then el else 4) = .ok (s1, r) →
        ∃ c1 : Cmd, exec (.dcorPass ⟨cmd, part, i⟩) s = .next (s1.putCmd c1) ∧ c1.pr.rows = c.pr.rows ∧
          (swf 0 c.pr.acc = true → sget 0 c1.pr.acc (dcKey part i) = 1 + 4 * r.nat + 2 * bitNat r.prop + bitNat r.poison)) ∧
      (∀ i s1 terms m s2 c2 s3 b r rs dg nb, dvCsr v = false → i < n → c.row i = none → dcTerms s x0 i = .ok (s1, terms, m) →
        dcFetch s1 x0 0 ((terms.map (·.2)).eraseDups) = .ok (s2, c2) → dcElem s2 c2 2 i = .ok (s3, b) →
        rowSums v i (dcVal v b) (fun j => dcVal v (dcGet c2 0 j)) terms = some (r, rs, dg, nb) →
        let sums := arrayMet s3 0x12 c.quarter (fun a => decide (a % 32 = hdrSub c.img))
        ∃ c3 : Cmd, exec (.dcorPass ⟨cmd, 5, i⟩) s = .next (sums.1.putCmd c3) ∧
          c3.row i = some ⟨r, rs, dg, nb, m.poison || b.poison || terms.any (fun t => (dcGet c2 0 t.2).poison) || sums.2⟩ ∧
          c3.pr.prop = (c.pr.prop || m.prop || b.prop)) ∧
      (s.hold = false → dvR v = 0 → (∀ i < n, (c.row i).isSome = true ∧ dcHas c 0 i = true) →
        let r := dcFinish s x0
        exec (.dcorPass ⟨cmd, 7, 0⟩) s = .next (r.1.putCmd (r.2.betweenPasses false)))) ∧
    (∀ t, c.kind = .dcor → c.stage = .extern → s.findTask c.owner.task = some t →
      let met := dvCbase v + c.pr.d ≤ tlValue t (dvCid v)
      let at_ := fun (a : Nat) => (List.range n).map (fun i => a + el * i)
      (¬ (met ∧ ¬ late) → exec (.dcorExternWait cmd) s = .next s) ∧
      (¬ late → exec (.dcorDeadlineExpiry cmd) s = .next s) ∧
      (∀ s1 d s2 x s3, met → ¬ late → engReadList c el (at_ (dvD v)) s = .ok (s1, d) → d.any (·.poison) = false →
        engReadList c el (at_ (dvX v)) s1 = .ok (s2, x) →
        writeElems s2 c (dvX v) ((x.zip d).map (fun p =>
          leBytes el (roundTo (tyFmt (dvTy v)) 1 0 (addV false (valOf (dvTy v) p.1.nat) (valOf (dvTy v) p.2.nat)).1).1)) true (poisonIn x) = (s3, none) →
        exec (.dcorExternWait cmd) s = .next (s3.putCmd { c with stage := .running })) ∧
      (∀ s1 bx s2 s3, late → engReadList c el (at_ (dvBx v)) s = .ok (s1, bx) →
        writeElems s1 c (dvX v) (bx.map (·.bytes)) true (poisonIn bx) = (s2, none) →
        recordPut s2 c 112 (leBytes 8 (c.pr.a * 2 ^ 24 + c.pr.b * 2 ^ 16 + c.pr.c * 2 ^ 12 + 3)) false = (s3, none) →
        ∃ k, exec (.dcorDeadlineExpiry cmd) s = .next (s3.putCmd k) ∧ ends 0x11 k)) ∧
    (∀ (poison ok : Bool), c.stage = .running →
      let k := (dcDecide s c poison ok).2
      let out := (dvG v ≠ 0 ∧ dvG v ≤ c.pr.c) ∨ (dvMaxp v ≠ 0 ∧ dvMaxp v < c.pr.a)
      ((k.stage = .draining ∧ k.stat = 3) ∨
      (if poison then ends 1 k
       else if c.pr.prop then ends 0x15 k
       else if ok then ends 0x10 k
       else if late then ends 0x11 k
       else if out then ends 0x12 k
       else if dvCorr v = 0 then ends 0x14 k
       else if dvCorr v = 2 then k = { c with stage := .extern }
       else if c.pr.rows.any (fun r => r.2.dg = 0) then ends 0x16 k
       else k = c)) ∧
      (∀ (row : Nat → DRow) s1 s2 s3, poison = false → c.pr.prop = false → ok = false → ¬ late → ¬ out → dvCorr v = 1 → c.pr.rows.any (fun r => r.2.dg = 0) = false →
        (∀ i < n, c.row i = some (row i)) →
        writeElems s c (dvX v) ((List.range n).map (fun i => leBytes el (roundTo (tyFmt (dvTy v)) 1 0 (addV false (valOf (dvTy v) (dcGet c 0 i).nat)
          (divV (mulV (valOf 10 (dvOmega v)) (fixedVal (dvF v) (row i).res)).1 (fixedVal (dvF v) (row i).dg)).1).1).1)) true (poisonIn (dcXs c)) = (s1, none) →
        recordPut s1 c 120 (leBytes 24 (wrapInt 192 c.pr.norm1) ++ leBytes 24 (wrapInt 192 c.pr.norm2)) false = (s2, none) →
        recordPut s2 c 112 (leBytes 8 (c.pr.a * 2 ^ 24 + c.pr.b * 2 ^ 16 + c.pr.c * 2 ^ 12 + 1)) false = (s3, none) →
        dcDecide s c poison ok = (s3, c)))) ∧
  (∀ (v i : Nat) (b : Val) (x : Nat → Val) (terms : List (Val × Nat)),
    let I := dvI v
    let F := dvF v
    (∀ (nb : Int) (ts : List (Int × Int × Nat)), toFixed I F b = some nb → ts.length = terms.length →
      (∀ p ∈ terms.zip ts, toFixed I F p.1.1 = some p.2.1 ∧ (∃ y, toFixed I F (x p.1.2) = some y ∧ fxMul I F p.2.1 y = some p.2.2.1) ∧ p.2.2.2 = p.1.2) →
      let r := nb - (ts.map (·.2.1)).sum
      let rs := (ts.map (fun t => (t.1.natAbs : Int))).sum
      let dg := ((ts.filter (fun t => t.2.2 = i)).map (·.1)).sum
      rowSums v i b x terms = if fxFits I F r ∧ fxFits I F rs ∧ fxFits I F dg ∧ fxFits I F nb.natAbs then some (r, rs, dg, (nb.natAbs : Int)) else none) ∧
    (toFixed I F b = none ∨ (∃ t ∈ terms, toFixed I F t.1 = none ∨ toFixed I F (x t.2) = none ∨
      ∃ a y, toFixed I F t.1 = some a ∧ toFixed I F (x t.2) = some y ∧ fxMul I F a y = none) → rowSums v i b x terms = none)) ∧
  (∀ (s : State) (cmd : Nat) (c : Cmd), s.findCmd cmd = some c → c.kind = .pkq →
    let i := c.img
    let f := bits i 447 446
    (c.stage = .queued → (∀ x ∈ earlierOf s c, x.stage ≠ .queued) →
      let r := readRecord s c 64 128
      r.2.stage = .queued → headerBad .pkq r.2.img = none → pkqIllegal r.2.img = false → pkqMisaligned r.2.img = none →
      pkHofs r.2.img + 2 * pkNsub r.2.img * pkKw r.2.img ≤ hkLoaded r.1 r.2 →
      ∀ e ∈ [Instr.pkqQuery cmd, .pkqScatter cmd], exec e s = .next (r.1.putCmd { r.2 with stage := .running })) ∧
    (∀ s1 q s3 rows s4 s5, c.stage = .running → f = 0 → scattersDone s c = true →
      engReadSpan s c (BitVec.ofNat 64 (pkQ i + 2 * c.pr.a * pkKw i)) (2 * pkKw i) = .ok (s1, q) →
      let s2 := touchHalfKeys s1 c
      let hk := match s2.findTask c.owner.task with | some t => t.hk | none => []
      let pairs := pairBest i (halfBest i hk q.bytes 0) (halfBest i hk q.bytes 1)
      let w := weightsOf (pairs.map (·.1))
      (∀ p ∈ pairs, rowFault s2 c .load p.2 = none) →
      engReadList c (2 * pkVw i) (pairs.map (fun p => pkV i + 2 * p.2 * pkVw i)) s2 = .ok (s3, rows) →
      let poi := q.poison || hkPoisoned s3 c || rows.any (·.poison)
      engWriteSpan s3 c (pkIw i + 8 * c.pr.a * pkK i) ((pairs.zip w).flatMap (fun p => leBytes 4 p.1.2 ++ leBytes 4 p.2)) true (fun _ => poi) = (s4, none) →
      engWriteSpan s4 c (pkO i + 2 * c.pr.a * pkVw i) ((List.range (pkVw i)).flatMap (fun e => leBytes 2 (roundTo fmtBF16 1 0 (sumV false
        ((w.zip rows).map (fun p => (mulV (valOf 10 p.1) (valOf 9 (leNat ((p.2.bytes.drop (2 * e)).take 2)))).1))).1).1)) true (fun _ => poi) = (s5, none) →
      ∃ k : Cmd, exec (.pkqQuery cmd) s = .next (s5.putCmd k) ∧ k.value = c.value + 1 ∧ k.pr.a = c.pr.a + 1 ∧ k.poisoned = (c.poisoned || poi) ∧
        k.stage = (if pkB i ≤ c.pr.a + 1 then .draining else .running)) ∧
    (c.stage = .running → f = 1 →
      let store := fun (s1 : State) (c1 : Cmd) => ∀ s2 g (x : Xlat),
        let row := c1.pr.d % 2 ^ 32
        let a := BitVec.ofNat 64 (pkV i + 2 * (row * pkVw i + c1.pr.c))
        engReadSpan s1 c1 (BitVec.ofNat 64 (pkO i + 2 * (c1.pr.a * pkVw i + c1.pr.c))) 2 = .ok (s2, g) →
        c1.xlat (c1.walked s2 a) .reduce a = .ok x →
        let r := placeRead (c1.walked s2 a) c1 x.pa 2
        r.2.poison = false →
        let y := (roundTo fmtBF16 1 0 (addV false (valOf 9 r.2.nat) (mulV (mulV (valOf 10 (pkScale i)) (valOf 10 (c1.pr.d / 2 ^ 32))).1 (valOf 9 g.nat)).1).1).1
        let poi := g.poison || c1.pr.flag
        ∃ k : Cmd, exec (.pkqScatter cmd) s = .next ((placeWrite r.1 c1 ((leBytes 2 y).zipIdx.map (fun p => (x.pa + p.2, p.1))) true poi).putCmd k) ∧
          k.pr.c = (if pkVw i ≤ c.pr.c + 1 then 0 else c.pr.c + 1) ∧ k.poisoned = (c.poisoned || poi)
      (c.pr.c ≠ 0 → store s c) ∧
      (∀ s1 iw, c.pr.c = 0 → engReadSpan s c (BitVec.ofNat 64 (pkIw i + 8 * (c.pr.a * pkK i + c.pr.b))) 8 = .ok (s1, iw) →
        let row := iw.nat % 2 ^ 32
        (pkNsub i * pkNsub i ≤ row → exec (.pkqScatter cmd) s = .next (s1.putCmd (c.faulted (cILLEGAL, 0)))) ∧
        (row < pkNsub i * pkNsub i → rowFault s1 c .reduce row = none → store s1 { c with pr := { c.pr with d := iw.nat, flag := iw.poison } })))) ∧
  (∀ (i : Nat) (hk q : List Byte) (h : Nat),
    let at9 := fun (l : List Byte) (ofs : Nat) => valOf 9 (leNat ((l.drop ofs).take 2))
    halfBest i hk q h = bestOf (pkK i) ((List.range (pkNsub i)).map (fun j => (rne32 (sumV false ((List.range (pkKw i / 2)).map (fun e =>
      (mulV (at9 q (2 * (h * (pkKw i / 2) + e))) (at9 hk (pkHofs i + (h * pkNsub i + j) * pkKw i + 2 * e))).1))).1, j)))) ∧
  (∀ (i : Nat) (a b : List (Nat × Nat)), pairBest i a b = bestOf (pkK i) (a.flatMap (fun x => b.map (fun y =>
    (rne32 (addV false (valOf 10 x.1) (valOf 10 y.1)).1, x.2 * pkNsub i + y.2))))) ∧
  (∀ (k : Nat) (l : List (Nat × Nat)), (l.map (·.2)).Nodup →
    let before := fun (a b : Nat × Nat) =>
      let x := valOf 10 a.1
      let y := valOf 10 b.1
      (isNan x = false ∧ (isNan y = true ∨ ltV y x = true)) ∨ (((isNan x = true ∧ isNan y = true) ∨ eqV x y = true) ∧ a.2 < b.2)
    let r := bestOf k l
    r.length = min k l.length ∧ r.Pairwise before ∧ (∀ a ∈ r, a ∈ l) ∧ ∀ a ∈ l, a ∉ r → ∀ b ∈ r, before b a) ∧
  (∀ (s0 : Nat) (l : List Nat),
    let e := (s0 :: l).map (fun x => rne32 (expV (addV false (valOf 10 x) (negV (valOf 10 s0))).1))
    let z := rne32 (sumV false (e.map (valOf 10))).1
    weightsOf (s0 :: l) = e.map (fun x => rne32 (divV (valOf 10 x) (valOf 10 z)).1))

/-! ### The device around the groups -/

/-- R315, R372: a write to KICK before READY, or of a graph that is refused, sets ERR; a refused one ends its replay in KDONE; an accepted one clears
ERR and its tasks wait in the matcher. R318, R319: a task that waits for no earlier one and whose half keys fit is admitted with its argument
block.
R11, R86, R320, R321, R324: a bind record of ACT 1 that is not refused launches its group at its place: registers zero, the program counter
at the record's entry, its block's windows zero where it is the first of its block. ACT 3 saves a block that gives way to class 0, whose
groups then hold no slot and whose record reads ACT 3; ACT 2 restores a saved group at a place. The slot tables keep each record.
R31: in normal mode a ready group that 64 cycles have passed over issues next, and no other is chosen so; memory stands.
The model's choices: the cycles that steps take (log entry 3), the rights of the dispatch hardware (log entry 39), the task that a record names
(log entries 43, 110), and the offset of a half-key region (log entry 67). -/
def Obligations.LaunchAndBinding : Prop :=
  ((∀ (s : State) (slot : Nat) (patch : Word), slot < 64 →
    let cfg := kickReg s slot 1
    let s1 := setKickReg s slot 2 (kickReg s slot 2 + 1)
    let asid := bits cfg 15 0
    let r := newReplay s1 (some slot) none (bits cfg 17 16) asid (ctlGen s1 asid) (slot / 16)
    let read := acceptReplay s1 r false (kickReg s slot 0) patch.toNat
    (s.svc.ready = false → exec (.kickRegisterWrite slot patch) s = .next (setKickErr s slot true)) ∧
    (s.svc.ready = true → bit1 cfg 18 = false → exec (.kickRegisterWrite slot patch) s = .next s) ∧
    (∀ s2, s.svc.ready = true → bit1 cfg 18 = true → read = .ok s2 → exec (.kickRegisterWrite slot patch) s = .next (setKickErr s2 slot false) ∧
      (∀ x ∈ s.tasks, x ∈ s2.tasks) ∧ (∀ x ∈ s2.tasks, x ∉ s.tasks → x.phase = .waiting)) ∧
    (∀ e, s.svc.ready = true → bit1 cfg 18 = true → read = .error e →
      exec (.kickRegisterWrite slot patch) s = .next (setKickErr (setKickReg s1 slot 3 (kickReg s1 slot 3 + 1)) slot true))) ∧
  (∀ (s s1 s2 : State) (task : Nat) (t : Task) (args hk : List (Nat × Bool)), s.findTask task = some t → t.phase = .waiting →
    (earlierTasks s t).length < 256 → (∀ u ∈ earlierTasks s t, dependsOn t u = false) → halfKeyRoom s t = true → regionTurn s t = true →
    let d := dispatchReader t.q t.asid t.gen false
    dispReads 8 (recKarglen t.img / 8) s d (recArgaddr t.img) = .ok (s1, args) → dispReads 32 (recHklen t.img / 32) s1 d (recHkaddr t.img) = .ok (s2, hk) →
    ∃ u x, exec (.taskAdmit task) s = .next u ∧ u.findTask task = some x ∧ x.phase = .admitted ∧ x.adm = s2.uid ∧ u.uid = s2.uid + 1 ∧
      x.hk = hk.flatMap (fun y => leBytes 32 y.1) ∧
      ((∀ r ∈ s.replays, r.patches = []) → x.args = args.flatMap (fun y => leBytes 8 y.1)))) ∧
  ((∀ (s : State) (r : Nat) (t : Task), bindAct r = 1 → launchTask s r = some t →
    let k := bindKey r t
    let p := bindPlace r t
    placeFits s p t.cls = true → placeFree s k p = true → clusterTurn t k.cluster = true →
    ∃ u g, exec (.bindLaunch r) s = .next u ∧ g ∈ u.groups ∧ g.key = k ∧ g.place = p ∧ { g.r with bad := [] } = Regs.zero ∧ g.lvl = 0 ∧ g.ln = LaneCtl.empty ∧
      g.qs = Queues.empty ∧ g.sp.elapsed = 0 ∧ g.sp.since = s.tick ∧ g.pc = BitVec.ofNat 64 (recEntry t.img) ∧ g.sp.exmask = BitVec.ofNat 32 (recExmask t.img) ∧ g.sp.args = t.args ∧
      (∀ x ∈ u.tasks, x.id = t.id → k ∈ x.launched) ∧ (swf 0 s.bindTab = true → sget 0 u.bindTab (slotKey p) = r) ∧
      (firstOfBlock t k = true → ∀ a, blockBase p.bid ≤ a → a < blockBase (p.bid + 1) → sget 0 u.mem a = 0 ∧ sget false u.utag a = false)) ∧
  (∀ (s u : State) (r : Nat) (g : Machine.Group), bindAct r = 3 → savedBy s r = some g → givesWay s g = true →
    (∀ h ∈ blockOf s g.place.bid, saveReady s h = true) → saveBlock s g r = some u →
    exec (.bindSave r) s = .next u ∧ (∀ h ∈ u.groups, h.place.bid = g.place.bid → h.place.bound = false) ∧
      (swf 0 s.bindTab = true → bindAct (sget 0 u.bindTab (slotKey g.place)) = 3)) ∧
  (∀ (s u : State) (r : Nat) (g : Machine.Group) (t : Task), bindAct r = 2 → restoredBy s r = some g →
    s.findTask g.key.task = some t → placeFits s (bindPlace r t) t.cls = true → placeFree s g.key (bindPlace r t) = true →
    restoreGroup s g (bindPlace r t) r = some u →
    exec (.bindRestore r) s = .next u ∧ (∀ h, u.findGroup g.key = some h → h.place = bindPlace r t) ∧
      (swf 0 s.bindTab = true → sget 0 u.bindTab (slotKey (bindPlace r t)) = r))) ∧
  (∀ (s : State) (k : GroupKey) (h : Machine.Group), s.findGroup k = some h → s.ready h = true → h.det = false →
    let waited := cyclesOver h.place.coreNo (s.tick - h.passed) s.tick
    ∃ t, exec (.starvationBound k) s = .next t ∧ t.mem = s.mem ∧ (64 ≤ waited → t.g.key = k) ∧ (waited < 64 → t = s))

/-- R133, R134, R348, R349: a host access that one decoder answers reads, or writes, device memory through its address space as system software; a
translation that fails is logged, and a read then returns poison. An atomic of the host is one step on its own memory. What a device access
to host memory reads or writes, the host's completion performs.
R346, R347, R350, R355: what host register writes do. A channel write starts a line in a running replay, or sets ERR; a record is freed by
clearing V; ones clear the counts of a link's status; a read returns the register; an access of another size than 8, or not aligned, is an
unsupported request without effect.
The model's choices: host memory stands beside device memory, and the host's plain accesses to it are not shown (log entry 29); host accesses
are made as system software (log entry 47). -/
def Obligations.HostAccesses : Prop :=
  ((∀ (s : State) (addr size n : Nat), hdmOf s addr = some n →
    let c := hdmReader s n
    (∀ s1 r, engReadSpan s c (hdmVa s n addr) size = .ok (s1, r) →
      exec (.hostMemRead addr size) s = .next { s1 with host := { s1.host with resp := r.bytes, respPoison := r.poison, unsupported := false } }) ∧
    (∀ e va, engReadSpan s c (hdmVa s n addr) size = .error (e, va) →
      exec (.hostMemRead addr size) s = .next (hostAnswer (logHost s c addr e) (List.replicate size 0) true))) ∧
  (∀ (s : State) (addr n : Nat) (bytes : List Byte) (poison : Bool), hdmOf s addr = some n →
    let c := hdmReader s n
    (∀ ps, hostPieces s c (bytes.length + 1) (hdmVa s n addr) bytes = .ok ps → exec (.hostMemWrite addr bytes poison) s =
      .next (ps.foldl (fun s p => placeWrite s c (p.2.zipIdx.map (fun b => (p.1.pa + b.2, b.1))) p.1.tdef poison) s)) ∧
    (∀ e, hostPieces s c (bytes.length + 1) (hdmVa s n addr) bytes = .error e →
      exec (.hostMemWrite addr bytes poison) s = .next (logHost s c addr e) ∧ ∀ a, homeByte (logHost s c addr e) a = homeByte s a)) ∧
  (∀ (s : State) (addr size : Nat) (opn typ : BitVec 3) (data cmp : Word), size = atomWidth typ.toNat → addr % size = 0 →
    let e := { markerEntry .atomic with addr := hostPlace addr, size := size, opn := opn.toNat, typ := typ.toNat, data := data, cmp := cmp }
    let r := performAtomic s e
    exec (.hostAtomic addr size opn typ data cmp) s = .next (hostAnswer r.1 (leBytes size r.2.val.toNat) r.2.poison)) ∧
  (∀ (s : State) (k : Nat) (o : OutReq), s.outs[k]? = some o → o.dev = none →
    (∀ x ∈ s.outs.take k, x.grp ≠ o.grp ∨ unitOf x.entry.place ≠ unitOf o.entry.place) →
    (o.entry.kind = .store → exec (.hostCxlCompletion k) s =
      .next { applyWrite (settle s) o.entry.wr o.entry.prop o.entry.poison with outs := s.outs.eraseIdx k }) ∧
    (∀ r : LaneRes, o.entry.kind = .load → o.entry.late = none → o.entry.wr = [] → o.entry.opn ≠ 8 →
      r = ⟨o.entry.lane, BitVec.ofNat 64 (homeNat s o.entry.addr o.entry.size), anyUnit (homeTag s) o.entry.addr o.entry.size,
        anyUnit (homePoison s) o.entry.addr o.entry.size, false, o.entry.va⟩ →
      exec (.hostCxlCompletion k) s = .next { s.upGroup o.grp (fun h => h.give o.entry.lw r) with outs := s.outs.eraseIdx k }))) ∧
  ((∀ (s : State) (set : Nat) (anchor : Word), set < 64 → swf 0 s.host.chan = true →
    let chst := fun (u : State) => (sget 0 u.host.chan (4 * set + 1)).toNat
    let busy := (sget 0 s.host.chan (4 * set + 1)).getLsbD 0
    let mine := s.replays.filter (fun r => r.slot = some set)
    (∀ r, (∃ x ∈ mine, x.ended = false) → mine.getLast? = some r → busy = false → anchor.toNat % 128 = 0 → ∃ u c, exec (.hostChanWrite set anchor) s = .next u ∧
      u.cmds = s.cmds ++ [c] ∧ c.kind = .hostLine set ∧ c.addr = anchor ∧ c.asid = r.asid ∧ c.stage = .queued ∧ c.id = s.uid ∧ chst u = 1) ∧
    ((∀ x ∈ mine, x.ended = true) ∨ busy = true ∨ anchor.toNat % 128 ≠ 0 → ∃ u, exec (.hostChanWrite set anchor) s = .next u ∧ u.cmds = s.cmds ∧
      chst u = 2 + (if busy then 1 else 0))) ∧
  (∀ (s : State) (q e : Nat), q < 4 → e < 512 → swf 0 s.errs.dramLog = true → ∃ u, exec (.errorLogFree q e) s = .next u ∧
    ∀ k i, (sget 0 u.errs.dramLog k).getLsbD i = (decide (k ≠ q * 2048 + 4 * e ∨ i ≠ 63) && (sget 0 s.errs.dramLog k).getLsbD i)) ∧
  (∀ (s : State) (g : Nat) (ones : Word) (r : RailGroup), s.links.rg[g]? = some r → ∃ u x, exec (.linkStatusClear g ones) s = .next u ∧
    u.links.rg[g]? = some x ∧ x = { r with crce := x.crce, rebuilt := x.rebuilt, replays := x.replays } ∧
    ∀ i < 16, x.crce.testBit i = (r.crce.testBit i && !ones.getLsbD (48 + i)) ∧ x.rebuilt.testBit i = (r.rebuilt.testBit i && !ones.getLsbD (32 + i)) ∧
      x.replays.testBit i = (r.replays.testBit i && !ones.getLsbD (16 + i))) ∧
  (∀ (s : State) (off size : Nat) (v : Word) (access : Option Word),
    exec (.registerWrite 0 8 (some v)) s = .next { s with host := { s.host with seedr := v, unsupported := false } } ∧
    (off % 8 = 0 → exec (.registerWrite off 8 none) s =
      .next { s with host := { s.host with resp := leBytes 8 (mmioRead s off).toNat, respPoison := false, unsupported := false } }) ∧
    (size ≠ 8 ∨ off % 8 ≠ 0 → exec (.registerWrite off size access) s =
      .next { s with host := { s.host with resp := [], respPoison := false, unsupported := true } }) ∧
    (off % 8 = 0 → 0x120000 ≤ off → exec (.registerWrite off 8 (some v)) s = .next { s with host := { s.host with unsupported := false } }) ∧
    (∀ o, off = 0x110000 + o → o < 0x10000 → off % 8 = 0 → swf 0 s.svc.buf = true → ∃ u, exec (.registerWrite off 8 (some v)) s = .next u ∧
      (∀ i < 8, sget 0 u.svc.buf (o + i) = v.extractLsb' (8 * i) 8) ∧ ∀ k, k < o ∨ o + 8 ≤ k → sget 0 u.svc.buf k = sget 0 s.svc.buf k)))

/-- R375 to R378, R381: a service command written while none runs is taken, and begins an index write where it signs; while one runs it only sets the
code BUSY; an unknown one sets the code and ERR. A finished command leaves its result in the buffer.
R372, R375, R378 to R380, R382: power returns to a device that holds nothing but its package flash, and what is READY has 48 cores or more; power
loss keeps flash alone. A leaf signs only once the next index is in flash; an amendment that is due is signed with such a leaf, or unsigned when
the leaves are spent. A guard band rises by one step, or its core is marked.
The model's choices: zero memory at power-on (log entry 1), the parts of the condition report that are digested (log entry 50), both copies of
a spent index (log entry 51), droops only counted (log entry 57), a start in one step (log entry 59), the nonce read at the end of the command
(log entry 64), and what power loss leaves of an index write under way (log entry 114). -/
def Obligations.ServiceCore : Prop :=
  ((∀ (s : State) (i : Instr) (op arg : Nat),
    (i, op, arg) ∈ [(Instr.svcAttest, 1, 0), (.svcConditionReport, 2, 0), (.svcReadConfig, 3, 0)] ∨ (∃ a : BitVec 32, (i, op, arg) = (.svcReadAmendment a, 4, a.toNat)) →
    (s.svc.busy = false → ∃ u, exec i s = .next u ∧ u.svc.busy = true ∧ u.svc.code = 0 ∧ u.svc.op = op ∧ u.svc.arg = arg ∧ u.svc.amends = s.svc.amends ∧
      (op ≤ 2 → s.svc.leafBusy = none → s.svc.signFor = none → leafSpent s.svc = false → u.svc.leafBusy = some (min (2 ^ 20) (leafNow s.svc + 1)))) ∧
    (s.svc.busy = true → exec i s = .next { s with svc := { s.svc with code := 1 } })) ∧
  (∀ (s : State) (op : BitVec 8), op.toNat = 0 ∨ 4 < op.toNat → s.svc.busy = false →
    exec (.svcBadOperation op) s = .next { s with svc := { s.svc with code := 2, err := true } }) ∧
  (∀ s : State, s.svc.busy = true →
    let done := fun (l : List Byte) (v : Svc) => Host.Outcome.next { s with svc := { v with
      busy := false, err := false, code := 0, len := l.length, buf := ssetMany 0 v.buf (l.zipIdx.map (fun x => (x.2, x.1))) } }
    let fails := fun (code : Nat) => Host.Outcome.next { s with svc := { s.svc with busy := false, err := true, code := code } }
    (s.svc.op = 3 → exec .svcCommandDone s = done (cfgImage s.svc.cfg) s.svc) ∧
    (∀ a, s.svc.op = 4 → s.svc.amends.find? (fun a => a.seq = s.svc.arg) = some a → exec .svcCommandDone s = done (amendImage a) s.svc) ∧
    (s.svc.op = 4 → s.svc.amends.find? (fun a => a.seq = s.svc.arg) = none → exec .svcCommandDone s = fails 2) ∧
    (∀ l, s.svc.signFor = some l →
      (s.svc.op = 1 → exec .svcCommandDone s = done (attestBytes s l ++ deviceSig l (attestBytes s l)) { s.svc with signFor := none }) ∧
      (s.svc.op = 2 → exec .svcCommandDone s = done (conditionBytes s ++ deviceSig l (conditionBytes s)) { s.svc with signFor := none })) ∧
    (s.svc.op = 1 ∨ s.svc.op = 2 → s.svc.signFor = none → s.svc.leafBusy = none → 2 ^ 20 ≤ leafNow s.svc → exec .svcCommandDone s = fails 3))) ∧
  ((∀ s : State, s.svc.powered = false ∨ s.svc.stage = 0 → ∃ u, exec .powerOn s = .next u ∧ u.svc.powered = true ∧ u.svc.powerOns = s.svc.powerOns + 1 ∧
    u.mem = [] ∧ u.g = Machine.Group.idle ∧ u.rest = [] ∧ u.tasks = [] ∧ u.cmds = [] ∧ u.svc.amends = s.svc.amends ∧
    (s.svc.leafBusy = none → u.svc.leafA = s.svc.leafA ∧ u.svc.leafB = s.svc.leafB) ∧ (u.svc.ready = true → u.svc.stage = 9 ∧ 48 ≤ u.svc.coreCount)) ∧
  (∀ s : State, ∃ u, exec .powerLoss s = .next u ∧ u.svc.powered = false ∧ u.mem = [] ∧ u.g = Machine.Group.idle ∧ u.rest = [] ∧ u.tasks = [] ∧ u.cmds = [] ∧
    u.svc.amends = s.svc.amends ∧ u.svc.cfg = s.svc.cfg ∧ (s.svc.leafBusy = none → u.svc.leafA = s.svc.leafA ∧ u.svc.leafB = s.svc.leafB) ∧
    (if leafFirst s.svc then u.svc.leafA = s.svc.leafA else u.svc.leafB = s.svc.leafB)) ∧
  (∀ (s : State) (l : Nat), s.svc.leafBusy = some l → ∃ u, exec .leafIndexWritten s = .next u ∧ u.svc.leafBusy = none ∧ leafNow u.svc = l ∧
    u.svc.signFor = (if leafNow s.svc < 2 ^ 20 then some (leafNow s.svc) else s.svc.signFor)) ∧
  (∀ s : State, s.svc.due = true →
    let put := fun (sig : Option Nat) => Host.Outcome.next { s with svc := { s.svc with amends := s.svc.amends ++ [nextAmend s sig], due := false, signFor := none } }
    (∀ l, s.svc.signFor = some l → exec .wearAmendmentWrite s = put (some l)) ∧
    (s.svc.signFor = none → leafSpent s.svc = true → exec .wearAmendmentWrite s = put none) ∧
    (s.svc.signFor = none → leafSpent s.svc = false → ∃ u, exec .wearAmendmentWrite s = .next u ∧ u.svc.amends = s.svc.amends ∧ u.svc.due = true)) ∧
  (∀ (s : State) (q index : Nat) (kind : WearKind) (wear : BitVec 16) (mark : Bool), swf 0 s.svc.guard = true → swf 0 s.svc.wear = true →
    (kind = .core ∧ q < 4 ∧ index < 64) ∨ (kind = .bankGroup ∧ q < 4 ∧ index < 512) ∨ (kind = .rail ∧ q = 0 ∧ index < 45) →
    let k := wearKey q (wearCode kind) index
    let out := kind = .core ∧ (mark = true ∨ Config.coreClock (sget 0 s.svc.cfg.caps (64 * q + index) * 25) (sget 0 s.svc.guard k + 1) < 1500)
    ∃ u, exec (.guardBandStep q kind index wear mark) s = .next u ∧ sget 0 u.svc.wear k = wear.toNat ∧
      (out → (⟨q, 0, index⟩ : DevUnit) ∈ u.svc.marks ∧ u.svc.due = true ∧ u.svc.guard = s.svc.guard) ∧
      (¬ out → sget 0 u.svc.guard k = sget 0 s.svc.guard k + 1 ∧ u.svc.marks = s.svc.marks)) ∧
  (∀ (s : State) (q index : Nat) (kind : WearKind), ∃ u, exec (.droopResponse q kind index) s = .next u ∧ u = { s with svc := { s.svc with slowed := u.svc.slowed } }))

/-- R352 to R355: a group flit of which one rail flit failed at most, next in sequence, is accepted with its payload rebuilt, and another is not.
One with more failed calls for a replay of the expected flit, unless it shows a duplicate or the replay is awaited. A NAK sends the kept flits
again, or takes the group down, and what the group had sent and was not acknowledged goes over another with its numbers. A failed lane
is repaired or halves its rail, and the rail pauses; the second lost rail takes the group down.
R132, R356 to R358: a peer's request is performed once, in number order, and one performed before is only answered again. A response gives its
value to the word that waits. Accesses of a peer that cannot be reached end, and a release message, which takes a request number, advances that
peer's counter in each task of its stream. R372: before it has started the device takes none of these.
The model's choices: the mark of a lost rail (log entry 52), the first SEQ (log entry 94), the numbers of requests from 0 (log entry 65), the
layout of a message on a link (log entry 115), the SEQ of a NAK and the flit that a damaged one stands for (log entry 116), and an access that its
stream has gone past, which stays (log entry 20). -/
def Obligations.LinksAndPeers : Prop :=
  (∀ (s : State) (rg dir rail : Nat) (r : RailGroup), s.links.rg[rg]? = some r →
    let after := fun (i : Instr) (p : RailGroup → Prop) => ∃ u x, exec i s = .next u ∧ u.links.rg[rg]? = some x ∧ p x ∧
      (∀ j, j ≠ rg → u.links.rg[j]? = s.links.rg[j]?) ∧ ∀ a, homeByte u a = homeByte s a
    (∀ flits, s.svc.ready = true → r.down = false → dir ≤ 1 →
      let good := goodRails r flits
      let x := r.dir dir
      let n := (good.filterMap id).length
      (∀ f rest, good.filterMap id = f :: rest → 4 ≤ n → flitKind f ≤ 1 →
        (seqAbove (flitSeq f) x.last = 1 → after (.groupFlitReceive rg dir flits) (fun y =>
          (y.dir dir).accepted = (if flitKind f = 0 then x.accepted ++ [groupPay good] else x.accepted) ∧ (y.dir dir).last = flitSeq f ∧
          (y.dir dir).awaiting = false ∧ y.rebuilt = (if n = 4 then min 65535 (r.rebuilt + 1) else r.rebuilt))) ∧
        (seqAbove (flitSeq f) x.last ≠ 1 → after (.groupFlitReceive rg dir flits) (fun y =>
          (y.dir dir).accepted = x.accepted ∧ (y.dir dir).last = x.last))) ∧
      (n < 4 →
        let up := fun (f : Nat) => seqAbove (flitSeq f) x.last
        let asks := (good.take 4).all (·.isNone) = true ∨
          ∃ f rest, good.filterMap id = f :: rest ∧ (up f = 1 ∨ (x.awaiting = false ∧ 2 ≤ up f ∧ up f < 2 ^ 15))
        (asks → after (.groupFlitReceive rg dir flits) (fun y =>
          (y.dir dir).accepted = x.accepted ∧ (y.dir dir).last = x.last ∧ (y.dir dir).awaiting = true ∧ y.replays = min 65535 (r.replays + 1) ∧
          ∃ k : GroupFlit, (y.dir (1 - dir)).wire = (r.dir (1 - dir)).wire ++ [k] ∧ k.kind = 2 ∧ k.nseq = (x.last + 1) % 256)) ∧
        (¬ asks → after (.groupFlitReceive rg dir flits) (fun y => y.dir dir = x ∧ y.dir (1 - dir) = r.dir (1 - dir) ∧ y.replays = r.replays)))) ∧
    (∀ nseq : BitVec 8, s.svc.ready = true → r.down = false → dir ≤ 1 →
      let l := (r.dir dir).txBuf.dropWhile (fun f => f.seq % 256 ≠ nseq.toNat)
      (l ≠ [] → after (.nakReceive rg dir nseq) (fun y => (y.dir dir).wire = (r.dir dir).wire ++ l ∧ y.down = false)) ∧
      (l = [] → ∃ u x, exec (.nakReceive rg dir nseq) s = .next u ∧ u.links.rg[rg]? = some x ∧ x.down = true ∧
        ∀ j y, 6 ≤ rg → [6, 7, 8].find? (fun j => j ≠ rg && railUp s j) = some j → s.links.rg[j]? = some y →
          let sent := (r.d0.txBuf.flatMap (·.msgs) ++ r.d0.queue).eraseDups
          ∃ z, u.links.rg[j]? = some z ∧ z.d0.queue = y.d0.queue ++ sent ++
            (if [6, 7, 8].find? (railUp s) = some rg then (openRequests s).filter (fun m => !sent.contains m) else []))) ∧
    (∀ flits nseq, s.svc.ready = false → exec (.groupFlitReceive rg dir flits) s = .next s ∧ exec (.nakReceive rg dir nseq) s = .next s) ∧
    (rail < 5 → r.lost.getLsbD rail = false → after (.laneFailure rg rail) (fun y => y.paused.getLsbD rail = true ∧
      (if rg < 6 ∧ sget 0 r.repairs rail < Config.redundantLanes then y.half = r.half else y.half.getLsbD rail = true))) ∧
    (rail < 5 → after (.repairPauseEnd rg rail) (fun y => y.paused.getLsbD rail = false ∧ y.lost = r.lost)) ∧
    (rail < 5 → rg < 9 → ∃ u y, exec (.railLost rg rail) s = .next u ∧ u.links.rg[rg]? = some y ∧ y.lost.getLsbD rail = true ∧
      (∀ i, i ≠ rail → y.lost.getLsbD i = r.lost.getLsbD i) ∧ (y.down = true ↔ r.down = true ∨ ∃ i < 5, i ≠ rail ∧ r.lost.getLsbD i = true) ∧
      (∀ a, homeByte u a = homeByte s a))) ∧
  ((∀ (s : State) (src : Nat) (num : BitVec 16) (r : RemoteReq),
    (s.svc.ready = false → exec (.remoteRequest src num r) s = .next s) ∧
    (∀ x, s.svc.ready = true → (servedOf s src).find? (fun x => x.num = num.toNat) = some x →
      ∃ u, exec (.remoteRequest src num r) s = .next u ∧ u = { s with links := u.links } ∧ u.links.served = s.links.served) ∧
    (s.svc.ready = true → (∀ x ∈ servedOf s src, x.num ≠ num.toNat) → num.toNat = nextFrom s src →
      let x := serve s r
      ∃ u y, exec (.remoteRequest src num r) s = .next u ∧ u.mem = x.1.mem ∧ u.utag = x.1.utag ∧ u.upoison = x.1.upoison ∧ u.homeQ = x.1.homeQ ∧
        (servedOf u src).getLast? = some y ∧ y = ⟨src, num.toNat, x.2.1, x.2.2⟩ ∧
        (r.kind = .load → localOk s r.addr = true → s.errs.latent = [] →
          y.data = (List.range r.size).map (fun i => homeByte s (r.addr + i)) ∧ u.mem = s.mem ∧
          ∀ i, 32 * i < r.size → y.marks[i]? = some (anyUnit (homeTag s) (r.addr + 32 * i) (min 32 (r.size - 32 * i)),
            anyUnit (homePoison s) (r.addr + 32 * i) (min 32 (r.size - 32 * i)))) ∧
        (r.kind = .store → localOk s r.addr = true → r.size ≤ r.data.length → swf 0 s.mem = true →
          ∀ a, homeByte u a = if r.addr ≤ a ∧ a < r.addr + r.size then (r.data[a - r.addr]?).getD 0 else homeByte s a)) ∧
    (s.svc.ready = true → (∀ x ∈ servedOf s src, x.num ≠ num.toNat) → num.toNat ≠ nextFrom s src → exec (.remoteRequest src num r) s = .next s)) ∧
  (∀ (s : State) (k dev : Nat) (data : Word) (prop poison : Bool) (o : OutReq), s.outs[k]? = some o → o.dev = some dev →
    let s1 := { s with outs := s.outs.eraseIdx k }
    (o.entry.kind = .load ∨ o.entry.kind = .atomic → o.entry.late = none → o.entry.wr = [] → o.entry.opn ≠ 8 →
      exec (.remoteResponse k data prop poison) s =
        .next (s1.upGroup o.grp (fun g => g.give o.entry.lw ⟨o.entry.lane, data, prop, poison, false, o.entry.va⟩))) ∧
    (o.entry.kind = .store ∨ o.entry.kind = .reduce → exec (.remoteResponse k data prop poison) s = .next s1)) ∧
  (∀ (s : State) (dev : Nat), ∃ u, exec (.targetUnreachable dev) s = .next u ∧ dev ∈ u.links.down ∧
    u.outs = s.outs.filter (fun o => !(o.dev = some dev && o.entry.late.isNone)) ∧ ∀ a, homeByte u a = homeByte s a) ∧
  (∀ (s : State) (dev : Nat) (stream : BitVec 32),
    (s.svc.ready = false → exec (.releaseMessage dev stream) s = .next s) ∧
    (s.svc.ready = true → ∃ u, exec (.releaseMessage dev stream) s = .next u ∧ u.tasks.length = s.tasks.length ∧
      (servedOf u dev).getLast? = some ⟨dev, nextFrom s dev, [], []⟩ ∧
      ∀ (i : Nat) (t : Task), s.tasks[i]? = some t → u.tasks[i]? = some (if t.phase = .admitted ∧ recStream t.img = stream.toNat
        then tlSet t (tlOfPeer dev) (tlValue t (tlOfPeer dev) + 1) else t))))

/-- R151, R152, R337, R340, R343, R344, R347: a word that is no instruction only raises its trap. An error that strikes memory stays latent and changes no
byte. The test of a row classes its record, and counts it as transient or lasting.
R105, R106: a walk that finds a leaf lets both caches of the core hold it, and no other core's translations change; no cache and no walker
holds more than its entries.
The model's choices: the cycles that steps take (log entry 3), the rows of the arrays on die (log entry 15), the set of a translation and what it
replaces (log entry 98). -/
def Obligations.ErrorsTestsAndWalks : Prop :=
  ((∀ (s : State) (w : BitVec 96), ScalarIssues s [] [] → s.g.lanesDone = true →
    TrapsScalar (.notAnInstruction false w) s [] (mkTrap (if w = 0 then 0x02 else 0x01) 0)) ∧
  (∀ (s : State) (w : BitVec 96), s.g.qs.pendL = none → s.g.qs.pendS = none → tokensBusy s.g (w.extractLsb' 34 8) = false →
    TrapsLane (.notAnInstruction true w) (namesOnly 0 (w.extractLsb' 34 8)) s (mkTrap 0x01 0) 0) ∧
  (∀ (s : State) (array core addr : Nat) (bad : Word), ∃ u, exec (.softError array core addr bad) s = .next u ∧ (∀ a, homeByte u a = homeByte s a) ∧
    (bad ≠ 0 → 7 ≤ array → array ≤ 0x14 → array ≠ 0x0A → array ≠ 0x0B → u = { s with errs := { s.errs with latent := s.errs.latent ++ [⟨array, core, addr, bad, false⟩] } })) ∧
  (∀ (s : State) (core e : Nat) (found : Bool), e < 16 → swf 0 s.errs.coreLog = true →
    let i := core * 64 + 4 * e
    let w0 := (sget 0 s.errs.coreLog i).toNat
    let array := bits w0 39 32
    let last := isLasting s w0 array core (sget 0 s.errs.coreLog (i + 1)).toNat found
    bit1 w0 63 = true → bits w0 61 60 = 0 → 1 ≤ array → array ≤ 0x0B →
    ∃ u, exec (.rowTest core e found) s = .next u ∧ bits (sget 0 u.errs.coreLog i).toNat 61 60 = (if last then 2 else 1) ∧
      u.svc.lasting = s.svc.lasting + (if last then 1 else 0) ∧ u.svc.transient = s.svc.transient + (if last then 0 else 1) ∧
      (∀ a, homeByte u a = homeByte s a)) ∧
  (∀ (s : State) (q e : Nat) (found : Bool), q < 4 → e < 512 → swf 0 s.errs.dramLog = true →
    let i := q * 2048 + 4 * e
    let w0 := (sget 0 s.errs.dramLog i).toNat
    let last := isLasting s w0 0x10 q (sget 0 s.errs.dramLog (i + 1)).toNat found
    bit1 w0 63 = true → bits w0 61 60 = 0 → bits w0 39 32 = 0x10 →
    ∃ u, exec (.dramRowTest q e found) s = .next u ∧ bits (sget 0 u.errs.dramLog i).toNat 61 60 = (if last then 2 else 1) ∧
      u.svc.lasting = s.svc.lasting + (if last then 1 else 0) ∧ u.svc.transient = s.svc.transient + (if last then 0 else 1) ∧
      (∀ a, homeByte u a = homeByte s a))) ∧
  (∀ (s : State) (core asid gen : Nat) (va : Word) (level leaf : Nat), s.errs.latent = [] → s.errs.inj = [] → va.toNat < 2 ^ 60 → core < 256 →
    (∀ e ∈ s.wcache, e.q = core / 64 → e.asid = asid → e.gen ≠ gen) → walk s asid va.toNat = .ok (level, leaf) →
    let n := fun (second : Bool) => (⟨second, core, asid, gen, va.toNat / 2 ^ pageBits level, level, leaf⟩ : TlbEntry)
    let held := fun (u : State) (c : Nat) (second : Bool) (p : Nat → Bool) => (u.tlb.filter (fun x => x.core = c && x.second = second && p x.page)).length
    let kept := fun (u : State) (q w : Nat) => (u.wcache.filter (fun e => e.q = q && e.walker = w)).length
    ∃ t, exec (.tableWalk core asid gen va) s = .next t ∧ t = { s with tlb := t.tlb, uid := t.uid, wcache := t.wcache } ∧
      n false ∈ t.tlb ∧ n true ∈ t.tlb ∧ (∀ x, x.core ≠ core → (x ∈ t.tlb ↔ x ∈ s.tlb)) ∧
      (∀ c, held s c false (fun _ => true) ≤ 64 → held t c false (fun _ => true) ≤ 64) ∧
      (∀ c i, held s c true (fun p => p % 256 = i) ≤ 8 → held t c true (fun p => p % 256 = i) ≤ 8) ∧
      (∀ q w, kept s q w ≤ 16 → kept t q w ≤ 16))

/-! ### Invariants -/

/-- R71, R86, R90: from every state whose memory, tags, poison and tag tables are in their canonical form, a step leads to one whose are. -/
def Obligations.StepKeepsStores : Prop := ∀ s t : State, StoresOk s → step s = .next t → StoresOk t

/-- R71, R86: the state after reset has the canonical form. -/
def Obligations.ResetHasStores : Prop := StoresOk State.reset
end

