-- ==== Sys2Proof/Laws/Fields.lean ====
section
/-! SUPPORT. Laws of the encodings: each field of a word that was put together from fields reads back. -/

namespace Sys2Proof

open Machine

theorem field_hi {n m s l : Nat} (x : BitVec n) (y : BitVec m) (h : m ≤ s) : (x ++ y).extractLsb' s l = x.extractLsb' (s - m) l := by
  ext i hi
  simp only [BitVec.getElem_extractLsb', BitVec.getLsbD_append]
  have h1 : ¬ s + i < m := by omega
  simp [h1]
  congr 1
  omega

theorem field_lo {n m s l : Nat} (x : BitVec n) (y : BitVec m) (h : s + l ≤ m) : (x ++ y).extractLsb' s l = y.extractLsb' s l := by
  ext i hi
  simp only [BitVec.getElem_extractLsb', BitVec.getLsbD_append]
  have h1 : s + i < m := by omega
  simp [h1]

theorem field_all {n : Nat} (x : BitVec n) : x.extractLsb' 0 n = x := by
  ext i hi
  simp

/-- A field of a word whose low part is the field itself. -/
theorem field_at {n m : Nat} (x : BitVec n) (y : BitVec m) : (x ++ y).extractLsb' m n = x := by
  rw [field_hi x y (Nat.le_refl m), Nat.sub_self, field_all]

theorem encGeneral_op (op : BitVec 8) (w : LWord) : (encGeneral op w).extractLsb' 88 8 = op := by
  unfold encGeneral
  repeat (first | exact field_all _ | rw [field_hi _ _ (by decide)])

theorem encGeneral_fields (op : BitVec 8) (w : LWord) : laneFields (encGeneral op w) = w := by
  cases w
  simp only [laneFields, encGeneral, LWord.mk.injEq]
  refine ⟨?_, ?_, ?_, ?_, ?_, ?_, ?_, ?_, ?_, ?_, ?_, ?_, ?_, ?_, ?_⟩ <;>
    (repeat (first | exact field_all _ | rw [field_lo _ _ (by decide)] | rw [field_hi _ _ (by decide)]))

theorem encLbr_op (w : LbrWord) : (encLbr w).extractLsb' 88 8 = 0x2D := by
  unfold encLbr
  repeat (first | exact field_all _ | rw [field_hi _ _ (by decide)])

theorem encLbr_fields (w : LbrWord) : lbrFields (encLbr w) = w := by
  cases w
  simp only [lbrFields, encLbr, LbrWord.mk.injEq]
  refine ⟨?_, ?_, ?_, ?_, ?_, ?_⟩ <;>
    (repeat (first | exact field_all _ | rw [field_lo _ _ (by decide)] | rw [field_hi _ _ (by decide)]))

theorem encGenbeg_op (w : GenbegWord) : (encGenbeg w).extractLsb' 88 8 = 0x3C := by
  unfold encGenbeg
  repeat (first | exact field_all _ | rw [field_hi _ _ (by decide)])

theorem encGenbeg_fields (w : GenbegWord) : genbegFields (encGenbeg w) = w := by
  cases w
  simp only [genbegFields, encGenbeg, GenbegWord.mk.injEq]
  refine ⟨?_, ?_, ?_, ?_, ?_, ?_, ?_⟩ <;>
    (repeat (first | exact field_all _ | rw [field_lo _ _ (by decide)] | rw [field_hi _ _ (by decide)]))

/-! ### The scalar formats of R139 -/

theorem encSR_op (op d a b : BitVec 6) (fn : BitVec 8) : (encSR op d a b fn).extractLsb' 26 6 = op := by
  unfold encSR
  repeat (first | exact field_all _ | rw [field_hi _ _ (by decide)])
theorem encSR_sd (op d a b : BitVec 6) (fn : BitVec 8) : fSd (encSR op d a b fn) = d := by
  unfold fSd encSR
  repeat (first | exact field_all _ | rw [field_lo _ _ (by decide)] | rw [field_hi _ _ (by decide)])
theorem encSR_sa (op d a b : BitVec 6) (fn : BitVec 8) : fSa (encSR op d a b fn) = a := by
  unfold fSa encSR
  repeat (first | exact field_all _ | rw [field_lo _ _ (by decide)] | rw [field_hi _ _ (by decide)])
theorem encSR_sb (op d a b : BitVec 6) (fn : BitVec 8) : fSb (encSR op d a b fn) = b := by
  unfold fSb encSR
  repeat (first | exact field_all _ | rw [field_lo _ _ (by decide)] | rw [field_hi _ _ (by decide)])
theorem encSR_fn (op d a b : BitVec 6) (fn : BitVec 8) : fFn (encSR op d a b fn) = fn := by
  unfold fFn encSR
  repeat (first | exact field_all _ | rw [field_lo _ _ (by decide)] | rw [field_hi _ _ (by decide)])

theorem encSI_op (op d a : BitVec 6) (i : BitVec 14) : (encSI op d a i).extractLsb' 26 6 = op := by
  unfold encSI
  repeat (first | exact field_all _ | rw [field_hi _ _ (by decide)])
theorem encSI_sd (op d a : BitVec 6) (i : BitVec 14) : fSd (encSI op d a i) = d := by
  unfold fSd encSI
  repeat (first | exact field_all _ | rw [field_lo _ _ (by decide)] | rw [field_hi _ _ (by decide)])
theorem encSI_sa (op d a : BitVec 6) (i : BitVec 14) : fSa (encSI op d a i) = a := by
  unfold fSa encSI
  repeat (first | exact field_all _ | rw [field_lo _ _ (by decide)] | rw [field_hi _ _ (by decide)])
theorem encSI_imm (op d a : BitVec 6) (i : BitVec 14) : fImm14 (encSI op d a i) = i := by
  unfold fImm14 encSI
  repeat (first | exact field_all _ | rw [field_lo _ _ (by decide)] | rw [field_hi _ _ (by decide)])

/-- A field inside the immediate of format SI. -/
theorem encSI_inner (op d a : BitVec 6) (i : BitVec 14) (s l : Nat) (h : s + l ≤ 14) :
    (encSI op d a i).extractLsb' s l = i.extractLsb' s l := by
  unfold encSI
  rw [field_lo _ _ h]

theorem encSL_op (op d : BitVec 6) (i : BitVec 20) : (encSL op d i).extractLsb' 26 6 = op := by
  unfold encSL
  repeat (first | exact field_all _ | rw [field_hi _ _ (by decide)])
theorem encSL_sd (op d : BitVec 6) (i : BitVec 20) : fSd (encSL op d i) = d := by
  unfold fSd encSL
  repeat (first | exact field_all _ | rw [field_lo _ _ (by decide)] | rw [field_hi _ _ (by decide)])
theorem encSL_imm (op d : BitVec 6) (i : BitVec 20) : fImm20 (encSL op d i) = i := by
  unfold fImm20 encSL
  repeat (first | exact field_all _ | rw [field_lo _ _ (by decide)] | rw [field_hi _ _ (by decide)])

end Sys2Proof
end

