-- ==== Sys2Proof/Laws/State.lean ====
section
/-! SUPPORT. Field lemmas: what each update of the state or of a group leaves alone. -/

namespace Sys2Proof.Machine

/-! ### State.setG -/

@[simp] theorem State.setG_rest (s : State) (h : Group) : (s.setG h).rest = s.rest := rfl
@[simp] theorem State.setG_tasks (s : State) (h : Group) : (s.setG h).tasks = s.tasks := rfl
@[simp] theorem State.setG_replays (s : State) (h : Group) : (s.setG h).replays = s.replays := rfl
@[simp] theorem State.setG_mem (s : State) (h : Group) : (s.setG h).mem = s.mem := rfl
@[simp] theorem State.setG_utag (s : State) (h : Group) : (s.setG h).utag = s.utag := rfl
@[simp] theorem State.setG_upoison (s : State) (h : Group) : (s.setG h).upoison = s.upoison := rfl
@[simp] theorem State.setG_cp (s : State) (h : Group) : (s.setG h).cp = s.cp := rfl
@[simp] theorem State.setG_homeQ (s : State) (h : Group) : (s.setG h).homeQ = s.homeQ := rfl
@[simp] theorem State.setG_msgs (s : State) (h : Group) : (s.setG h).msgs = s.msgs := rfl
@[simp] theorem State.setG_tagTab (s : State) (h : Group) : (s.setG h).tagTab = s.tagTab := rfl
@[simp] theorem State.setG_bindTab (s : State) (h : Group) : (s.setG h).bindTab = s.bindTab := rfl
@[simp] theorem State.setG_cmds (s : State) (h : Group) : (s.setG h).cmds = s.cmds := rfl
@[simp] theorem State.setG_outs (s : State) (h : Group) : (s.setG h).outs = s.outs := rfl
@[simp] theorem State.setG_tlb (s : State) (h : Group) : (s.setG h).tlb = s.tlb := rfl
@[simp] theorem State.setG_wcache (s : State) (h : Group) : (s.setG h).wcache = s.wcache := rfl
@[simp] theorem State.setG_asidBase (s : State) (h : Group) : (s.setG h).asidBase = s.asidBase := rfl
@[simp] theorem State.setG_genCopy (s : State) (h : Group) : (s.setG h).genCopy = s.genCopy := rfl
@[simp] theorem State.setG_links (s : State) (h : Group) : (s.setG h).links = s.links := rfl
@[simp] theorem State.setG_host (s : State) (h : Group) : (s.setG h).host = s.host := rfl
@[simp] theorem State.setG_errs (s : State) (h : Group) : (s.setG h).errs = s.errs := rfl
@[simp] theorem State.setG_svc (s : State) (h : Group) : (s.setG h).svc = s.svc := rfl
@[simp] theorem State.setG_turns (s : State) (h : Group) : (s.setG h).turns = s.turns := rfl
@[simp] theorem State.setG_tick (s : State) (h : Group) : (s.setG h).tick = s.tick := rfl
@[simp] theorem State.setG_uid (s : State) (h : Group) : (s.setG h).uid = s.uid := rfl
@[simp] theorem State.setG_seen (s : State) (h : Group) : (s.setG h).seen = s.seen := rfl
@[simp] theorem State.setG_hold (s : State) (h : Group) : (s.setG h).hold = s.hold := rfl
@[simp] theorem State.setG_early (s : State) (h : Group) : (s.setG h).early = s.early := rfl
@[simp] theorem State.setG_barred (s : State) (h : Group) : (s.setG h).barred = s.barred := rfl

/-! ### State.upG -/

@[simp] theorem State.upG_rest (s : State) (f : Group → Group) : (s.upG f).rest = s.rest := rfl
@[simp] theorem State.upG_tasks (s : State) (f : Group → Group) : (s.upG f).tasks = s.tasks := rfl
@[simp] theorem State.upG_replays (s : State) (f : Group → Group) : (s.upG f).replays = s.replays := rfl
@[simp] theorem State.upG_mem (s : State) (f : Group → Group) : (s.upG f).mem = s.mem := rfl
@[simp] theorem State.upG_utag (s : State) (f : Group → Group) : (s.upG f).utag = s.utag := rfl
@[simp] theorem State.upG_upoison (s : State) (f : Group → Group) : (s.upG f).upoison = s.upoison := rfl
@[simp] theorem State.upG_cp (s : State) (f : Group → Group) : (s.upG f).cp = s.cp := rfl
@[simp] theorem State.upG_homeQ (s : State) (f : Group → Group) : (s.upG f).homeQ = s.homeQ := rfl
@[simp] theorem State.upG_msgs (s : State) (f : Group → Group) : (s.upG f).msgs = s.msgs := rfl
@[simp] theorem State.upG_tagTab (s : State) (f : Group → Group) : (s.upG f).tagTab = s.tagTab := rfl
@[simp] theorem State.upG_bindTab (s : State) (f : Group → Group) : (s.upG f).bindTab = s.bindTab := rfl
@[simp] theorem State.upG_cmds (s : State) (f : Group → Group) : (s.upG f).cmds = s.cmds := rfl
@[simp] theorem State.upG_outs (s : State) (f : Group → Group) : (s.upG f).outs = s.outs := rfl
@[simp] theorem State.upG_tlb (s : State) (f : Group → Group) : (s.upG f).tlb = s.tlb := rfl
@[simp] theorem State.upG_wcache (s : State) (f : Group → Group) : (s.upG f).wcache = s.wcache := rfl
@[simp] theorem State.upG_asidBase (s : State) (f : Group → Group) : (s.upG f).asidBase = s.asidBase := rfl
@[simp] theorem State.upG_genCopy (s : State) (f : Group → Group) : (s.upG f).genCopy = s.genCopy := rfl
@[simp] theorem State.upG_links (s : State) (f : Group → Group) : (s.upG f).links = s.links := rfl
@[simp] theorem State.upG_host (s : State) (f : Group → Group) : (s.upG f).host = s.host := rfl
@[simp] theorem State.upG_errs (s : State) (f : Group → Group) : (s.upG f).errs = s.errs := rfl
@[simp] theorem State.upG_svc (s : State) (f : Group → Group) : (s.upG f).svc = s.svc := rfl
@[simp] theorem State.upG_turns (s : State) (f : Group → Group) : (s.upG f).turns = s.turns := rfl
@[simp] theorem State.upG_tick (s : State) (f : Group → Group) : (s.upG f).tick = s.tick := rfl
@[simp] theorem State.upG_uid (s : State) (f : Group → Group) : (s.upG f).uid = s.uid := rfl
@[simp] theorem State.upG_seen (s : State) (f : Group → Group) : (s.upG f).seen = s.seen := rfl
@[simp] theorem State.upG_hold (s : State) (f : Group → Group) : (s.upG f).hold = s.hold := rfl
@[simp] theorem State.upG_early (s : State) (f : Group → Group) : (s.upG f).early = s.early := rfl
@[simp] theorem State.upG_barred (s : State) (f : Group → Group) : (s.upG f).barred = s.barred := rfl

/-! ### State.advance -/

@[simp] theorem State.advance_rest (s : State) : s.advance.rest = s.rest := rfl
@[simp] theorem State.advance_tasks (s : State) : s.advance.tasks = s.tasks := rfl
@[simp] theorem State.advance_replays (s : State) : s.advance.replays = s.replays := rfl
@[simp] theorem State.advance_mem (s : State) : s.advance.mem = s.mem := rfl
@[simp] theorem State.advance_utag (s : State) : s.advance.utag = s.utag := rfl
@[simp] theorem State.advance_upoison (s : State) : s.advance.upoison = s.upoison := rfl
@[simp] theorem State.advance_cp (s : State) : s.advance.cp = s.cp := rfl
@[simp] theorem State.advance_homeQ (s : State) : s.advance.homeQ = s.homeQ := rfl
@[simp] theorem State.advance_msgs (s : State) : s.advance.msgs = s.msgs := rfl
@[simp] theorem State.advance_tagTab (s : State) : s.advance.tagTab = s.tagTab := rfl
@[simp] theorem State.advance_bindTab (s : State) : s.advance.bindTab = s.bindTab := rfl
@[simp] theorem State.advance_cmds (s : State) : s.advance.cmds = s.cmds := rfl
@[simp] theorem State.advance_outs (s : State) : s.advance.outs = s.outs := rfl
@[simp] theorem State.advance_tlb (s : State) : s.advance.tlb = s.tlb := rfl
@[simp] theorem State.advance_wcache (s : State) : s.advance.wcache = s.wcache := rfl
@[simp] theorem State.advance_asidBase (s : State) : s.advance.asidBase = s.asidBase := rfl
@[simp] theorem State.advance_genCopy (s : State) : s.advance.genCopy = s.genCopy := rfl
@[simp] theorem State.advance_links (s : State) : s.advance.links = s.links := rfl
@[simp] theorem State.advance_host (s : State) : s.advance.host = s.host := rfl
@[simp] theorem State.advance_errs (s : State) : s.advance.errs = s.errs := rfl
@[simp] theorem State.advance_svc (s : State) : s.advance.svc = s.svc := rfl
@[simp] theorem State.advance_turns (s : State) : s.advance.turns = s.turns := rfl
@[simp] theorem State.advance_tick (s : State) : s.advance.tick = s.tick := rfl
@[simp] theorem State.advance_uid (s : State) : s.advance.uid = s.uid := rfl
@[simp] theorem State.advance_seen (s : State) : s.advance.seen = s.seen := rfl
@[simp] theorem State.advance_hold (s : State) : s.advance.hold = s.hold := rfl
@[simp] theorem State.advance_early (s : State) : s.advance.early = s.early := rfl
@[simp] theorem State.advance_barred (s : State) : s.advance.barred = s.barred := rfl

/-! ### State.putS -/

@[simp] theorem State.putS_rest (s : State) (n : Nat) (v : Word) (t : Bool) : (s.putS n v t).rest = s.rest := rfl
@[simp] theorem State.putS_tasks (s : State) (n : Nat) (v : Word) (t : Bool) : (s.putS n v t).tasks = s.tasks := rfl
@[simp] theorem State.putS_replays (s : State) (n : Nat) (v : Word) (t : Bool) : (s.putS n v t).replays = s.replays := rfl
@[simp] theorem State.putS_mem (s : State) (n : Nat) (v : Word) (t : Bool) : (s.putS n v t).mem = s.mem := rfl
@[simp] theorem State.putS_utag (s : State) (n : Nat) (v : Word) (t : Bool) : (s.putS n v t).utag = s.utag := rfl
@[simp] theorem State.putS_upoison (s : State) (n : Nat) (v : Word) (t : Bool) : (s.putS n v t).upoison = s.upoison := rfl
@[simp] theorem State.putS_cp (s : State) (n : Nat) (v : Word) (t : Bool) : (s.putS n v t).cp = s.cp := rfl
@[simp] theorem State.putS_homeQ (s : State) (n : Nat) (v : Word) (t : Bool) : (s.putS n v t).homeQ = s.homeQ := rfl
@[simp] theorem State.putS_msgs (s : State) (n : Nat) (v : Word) (t : Bool) : (s.putS n v t).msgs = s.msgs := rfl
@[simp] theorem State.putS_tagTab (s : State) (n : Nat) (v : Word) (t : Bool) : (s.putS n v t).tagTab = s.tagTab := rfl
@[simp] theorem State.putS_bindTab (s : State) (n : Nat) (v : Word) (t : Bool) : (s.putS n v t).bindTab = s.bindTab := rfl
@[simp] theorem State.putS_cmds (s : State) (n : Nat) (v : Word) (t : Bool) : (s.putS n v t).cmds = s.cmds := rfl
@[simp] theorem State.putS_outs (s : State) (n : Nat) (v : Word) (t : Bool) : (s.putS n v t).outs = s.outs := rfl
@[simp] theorem State.putS_tlb (s : State) (n : Nat) (v : Word) (t : Bool) : (s.putS n v t).tlb = s.tlb := rfl
@[simp] theorem State.putS_wcache (s : State) (n : Nat) (v : Word) (t : Bool) : (s.putS n v t).wcache = s.wcache := rfl
@[simp] theorem State.putS_asidBase (s : State) (n : Nat) (v : Word) (t : Bool) : (s.putS n v t).asidBase = s.asidBase := rfl
@[simp] theorem State.putS_genCopy (s : State) (n : Nat) (v : Word) (t : Bool) : (s.putS n v t).genCopy = s.genCopy := rfl
@[simp] theorem State.putS_links (s : State) (n : Nat) (v : Word) (t : Bool) : (s.putS n v t).links = s.links := rfl
@[simp] theorem State.putS_host (s : State) (n : Nat) (v : Word) (t : Bool) : (s.putS n v t).host = s.host := rfl
@[simp] theorem State.putS_errs (s : State) (n : Nat) (v : Word) (t : Bool) : (s.putS n v t).errs = s.errs := rfl
@[simp] theorem State.putS_svc (s : State) (n : Nat) (v : Word) (t : Bool) : (s.putS n v t).svc = s.svc := rfl
@[simp] theorem State.putS_turns (s : State) (n : Nat) (v : Word) (t : Bool) : (s.putS n v t).turns = s.turns := rfl
@[simp] theorem State.putS_tick (s : State) (n : Nat) (v : Word) (t : Bool) : (s.putS n v t).tick = s.tick := rfl
@[simp] theorem State.putS_uid (s : State) (n : Nat) (v : Word) (t : Bool) : (s.putS n v t).uid = s.uid := rfl
@[simp] theorem State.putS_seen (s : State) (n : Nat) (v : Word) (t : Bool) : (s.putS n v t).seen = s.seen := rfl
@[simp] theorem State.putS_hold (s : State) (n : Nat) (v : Word) (t : Bool) : (s.putS n v t).hold = s.hold := rfl
@[simp] theorem State.putS_early (s : State) (n : Nat) (v : Word) (t : Bool) : (s.putS n v t).early = s.early := rfl
@[simp] theorem State.putS_barred (s : State) (n : Nat) (v : Word) (t : Bool) : (s.putS n v t).barred = s.barred := rfl

/-! ### State.upTask -/

@[simp] theorem State.upTask_g (s : State) (t : Nat) (f : Task → Task) : (s.upTask t f).g = s.g := rfl
@[simp] theorem State.upTask_rest (s : State) (t : Nat) (f : Task → Task) : (s.upTask t f).rest = s.rest := rfl
@[simp] theorem State.upTask_replays (s : State) (t : Nat) (f : Task → Task) : (s.upTask t f).replays = s.replays := rfl
@[simp] theorem State.upTask_mem (s : State) (t : Nat) (f : Task → Task) : (s.upTask t f).mem = s.mem := rfl
@[simp] theorem State.upTask_utag (s : State) (t : Nat) (f : Task → Task) : (s.upTask t f).utag = s.utag := rfl
@[simp] theorem State.upTask_upoison (s : State) (t : Nat) (f : Task → Task) : (s.upTask t f).upoison = s.upoison := rfl
@[simp] theorem State.upTask_cp (s : State) (t : Nat) (f : Task → Task) : (s.upTask t f).cp = s.cp := rfl
@[simp] theorem State.upTask_homeQ (s : State) (t : Nat) (f : Task → Task) : (s.upTask t f).homeQ = s.homeQ := rfl
@[simp] theorem State.upTask_msgs (s : State) (t : Nat) (f : Task → Task) : (s.upTask t f).msgs = s.msgs := rfl
@[simp] theorem State.upTask_tagTab (s : State) (t : Nat) (f : Task → Task) : (s.upTask t f).tagTab = s.tagTab := rfl
@[simp] theorem State.upTask_bindTab (s : State) (t : Nat) (f : Task → Task) : (s.upTask t f).bindTab = s.bindTab := rfl
@[simp] theorem State.upTask_cmds (s : State) (t : Nat) (f : Task → Task) : (s.upTask t f).cmds = s.cmds := rfl
@[simp] theorem State.upTask_outs (s : State) (t : Nat) (f : Task → Task) : (s.upTask t f).outs = s.outs := rfl
@[simp] theorem State.upTask_tlb (s : State) (t : Nat) (f : Task → Task) : (s.upTask t f).tlb = s.tlb := rfl
@[simp] theorem State.upTask_wcache (s : State) (t : Nat) (f : Task → Task) : (s.upTask t f).wcache = s.wcache := rfl
@[simp] theorem State.upTask_asidBase (s : State) (t : Nat) (f : Task → Task) : (s.upTask t f).asidBase = s.asidBase := rfl
@[simp] theorem State.upTask_genCopy (s : State) (t : Nat) (f : Task → Task) : (s.upTask t f).genCopy = s.genCopy := rfl
@[simp] theorem State.upTask_links (s : State) (t : Nat) (f : Task → Task) : (s.upTask t f).links = s.links := rfl
@[simp] theorem State.upTask_host (s : State) (t : Nat) (f : Task → Task) : (s.upTask t f).host = s.host := rfl
@[simp] theorem State.upTask_errs (s : State) (t : Nat) (f : Task → Task) : (s.upTask t f).errs = s.errs := rfl
@[simp] theorem State.upTask_svc (s : State) (t : Nat) (f : Task → Task) : (s.upTask t f).svc = s.svc := rfl
@[simp] theorem State.upTask_turns (s : State) (t : Nat) (f : Task → Task) : (s.upTask t f).turns = s.turns := rfl
@[simp] theorem State.upTask_tick (s : State) (t : Nat) (f : Task → Task) : (s.upTask t f).tick = s.tick := rfl
@[simp] theorem State.upTask_uid (s : State) (t : Nat) (f : Task → Task) : (s.upTask t f).uid = s.uid := rfl
@[simp] theorem State.upTask_seen (s : State) (t : Nat) (f : Task → Task) : (s.upTask t f).seen = s.seen := rfl
@[simp] theorem State.upTask_hold (s : State) (t : Nat) (f : Task → Task) : (s.upTask t f).hold = s.hold := rfl
@[simp] theorem State.upTask_early (s : State) (t : Nat) (f : Task → Task) : (s.upTask t f).early = s.early := rfl
@[simp] theorem State.upTask_barred (s : State) (t : Nat) (f : Task → Task) : (s.upTask t f).barred = s.barred := rfl

/-! ### State.upCmd -/

@[simp] theorem State.upCmd_g (s : State) (c : Nat) (f : Cmd → Cmd) : (s.upCmd c f).g = s.g := rfl
@[simp] theorem State.upCmd_rest (s : State) (c : Nat) (f : Cmd → Cmd) : (s.upCmd c f).rest = s.rest := rfl
@[simp] theorem State.upCmd_tasks (s : State) (c : Nat) (f : Cmd → Cmd) : (s.upCmd c f).tasks = s.tasks := rfl
@[simp] theorem State.upCmd_replays (s : State) (c : Nat) (f : Cmd → Cmd) : (s.upCmd c f).replays = s.replays := rfl
@[simp] theorem State.upCmd_mem (s : State) (c : Nat) (f : Cmd → Cmd) : (s.upCmd c f).mem = s.mem := rfl
@[simp] theorem State.upCmd_utag (s : State) (c : Nat) (f : Cmd → Cmd) : (s.upCmd c f).utag = s.utag := rfl
@[simp] theorem State.upCmd_upoison (s : State) (c : Nat) (f : Cmd → Cmd) : (s.upCmd c f).upoison = s.upoison := rfl
@[simp] theorem State.upCmd_cp (s : State) (c : Nat) (f : Cmd → Cmd) : (s.upCmd c f).cp = s.cp := rfl
@[simp] theorem State.upCmd_homeQ (s : State) (c : Nat) (f : Cmd → Cmd) : (s.upCmd c f).homeQ = s.homeQ := rfl
@[simp] theorem State.upCmd_msgs (s : State) (c : Nat) (f : Cmd → Cmd) : (s.upCmd c f).msgs = s.msgs := rfl
@[simp] theorem State.upCmd_tagTab (s : State) (c : Nat) (f : Cmd → Cmd) : (s.upCmd c f).tagTab = s.tagTab := rfl
@[simp] theorem State.upCmd_bindTab (s : State) (c : Nat) (f : Cmd → Cmd) : (s.upCmd c f).bindTab = s.bindTab := rfl
@[simp] theorem State.upCmd_outs (s : State) (c : Nat) (f : Cmd → Cmd) : (s.upCmd c f).outs = s.outs := rfl
@[simp] theorem State.upCmd_tlb (s : State) (c : Nat) (f : Cmd → Cmd) : (s.upCmd c f).tlb = s.tlb := rfl
@[simp] theorem State.upCmd_wcache (s : State) (c : Nat) (f : Cmd → Cmd) : (s.upCmd c f).wcache = s.wcache := rfl
@[simp] theorem State.upCmd_asidBase (s : State) (c : Nat) (f : Cmd → Cmd) : (s.upCmd c f).asidBase = s.asidBase := rfl
@[simp] theorem State.upCmd_genCopy (s : State) (c : Nat) (f : Cmd → Cmd) : (s.upCmd c f).genCopy = s.genCopy := rfl
@[simp] theorem State.upCmd_links (s : State) (c : Nat) (f : Cmd → Cmd) : (s.upCmd c f).links = s.links := rfl
@[simp] theorem State.upCmd_host (s : State) (c : Nat) (f : Cmd → Cmd) : (s.upCmd c f).host = s.host := rfl
@[simp] theorem State.upCmd_errs (s : State) (c : Nat) (f : Cmd → Cmd) : (s.upCmd c f).errs = s.errs := rfl
@[simp] theorem State.upCmd_svc (s : State) (c : Nat) (f : Cmd → Cmd) : (s.upCmd c f).svc = s.svc := rfl
@[simp] theorem State.upCmd_turns (s : State) (c : Nat) (f : Cmd → Cmd) : (s.upCmd c f).turns = s.turns := rfl
@[simp] theorem State.upCmd_tick (s : State) (c : Nat) (f : Cmd → Cmd) : (s.upCmd c f).tick = s.tick := rfl
@[simp] theorem State.upCmd_uid (s : State) (c : Nat) (f : Cmd → Cmd) : (s.upCmd c f).uid = s.uid := rfl
@[simp] theorem State.upCmd_seen (s : State) (c : Nat) (f : Cmd → Cmd) : (s.upCmd c f).seen = s.seen := rfl
@[simp] theorem State.upCmd_hold (s : State) (c : Nat) (f : Cmd → Cmd) : (s.upCmd c f).hold = s.hold := rfl
@[simp] theorem State.upCmd_early (s : State) (c : Nat) (f : Cmd → Cmd) : (s.upCmd c f).early = s.early := rfl
@[simp] theorem State.upCmd_barred (s : State) (c : Nat) (f : Cmd → Cmd) : (s.upCmd c f).barred = s.barred := rfl

/-! ### State.putCmd -/

@[simp] theorem State.putCmd_g (s : State) (c : Cmd) : (s.putCmd c).g = s.g := rfl
@[simp] theorem State.putCmd_rest (s : State) (c : Cmd) : (s.putCmd c).rest = s.rest := rfl
@[simp] theorem State.putCmd_tasks (s : State) (c : Cmd) : (s.putCmd c).tasks = s.tasks := rfl
@[simp] theorem State.putCmd_replays (s : State) (c : Cmd) : (s.putCmd c).replays = s.replays := rfl
@[simp] theorem State.putCmd_mem (s : State) (c : Cmd) : (s.putCmd c).mem = s.mem := rfl
@[simp] theorem State.putCmd_utag (s : State) (c : Cmd) : (s.putCmd c).utag = s.utag := rfl
@[simp] theorem State.putCmd_upoison (s : State) (c : Cmd) : (s.putCmd c).upoison = s.upoison := rfl
@[simp] theorem State.putCmd_cp (s : State) (c : Cmd) : (s.putCmd c).cp = s.cp := rfl
@[simp] theorem State.putCmd_homeQ (s : State) (c : Cmd) : (s.putCmd c).homeQ = s.homeQ := rfl
@[simp] theorem State.putCmd_msgs (s : State) (c : Cmd) : (s.putCmd c).msgs = s.msgs := rfl
@[simp] theorem State.putCmd_tagTab (s : State) (c : Cmd) : (s.putCmd c).tagTab = s.tagTab := rfl
@[simp] theorem State.putCmd_bindTab (s : State) (c : Cmd) : (s.putCmd c).bindTab = s.bindTab := rfl
@[simp] theorem State.putCmd_outs (s : State) (c : Cmd) : (s.putCmd c).outs = s.outs := rfl
@[simp] theorem State.putCmd_tlb (s : State) (c : Cmd) : (s.putCmd c).tlb = s.tlb := rfl
@[simp] theorem State.putCmd_wcache (s : State) (c : Cmd) : (s.putCmd c).wcache = s.wcache := rfl
@[simp] theorem State.putCmd_asidBase (s : State) (c : Cmd) : (s.putCmd c).asidBase = s.asidBase := rfl
@[simp] theorem State.putCmd_genCopy (s : State) (c : Cmd) : (s.putCmd c).genCopy = s.genCopy := rfl
@[simp] theorem State.putCmd_links (s : State) (c : Cmd) : (s.putCmd c).links = s.links := rfl
@[simp] theorem State.putCmd_host (s : State) (c : Cmd) : (s.putCmd c).host = s.host := rfl
@[simp] theorem State.putCmd_errs (s : State) (c : Cmd) : (s.putCmd c).errs = s.errs := rfl
@[simp] theorem State.putCmd_svc (s : State) (c : Cmd) : (s.putCmd c).svc = s.svc := rfl
@[simp] theorem State.putCmd_turns (s : State) (c : Cmd) : (s.putCmd c).turns = s.turns := rfl
@[simp] theorem State.putCmd_tick (s : State) (c : Cmd) : (s.putCmd c).tick = s.tick := rfl
@[simp] theorem State.putCmd_uid (s : State) (c : Cmd) : (s.putCmd c).uid = s.uid := rfl
@[simp] theorem State.putCmd_seen (s : State) (c : Cmd) : (s.putCmd c).seen = s.seen := rfl
@[simp] theorem State.putCmd_hold (s : State) (c : Cmd) : (s.putCmd c).hold = s.hold := rfl
@[simp] theorem State.putCmd_early (s : State) (c : Cmd) : (s.putCmd c).early = s.early := rfl
@[simp] theorem State.putCmd_barred (s : State) (c : Cmd) : (s.putCmd c).barred = s.barred := rfl

/-! ### State.dropCmd -/

@[simp] theorem State.dropCmd_g (s : State) (c : Nat) : (s.dropCmd c).g = s.g := rfl
@[simp] theorem State.dropCmd_rest (s : State) (c : Nat) : (s.dropCmd c).rest = s.rest := rfl
@[simp] theorem State.dropCmd_tasks (s : State) (c : Nat) : (s.dropCmd c).tasks = s.tasks := rfl
@[simp] theorem State.dropCmd_replays (s : State) (c : Nat) : (s.dropCmd c).replays = s.replays := rfl
@[simp] theorem State.dropCmd_mem (s : State) (c : Nat) : (s.dropCmd c).mem = s.mem := rfl
@[simp] theorem State.dropCmd_utag (s : State) (c : Nat) : (s.dropCmd c).utag = s.utag := rfl
@[simp] theorem State.dropCmd_upoison (s : State) (c : Nat) : (s.dropCmd c).upoison = s.upoison := rfl
@[simp] theorem State.dropCmd_cp (s : State) (c : Nat) : (s.dropCmd c).cp = s.cp := rfl
@[simp] theorem State.dropCmd_homeQ (s : State) (c : Nat) : (s.dropCmd c).homeQ = s.homeQ := rfl
@[simp] theorem State.dropCmd_msgs (s : State) (c : Nat) : (s.dropCmd c).msgs = s.msgs := rfl
@[simp] theorem State.dropCmd_tagTab (s : State) (c : Nat) : (s.dropCmd c).tagTab = s.tagTab := rfl
@[simp] theorem State.dropCmd_bindTab (s : State) (c : Nat) : (s.dropCmd c).bindTab = s.bindTab := rfl
@[simp] theorem State.dropCmd_outs (s : State) (c : Nat) : (s.dropCmd c).outs = s.outs := rfl
@[simp] theorem State.dropCmd_tlb (s : State) (c : Nat) : (s.dropCmd c).tlb = s.tlb := rfl
@[simp] theorem State.dropCmd_wcache (s : State) (c : Nat) : (s.dropCmd c).wcache = s.wcache := rfl
@[simp] theorem State.dropCmd_asidBase (s : State) (c : Nat) : (s.dropCmd c).asidBase = s.asidBase := rfl
@[simp] theorem State.dropCmd_genCopy (s : State) (c : Nat) : (s.dropCmd c).genCopy = s.genCopy := rfl
@[simp] theorem State.dropCmd_links (s : State) (c : Nat) : (s.dropCmd c).links = s.links := rfl
@[simp] theorem State.dropCmd_host (s : State) (c : Nat) : (s.dropCmd c).host = s.host := rfl
@[simp] theorem State.dropCmd_errs (s : State) (c : Nat) : (s.dropCmd c).errs = s.errs := rfl
@[simp] theorem State.dropCmd_svc (s : State) (c : Nat) : (s.dropCmd c).svc = s.svc := rfl
@[simp] theorem State.dropCmd_turns (s : State) (c : Nat) : (s.dropCmd c).turns = s.turns := rfl
@[simp] theorem State.dropCmd_tick (s : State) (c : Nat) : (s.dropCmd c).tick = s.tick := rfl
@[simp] theorem State.dropCmd_uid (s : State) (c : Nat) : (s.dropCmd c).uid = s.uid := rfl
@[simp] theorem State.dropCmd_seen (s : State) (c : Nat) : (s.dropCmd c).seen = s.seen := rfl
@[simp] theorem State.dropCmd_hold (s : State) (c : Nat) : (s.dropCmd c).hold = s.hold := rfl
@[simp] theorem State.dropCmd_early (s : State) (c : Nat) : (s.dropCmd c).early = s.early := rfl
@[simp] theorem State.dropCmd_barred (s : State) (c : Nat) : (s.dropCmd c).barred = s.barred := rfl

/-! ### State.addCmd -/

@[simp] theorem State.addCmd_rest (s : State) (k : CmdKind) (a : Word) (t : Nat) (r : Option Nat) : (s.addCmd k a t r).rest = s.rest := rfl
@[simp] theorem State.addCmd_tasks (s : State) (k : CmdKind) (a : Word) (t : Nat) (r : Option Nat) : (s.addCmd k a t r).tasks = s.tasks := rfl
@[simp] theorem State.addCmd_replays (s : State) (k : CmdKind) (a : Word) (t : Nat) (r : Option Nat) : (s.addCmd k a t r).replays = s.replays := rfl
@[simp] theorem State.addCmd_mem (s : State) (k : CmdKind) (a : Word) (t : Nat) (r : Option Nat) : (s.addCmd k a t r).mem = s.mem := rfl
@[simp] theorem State.addCmd_utag (s : State) (k : CmdKind) (a : Word) (t : Nat) (r : Option Nat) : (s.addCmd k a t r).utag = s.utag := rfl
@[simp] theorem State.addCmd_upoison (s : State) (k : CmdKind) (a : Word) (t : Nat) (r : Option Nat) : (s.addCmd k a t r).upoison = s.upoison := rfl
@[simp] theorem State.addCmd_cp (s : State) (k : CmdKind) (a : Word) (t : Nat) (r : Option Nat) : (s.addCmd k a t r).cp = s.cp := rfl
@[simp] theorem State.addCmd_homeQ (s : State) (k : CmdKind) (a : Word) (t : Nat) (r : Option Nat) : (s.addCmd k a t r).homeQ = s.homeQ := rfl
@[simp] theorem State.addCmd_msgs (s : State) (k : CmdKind) (a : Word) (t : Nat) (r : Option Nat) : (s.addCmd k a t r).msgs = s.msgs := rfl
@[simp] theorem State.addCmd_tagTab (s : State) (k : CmdKind) (a : Word) (t : Nat) (r : Option Nat) : (s.addCmd k a t r).tagTab = s.tagTab := rfl
@[simp] theorem State.addCmd_bindTab (s : State) (k : CmdKind) (a : Word) (t : Nat) (r : Option Nat) : (s.addCmd k a t r).bindTab = s.bindTab := rfl
@[simp] theorem State.addCmd_outs (s : State) (k : CmdKind) (a : Word) (t : Nat) (r : Option Nat) : (s.addCmd k a t r).outs = s.outs := rfl
@[simp] theorem State.addCmd_tlb (s : State) (k : CmdKind) (a : Word) (t : Nat) (r : Option Nat) : (s.addCmd k a t r).tlb = s.tlb := rfl
@[simp] theorem State.addCmd_wcache (s : State) (k : CmdKind) (a : Word) (t : Nat) (r : Option Nat) : (s.addCmd k a t r).wcache = s.wcache := rfl
@[simp] theorem State.addCmd_asidBase (s : State) (k : CmdKind) (a : Word) (t : Nat) (r : Option Nat) : (s.addCmd k a t r).asidBase = s.asidBase := rfl
@[simp] theorem State.addCmd_genCopy (s : State) (k : CmdKind) (a : Word) (t : Nat) (r : Option Nat) : (s.addCmd k a t r).genCopy = s.genCopy := rfl
@[simp] theorem State.addCmd_links (s : State) (k : CmdKind) (a : Word) (t : Nat) (r : Option Nat) : (s.addCmd k a t r).links = s.links := rfl
@[simp] theorem State.addCmd_host (s : State) (k : CmdKind) (a : Word) (t : Nat) (r : Option Nat) : (s.addCmd k a t r).host = s.host := rfl
@[simp] theorem State.addCmd_errs (s : State) (k : CmdKind) (a : Word) (t : Nat) (r : Option Nat) : (s.addCmd k a t r).errs = s.errs := rfl
@[simp] theorem State.addCmd_svc (s : State) (k : CmdKind) (a : Word) (t : Nat) (r : Option Nat) : (s.addCmd k a t r).svc = s.svc := rfl
@[simp] theorem State.addCmd_turns (s : State) (k : CmdKind) (a : Word) (t : Nat) (r : Option Nat) : (s.addCmd k a t r).turns = s.turns := rfl
@[simp] theorem State.addCmd_tick (s : State) (k : CmdKind) (a : Word) (t : Nat) (r : Option Nat) : (s.addCmd k a t r).tick = s.tick := rfl
@[simp] theorem State.addCmd_seen (s : State) (k : CmdKind) (a : Word) (t : Nat) (r : Option Nat) : (s.addCmd k a t r).seen = s.seen := rfl
@[simp] theorem State.addCmd_hold (s : State) (k : CmdKind) (a : Word) (t : Nat) (r : Option Nat) : (s.addCmd k a t r).hold = s.hold := rfl
@[simp] theorem State.addCmd_early (s : State) (k : CmdKind) (a : Word) (t : Nat) (r : Option Nat) : (s.addCmd k a t r).early = s.early := rfl
@[simp] theorem State.addCmd_barred (s : State) (k : CmdKind) (a : Word) (t : Nat) (r : Option Nat) : (s.addCmd k a t r).barred = s.barred := rfl

/-! ### State.upRail -/

@[simp] theorem State.upRail_g (s : State) (k : Nat) (f : RailGroup → RailGroup) : (s.upRail k f).g = s.g := rfl
@[simp] theorem State.upRail_rest (s : State) (k : Nat) (f : RailGroup → RailGroup) : (s.upRail k f).rest = s.rest := rfl
@[simp] theorem State.upRail_tasks (s : State) (k : Nat) (f : RailGroup → RailGroup) : (s.upRail k f).tasks = s.tasks := rfl
@[simp] theorem State.upRail_replays (s : State) (k : Nat) (f : RailGroup → RailGroup) : (s.upRail k f).replays = s.replays := rfl
@[simp] theorem State.upRail_mem (s : State) (k : Nat) (f : RailGroup → RailGroup) : (s.upRail k f).mem = s.mem := rfl
@[simp] theorem State.upRail_utag (s : State) (k : Nat) (f : RailGroup → RailGroup) : (s.upRail k f).utag = s.utag := rfl
@[simp] theorem State.upRail_upoison (s : State) (k : Nat) (f : RailGroup → RailGroup) : (s.upRail k f).upoison = s.upoison := rfl
@[simp] theorem State.upRail_cp (s : State) (k : Nat) (f : RailGroup → RailGroup) : (s.upRail k f).cp = s.cp := rfl
@[simp] theorem State.upRail_homeQ (s : State) (k : Nat) (f : RailGroup → RailGroup) : (s.upRail k f).homeQ = s.homeQ := rfl
@[simp] theorem State.upRail_msgs (s : State) (k : Nat) (f : RailGroup → RailGroup) : (s.upRail k f).msgs = s.msgs := rfl
@[simp] theorem State.upRail_tagTab (s : State) (k : Nat) (f : RailGroup → RailGroup) : (s.upRail k f).tagTab = s.tagTab := rfl
@[simp] theorem State.upRail_bindTab (s : State) (k : Nat) (f : RailGroup → RailGroup) : (s.upRail k f).bindTab = s.bindTab := rfl
@[simp] theorem State.upRail_cmds (s : State) (k : Nat) (f : RailGroup → RailGroup) : (s.upRail k f).cmds = s.cmds := rfl
@[simp] theorem State.upRail_outs (s : State) (k : Nat) (f : RailGroup → RailGroup) : (s.upRail k f).outs = s.outs := rfl
@[simp] theorem State.upRail_tlb (s : State) (k : Nat) (f : RailGroup → RailGroup) : (s.upRail k f).tlb = s.tlb := rfl
@[simp] theorem State.upRail_wcache (s : State) (k : Nat) (f : RailGroup → RailGroup) : (s.upRail k f).wcache = s.wcache := rfl
@[simp] theorem State.upRail_asidBase (s : State) (k : Nat) (f : RailGroup → RailGroup) : (s.upRail k f).asidBase = s.asidBase := rfl
@[simp] theorem State.upRail_genCopy (s : State) (k : Nat) (f : RailGroup → RailGroup) : (s.upRail k f).genCopy = s.genCopy := rfl
@[simp] theorem State.upRail_host (s : State) (k : Nat) (f : RailGroup → RailGroup) : (s.upRail k f).host = s.host := rfl
@[simp] theorem State.upRail_errs (s : State) (k : Nat) (f : RailGroup → RailGroup) : (s.upRail k f).errs = s.errs := rfl
@[simp] theorem State.upRail_svc (s : State) (k : Nat) (f : RailGroup → RailGroup) : (s.upRail k f).svc = s.svc := rfl
@[simp] theorem State.upRail_turns (s : State) (k : Nat) (f : RailGroup → RailGroup) : (s.upRail k f).turns = s.turns := rfl
@[simp] theorem State.upRail_tick (s : State) (k : Nat) (f : RailGroup → RailGroup) : (s.upRail k f).tick = s.tick := rfl
@[simp] theorem State.upRail_uid (s : State) (k : Nat) (f : RailGroup → RailGroup) : (s.upRail k f).uid = s.uid := rfl
@[simp] theorem State.upRail_seen (s : State) (k : Nat) (f : RailGroup → RailGroup) : (s.upRail k f).seen = s.seen := rfl
@[simp] theorem State.upRail_hold (s : State) (k : Nat) (f : RailGroup → RailGroup) : (s.upRail k f).hold = s.hold := rfl
@[simp] theorem State.upRail_early (s : State) (k : Nat) (f : RailGroup → RailGroup) : (s.upRail k f).early = s.early := rfl
@[simp] theorem State.upRail_barred (s : State) (k : Nat) (f : RailGroup → RailGroup) : (s.upRail k f).barred = s.barred := rfl

/-! ### State.setInj -/

@[simp] theorem State.setInj_g (s : State) (i : Nat) (v : Word) : (s.setInj i v).g = s.g := rfl
@[simp] theorem State.setInj_rest (s : State) (i : Nat) (v : Word) : (s.setInj i v).rest = s.rest := rfl
@[simp] theorem State.setInj_tasks (s : State) (i : Nat) (v : Word) : (s.setInj i v).tasks = s.tasks := rfl
@[simp] theorem State.setInj_replays (s : State) (i : Nat) (v : Word) : (s.setInj i v).replays = s.replays := rfl
@[simp] theorem State.setInj_mem (s : State) (i : Nat) (v : Word) : (s.setInj i v).mem = s.mem := rfl
@[simp] theorem State.setInj_utag (s : State) (i : Nat) (v : Word) : (s.setInj i v).utag = s.utag := rfl
@[simp] theorem State.setInj_upoison (s : State) (i : Nat) (v : Word) : (s.setInj i v).upoison = s.upoison := rfl
@[simp] theorem State.setInj_cp (s : State) (i : Nat) (v : Word) : (s.setInj i v).cp = s.cp := rfl
@[simp] theorem State.setInj_homeQ (s : State) (i : Nat) (v : Word) : (s.setInj i v).homeQ = s.homeQ := rfl
@[simp] theorem State.setInj_msgs (s : State) (i : Nat) (v : Word) : (s.setInj i v).msgs = s.msgs := rfl
@[simp] theorem State.setInj_tagTab (s : State) (i : Nat) (v : Word) : (s.setInj i v).tagTab = s.tagTab := rfl
@[simp] theorem State.setInj_bindTab (s : State) (i : Nat) (v : Word) : (s.setInj i v).bindTab = s.bindTab := rfl
@[simp] theorem State.setInj_cmds (s : State) (i : Nat) (v : Word) : (s.setInj i v).cmds = s.cmds := rfl
@[simp] theorem State.setInj_outs (s : State) (i : Nat) (v : Word) : (s.setInj i v).outs = s.outs := rfl
@[simp] theorem State.setInj_tlb (s : State) (i : Nat) (v : Word) : (s.setInj i v).tlb = s.tlb := rfl
@[simp] theorem State.setInj_wcache (s : State) (i : Nat) (v : Word) : (s.setInj i v).wcache = s.wcache := rfl
@[simp] theorem State.setInj_asidBase (s : State) (i : Nat) (v : Word) : (s.setInj i v).asidBase = s.asidBase := rfl
@[simp] theorem State.setInj_genCopy (s : State) (i : Nat) (v : Word) : (s.setInj i v).genCopy = s.genCopy := rfl
@[simp] theorem State.setInj_links (s : State) (i : Nat) (v : Word) : (s.setInj i v).links = s.links := rfl
@[simp] theorem State.setInj_host (s : State) (i : Nat) (v : Word) : (s.setInj i v).host = s.host := rfl
@[simp] theorem State.setInj_svc (s : State) (i : Nat) (v : Word) : (s.setInj i v).svc = s.svc := rfl
@[simp] theorem State.setInj_turns (s : State) (i : Nat) (v : Word) : (s.setInj i v).turns = s.turns := rfl
@[simp] theorem State.setInj_tick (s : State) (i : Nat) (v : Word) : (s.setInj i v).tick = s.tick := rfl
@[simp] theorem State.setInj_uid (s : State) (i : Nat) (v : Word) : (s.setInj i v).uid = s.uid := rfl
@[simp] theorem State.setInj_seen (s : State) (i : Nat) (v : Word) : (s.setInj i v).seen = s.seen := rfl
@[simp] theorem State.setInj_hold (s : State) (i : Nat) (v : Word) : (s.setInj i v).hold = s.hold := rfl
@[simp] theorem State.setInj_early (s : State) (i : Nat) (v : Word) : (s.setInj i v).early = s.early := rfl
@[simp] theorem State.setInj_barred (s : State) (i : Nat) (v : Word) : (s.setInj i v).barred = s.barred := rfl

/-! ### The focus group after an update -/

@[simp] theorem State.setG_g (s : State) (h : Group) : (s.setG h).g = h := rfl
@[simp] theorem State.upG_g (s : State) (f : Group → Group) : (s.upG f).g = f s.g := rfl
@[simp] theorem State.advance_g (s : State) : s.advance.g = s.g.setPc (s.g.pc + 4) := rfl
@[simp] theorem State.putS_g (s : State) (n : Nat) (v : Word) (t : Bool) :
    (s.putS n v t).g = (s.g.setS n v t).setPc ((s.g.setS n v t).pc + 4) := rfl

/-! ### Group.setPc -/

@[simp] theorem Group.setPc_key (g : Group) (p : Word) : (g.setPc p).key = g.key := rfl
@[simp] theorem Group.setPc_place (g : Group) (p : Word) : (g.setPc p).place = g.place := rfl
@[simp] theorem Group.setPc_r (g : Group) (p : Word) : (g.setPc p).r = g.r := rfl
@[simp] theorem Group.setPc_cap (g : Group) (p : Word) : (g.setPc p).cap = g.cap := rfl
@[simp] theorem Group.setPc_sp (g : Group) (p : Word) : (g.setPc p).sp = g.sp := rfl
@[simp] theorem Group.setPc_ln (g : Group) (p : Word) : (g.setPc p).ln = g.ln := rfl
@[simp] theorem Group.setPc_qs (g : Group) (p : Word) : (g.setPc p).qs = g.qs := rfl
@[simp] theorem Group.setPc_held1 (g : Group) (p : Word) : (g.setPc p).held1 = g.held1 := rfl
@[simp] theorem Group.setPc_held2 (g : Group) (p : Word) : (g.setPc p).held2 = g.held2 := rfl
@[simp] theorem Group.setPc_barLast (g : Group) (p : Word) : (g.setPc p).barLast = g.barLast := rfl
@[simp] theorem Group.setPc_endStep (g : Group) (p : Word) : (g.setPc p).endStep = g.endStep := rfl
@[simp] theorem Group.setPc_seq (g : Group) (p : Word) : (g.setPc p).seq = g.seq := rfl
@[simp] theorem Group.setPc_passed (g : Group) (p : Word) : (g.setPc p).passed = g.passed := rfl
@[simp] theorem Group.setPc_replay (g : Group) (p : Word) : (g.setPc p).replay = g.replay := rfl
@[simp] theorem Group.setPc_holds (g : Group) (p : Word) : (g.setPc p).holds = g.holds := rfl
@[simp] theorem Group.setPc_met (g : Group) (p : Word) : (g.setPc p).met = g.met := rfl

/-! ### Group.addIq -/

@[simp] theorem Group.addIq_key (g : Group) (e : List Entry) : (g.addIq e).key = g.key := rfl
@[simp] theorem Group.addIq_place (g : Group) (e : List Entry) : (g.addIq e).place = g.place := rfl
@[simp] theorem Group.addIq_r (g : Group) (e : List Entry) : (g.addIq e).r = g.r := rfl
@[simp] theorem Group.addIq_cap (g : Group) (e : List Entry) : (g.addIq e).cap = g.cap := rfl
@[simp] theorem Group.addIq_sp (g : Group) (e : List Entry) : (g.addIq e).sp = g.sp := rfl
@[simp] theorem Group.addIq_pc (g : Group) (e : List Entry) : (g.addIq e).pc = g.pc := rfl
@[simp] theorem Group.addIq_ln (g : Group) (e : List Entry) : (g.addIq e).ln = g.ln := rfl
@[simp] theorem Group.addIq_held1 (g : Group) (e : List Entry) : (g.addIq e).held1 = g.held1 := rfl
@[simp] theorem Group.addIq_held2 (g : Group) (e : List Entry) : (g.addIq e).held2 = g.held2 := rfl
@[simp] theorem Group.addIq_barLast (g : Group) (e : List Entry) : (g.addIq e).barLast = g.barLast := rfl
@[simp] theorem Group.addIq_endStep (g : Group) (e : List Entry) : (g.addIq e).endStep = g.endStep := rfl
@[simp] theorem Group.addIq_seq (g : Group) (e : List Entry) : (g.addIq e).seq = g.seq := rfl
@[simp] theorem Group.addIq_passed (g : Group) (e : List Entry) : (g.addIq e).passed = g.passed := rfl
@[simp] theorem Group.addIq_replay (g : Group) (e : List Entry) : (g.addIq e).replay = g.replay := rfl
@[simp] theorem Group.addIq_holds (g : Group) (e : List Entry) : (g.addIq e).holds = g.holds := rfl
@[simp] theorem Group.addIq_met (g : Group) (e : List Entry) : (g.addIq e).met = g.met := rfl

/-! ### Group.dropIq -/

@[simp] theorem Group.dropIq_key (g : Group) (k : Nat) : (g.dropIq k).key = g.key := rfl
@[simp] theorem Group.dropIq_place (g : Group) (k : Nat) : (g.dropIq k).place = g.place := rfl
@[simp] theorem Group.dropIq_r (g : Group) (k : Nat) : (g.dropIq k).r = g.r := rfl
@[simp] theorem Group.dropIq_cap (g : Group) (k : Nat) : (g.dropIq k).cap = g.cap := rfl
@[simp] theorem Group.dropIq_sp (g : Group) (k : Nat) : (g.dropIq k).sp = g.sp := rfl
@[simp] theorem Group.dropIq_pc (g : Group) (k : Nat) : (g.dropIq k).pc = g.pc := rfl
@[simp] theorem Group.dropIq_ln (g : Group) (k : Nat) : (g.dropIq k).ln = g.ln := rfl
@[simp] theorem Group.dropIq_held1 (g : Group) (k : Nat) : (g.dropIq k).held1 = g.held1 := rfl
@[simp] theorem Group.dropIq_held2 (g : Group) (k : Nat) : (g.dropIq k).held2 = g.held2 := rfl
@[simp] theorem Group.dropIq_barLast (g : Group) (k : Nat) : (g.dropIq k).barLast = g.barLast := rfl
@[simp] theorem Group.dropIq_endStep (g : Group) (k : Nat) : (g.dropIq k).endStep = g.endStep := rfl
@[simp] theorem Group.dropIq_seq (g : Group) (k : Nat) : (g.dropIq k).seq = g.seq := rfl
@[simp] theorem Group.dropIq_passed (g : Group) (k : Nat) : (g.dropIq k).passed = g.passed := rfl
@[simp] theorem Group.dropIq_replay (g : Group) (k : Nat) : (g.dropIq k).replay = g.replay := rfl
@[simp] theorem Group.dropIq_holds (g : Group) (k : Nat) : (g.dropIq k).holds = g.holds := rfl
@[simp] theorem Group.dropIq_met (g : Group) (k : Nat) : (g.dropIq k).met = g.met := rfl

/-! ### Group.noPendS -/

@[simp] theorem Group.noPendS_key (g : Group) : g.noPendS.key = g.key := rfl
@[simp] theorem Group.noPendS_place (g : Group) : g.noPendS.place = g.place := rfl
@[simp] theorem Group.noPendS_r (g : Group) : g.noPendS.r = g.r := rfl
@[simp] theorem Group.noPendS_cap (g : Group) : g.noPendS.cap = g.cap := rfl
@[simp] theorem Group.noPendS_sp (g : Group) : g.noPendS.sp = g.sp := rfl
@[simp] theorem Group.noPendS_pc (g : Group) : g.noPendS.pc = g.pc := rfl
@[simp] theorem Group.noPendS_ln (g : Group) : g.noPendS.ln = g.ln := rfl
@[simp] theorem Group.noPendS_held1 (g : Group) : g.noPendS.held1 = g.held1 := rfl
@[simp] theorem Group.noPendS_held2 (g : Group) : g.noPendS.held2 = g.held2 := rfl
@[simp] theorem Group.noPendS_barLast (g : Group) : g.noPendS.barLast = g.barLast := rfl
@[simp] theorem Group.noPendS_endStep (g : Group) : g.noPendS.endStep = g.endStep := rfl
@[simp] theorem Group.noPendS_seq (g : Group) : g.noPendS.seq = g.seq := rfl
@[simp] theorem Group.noPendS_passed (g : Group) : g.noPendS.passed = g.passed := rfl
@[simp] theorem Group.noPendS_replay (g : Group) : g.noPendS.replay = g.replay := rfl
@[simp] theorem Group.noPendS_holds (g : Group) : g.noPendS.holds = g.holds := rfl
@[simp] theorem Group.noPendS_met (g : Group) : g.noPendS.met = g.met := rfl

/-! ### Group.setS -/

@[simp] theorem Group.setS_key (g : Group) (n : Nat) (v : Word) (t : Bool) : (g.setS n v t).key = g.key := by
  unfold Group.setS; split <;> rfl
@[simp] theorem Group.setS_place (g : Group) (n : Nat) (v : Word) (t : Bool) : (g.setS n v t).place = g.place := by
  unfold Group.setS; split <;> rfl
@[simp] theorem Group.setS_cap (g : Group) (n : Nat) (v : Word) (t : Bool) : (g.setS n v t).cap = g.cap := by
  unfold Group.setS; split <;> rfl
@[simp] theorem Group.setS_sp (g : Group) (n : Nat) (v : Word) (t : Bool) : (g.setS n v t).sp = g.sp := by
  unfold Group.setS; split <;> rfl
@[simp] theorem Group.setS_pc (g : Group) (n : Nat) (v : Word) (t : Bool) : (g.setS n v t).pc = g.pc := by
  unfold Group.setS; split <;> rfl
@[simp] theorem Group.setS_ln (g : Group) (n : Nat) (v : Word) (t : Bool) : (g.setS n v t).ln = g.ln := by
  unfold Group.setS; split <;> rfl
@[simp] theorem Group.setS_qs (g : Group) (n : Nat) (v : Word) (t : Bool) : (g.setS n v t).qs = g.qs := by
  unfold Group.setS; split <;> rfl
@[simp] theorem Group.setS_held1 (g : Group) (n : Nat) (v : Word) (t : Bool) : (g.setS n v t).held1 = g.held1 := by
  unfold Group.setS; split <;> rfl
@[simp] theorem Group.setS_held2 (g : Group) (n : Nat) (v : Word) (t : Bool) : (g.setS n v t).held2 = g.held2 := by
  unfold Group.setS; split <;> rfl
@[simp] theorem Group.setS_barLast (g : Group) (n : Nat) (v : Word) (t : Bool) : (g.setS n v t).barLast = g.barLast := by
  unfold Group.setS; split <;> rfl
@[simp] theorem Group.setS_endStep (g : Group) (n : Nat) (v : Word) (t : Bool) : (g.setS n v t).endStep = g.endStep := by
  unfold Group.setS; split <;> rfl
@[simp] theorem Group.setS_seq (g : Group) (n : Nat) (v : Word) (t : Bool) : (g.setS n v t).seq = g.seq := by
  unfold Group.setS; split <;> rfl
@[simp] theorem Group.setS_passed (g : Group) (n : Nat) (v : Word) (t : Bool) : (g.setS n v t).passed = g.passed := by
  unfold Group.setS; split <;> rfl
@[simp] theorem Group.setS_replay (g : Group) (n : Nat) (v : Word) (t : Bool) : (g.setS n v t).replay = g.replay := by
  unfold Group.setS; split <;> rfl
@[simp] theorem Group.setS_holds (g : Group) (n : Nat) (v : Word) (t : Bool) : (g.setS n v t).holds = g.holds := by
  unfold Group.setS; split <;> rfl
@[simp] theorem Group.setS_met (g : Group) (n : Nat) (v : Word) (t : Bool) : (g.setS n v t).met = g.met := by
  unfold Group.setS; split <;> rfl

/-! ### Group.setFut -/

@[simp] theorem Group.setFut_key (g : Group) (n : Nat) (f : RegFut) : (g.setFut n f).key = g.key := by
  unfold Group.setFut; split <;> rfl
@[simp] theorem Group.setFut_place (g : Group) (n : Nat) (f : RegFut) : (g.setFut n f).place = g.place := by
  unfold Group.setFut; split <;> rfl
@[simp] theorem Group.setFut_cap (g : Group) (n : Nat) (f : RegFut) : (g.setFut n f).cap = g.cap := by
  unfold Group.setFut; split <;> rfl
@[simp] theorem Group.setFut_sp (g : Group) (n : Nat) (f : RegFut) : (g.setFut n f).sp = g.sp := by
  unfold Group.setFut; split <;> rfl
@[simp] theorem Group.setFut_pc (g : Group) (n : Nat) (f : RegFut) : (g.setFut n f).pc = g.pc := by
  unfold Group.setFut; split <;> rfl
@[simp] theorem Group.setFut_ln (g : Group) (n : Nat) (f : RegFut) : (g.setFut n f).ln = g.ln := by
  unfold Group.setFut; split <;> rfl
@[simp] theorem Group.setFut_qs (g : Group) (n : Nat) (f : RegFut) : (g.setFut n f).qs = g.qs := by
  unfold Group.setFut; split <;> rfl
@[simp] theorem Group.setFut_held1 (g : Group) (n : Nat) (f : RegFut) : (g.setFut n f).held1 = g.held1 := by
  unfold Group.setFut; split <;> rfl
@[simp] theorem Group.setFut_held2 (g : Group) (n : Nat) (f : RegFut) : (g.setFut n f).held2 = g.held2 := by
  unfold Group.setFut; split <;> rfl
@[simp] theorem Group.setFut_barLast (g : Group) (n : Nat) (f : RegFut) : (g.setFut n f).barLast = g.barLast := by
  unfold Group.setFut; split <;> rfl
@[simp] theorem Group.setFut_endStep (g : Group) (n : Nat) (f : RegFut) : (g.setFut n f).endStep = g.endStep := by
  unfold Group.setFut; split <;> rfl
@[simp] theorem Group.setFut_seq (g : Group) (n : Nat) (f : RegFut) : (g.setFut n f).seq = g.seq := by
  unfold Group.setFut; split <;> rfl
@[simp] theorem Group.setFut_passed (g : Group) (n : Nat) (f : RegFut) : (g.setFut n f).passed = g.passed := by
  unfold Group.setFut; split <;> rfl
@[simp] theorem Group.setFut_replay (g : Group) (n : Nat) (f : RegFut) : (g.setFut n f).replay = g.replay := by
  unfold Group.setFut; split <;> rfl
@[simp] theorem Group.setFut_holds (g : Group) (n : Nat) (f : RegFut) : (g.setFut n f).holds = g.holds := by
  unfold Group.setFut; split <;> rfl
@[simp] theorem Group.setFut_met (g : Group) (n : Nat) (f : RegFut) : (g.setFut n f).met = g.met := by
  unfold Group.setFut; split <;> rfl

/-! ### Group.setV -/

@[simp] theorem Group.setV_key (g : Group) (r l : Nat) (v : Elem) (t : Bool) : (g.setV r l v t).key = g.key := rfl
@[simp] theorem Group.setV_place (g : Group) (r l : Nat) (v : Elem) (t : Bool) : (g.setV r l v t).place = g.place := rfl
@[simp] theorem Group.setV_cap (g : Group) (r l : Nat) (v : Elem) (t : Bool) : (g.setV r l v t).cap = g.cap := rfl
@[simp] theorem Group.setV_sp (g : Group) (r l : Nat) (v : Elem) (t : Bool) : (g.setV r l v t).sp = g.sp := rfl
@[simp] theorem Group.setV_pc (g : Group) (r l : Nat) (v : Elem) (t : Bool) : (g.setV r l v t).pc = g.pc := rfl
@[simp] theorem Group.setV_ln (g : Group) (r l : Nat) (v : Elem) (t : Bool) : (g.setV r l v t).ln = g.ln := rfl
@[simp] theorem Group.setV_qs (g : Group) (r l : Nat) (v : Elem) (t : Bool) : (g.setV r l v t).qs = g.qs := rfl
@[simp] theorem Group.setV_held1 (g : Group) (r l : Nat) (v : Elem) (t : Bool) : (g.setV r l v t).held1 = g.held1 := rfl
@[simp] theorem Group.setV_held2 (g : Group) (r l : Nat) (v : Elem) (t : Bool) : (g.setV r l v t).held2 = g.held2 := rfl
@[simp] theorem Group.setV_barLast (g : Group) (r l : Nat) (v : Elem) (t : Bool) : (g.setV r l v t).barLast = g.barLast := rfl
@[simp] theorem Group.setV_endStep (g : Group) (r l : Nat) (v : Elem) (t : Bool) : (g.setV r l v t).endStep = g.endStep := rfl
@[simp] theorem Group.setV_seq (g : Group) (r l : Nat) (v : Elem) (t : Bool) : (g.setV r l v t).seq = g.seq := rfl
@[simp] theorem Group.setV_passed (g : Group) (r l : Nat) (v : Elem) (t : Bool) : (g.setV r l v t).passed = g.passed := rfl
@[simp] theorem Group.setV_replay (g : Group) (r l : Nat) (v : Elem) (t : Bool) : (g.setV r l v t).replay = g.replay := rfl
@[simp] theorem Group.setV_holds (g : Group) (r l : Nat) (v : Elem) (t : Bool) : (g.setV r l v t).holds = g.holds := rfl
@[simp] theorem Group.setV_met (g : Group) (r l : Nat) (v : Elem) (t : Bool) : (g.setV r l v t).met = g.met := rfl

/-! ### Group.setK -/

@[simp] theorem Group.setK_key (g : Group) (k : Nat) (v : BitVec 32) (t : Bool) : (g.setK k v t).key = g.key := by
  unfold Group.setK; split <;> rfl
@[simp] theorem Group.setK_place (g : Group) (k : Nat) (v : BitVec 32) (t : Bool) : (g.setK k v t).place = g.place := by
  unfold Group.setK; split <;> rfl
@[simp] theorem Group.setK_cap (g : Group) (k : Nat) (v : BitVec 32) (t : Bool) : (g.setK k v t).cap = g.cap := by
  unfold Group.setK; split <;> rfl
@[simp] theorem Group.setK_sp (g : Group) (k : Nat) (v : BitVec 32) (t : Bool) : (g.setK k v t).sp = g.sp := by
  unfold Group.setK; split <;> rfl
@[simp] theorem Group.setK_pc (g : Group) (k : Nat) (v : BitVec 32) (t : Bool) : (g.setK k v t).pc = g.pc := by
  unfold Group.setK; split <;> rfl
@[simp] theorem Group.setK_ln (g : Group) (k : Nat) (v : BitVec 32) (t : Bool) : (g.setK k v t).ln = g.ln := by
  unfold Group.setK; split <;> rfl
@[simp] theorem Group.setK_qs (g : Group) (k : Nat) (v : BitVec 32) (t : Bool) : (g.setK k v t).qs = g.qs := by
  unfold Group.setK; split <;> rfl
@[simp] theorem Group.setK_held1 (g : Group) (k : Nat) (v : BitVec 32) (t : Bool) : (g.setK k v t).held1 = g.held1 := by
  unfold Group.setK; split <;> rfl
@[simp] theorem Group.setK_held2 (g : Group) (k : Nat) (v : BitVec 32) (t : Bool) : (g.setK k v t).held2 = g.held2 := by
  unfold Group.setK; split <;> rfl
@[simp] theorem Group.setK_barLast (g : Group) (k : Nat) (v : BitVec 32) (t : Bool) : (g.setK k v t).barLast = g.barLast := by
  unfold Group.setK; split <;> rfl
@[simp] theorem Group.setK_endStep (g : Group) (k : Nat) (v : BitVec 32) (t : Bool) : (g.setK k v t).endStep = g.endStep := by
  unfold Group.setK; split <;> rfl
@[simp] theorem Group.setK_seq (g : Group) (k : Nat) (v : BitVec 32) (t : Bool) : (g.setK k v t).seq = g.seq := by
  unfold Group.setK; split <;> rfl
@[simp] theorem Group.setK_passed (g : Group) (k : Nat) (v : BitVec 32) (t : Bool) : (g.setK k v t).passed = g.passed := by
  unfold Group.setK; split <;> rfl
@[simp] theorem Group.setK_replay (g : Group) (k : Nat) (v : BitVec 32) (t : Bool) : (g.setK k v t).replay = g.replay := by
  unfold Group.setK; split <;> rfl
@[simp] theorem Group.setK_holds (g : Group) (k : Nat) (v : BitVec 32) (t : Bool) : (g.setK k v t).holds = g.holds := by
  unfold Group.setK; split <;> rfl
@[simp] theorem Group.setK_met (g : Group) (k : Nat) (v : BitVec 32) (t : Bool) : (g.setK k v t).met = g.met := by
  unfold Group.setK; split <;> rfl

/-! ### Group.setTile -/

@[simp] theorem Group.setTile_key (g : Group) (t : Nat) (l : List (BitVec 48)) (b : Bool) : (g.setTile t l b).key = g.key := rfl
@[simp] theorem Group.setTile_place (g : Group) (t : Nat) (l : List (BitVec 48)) (b : Bool) : (g.setTile t l b).place = g.place := rfl
@[simp] theorem Group.setTile_cap (g : Group) (t : Nat) (l : List (BitVec 48)) (b : Bool) : (g.setTile t l b).cap = g.cap := rfl
@[simp] theorem Group.setTile_sp (g : Group) (t : Nat) (l : List (BitVec 48)) (b : Bool) : (g.setTile t l b).sp = g.sp := rfl
@[simp] theorem Group.setTile_pc (g : Group) (t : Nat) (l : List (BitVec 48)) (b : Bool) : (g.setTile t l b).pc = g.pc := rfl
@[simp] theorem Group.setTile_ln (g : Group) (t : Nat) (l : List (BitVec 48)) (b : Bool) : (g.setTile t l b).ln = g.ln := rfl
@[simp] theorem Group.setTile_qs (g : Group) (t : Nat) (l : List (BitVec 48)) (b : Bool) : (g.setTile t l b).qs = g.qs := rfl
@[simp] theorem Group.setTile_held1 (g : Group) (t : Nat) (l : List (BitVec 48)) (b : Bool) : (g.setTile t l b).held1 = g.held1 := rfl
@[simp] theorem Group.setTile_held2 (g : Group) (t : Nat) (l : List (BitVec 48)) (b : Bool) : (g.setTile t l b).held2 = g.held2 := rfl
@[simp] theorem Group.setTile_barLast (g : Group) (t : Nat) (l : List (BitVec 48)) (b : Bool) : (g.setTile t l b).barLast = g.barLast := rfl
@[simp] theorem Group.setTile_endStep (g : Group) (t : Nat) (l : List (BitVec 48)) (b : Bool) : (g.setTile t l b).endStep = g.endStep := rfl
@[simp] theorem Group.setTile_seq (g : Group) (t : Nat) (l : List (BitVec 48)) (b : Bool) : (g.setTile t l b).seq = g.seq := rfl
@[simp] theorem Group.setTile_passed (g : Group) (t : Nat) (l : List (BitVec 48)) (b : Bool) : (g.setTile t l b).passed = g.passed := rfl
@[simp] theorem Group.setTile_replay (g : Group) (t : Nat) (l : List (BitVec 48)) (b : Bool) : (g.setTile t l b).replay = g.replay := rfl
@[simp] theorem Group.setTile_holds (g : Group) (t : Nat) (l : List (BitVec 48)) (b : Bool) : (g.setTile t l b).holds = g.holds := rfl
@[simp] theorem Group.setTile_met (g : Group) (t : Nat) (l : List (BitVec 48)) (b : Bool) : (g.setTile t l b).met = g.met := rfl

/-! ### Group.setD -/

@[simp] theorem Group.setD_key (g : Group) (n l : Nat) (d : DElem) : (g.setD n l d).key = g.key := rfl
@[simp] theorem Group.setD_place (g : Group) (n l : Nat) (d : DElem) : (g.setD n l d).place = g.place := rfl
@[simp] theorem Group.setD_cap (g : Group) (n l : Nat) (d : DElem) : (g.setD n l d).cap = g.cap := rfl
@[simp] theorem Group.setD_sp (g : Group) (n l : Nat) (d : DElem) : (g.setD n l d).sp = g.sp := rfl
@[simp] theorem Group.setD_pc (g : Group) (n l : Nat) (d : DElem) : (g.setD n l d).pc = g.pc := rfl
@[simp] theorem Group.setD_ln (g : Group) (n l : Nat) (d : DElem) : (g.setD n l d).ln = g.ln := rfl
@[simp] theorem Group.setD_qs (g : Group) (n l : Nat) (d : DElem) : (g.setD n l d).qs = g.qs := rfl
@[simp] theorem Group.setD_held1 (g : Group) (n l : Nat) (d : DElem) : (g.setD n l d).held1 = g.held1 := rfl
@[simp] theorem Group.setD_held2 (g : Group) (n l : Nat) (d : DElem) : (g.setD n l d).held2 = g.held2 := rfl
@[simp] theorem Group.setD_barLast (g : Group) (n l : Nat) (d : DElem) : (g.setD n l d).barLast = g.barLast := rfl
@[simp] theorem Group.setD_endStep (g : Group) (n l : Nat) (d : DElem) : (g.setD n l d).endStep = g.endStep := rfl
@[simp] theorem Group.setD_seq (g : Group) (n l : Nat) (d : DElem) : (g.setD n l d).seq = g.seq := rfl
@[simp] theorem Group.setD_passed (g : Group) (n l : Nat) (d : DElem) : (g.setD n l d).passed = g.passed := rfl
@[simp] theorem Group.setD_replay (g : Group) (n l : Nat) (d : DElem) : (g.setD n l d).replay = g.replay := rfl
@[simp] theorem Group.setD_holds (g : Group) (n l : Nat) (d : DElem) : (g.setD n l d).holds = g.holds := rfl
@[simp] theorem Group.setD_met (g : Group) (n l : Nat) (d : DElem) : (g.setD n l d).met = g.met := rfl

/-! ### Group.setTok -/

@[simp] theorem Group.setTok_key (g : Group) (t : Nat) (k : Token) : (g.setTok t k).key = g.key := rfl
@[simp] theorem Group.setTok_place (g : Group) (t : Nat) (k : Token) : (g.setTok t k).place = g.place := rfl
@[simp] theorem Group.setTok_cap (g : Group) (t : Nat) (k : Token) : (g.setTok t k).cap = g.cap := rfl
@[simp] theorem Group.setTok_sp (g : Group) (t : Nat) (k : Token) : (g.setTok t k).sp = g.sp := rfl
@[simp] theorem Group.setTok_pc (g : Group) (t : Nat) (k : Token) : (g.setTok t k).pc = g.pc := rfl
@[simp] theorem Group.setTok_ln (g : Group) (t : Nat) (k : Token) : (g.setTok t k).ln = g.ln := rfl
@[simp] theorem Group.setTok_qs (g : Group) (t : Nat) (k : Token) : (g.setTok t k).qs = g.qs := rfl
@[simp] theorem Group.setTok_held1 (g : Group) (t : Nat) (k : Token) : (g.setTok t k).held1 = g.held1 := rfl
@[simp] theorem Group.setTok_held2 (g : Group) (t : Nat) (k : Token) : (g.setTok t k).held2 = g.held2 := rfl
@[simp] theorem Group.setTok_barLast (g : Group) (t : Nat) (k : Token) : (g.setTok t k).barLast = g.barLast := rfl
@[simp] theorem Group.setTok_endStep (g : Group) (t : Nat) (k : Token) : (g.setTok t k).endStep = g.endStep := rfl
@[simp] theorem Group.setTok_seq (g : Group) (t : Nat) (k : Token) : (g.setTok t k).seq = g.seq := rfl
@[simp] theorem Group.setTok_passed (g : Group) (t : Nat) (k : Token) : (g.setTok t k).passed = g.passed := rfl
@[simp] theorem Group.setTok_replay (g : Group) (t : Nat) (k : Token) : (g.setTok t k).replay = g.replay := rfl
@[simp] theorem Group.setTok_holds (g : Group) (t : Nat) (k : Token) : (g.setTok t k).holds = g.holds := rfl
@[simp] theorem Group.setTok_met (g : Group) (t : Nat) (k : Token) : (g.setTok t k).met = g.met := rfl

/-! ### Group.bumpSrc -/

@[simp] theorem Group.bumpSrc_key (g : Group) (l : Nat) : (g.bumpSrc l).key = g.key := rfl
@[simp] theorem Group.bumpSrc_place (g : Group) (l : Nat) : (g.bumpSrc l).place = g.place := rfl
@[simp] theorem Group.bumpSrc_cap (g : Group) (l : Nat) : (g.bumpSrc l).cap = g.cap := rfl
@[simp] theorem Group.bumpSrc_sp (g : Group) (l : Nat) : (g.bumpSrc l).sp = g.sp := rfl
@[simp] theorem Group.bumpSrc_pc (g : Group) (l : Nat) : (g.bumpSrc l).pc = g.pc := rfl
@[simp] theorem Group.bumpSrc_ln (g : Group) (l : Nat) : (g.bumpSrc l).ln = g.ln := rfl
@[simp] theorem Group.bumpSrc_qs (g : Group) (l : Nat) : (g.bumpSrc l).qs = g.qs := rfl
@[simp] theorem Group.bumpSrc_held1 (g : Group) (l : Nat) : (g.bumpSrc l).held1 = g.held1 := rfl
@[simp] theorem Group.bumpSrc_held2 (g : Group) (l : Nat) : (g.bumpSrc l).held2 = g.held2 := rfl
@[simp] theorem Group.bumpSrc_barLast (g : Group) (l : Nat) : (g.bumpSrc l).barLast = g.barLast := rfl
@[simp] theorem Group.bumpSrc_endStep (g : Group) (l : Nat) : (g.bumpSrc l).endStep = g.endStep := rfl
@[simp] theorem Group.bumpSrc_seq (g : Group) (l : Nat) : (g.bumpSrc l).seq = g.seq := rfl
@[simp] theorem Group.bumpSrc_passed (g : Group) (l : Nat) : (g.bumpSrc l).passed = g.passed := rfl
@[simp] theorem Group.bumpSrc_replay (g : Group) (l : Nat) : (g.bumpSrc l).replay = g.replay := rfl
@[simp] theorem Group.bumpSrc_holds (g : Group) (l : Nat) : (g.bumpSrc l).holds = g.holds := rfl
@[simp] theorem Group.bumpSrc_met (g : Group) (l : Nat) : (g.bumpSrc l).met = g.met := rfl

/-! ### Group.markV -/

@[simp] theorem Group.markV_key (g : Group) (r n l : Nat) : (g.markV r n l).key = g.key := rfl
@[simp] theorem Group.markV_place (g : Group) (r n l : Nat) : (g.markV r n l).place = g.place := rfl
@[simp] theorem Group.markV_cap (g : Group) (r n l : Nat) : (g.markV r n l).cap = g.cap := rfl
@[simp] theorem Group.markV_sp (g : Group) (r n l : Nat) : (g.markV r n l).sp = g.sp := rfl
@[simp] theorem Group.markV_pc (g : Group) (r n l : Nat) : (g.markV r n l).pc = g.pc := rfl
@[simp] theorem Group.markV_ln (g : Group) (r n l : Nat) : (g.markV r n l).ln = g.ln := rfl
@[simp] theorem Group.markV_qs (g : Group) (r n l : Nat) : (g.markV r n l).qs = g.qs := rfl
@[simp] theorem Group.markV_held1 (g : Group) (r n l : Nat) : (g.markV r n l).held1 = g.held1 := rfl
@[simp] theorem Group.markV_held2 (g : Group) (r n l : Nat) : (g.markV r n l).held2 = g.held2 := rfl
@[simp] theorem Group.markV_barLast (g : Group) (r n l : Nat) : (g.markV r n l).barLast = g.barLast := rfl
@[simp] theorem Group.markV_endStep (g : Group) (r n l : Nat) : (g.markV r n l).endStep = g.endStep := rfl
@[simp] theorem Group.markV_seq (g : Group) (r n l : Nat) : (g.markV r n l).seq = g.seq := rfl
@[simp] theorem Group.markV_passed (g : Group) (r n l : Nat) : (g.markV r n l).passed = g.passed := rfl
@[simp] theorem Group.markV_replay (g : Group) (r n l : Nat) : (g.markV r n l).replay = g.replay := rfl
@[simp] theorem Group.markV_holds (g : Group) (r n l : Nat) : (g.markV r n l).holds = g.holds := rfl
@[simp] theorem Group.markV_met (g : Group) (r n l : Nat) : (g.markV r n l).met = g.met := rfl

/-! ### Group.putBits -/

@[simp] theorem Group.putBits_key (g : Group) (k : Nat) (b : List (Nat × Bool)) (p : Bool) : (g.putBits k b p).key = g.key := by
  unfold Group.putBits; simp
@[simp] theorem Group.putBits_place (g : Group) (k : Nat) (b : List (Nat × Bool)) (p : Bool) : (g.putBits k b p).place = g.place := by
  unfold Group.putBits; simp
@[simp] theorem Group.putBits_cap (g : Group) (k : Nat) (b : List (Nat × Bool)) (p : Bool) : (g.putBits k b p).cap = g.cap := by
  unfold Group.putBits; simp
@[simp] theorem Group.putBits_sp (g : Group) (k : Nat) (b : List (Nat × Bool)) (p : Bool) : (g.putBits k b p).sp = g.sp := by
  unfold Group.putBits; simp
@[simp] theorem Group.putBits_pc (g : Group) (k : Nat) (b : List (Nat × Bool)) (p : Bool) : (g.putBits k b p).pc = g.pc := by
  unfold Group.putBits; simp
@[simp] theorem Group.putBits_ln (g : Group) (k : Nat) (b : List (Nat × Bool)) (p : Bool) : (g.putBits k b p).ln = g.ln := by
  unfold Group.putBits; simp
@[simp] theorem Group.putBits_qs (g : Group) (k : Nat) (b : List (Nat × Bool)) (p : Bool) : (g.putBits k b p).qs = g.qs := by
  unfold Group.putBits; simp
@[simp] theorem Group.putBits_held1 (g : Group) (k : Nat) (b : List (Nat × Bool)) (p : Bool) : (g.putBits k b p).held1 = g.held1 := by
  unfold Group.putBits; simp
@[simp] theorem Group.putBits_held2 (g : Group) (k : Nat) (b : List (Nat × Bool)) (p : Bool) : (g.putBits k b p).held2 = g.held2 := by
  unfold Group.putBits; simp
@[simp] theorem Group.putBits_barLast (g : Group) (k : Nat) (b : List (Nat × Bool)) (p : Bool) : (g.putBits k b p).barLast = g.barLast := by
  unfold Group.putBits; simp
@[simp] theorem Group.putBits_endStep (g : Group) (k : Nat) (b : List (Nat × Bool)) (p : Bool) : (g.putBits k b p).endStep = g.endStep := by
  unfold Group.putBits; simp
@[simp] theorem Group.putBits_seq (g : Group) (k : Nat) (b : List (Nat × Bool)) (p : Bool) : (g.putBits k b p).seq = g.seq := by
  unfold Group.putBits; simp
@[simp] theorem Group.putBits_passed (g : Group) (k : Nat) (b : List (Nat × Bool)) (p : Bool) : (g.putBits k b p).passed = g.passed := by
  unfold Group.putBits; simp
@[simp] theorem Group.putBits_replay (g : Group) (k : Nat) (b : List (Nat × Bool)) (p : Bool) : (g.putBits k b p).replay = g.replay := by
  unfold Group.putBits; simp
@[simp] theorem Group.putBits_holds (g : Group) (k : Nat) (b : List (Nat × Bool)) (p : Bool) : (g.putBits k b p).holds = g.holds := by
  unfold Group.putBits; simp
@[simp] theorem Group.putBits_met (g : Group) (k : Nat) (b : List (Nat × Bool)) (p : Bool) : (g.putBits k b p).met = g.met := by
  unfold Group.putBits; simp

/-! ### Group.orStatus -/

@[simp] theorem Group.orStatus_key (g : Group) (f : Flags) : (g.orStatus f).key = g.key := rfl
@[simp] theorem Group.orStatus_place (g : Group) (f : Flags) : (g.orStatus f).place = g.place := rfl
@[simp] theorem Group.orStatus_r (g : Group) (f : Flags) : (g.orStatus f).r = g.r := rfl
@[simp] theorem Group.orStatus_cap (g : Group) (f : Flags) : (g.orStatus f).cap = g.cap := rfl
@[simp] theorem Group.orStatus_pc (g : Group) (f : Flags) : (g.orStatus f).pc = g.pc := rfl
@[simp] theorem Group.orStatus_ln (g : Group) (f : Flags) : (g.orStatus f).ln = g.ln := rfl
@[simp] theorem Group.orStatus_qs (g : Group) (f : Flags) : (g.orStatus f).qs = g.qs := rfl
@[simp] theorem Group.orStatus_held1 (g : Group) (f : Flags) : (g.orStatus f).held1 = g.held1 := rfl
@[simp] theorem Group.orStatus_held2 (g : Group) (f : Flags) : (g.orStatus f).held2 = g.held2 := rfl
@[simp] theorem Group.orStatus_barLast (g : Group) (f : Flags) : (g.orStatus f).barLast = g.barLast := rfl
@[simp] theorem Group.orStatus_endStep (g : Group) (f : Flags) : (g.orStatus f).endStep = g.endStep := rfl
@[simp] theorem Group.orStatus_seq (g : Group) (f : Flags) : (g.orStatus f).seq = g.seq := rfl
@[simp] theorem Group.orStatus_passed (g : Group) (f : Flags) : (g.orStatus f).passed = g.passed := rfl
@[simp] theorem Group.orStatus_replay (g : Group) (f : Flags) : (g.orStatus f).replay = g.replay := rfl
@[simp] theorem Group.orStatus_holds (g : Group) (f : Flags) : (g.orStatus f).holds = g.holds := rfl
@[simp] theorem Group.orStatus_met (g : Group) (f : Flags) : (g.orStatus f).met = g.met := rfl

/-! ### Group.consume -/

@[simp] theorem Group.consume_key (g : Group) (n : Nat) : (g.consume n).key = g.key := by
  unfold Group.consume; split <;> simp
@[simp] theorem Group.consume_place (g : Group) (n : Nat) : (g.consume n).place = g.place := by
  unfold Group.consume; split <;> simp
@[simp] theorem Group.consume_cap (g : Group) (n : Nat) : (g.consume n).cap = g.cap := by
  unfold Group.consume; split <;> simp
@[simp] theorem Group.consume_sp (g : Group) (n : Nat) : (g.consume n).sp = g.sp := by
  unfold Group.consume; split <;> simp
@[simp] theorem Group.consume_pc (g : Group) (n : Nat) : (g.consume n).pc = g.pc := by
  unfold Group.consume; split <;> simp
@[simp] theorem Group.consume_ln (g : Group) (n : Nat) : (g.consume n).ln = g.ln := by
  unfold Group.consume; split <;> simp
@[simp] theorem Group.consume_qs (g : Group) (n : Nat) : (g.consume n).qs = g.qs := by
  unfold Group.consume; split <;> simp
@[simp] theorem Group.consume_held1 (g : Group) (n : Nat) : (g.consume n).held1 = g.held1 := by
  unfold Group.consume; split <;> simp
@[simp] theorem Group.consume_held2 (g : Group) (n : Nat) : (g.consume n).held2 = g.held2 := by
  unfold Group.consume; split <;> simp
@[simp] theorem Group.consume_barLast (g : Group) (n : Nat) : (g.consume n).barLast = g.barLast := by
  unfold Group.consume; split <;> simp
@[simp] theorem Group.consume_endStep (g : Group) (n : Nat) : (g.consume n).endStep = g.endStep := by
  unfold Group.consume; split <;> simp
@[simp] theorem Group.consume_seq (g : Group) (n : Nat) : (g.consume n).seq = g.seq := by
  unfold Group.consume; split <;> simp
@[simp] theorem Group.consume_passed (g : Group) (n : Nat) : (g.consume n).passed = g.passed := by
  unfold Group.consume; split <;> simp
@[simp] theorem Group.consume_replay (g : Group) (n : Nat) : (g.consume n).replay = g.replay := by
  unfold Group.consume; split <;> simp
@[simp] theorem Group.consume_holds (g : Group) (n : Nat) : (g.consume n).holds = g.holds := by
  unfold Group.consume; split <;> simp
@[simp] theorem Group.consume_met (g : Group) (n : Nat) : (g.consume n).met = g.met := by
  unfold Group.consume; split <;> simp

/-! ### Group.startRun -/

@[simp] theorem Group.startRun_key (g : Group) : g.startRun.key = g.key := rfl
@[simp] theorem Group.startRun_place (g : Group) : g.startRun.place = g.place := rfl
@[simp] theorem Group.startRun_r (g : Group) : g.startRun.r = g.r := rfl
@[simp] theorem Group.startRun_cap (g : Group) : g.startRun.cap = g.cap := rfl
@[simp] theorem Group.startRun_sp (g : Group) : g.startRun.sp = g.sp := rfl
@[simp] theorem Group.startRun_pc (g : Group) : g.startRun.pc = g.pc := rfl
@[simp] theorem Group.startRun_qs (g : Group) : g.startRun.qs = g.qs := rfl
@[simp] theorem Group.startRun_held1 (g : Group) : g.startRun.held1 = g.held1 := rfl
@[simp] theorem Group.startRun_held2 (g : Group) : g.startRun.held2 = g.held2 := rfl
@[simp] theorem Group.startRun_barLast (g : Group) : g.startRun.barLast = g.barLast := rfl
@[simp] theorem Group.startRun_endStep (g : Group) : g.startRun.endStep = g.endStep := rfl
@[simp] theorem Group.startRun_seq (g : Group) : g.startRun.seq = g.seq := rfl
@[simp] theorem Group.startRun_passed (g : Group) : g.startRun.passed = g.passed := rfl
@[simp] theorem Group.startRun_replay (g : Group) : g.startRun.replay = g.replay := rfl
@[simp] theorem Group.startRun_holds (g : Group) : g.startRun.holds = g.holds := rfl
@[simp] theorem Group.startRun_met (g : Group) : g.startRun.met = g.met := rfl

/-! ### Group.popDue -/

@[simp] theorem Group.popDue_key (g : Group) : g.popDue.key = g.key := rfl
@[simp] theorem Group.popDue_place (g : Group) : g.popDue.place = g.place := rfl
@[simp] theorem Group.popDue_r (g : Group) : g.popDue.r = g.r := rfl
@[simp] theorem Group.popDue_cap (g : Group) : g.popDue.cap = g.cap := rfl
@[simp] theorem Group.popDue_sp (g : Group) : g.popDue.sp = g.sp := rfl
@[simp] theorem Group.popDue_pc (g : Group) : g.popDue.pc = g.pc := rfl
@[simp] theorem Group.popDue_qs (g : Group) : g.popDue.qs = g.qs := rfl
@[simp] theorem Group.popDue_held1 (g : Group) : g.popDue.held1 = g.held1 := rfl
@[simp] theorem Group.popDue_held2 (g : Group) : g.popDue.held2 = g.held2 := rfl
@[simp] theorem Group.popDue_barLast (g : Group) : g.popDue.barLast = g.barLast := rfl
@[simp] theorem Group.popDue_endStep (g : Group) : g.popDue.endStep = g.endStep := rfl
@[simp] theorem Group.popDue_seq (g : Group) : g.popDue.seq = g.seq := rfl
@[simp] theorem Group.popDue_passed (g : Group) : g.popDue.passed = g.passed := rfl
@[simp] theorem Group.popDue_replay (g : Group) : g.popDue.replay = g.replay := rfl
@[simp] theorem Group.popDue_holds (g : Group) : g.popDue.holds = g.holds := rfl
@[simp] theorem Group.popDue_met (g : Group) : g.popDue.met = g.met := rfl

/-! ### Group.fillTile -/

@[simp] theorem Group.fillTile_key (g : Group) (t e : Nat) (v : BitVec 48) (b : Bool) : (g.fillTile t e v b).key = g.key := rfl
@[simp] theorem Group.fillTile_place (g : Group) (t e : Nat) (v : BitVec 48) (b : Bool) : (g.fillTile t e v b).place = g.place := rfl
@[simp] theorem Group.fillTile_cap (g : Group) (t e : Nat) (v : BitVec 48) (b : Bool) : (g.fillTile t e v b).cap = g.cap := rfl
@[simp] theorem Group.fillTile_sp (g : Group) (t e : Nat) (v : BitVec 48) (b : Bool) : (g.fillTile t e v b).sp = g.sp := rfl
@[simp] theorem Group.fillTile_pc (g : Group) (t e : Nat) (v : BitVec 48) (b : Bool) : (g.fillTile t e v b).pc = g.pc := rfl
@[simp] theorem Group.fillTile_ln (g : Group) (t e : Nat) (v : BitVec 48) (b : Bool) : (g.fillTile t e v b).ln = g.ln := rfl
@[simp] theorem Group.fillTile_qs (g : Group) (t e : Nat) (v : BitVec 48) (b : Bool) : (g.fillTile t e v b).qs = g.qs := rfl
@[simp] theorem Group.fillTile_held1 (g : Group) (t e : Nat) (v : BitVec 48) (b : Bool) : (g.fillTile t e v b).held1 = g.held1 := rfl
@[simp] theorem Group.fillTile_held2 (g : Group) (t e : Nat) (v : BitVec 48) (b : Bool) : (g.fillTile t e v b).held2 = g.held2 := rfl
@[simp] theorem Group.fillTile_barLast (g : Group) (t e : Nat) (v : BitVec 48) (b : Bool) : (g.fillTile t e v b).barLast = g.barLast := rfl
@[simp] theorem Group.fillTile_endStep (g : Group) (t e : Nat) (v : BitVec 48) (b : Bool) : (g.fillTile t e v b).endStep = g.endStep := rfl
@[simp] theorem Group.fillTile_seq (g : Group) (t e : Nat) (v : BitVec 48) (b : Bool) : (g.fillTile t e v b).seq = g.seq := rfl
@[simp] theorem Group.fillTile_passed (g : Group) (t e : Nat) (v : BitVec 48) (b : Bool) : (g.fillTile t e v b).passed = g.passed := rfl
@[simp] theorem Group.fillTile_replay (g : Group) (t e : Nat) (v : BitVec 48) (b : Bool) : (g.fillTile t e v b).replay = g.replay := rfl
@[simp] theorem Group.fillTile_holds (g : Group) (t e : Nat) (v : BitVec 48) (b : Bool) : (g.fillTile t e v b).holds = g.holds := rfl
@[simp] theorem Group.fillTile_met (g : Group) (t e : Nat) (v : BitVec 48) (b : Bool) : (g.fillTile t e v b).met = g.met := rfl

/-! ### Group.arrived -/

@[simp] theorem Group.arrived_key (g : Group) (l : List Nat) : (g.arrived l).key = g.key := rfl
@[simp] theorem Group.arrived_place (g : Group) (l : List Nat) : (g.arrived l).place = g.place := rfl
@[simp] theorem Group.arrived_r (g : Group) (l : List Nat) : (g.arrived l).r = g.r := rfl
@[simp] theorem Group.arrived_cap (g : Group) (l : List Nat) : (g.arrived l).cap = g.cap := rfl
@[simp] theorem Group.arrived_sp (g : Group) (l : List Nat) : (g.arrived l).sp = g.sp := rfl
@[simp] theorem Group.arrived_pc (g : Group) (l : List Nat) : (g.arrived l).pc = g.pc := rfl
@[simp] theorem Group.arrived_held1 (g : Group) (l : List Nat) : (g.arrived l).held1 = g.held1 := rfl
@[simp] theorem Group.arrived_held2 (g : Group) (l : List Nat) : (g.arrived l).held2 = g.held2 := rfl
@[simp] theorem Group.arrived_barLast (g : Group) (l : List Nat) : (g.arrived l).barLast = g.barLast := rfl
@[simp] theorem Group.arrived_endStep (g : Group) (l : List Nat) : (g.arrived l).endStep = g.endStep := rfl
@[simp] theorem Group.arrived_seq (g : Group) (l : List Nat) : (g.arrived l).seq = g.seq := rfl
@[simp] theorem Group.arrived_passed (g : Group) (l : List Nat) : (g.arrived l).passed = g.passed := rfl
@[simp] theorem Group.arrived_replay (g : Group) (l : List Nat) : (g.arrived l).replay = g.replay := rfl
@[simp] theorem Group.arrived_holds (g : Group) (l : List Nat) : (g.arrived l).holds = g.holds := rfl
@[simp] theorem Group.arrived_met (g : Group) (l : List Nat) : (g.arrived l).met = g.met := rfl

/-! ### Group.laneNext -/

@[simp] theorem Group.laneNext_key (c : LCtx) (g : Group) : (g.laneNext c).key = g.key := rfl
@[simp] theorem Group.laneNext_place (c : LCtx) (g : Group) : (g.laneNext c).place = g.place := rfl
@[simp] theorem Group.laneNext_r (c : LCtx) (g : Group) : (g.laneNext c).r = g.r := rfl
@[simp] theorem Group.laneNext_cap (c : LCtx) (g : Group) : (g.laneNext c).cap = g.cap := rfl
@[simp] theorem Group.laneNext_sp (c : LCtx) (g : Group) : (g.laneNext c).sp = g.sp := rfl
@[simp] theorem Group.laneNext_pc (c : LCtx) (g : Group) : (g.laneNext c).pc = g.pc := rfl
@[simp] theorem Group.laneNext_qs (c : LCtx) (g : Group) : (g.laneNext c).qs = g.qs := rfl
@[simp] theorem Group.laneNext_held1 (c : LCtx) (g : Group) : (g.laneNext c).held1 = g.held1 := rfl
@[simp] theorem Group.laneNext_held2 (c : LCtx) (g : Group) : (g.laneNext c).held2 = g.held2 := rfl
@[simp] theorem Group.laneNext_barLast (c : LCtx) (g : Group) : (g.laneNext c).barLast = g.barLast := rfl
@[simp] theorem Group.laneNext_endStep (c : LCtx) (g : Group) : (g.laneNext c).endStep = g.endStep := rfl
@[simp] theorem Group.laneNext_seq (c : LCtx) (g : Group) : (g.laneNext c).seq = g.seq := rfl
@[simp] theorem Group.laneNext_passed (c : LCtx) (g : Group) : (g.laneNext c).passed = g.passed := rfl
@[simp] theorem Group.laneNext_replay (c : LCtx) (g : Group) : (g.laneNext c).replay = g.replay := rfl
@[simp] theorem Group.laneNext_holds (c : LCtx) (g : Group) : (g.laneNext c).holds = g.holds := rfl
@[simp] theorem Group.laneNext_met (c : LCtx) (g : Group) : (g.laneNext c).met = g.met := rfl

end Sys2Proof.Machine
end

