-- ==== Sys2Proof/Laws/Scalar.lean ====
section
/-! SUPPORT. What a scalar word does: the effect of a word that is ready, the trap of one that is not, and the shared ALU forms. -/

namespace Sys2Proof

open Machine

/-! ### Reading registers meets their errors -/

theorem logCore_errs (s : State) (core w0 addr synd w3 : Nat) : ∃ e, logCore s core w0 addr synd w3 = { s with errs := e } := ⟨_, rfl⟩
theorem logDram_errs (s : State) (q w0 addr synd w3 : Nat) : ∃ e, logDram s q w0 addr synd w3 = { s with errs := e } := ⟨_, rfl⟩

theorem logRead_errs (s : State) (who : Nat) (l : Latent) : ∃ e, logRead s who l = { s with errs := e } := by
  unfold logRead
  simp only
  split
  · exact logCore_errs ..
  · exact logDram_errs ..

theorem foldl_errs {β : Type} (f : State → β → State) (h : ∀ s b, ∃ e, f s b = { s with errs := e }) (l : List β) :
    ∀ s : State, ∃ e, l.foldl f s = { s with errs := e } := by
  induction l with
  | nil => intro s; exact ⟨s.errs, rfl⟩
  | cons b t ih =>
    intro s
    obtain ⟨e, he⟩ := h s b
    obtain ⟨e2, he2⟩ := ih (f s b)
    exact ⟨e2, by rw [List.foldl_cons, he2, he]⟩

theorem logMet_errs (g : Group) (p : Nat → Nat → Bool) (s : State) (l : Latent) : ∃ e, logMet g p s l = { s with errs := e } := by
  unfold logMet
  split
  · split
    · exact logRead_errs ..
    · exact ⟨s.errs, rfl⟩
  · exact ⟨s.errs, rfl⟩

/-- A read of registers changes the error logs and the marks of elements that an error has struck, and nothing else. -/
theorem touchRegs_shape (s : State) (p : Nat → Nat → Bool) :
    ∃ (e : Errs) (q : Nat × Nat → Bool), touchRegs s p = { s with
      errs := e, g := { s.g with r := { s.g.r with bad := s.g.r.bad.filter (fun b => !(decide (b.1 / 256 = 3) && q b)) } } } := by
  unfold touchRegs
  split
  · refine ⟨s.errs, fun _ => false, ?_⟩
    have hb : s.g.r.bad.filter (fun b => !(decide (b.1 / 256 = 3) && false)) = s.g.r.bad := by simp
    rw [hb]
  · obtain ⟨e, he⟩ := foldl_errs (logMet s.g p) (fun s l => logMet_errs _ p s l) s.errs.latent s
    refine ⟨{ e with latent := e.latent.filter (fun l => (latentElem s.g p l).isNone) }, fun b => p (b.1 - 0x300) b.2, ?_⟩
    simp only [he]

theorem touchRegs_none (s : State) (p : Nat → Nat → Bool) (h : s.errs.latent = []) : touchRegs s p = s := by
  unfold touchRegs; simp [h]

/-- What a read of registers leaves alone. -/
theorem touchRegs_same (s : State) (p : Nat → Nat → Bool) : SameButGroup s (touchRegs s p) ∧ SameButScalars s.g (touchRegs s p).g ∧
    (touchRegs s p).g.pc = s.g.pc ∧ (touchRegs s p).g.r.sreg = s.g.r.sreg ∧ (touchRegs s p).g.r.stag = s.g.r.stag ∧
    (touchRegs s p).g.r.fut = s.g.r.fut := by
  obtain ⟨e, q, h⟩ := touchRegs_shape s p
  rw [h]
  exact ⟨rfl, rfl, rfl, rfl, rfl, rfl⟩

theorem contains_filter_of {α : Type} [BEq α] [LawfulBEq α] (l : List α) (p : α → Bool) (x : α) (h : p x = true) :
    (l.filter p).contains x = l.contains x := by
  rw [Bool.eq_iff_iff]
  simp [List.mem_filter, h]

theorem badScalar_touchRegs (s : State) (p : Nat → Nat → Bool) (reads : List Nat) : badScalar (touchRegs s p).g reads = badScalar s.g reads := by
  obtain ⟨e, q, h⟩ := touchRegs_shape s p
  rw [h]
  unfold badScalar
  congr 1
  funext n
  congr 1
  exact contains_filter_of _ _ _ (by simp)

/-! ### The shared frame of scalar words -/

theorem any_blocked_false {s : State} {l : List Nat} (h : ∀ n ∈ l, s.g.blocked n = false) : l.any s.g.blocked = false := by
  rw [List.any_eq_false]; intro n hn; simp [h n hn]

theorem lanesDone_scalarRead (s : State) (reads : List Nat) : (scalarMet s reads).g.lanesDone = s.g.lanesDone := by
  obtain ⟨e, q, h⟩ := touchRegs_shape s (fun a i => a = 0x02 && reads.contains i)
  unfold scalarMet
  rw [h]
  rfl

/-- A scalar word that may issue comes to what its own effect gives. -/
theorem scalarWord_issues {s : State} {reads writes : List Nat} (h : ScalarIssues s reads writes) (f : State → SRes) :
    scalarWord reads writes f s = match badScalar s.g reads, f (scalarIssued s reads) with
      | some n, .ok _ => scalarEnd (scalarMet s reads) (.trap { cause := cPOISON, addr := regPoison 0x02 (s.g.place.slot * 64 + n), restart := true })
      | _, r => scalarEnd (scalarMet s reads) r := by
  obtain ⟨h1, h2, h3⟩ := h
  unfold scalarWord
  rw [h1, h2, any_blocked_false h3]
  simp only [Option.isSome_none, Bool.or_self, Bool.false_eq_true, if_false]
  rw [badScalar_touchRegs]
  rfl

/-- A ready scalar word whose effect completes goes to the state of that effect. -/
theorem scalarWord_done {s t : State} {reads writes : List Nat} {f : State → SRes} (h : ScalarReady s reads writes)
    (hf : f (scalarIssued s reads) = .ok t) : scalarWord reads writes f s = .next t := by
  rw [scalarWord_issues h.1, h.2.1, hf]
  rfl

/-- A scalar word whose effect raises a trap enters the handler, once the runs before it are finished. -/
theorem scalarWord_trap {s : State} {reads writes : List Nat} {f : State → SRes} {t : Trap} (h : ScalarIssues s reads writes)
    (hf : f (scalarIssued s reads) = .trap t) (hl : s.g.lanesDone = true) :
    scalarWord reads writes f s = .next (scalarTrap (scalarMet s reads) t) := by
  rw [scalarWord_issues h, hf]
  have hl' := lanesDone_scalarRead s reads
  rw [hl] at hl'
  cases badScalar s.g reads <;> simp [scalarEnd, meetTrap, hl']

/-- A register that is not pending may be written. -/
theorem guardDst_free {s : State} {n : Nat} {k : SRes} (h : s.g.blocked n = false) : guardDst s n k = k := by
  unfold Group.blocked at h
  unfold guardDst
  split at h <;> simp_all

/-! ### ALU forms -/

theorem aluRR_done (f : Word → Word → Word) {sd sa sb : BitVec 6} {s : State} (h : ScalarReady s [sa.toNat, sb.toNat] [sd.toNat]) :
    aluRR f sd sa sb s = .next ((scalarIssued s [sa.toNat, sb.toNat]).putS sd.toNat
      (f ((scalarIssued s [sa.toNat, sb.toNat]).g.sval sa.toNat) ((scalarIssued s [sa.toNat, sb.toNat]).g.sval sb.toNat))
      ((scalarIssued s [sa.toNat, sb.toNat]).g.stag sa.toNat || (scalarIssued s [sa.toNat, sb.toNat]).g.stag sb.toNat)) :=
  scalarWord_done h (guardDst_free (h.2.2 _ (by simp)))

theorem aluR_done (f : Word → Word) {sd sa : BitVec 6} {s : State} (h : ScalarReady s [sa.toNat] [sd.toNat]) :
    aluR f sd sa s = .next ((scalarIssued s [sa.toNat]).putS sd.toNat (f ((scalarIssued s [sa.toNat]).g.sval sa.toNat))
      ((scalarIssued s [sa.toNat]).g.stag sa.toNat)) :=
  scalarWord_done h (guardDst_free (h.2.2 _ (by simp)))

theorem aluDiv_done (f : Word → Word → Word) {sd sa sb : BitVec 6} {s : State} (h : ScalarReady s [sa.toNat, sb.toNat] [sd.toNat])
    (hb : (scalarIssued s [sa.toNat, sb.toNat]).g.sval sb.toNat ≠ 0) :
    aluDiv f sd sa sb s = .next ((scalarIssued s [sa.toNat, sb.toNat]).putS sd.toNat
      (f ((scalarIssued s [sa.toNat, sb.toNat]).g.sval sa.toNat) ((scalarIssued s [sa.toNat, sb.toNat]).g.sval sb.toNat))
      ((scalarIssued s [sa.toNat, sb.toNat]).g.stag sa.toNat || (scalarIssued s [sa.toNat, sb.toNat]).g.stag sb.toNat)) := by
  refine scalarWord_done h ?_
  rw [if_neg hb]
  exact guardDst_free (h.2.2 _ (by simp))

theorem aluDiv_zero (f : Word → Word → Word) {sd sa sb : BitVec 6} {s : State} (h : ScalarIssues s [sa.toNat, sb.toNat] [sd.toNat])
    (hb : (scalarIssued s [sa.toNat, sb.toNat]).g.sval sb.toNat = 0) (hl : s.g.lanesDone = true) :
    aluDiv f sd sa sb s = .next (scalarTrap (scalarMet s [sa.toNat, sb.toNat]) (mkTrap cINTDIV)) := by
  refine scalarWord_trap h ?_ hl
  rw [if_pos hb]

end Sys2Proof
end

