-- ==== Sys2Proof/Laws/Lane.lean ====
section
/-! SUPPORT. What a lane word does: its issue, its lane loop, its result by lane, by predicate and by scalar. -/

namespace Sys2Proof

open Machine

/-! ### Issue -/

theorem tok_touchRegs (s : State) (p : Nat → Nat → Bool) : (touchRegs s p).g.r.tok = s.g.r.tok := by
  obtain ⟨e, q, h⟩ := touchRegs_shape s p
  rw [h]

theorem tok_consume (g : Group) (n : Nat) : (g.consume n).r.tok = g.r.tok := by
  unfold Group.consume
  split
  · unfold Group.setS; split <;> rfl
  · rfl

theorem tok_consumes (l : List Nat) : ∀ g : Group, (l.foldl Group.consume g).r.tok = g.r.tok := by
  induction l with
  | nil => intro g; rfl
  | cons n t ih => intro g; rw [List.foldl_cons, ih, tok_consume]

/-- Issue changes no token. -/
theorem tok_laneIssued (n : LaneNames) (s : State) : (laneIssued n s).g.r.tok = s.g.r.tok := by
  unfold laneIssued laneRead
  rw [State.upG_g, tok_consumes, tok_touchRegs]
  rfl

theorem lateToken_congr {g h : Group} (hg : g.r.tok = h.r.tok) (wt : BitVec 8) : lateToken g wt = lateToken h wt := by
  unfold lateToken Group.tok; rw [hg]

theorem lateToken_laneIssued (n : LaneNames) (s : State) (wt : BitVec 8) : lateToken (laneIssued n s).g wt = lateToken s.g wt :=
  lateToken_congr (tok_laneIssued n s) wt

theorem held_any {s : State} {l : List (Nat × Nat)} (h : ∀ t ∈ l, ∀ i < t.2, tileHeld s (t.1 + i) = false) :
    l.any (fun t => (List.range t.2).any (fun i => tileHeld s (t.1 + i))) = false := by
  rw [List.any_eq_false]
  intro t ht
  rw [Bool.not_eq_true, List.any_eq_false]
  intro i hi
  rw [h t ht i (List.mem_range.mp hi)]
  decide

/-- A lane word that issues comes to what its own effect gives. -/
theorem laneIssue_issues {n : LaneNames} {s : State} (h : LaneIssues n s) (f : LCtx → State → LRes) :
    laneIssue n f s = laneEnd (laneRead n s) (ctxOf s) (f (ctxOf s) (laneIssued n s)) := by
  obtain ⟨h1, h2, h3, h4, h5, h6⟩ := h
  have hh : laneHeld n (ctxOf s) s = false := by
    unfold laneHeld
    rw [any_blocked_false h4, h5, held_any h6]
    rfl
  unfold laneIssue
  simp only [h1, h2, Option.isSome_none, Bool.or_self, Bool.false_eq_true, if_false]
  have h3' : issueOk (s.upG Group.startRun).g (laneCtx (s.upG Group.startRun).g) n.op n.uses n.tiles = true := h3
  have hh' : laneHeld n (laneCtx (s.upG Group.startRun).g) s = false := hh
  simp only [h3', hh', Bool.not_true, Bool.false_eq_true, if_false]
  rfl

theorem laneWord_ready {op : Nat} {w : LWord} {s : State} (h : LaneReady (namesOf op w) s) (f : LCtx → State → LRes) :
    laneWord op w f s = laneEnd (laneRead (namesOf op w) s) (ctxOf s) (f (ctxOf s) (laneIssued (namesOf op w) s)) :=
  laneIssue_issues h.1 f

theorem laneWord_ok {op : Nat} {w : LWord} {s t : State} {f : LCtx → State → LRes} (h : LaneReady (namesOf op w) s)
    (hf : f (ctxOf s) (laneIssued (namesOf op w) s) = .ok t) : laneWord op w f s = .next (laneDone (ctxOf s) t) := by
  rw [laneWord_ready h, hf]; rfl

theorem laneWord_jump {op : Nat} {w : LWord} {s t : State} {f : LCtx → State → LRes} (h : LaneReady (namesOf op w) s)
    (hf : f (ctxOf s) (laneIssued (namesOf op w) s) = .jump t) : laneWord op w f s = .next t := by
  rw [laneWord_ready h, hf]; rfl

theorem laneWord_skip {op : Nat} {w : LWord} {s : State} {f : LCtx → State → LRes} (h : LaneReady (namesOf op w) s)
    (hf : f (ctxOf s) (laneIssued (namesOf op w) s) = .skip) : laneWord op w f s = .next (laneDone (ctxOf s) (laneRead (namesOf op w) s)) := by
  rw [laneWord_ready h, hf]; rfl

/-- Tokens that are complete and did not fault let a word go on. -/
theorem withTokens_none {g : Group} {w : LWord} {k : LRes} (h : lateToken g w.wt = none) : withTokens g w k = k := by
  unfold withTokens; rw [h]

theorem withTokens_ready {op : Nat} {w : LWord} {s : State} (h : LaneReady (namesOf op w) s) (k : LRes) :
    withTokens (laneIssued (namesOf op w) s).g w k = k := by
  apply withTokens_none
  rw [lateToken_laneIssued]
  exact h.2

/-! ### The lane loop -/

theorem find_none_of_all {l : List Nat} {α : Type} {f : Nat → Option α} (h : ∀ x ∈ l, (f x).isSome = true) :
    l.find? (fun x => (f x).isNone) = none := by
  rw [List.find?_eq_none]
  intro x hx
  have := h x hx
  cases hfx : f x <;> simp_all

/-- A lane loop whose checks come out well writes its results. -/
theorem laneLoop_runs {w : LWord} {r n : Nat} {srcs tests : Nat → List Src} {tagOf : Nat → Bool} {adv : List Nat → List Nat}
    {f : Nat → Option (List Elem × Flags)} {c : LCtx} {s : State} (h : LoopRuns w c s.g srcs tests f) (ht : lateToken s.g w.wt = none) :
    laneLoop w r n srcs tests tagOf adv f c s = .ok (s.upG (writeLanes c w r n
      ((workLanes s.g c w).filterMap (fun l => (f l).map (fun x => (l, x.1, x.2)))) tagOf (adv (workLanes s.g c w)))) := by
  obtain ⟨h1, h2, h3, h4⟩ := h
  unfold laneLoop
  simp only [workLanes] at h3 h4
  simp only [h1, if_false, h2, withTokens_none ht, h3, find_none_of_all h4]
  rfl

/-- No lane works: the word has no effect. -/
theorem laneLoop_skip {w : LWord} {r n : Nat} {srcs tests : Nat → List Src} {tagOf : Nat → Bool} {adv : List Nat → List Nat}
    {f : Nat → Option (List Elem × Flags)} {c : LCtx} {s : State} (h : actMask s.g c = 0) :
    laneLoop w r n srcs tests tagOf adv f c s = .skip := by
  unfold laneLoop; simp [h]

theorem loopRuns_map {α β : Type} {w : LWord} {c : LCtx} {g : Group} {srcs tests : Nat → List Src} {f : Nat → Option α} (k : α → β)
    (h : LoopRuns w c g srcs tests f) : LoopRuns w c g srcs tests (fun l => (f l).map k) :=
  ⟨h.1, h.2.1, h.2.2.1, fun l hl => by simpa using h.2.2.2 l hl⟩

theorem filterMap_toElems (l : List Nat) (ty : Nat) (f : Nat → Option Rounded) :
    l.filterMap (fun l => ((f l).map (fun x => (toElems ty x.1, x.2))).map (fun x => (l, x.1, x.2))) =
      l.filterMap (fun l => (f l).map (fun x => (l, toElems ty x.1, x.2))) := by
  congr 1; funext l; cases f l <;> rfl

/-- The result of a word that computes lane by lane. -/
theorem elementWord_result {op : Nat} {i : Instr} {w : LWord} {ty : Nat} {srcs : Group → LCtx → Nat → List Src} {marked draws : LCtx → Bool}
    {f : Group → LCtx → Nat → Option Rounded}
    (h : ∀ s, exec i s = laneWord op w (fun c s => elementWord w ty (srcs s.g c) (marked c) (draws c) (f s.g c) c s) s) :
    ElementResult op i w ty false srcs marked draws f := by
  intro s hr c s1 tests hl
  have ht : lateToken s1.g w.wt = none := by rw [lateToken_laneIssued]; exact hr.2
  rw [h s]
  apply laneWord_ok hr
  show elementWord w ty (srcs s1.g c) (marked c) (draws c) (f s1.g c) c s1 = _
  unfold elementWord
  have hl' : LoopRuns w c s1.g (srcs s1.g c) (srcs s1.g c) (fun l => (f s1.g c l).map (fun x => (toElems ty x.1, x.2))) := by
    have h2 : tests = srcs s1.g c := by funext l; simp [tests]
    rw [h2] at hl
    exact loopRuns_map _ hl
  rw [laneLoop_runs hl' ht, filterMap_toElems]
  have hf : (workLanes s1.g c w).filter (fun _ => draws c) = if draws c then workLanes s1.g c w else [] := by
    cases draws c
    · exact List.filter_eq_nil_iff.mpr (by simp)
    · exact List.filter_eq_self.mpr (by simp)
  simp [elementDone, loopOuts, regCount, hf]

/-- The result of a cross-lane word. -/
theorem crossWord_result {op : Nat} {i : Instr} {w : LWord} {ty : Nat} {srcs : Group → LCtx → Nat → List Src} {marked draws : LCtx → Bool}
    {f : Group → LCtx → Nat → Option Rounded}
    (h : ∀ s, exec i s = laneWord op w (fun c s => crossWord w ty (srcs s.g c) (marked c) (draws c) (f s.g c) c s) s) :
    ElementResult op i w ty true srcs marked draws f := by
  intro s hr c s1 tests hl
  have ht : lateToken s1.g w.wt = none := by rw [lateToken_laneIssued]; exact hr.2
  rw [h s]
  apply laneWord_ok hr
  show crossWord w ty (srcs s1.g c) (marked c) (draws c) (f s1.g c) c s1 = _
  unfold crossWord
  have hl' : LoopRuns w c s1.g (srcs s1.g c)
      (fun l => if (actMask s1.g c &&& predMask s1.g w.pn w.pk).getLsbD l then srcs s1.g c l else [])
      (fun l => (f s1.g c l).map (fun x => (toElems ty x.1, x.2))) := by
    have h2 : tests = fun l => if (actMask s1.g c &&& predMask s1.g w.pn w.pk).getLsbD l then srcs s1.g c l else [] := by
      funext l; simp [tests]
    rw [h2] at hl
    exact loopRuns_map _ hl
  simp only
  rw [laneLoop_runs hl' ht, filterMap_toElems]
  rfl

/-- The result of a word that writes a predicate register. -/
theorem predWord_result {op : Nat} {i : Instr} {w : LWord} {srcs : Group → LCtx → Nat → List Src} {f : Group → LCtx → Nat → Bool × Flags}
    (h : ∀ s, exec i s = laneWord op w (fun c s => predWord w (srcs s.g c) (fun l => resultTag s.g c w false (srcs s.g c l)) (f s.g c) c s) s) :
    PredicateResult op i w srcs f := by
  intro s hr c s1 pt hl
  have ht : lateToken s1.g w.wt = none := by rw [lateToken_laneIssued]; exact hr.2
  rw [h s]
  apply laneWord_ok hr
  show predWord w (srcs s1.g c) (fun l => resultTag s1.g c w false (srcs s1.g c l)) (f s1.g c) c s1 = _
  obtain ⟨h1, h2, h3, h4⟩ := hl
  unfold predWord
  simp only [workLanes] at h3
  simp only [h1, if_false, h2, withTokens_none ht, h3]
  rfl

theorem scalarDst_free {g : Group} {n : Nat} {k : LRes} (h : g.blocked n = false) : scalarDst g n k = k := by
  unfold Group.blocked at h
  unfold scalarDst
  split at h <;> simp_all

/-- The result of a word that writes a scalar register. -/
theorem toScalar_result {op : Nat} {i : Instr} {w : LWord} {srcs : Group → LCtx → Nat → List Src} {marked draws : LCtx → Bool} {idle : Word}
    {value : Group → LCtx → List Nat → Word × Flags}
    (h : ∀ s, exec i s = laneWord op w (fun c s => toScalar w (srcs s.g c) (marked c) idle (value s.g c) (draws c) c s) s) :
    ScalarResult op i w srcs marked draws idle value := by
  intro s hr c s1 g pt n hl hb
  have ht : lateToken s1.g w.wt = none := by rw [lateToken_laneIssued]; exact hr.2
  rw [h s]
  apply laneWord_ok hr
  show toScalar w (srcs s1.g c) (marked c) idle (value s1.g c) (draws c) c s1 = _
  obtain ⟨h1, h2, h3, h4⟩ := hl
  unfold toScalar
  simp only [workLanes] at h3
  have h2' : settledTest s1.g c w (lanesOf (actMask s1.g c))
      (fun l => if (lanesOf (actMask s1.g c &&& predMask s1.g w.pn w.pk)).contains l = true then srcs s1.g c l else []) = none := h2
  have h1' : ¬ actMask s1.g c = 0 := h1
  have h3' : badLane s1.g w (lanesOf (actMask s1.g c &&& predMask s1.g w.pn w.pk)) (srcs s1.g c) = none := h3
  simp only [if_neg h1', h2', withTokens_none ht, h3']
  rw [scalarDst_free hb]
  have hp : lanesOf (actMask s1.g c &&& predMask s1.g w.pn w.pk) = pt := rfl
  rw [hp]
  show _ = LRes.ok (s1.setG _)
  cases hpt : pt.isEmpty <;> rfl

end Sys2Proof
end

