-- ==== Sys2Proof/Laws/Store.lean ====
section
/-! SUPPORT. Laws of the sparse stores: reading after writing, and the canonical form. -/

namespace Sys2Proof.Machine

variable {α : Type}

/-- Below the first key of a canonical store every key reads as the default. -/
theorem sget_of_le [DecidableEq α] (d : α) {m : Store α} {b a : Nat} (h : swfAbove d (some b) m = true) (hab : a ≤ b) : sget d m a = d := by
  cases m with
  | nil => rfl
  | cons p t =>
    obtain ⟨k, v⟩ := p
    simp only [swfAbove, Bool.and_eq_true, decide_eq_true_eq] at h
    have hk : a < k := Nat.lt_of_le_of_lt hab h.1.1
    simp [sget, Nat.ne_of_lt hk, hk]

theorem swfAbove_weaken [DecidableEq α] (d : α) {m : Store α} {b c : Nat} (h : swfAbove d (some c) m = true) (hbc : b ≤ c) :
    swfAbove d (some b) m = true := by
  cases m with
  | nil => rfl
  | cons p t =>
    obtain ⟨k, v⟩ := p
    simp only [swfAbove, Bool.and_eq_true, decide_eq_true_eq] at h ⊢
    exact ⟨⟨Nat.lt_of_le_of_lt hbc h.1.1, h.1.2⟩, h.2⟩

theorem swfAbove_none [DecidableEq α] (d : α) {m : Store α} {b : Nat} (h : swfAbove d (some b) m = true) : swfAbove d none m = true := by
  cases m with
  | nil => rfl
  | cons p t =>
    obtain ⟨k, v⟩ := p
    simp only [swfAbove, Bool.and_eq_true, decide_eq_true_eq] at h ⊢
    exact ⟨⟨trivial, h.1.2⟩, h.2⟩

/-- A read of the key just written gives the value written. -/
theorem sget_sset_same [DecidableEq α] (d : α) (m : Store α) (a : Nat) (v : α) (h : swf d m = true) : sget d (sset d m a v) a = v := by
  have key : ∀ (m : Store α) (lo : Option Nat), swfAbove d lo m = true → sget d (sset d m a v) a = v := by
    intro m
    induction m with
    | nil => intro lo _; by_cases hv : v = d <;> simp [sset, sget, hv]
    | cons p t ih =>
      intro lo h
      obtain ⟨k, w⟩ := p
      simp only [swfAbove, Bool.and_eq_true] at h
      by_cases h1 : a = k
      · subst h1
        by_cases hv : v = d
        · simp only [sset, if_pos hv, if_true]; rw [sget_of_le d h.2 (Nat.le_refl _), hv]
        · simp [sset, sget, hv]
      · by_cases h2 : a < k
        · by_cases hv : v = d <;> simp [sset, sget, h1, h2, hv]
        · simp only [sset, if_neg h1, if_neg h2, sget]
          exact ih (some k) h.2
  exact key m none h

/-- A write leaves every other key alone. -/
theorem sget_sset_ne [DecidableEq α] (d : α) (m : Store α) (a b : Nat) (v : α) (h : swf d m = true) (hab : b ≠ a) :
    sget d (sset d m a v) b = sget d m b := by
  have key : ∀ (m : Store α) (lo : Option Nat), swfAbove d lo m = true → sget d (sset d m a v) b = sget d m b := by
    intro m
    induction m with
    | nil => intro lo _; by_cases hv : v = d <;> simp [sset, sget, hv, hab]
    | cons p t ih =>
      intro lo h
      obtain ⟨k, w⟩ := p
      simp only [swfAbove, Bool.and_eq_true] at h
      by_cases h1 : a = k
      · subst h1
        by_cases hv : v = d
        · simp only [sset, if_pos hv, if_true, sget, if_neg hab]
          by_cases hb : b < a
          · rw [if_pos hb, sget_of_le d h.2 (Nat.le_of_lt hb)]
          · rw [if_neg hb]
        · simp [sset, sget, hv, hab]
      · by_cases h2 : a < k
        · by_cases hv : v = d
          · simp [sset, h1, h2, hv]
          · simp only [sset, if_neg h1, if_pos h2, if_neg hv, sget, if_neg hab]
            by_cases hb : b < a
            · simp [hb, Nat.ne_of_lt (Nat.lt_trans hb h2), Nat.lt_trans hb h2]
            · simp [hb]
        · simp only [sset, if_neg h1, if_neg h2, sget]
          by_cases h3 : b = k
          · simp [h3]
          · by_cases h4 : b < k
            · simp [h3, h4]
            · simp only [if_neg h3, if_neg h4]; exact ih (some k) h.2
  exact key m none h

theorem sget_sset [DecidableEq α] (d : α) (m : Store α) (a b : Nat) (v : α) (h : swf d m = true) :
    sget d (sset d m a v) b = if b = a then v else sget d m b := by
  by_cases hab : b = a
  · subst hab; simp [sget_sset_same d m b v h]
  · simp [hab, sget_sset_ne d m a b v h hab]

theorem swfAbove_sset [DecidableEq α] (d : α) (a : Nat) (v : α) : ∀ (m : Store α) (lo : Option Nat), swfAbove d lo m = true →
    (∀ b, lo = some b → b < a) → swfAbove d lo (sset d m a v) = true := by
  intro m
  induction m with
  | nil =>
    intro lo _ hlo
    by_cases hv : v = d
    · simp [sset, hv, swfAbove]
    · cases lo with
      | none => simp [sset, hv, swfAbove]
      | some b => simp [sset, hv, swfAbove, hlo b rfl]
  | cons p t ih =>
    intro lo h hlo
    obtain ⟨k, w⟩ := p
    have h0 := h
    simp only [swfAbove, Bool.and_eq_true] at h
    by_cases h1 : a = k
    · subst h1
      by_cases hv : v = d
      · simp only [sset, if_pos hv, if_true]
        cases lo with
        | none => exact swfAbove_none d h.2
        | some b => exact swfAbove_weaken d h.2 (Nat.le_of_lt (hlo b rfl))
      · simp only [sset, if_neg hv, if_true, swfAbove, Bool.and_eq_true]
        exact ⟨⟨h.1.1, by simpa using hv⟩, h.2⟩
    · by_cases h2 : a < k
      · by_cases hv : v = d
        · simpa only [sset, if_neg h1, if_pos h2, if_pos hv] using h0
        · simp only [sset, if_neg h1, if_pos h2, if_neg hv]
          refine by
            simp only [swfAbove, Bool.and_eq_true]
            refine ⟨⟨?_, by simpa using hv⟩, ⟨by simpa using h2, h.1.2⟩, h.2⟩
            cases lo with
            | none => rfl
            | some b => simpa using hlo b rfl
      · simp only [sset, if_neg h1, if_neg h2, swfAbove, Bool.and_eq_true]
        refine ⟨h.1, ih (some k) h.2 ?_⟩
        intro b hb
        cases hb
        omega

/-- A write keeps the canonical form. -/
theorem swf_sset [DecidableEq α] (d : α) (m : Store α) (a : Nat) (v : α) (h : swf d m = true) : swf d (sset d m a v) = true :=
  swfAbove_sset d a v m none h (by intro b hb; cases hb)

theorem swf_foldl_sset [DecidableEq α] {β : Type} (d : α) (f : β → Nat) (g : β → α) (l : List β) : ∀ (m : Store α), swf d m = true →
    swf d (l.foldl (fun m x => sset d m (f x) (g x)) m) = true := by
  induction l with
  | nil => intro m h; exact h
  | cons x t ih => intro m h; exact ih _ (swf_sset d m _ _ h)

/-- So do many writes. -/
theorem swf_ssetMany [DecidableEq α] (d : α) (l : List (Nat × α)) : ∀ (m : Store α), swf d m = true → swf d (ssetMany d m l) = true := by
  induction l with
  | nil => intro m h; exact h
  | cons p t ih => intro m h; exact ih _ (swf_sset d m p.1 p.2 h)

theorem swfAbove_filter [DecidableEq α] (d : α) (p : Nat × α → Bool) : ∀ (m : Store α) (lo : Option Nat), swfAbove d lo m = true →
    swfAbove d lo (m.filter p) = true := by
  intro m
  induction m with
  | nil => intro lo h; exact h
  | cons x t ih =>
    intro lo h
    obtain ⟨k, v⟩ := x
    have h0 := h
    simp only [swfAbove, Bool.and_eq_true] at h
    by_cases hp : p (k, v) = true
    · simp only [List.filter_cons, if_pos hp, swfAbove, Bool.and_eq_true]
      exact ⟨h.1, ih _ h.2⟩
    · simp only [List.filter_cons, if_neg hp]
      cases lo with
      | none => exact ih _ (swfAbove_none d h.2)
      | some b =>
        have hb : b < k := by simpa using h.1.1
        exact ih _ (swfAbove_weaken d h.2 (Nat.le_of_lt hb))

/-- Dropping entries keeps the canonical form. -/
theorem swf_sfilter [DecidableEq α] (d : α) (p : Nat → Bool) (m : Store α) (h : swf d m = true) : swf d (sfilter p m) = true :=
  swfAbove_filter d (fun e => p e.1) m none h

/-- A key that no pair of the list names keeps its value. -/
theorem sget_ssetMany_other [DecidableEq α] (d : α) (b : Nat) : ∀ (l : List (Nat × α)) (m : Store α), swf d m = true →
    (∀ p ∈ l, p.1 ≠ b) → sget d (ssetMany d m l) b = sget d m b := by
  intro l
  induction l with
  | nil => intro m _ _; rfl
  | cons p t ih =>
    intro m h hp
    have h1 : p.1 ≠ b := hp p (by simp)
    show sget d (ssetMany d (sset d m p.1 p.2) t) b = _
    rw [ih _ (swf_sset d m _ _ h) (fun q hq => hp q (by simp [hq])), sget_sset_ne d m _ _ _ h (Ne.symm h1)]

end Sys2Proof.Machine
end

