-- ==== Sys2Proof/Laws/Memory.lean ====
section
/-! SUPPORT. Memory operations keep the canonical form, and register writes keep the canonical form of the register files. -/

namespace Sys2Proof

open Machine

/-! ### Home memory -/

/-- The parts of a state that the canonical form speaks of are those of another. -/
def SameStores (s t : State) : Prop := t.mem = s.mem ∧ t.utag = s.utag ∧ t.upoison = s.upoison ∧ t.tagTab = s.tagTab

theorem SameStores.ok {s t : State} (h : SameStores s t) (hs : StoresOk s) : StoresOk t := by
  obtain ⟨h1, h2, h3, h4⟩ := h
  unfold StoresOk
  rw [h1, h2, h3, h4]
  exact hs

theorem fireInj_stores (s : State) (a : Nat) : SameStores s (fireInj s a) := by
  unfold fireInj
  split
  · exact ⟨rfl, rfl, rfl, rfl⟩
  · dsimp only
    split <;> exact ⟨rfl, rfl, rfl, rfl⟩

theorem dropLatent_stores (s : State) (a : Nat) (w : Bool) : SameStores s (dropLatent s a w) := by
  unfold dropLatent
  split
  · exact ⟨rfl, rfl, rfl, rfl⟩
  · split <;> exact ⟨rfl, rfl, rfl, rfl⟩

/-- H(u) keeps the canonical form. -/
theorem applyWrite_ok (s : State) (wr : List (Nat × Byte)) (prop poison : Bool) (h : StoresOk s) : StoresOk (applyWrite s wr prop poison) := by
  unfold applyWrite
  split
  · exact h
  · refine (fireInj_stores _ _).ok ((dropLatent_stores _ _ _).ok ?_)
    exact ⟨swf_ssetMany _ _ _ h.1, swf_sset _ _ _ _ h.2.1, swf_sset _ _ _ _ h.2.2.1, h.2.2.2⟩

theorem foldl_keeps {β : Type} (P : State → Prop) (f : State → β → State) (h : ∀ s b, P s → P (f s b)) (l : List β) :
    ∀ s : State, P s → P (l.foldl f s) := by
  induction l with
  | nil => intro s hs; exact hs
  | cons b t ih => intro s hs; exact ih _ (h s b hs)

/-- So does performing every write that has arrived. -/
theorem settle_ok (s : State) (h : StoresOk s) : StoresOk (settle s) :=
  foldl_keeps StoresOk _ (fun s (w : Write) hs => applyWrite_ok s w.wr w.prop w.poison hs) s.homeQ s h

/-- So does an atomic at its place. -/
theorem performAtomic_ok (s : State) (e : Entry) (h : StoresOk s) : StoresOk (performAtomic s e).1 := by
  unfold performAtomic
  dsimp only
  split
  · exact settle_ok s h
  · exact applyWrite_ok _ _ _ _ (settle_ok s h)

theorem refillWindows_stores (s : State) (p : Place) : SameStores s (refillWindows s p) := by
  unfold refillWindows
  dsimp only
  split
  · exact ⟨rfl, rfl, rfl, rfl⟩
  · split <;> exact ⟨rfl, rfl, rfl, rfl⟩

/-- So does clearing a block's windows. -/
theorem clearWindows_ok (s : State) (p : Place) (h : StoresOk s) : StoresOk (clearWindows s p) := by
  unfold clearWindows
  refine (refillWindows_stores _ _).ok ?_
  unfold StoresOk Memory.wf at *
  dsimp only
  exact ⟨swf_sfilter _ _ _ h.1, swf_sfilter _ _ _ h.2.1, swf_sfilter _ _ _ h.2.2.1, swf_sfilter _ _ _ h.2.2.2⟩

/-- So does a write of a tag table's entry. -/
theorem setTagEntry_ok (s : State) (e v : Nat) (h : StoresOk s) : StoresOk (setTagEntry s e v) :=
  ⟨h.1, h.2.1, h.2.2.1, swf_sset _ _ _ _ h.2.2.2⟩

/-! ### Links -/

theorem sendOn_links (s : State) (g dir : Nat) (m : List Byte) : ∃ l, sendOn s g dir m = { s with links := l } := ⟨_, rfl⟩

/-- What is sent to a peer changes the links and nothing else. -/
theorem sendFlit_links (s : State) (m : List Byte) : ∃ l, sendFlit s m = { s with links := l } := by
  unfold sendFlit
  split
  · exact sendOn_links ..
  · exact ⟨s.links, rfl⟩

theorem foldl_links {β : Type} (f : State → β → State) (h : ∀ s b, ∃ l, f s b = { s with links := l }) (l : List β) :
    ∀ s : State, ∃ k, l.foldl f s = { s with links := k } := by
  induction l with
  | nil => intro s; exact ⟨s.links, rfl⟩
  | cons b t ih =>
    intro s
    obtain ⟨k, hk⟩ := h s b
    obtain ⟨m, hm⟩ := ih (f s b)
    exact ⟨m, by rw [List.foldl_cons, hm, hk]⟩

theorem sendBridge_links (s : State) (a b : Nat) (m : List Byte) : ∃ l, sendBridge s a b m = { s with links := l } :=
  foldl_links _ (fun (s : State) (h : Nat × Nat) => sendOn_links s (bridgeOf h.1 h.2) (bridgeDir h.1 h.2) m) ((routeOf s a b).getD []) s

/-- So does an access that crosses to another quarter. -/
theorem crossing_links (s : State) (q : Nat) (e : Entry) : ∃ l, crossing s q e = { s with links := l } := by
  unfold crossing
  dsimp only
  split
  · exact ⟨s.links, rfl⟩
  · obtain ⟨k, hk⟩ := sendBridge_links (takeNum s (quarterPair q (homeQuarter e.place))).1 q (homeQuarter e.place)
      (entryMsg q (homeQuarter e.place) (takeNum s (quarterPair q (homeQuarter e.place))).2 e)
    rw [hk]
    obtain ⟨l, hl⟩ := sendBridge_links _ (homeQuarter e.place) q _
    exact ⟨l, hl⟩

/-- So does an engine's write. -/
theorem placeWrite_ok (s : State) (c : Cmd) (wr : List (Nat × Byte)) (prop poison : Bool) (h : StoresOk s) :
    StoresOk (placeWrite s c wr prop poison) := by
  unfold placeWrite
  refine foldl_keeps StoresOk _ ?_ (byUnit wr) s h
  intro s u hs
  split
  · exact hs
  · split
    · exact hs
    · split
      · unfold peerWrite
        split
        · exact hs
        · dsimp only
          obtain ⟨l, hl⟩ := sendFlit_links (takeNum s (peerOf _)).1 (entryMsg Config.deviceNo (peerOf _) (takeNum s (peerOf _)).2
            { markerEntry .store with addr := _, size := _, wr := _, prop := prop, poison := poison })
          rw [hl]
          exact hs
      · refine applyWrite_ok _ _ _ _ (settle_ok _ ?_)
        dsimp only
        obtain ⟨l, hl⟩ := crossing_links s c.quarter { markerEntry .store with addr := _, size := _, wr := _, prop := prop, poison := poison }
        rw [hl]
        exact hs

theorem fireInj_tlb (s : State) (a : Nat) : (fireInj s a).tlb = s.tlb := by
  unfold fireInj
  split
  · rfl
  · dsimp only
    split <;> rfl

theorem dropLatent_tlb (s : State) (a : Nat) (w : Bool) : (dropLatent s a w).tlb = s.tlb := by
  unfold dropLatent
  split
  · rfl
  · split <;> rfl

/-- A write leaves the cached translations alone. -/
theorem applyWrite_tlb (s : State) (wr : List (Nat × Byte)) (prop poison : Bool) : (applyWrite s wr prop poison).tlb = s.tlb := by
  unfold applyWrite
  split
  · rfl
  · exact (fireInj_tlb _ _).trans (dropLatent_tlb _ _ _)

theorem foldl_tlb {β : Type} (f : State → β → State) (h : ∀ s b, (f s b).tlb = s.tlb) (l : List β) (s : State) : (l.foldl f s).tlb = s.tlb :=
  foldl_keeps (fun t => t.tlb = s.tlb) f (fun t b ht => (h t b).trans ht) l s rfl

/-- So does an engine's write. -/
theorem placeWrite_tlb (s : State) (c : Cmd) (wr : List (Nat × Byte)) (prop poison : Bool) : (placeWrite s c wr prop poison).tlb = s.tlb := by
  unfold placeWrite
  refine foldl_tlb _ (fun s u => ?_) (byUnit wr) s
  split
  · rfl
  · split
    · rfl
    · split
      · unfold peerWrite
        split
        · rfl
        · dsimp only
          obtain ⟨l, hl⟩ := sendFlit_links (takeNum s (peerOf _)).1 (entryMsg Config.deviceNo (peerOf _) (takeNum s (peerOf _)).2
            { markerEntry .store with addr := _, size := _, wr := _, prop := prop, poison := poison })
          rw [hl]
          rfl
      · dsimp only
        rw [applyWrite_tlb]
        obtain ⟨l, hl⟩ := crossing_links s c.quarter { markerEntry .store with addr := _, size := _, wr := _, prop := prop, poison := poison }
        rw [hl]
        exact foldl_tlb _ (fun (s : State) (w : Write) => applyWrite_tlb s w.wr w.prop w.poison) s.homeQ { s with links := l }

theorem logCore_tlb (s : State) (core w0 addr synd w3 : Nat) : (logCore s core w0 addr synd w3).tlb = s.tlb := by
  simp only [logCore]
theorem logDram_tlb (s : State) (q w0 addr synd w3 : Nat) : (logDram s q w0 addr synd w3).tlb = s.tlb := by
  simp only [logDram]
/-- So does a read that meets errors. -/
theorem touchBy_tlb (s : State) (who a : Nat) : (touchBy s who a).tlb = s.tlb := by
  have hl : ∀ (s : State) (l : Latent), (logRead s who l).tlb = s.tlb := by
    intro s l
    unfold logRead
    by_cases h : l.array < 0x10
    · exact (congrArg State.tlb (if_pos h)).trans (logCore_tlb ..)
    · exact (congrArg State.tlb (if_neg h)).trans (logDram_tlb ..)
  unfold touchBy
  split
  · rfl
  · dsimp only
    have hs : (if s.watching = true then { s with seen := unitOf a :: s.seen } else s : State).tlb = s.tlb := by split <;> rfl
    split
    · exact hs
    · refine (foldl_tlb _ (fun s l => ?_) _ _).trans hs
      by_cases h : (List.range 64).countP (fun i => l.bits.getLsbD i) ≥ 2
      · rw [if_pos h]; exact hl s l
      · rw [if_neg h]; exact hl s l

/-- A byte of memory after a write: the write's last byte for that place, or what stood there. -/
theorem applyWrite_mem (s : State) (wr : List (Nat × Byte)) (prop poison : Bool) : (applyWrite s wr prop poison).mem = ssetMany 0 s.mem wr := by
  unfold applyWrite
  split
  · rfl
  · rw [(fireInj_stores _ _).1, (dropLatent_stores _ _ _).1]

/-! ### Register files -/

theorem setS_ok (g : Group) (n : Nat) (v : Word) (t : Bool) (h : RegsOk g.r) : RegsOk (g.setS n v t).r := by
  unfold Group.setS
  split
  · exact h
  · obtain ⟨h1, h2, h3, h4⟩ := h
    exact ⟨swf_sset _ _ _ _ h1, swf_sset _ _ _ _ h2, swf_sset _ _ _ _ h3, h4⟩

theorem setV_ok (g : Group) (r l : Nat) (v : Elem) (t : Bool) (h : RegsOk g.r) : RegsOk (g.setV r l v t).r := by
  obtain ⟨h1, h2, h3, h4, h5, h6⟩ := h
  exact ⟨h1, h2, h3, swf_sset _ _ _ _ h4, swf_sset _ _ _ _ h5, h6⟩

theorem setK_ok (g : Group) (k : Nat) (v : BitVec 32) (t : Bool) (h : RegsOk g.r) : RegsOk (g.setK k v t).r := by
  unfold Group.setK
  split
  · exact h
  · obtain ⟨h1, h2, h3, h4, h5, h6, h7, h8⟩ := h
    exact ⟨h1, h2, h3, h4, h5, swf_sset _ _ _ _ h6, swf_sset _ _ _ _ h7, h8⟩

theorem setTile_ok (g : Group) (t : Nat) (l : List (BitVec 48)) (b : Bool) (h : RegsOk g.r) : RegsOk (g.setTile t l b).r := by
  obtain ⟨h1, h2, h3, h4, h5, h6, h7, h8, h9, h10⟩ := h
  exact ⟨h1, h2, h3, h4, h5, h6, h7, swf_ssetMany _ _ _ h8, swf_sset _ _ _ _ h9, h10⟩

theorem fillTile_ok (g : Group) (t e : Nat) (v : BitVec 48) (b : Bool) (h : RegsOk g.r) : RegsOk (g.fillTile t e v b).r := by
  obtain ⟨h1, h2, h3, h4, h5, h6, h7, h8, h9, h10⟩ := h
  refine ⟨h1, h2, h3, h4, h5, h6, h7, swf_sset _ _ _ _ h8, ?_, h10⟩
  show swf false (if b then sset false g.r.ttag t true else g.r.ttag) = true
  split
  · exact swf_sset _ _ _ _ h9
  · exact h9

theorem setD_ok (g : Group) (n l : Nat) (d : DElem) (h : RegsOk g.r) : RegsOk (g.setD n l d).r := by
  obtain ⟨h1, h2, h3, h4, h5, h6, h7, h8, h9, h10, h11⟩ := h
  exact ⟨h1, h2, h3, h4, h5, h6, h7, h8, h9, swf_sset _ _ _ _ h10, h11⟩

theorem bumpSrc_ok (g : Group) (l : Nat) (h : RegsOk g.r) : RegsOk (g.bumpSrc l).r := by
  obtain ⟨h1, h2, h3, h4, h5, h6, h7, h8, h9, h10, h11, h12⟩ := h
  exact ⟨h1, h2, h3, h4, h5, h6, h7, h8, h9, h10, swf_sset _ _ _ _ h11, h12⟩

theorem setTok_ok (g : Group) (t : Nat) (k : Token) (h : RegsOk g.r) : RegsOk (g.setTok t k).r := by
  obtain ⟨h1, h2, h3, h4, h5, h6, h7, h8, h9, h10, h11, h12⟩ := h
  exact ⟨h1, h2, h3, h4, h5, h6, h7, h8, h9, h10, h11, swf_sset _ _ _ _ h12⟩

/-! ### Reading a register just written -/

@[simp] theorem sval_setS_same (g : Group) (n : Nat) (v : Word) (t : Bool) (h : RegsOk g.r) (hn : n ≠ 0) : (g.setS n v t).sval n = v := by
  unfold Group.sval Group.setS
  simp only [if_neg hn]
  exact sget_sset_same _ _ _ _ h.1

@[simp] theorem stag_setS_same (g : Group) (n : Nat) (v : Word) (t : Bool) (h : RegsOk g.r) (hn : n ≠ 0) : (g.setS n v t).stag n = t := by
  unfold Group.stag Group.setS
  simp only [if_neg hn]
  exact sget_sset_same _ _ _ _ h.2.1

@[simp] theorem sval_setS_other (g : Group) (n m : Nat) (v : Word) (t : Bool) (h : RegsOk g.r) (hm : m ≠ n) :
    (g.setS n v t).sval m = g.sval m := by
  unfold Group.sval Group.setS
  split
  · rfl
  · split
    · rfl
    · exact sget_sset_ne _ _ _ _ _ h.1 hm

@[simp] theorem velem_setV_same (g : Group) (r l : Nat) (v : Elem) (t : Bool) (h : RegsOk g.r) : (g.setV r l v t).velem r l = v :=
  sget_sset_same _ _ _ _ h.2.2.2.1

@[simp] theorem pred_setK_same (g : Group) (k : Nat) (v : BitVec 32) (t : Bool) (h : RegsOk g.r) (hk : k ≠ 0) : (g.setK k v t).pred k = v := by
  unfold Group.pred Group.setK
  simp only [if_neg hk]
  exact sget_sset_same _ _ _ _ h.2.2.2.2.2.1

end Sys2Proof
end

