-- ==== Sys2Proof/Laws/PerInstr.lean ====
section
/-! SUPPORT. Each instruction stands in one stream, or is an event: its encoding exists in that stream and in no other. -/

namespace Sys2Proof.Laws.OneEncoding

/-- A scalar instruction has a scalar word and no lane word, a lane instruction the reverse, an event neither. -/
def Statement (i : Instr) : Prop :=
  (encodeScalar i).isSome = (!i.isLane && !i.isEvent) ∧ (encodeLane i).isSome = i.isLane ∧ (i.isLane && i.isEvent) = false

theorem sadd (sd sa sb : BitVec 6) : Statement (Instr.sadd sd sa sb) := ⟨rfl, rfl, rfl⟩
theorem ssub (sd sa sb : BitVec 6) : Statement (Instr.ssub sd sa sb) := ⟨rfl, rfl, rfl⟩
theorem sand (sd sa sb : BitVec 6) : Statement (Instr.sand sd sa sb) := ⟨rfl, rfl, rfl⟩
theorem sor (sd sa sb : BitVec 6) : Statement (Instr.sor sd sa sb) := ⟨rfl, rfl, rfl⟩
theorem sxor (sd sa sb : BitVec 6) : Statement (Instr.sxor sd sa sb) := ⟨rfl, rfl, rfl⟩
theorem sshl (sd sa sb : BitVec 6) : Statement (Instr.sshl sd sa sb) := ⟨rfl, rfl, rfl⟩
theorem sshr (sd sa sb : BitVec 6) : Statement (Instr.sshr sd sa sb) := ⟨rfl, rfl, rfl⟩
theorem ssra (sd sa sb : BitVec 6) : Statement (Instr.ssra sd sa sb) := ⟨rfl, rfl, rfl⟩
theorem smul (sd sa sb : BitVec 6) : Statement (Instr.smul sd sa sb) := ⟨rfl, rfl, rfl⟩
theorem smulhI (sd sa sb : BitVec 6) : Statement (Instr.smulhI sd sa sb) := ⟨rfl, rfl, rfl⟩
theorem smulhN (sd sa sb : BitVec 6) : Statement (Instr.smulhN sd sa sb) := ⟨rfl, rfl, rfl⟩
theorem sdivI (sd sa sb : BitVec 6) : Statement (Instr.sdivI sd sa sb) := ⟨rfl, rfl, rfl⟩
theorem sdivN (sd sa sb : BitVec 6) : Statement (Instr.sdivN sd sa sb) := ⟨rfl, rfl, rfl⟩
theorem sremI (sd sa sb : BitVec 6) : Statement (Instr.sremI sd sa sb) := ⟨rfl, rfl, rfl⟩
theorem sremN (sd sa sb : BitVec 6) : Statement (Instr.sremN sd sa sb) := ⟨rfl, rfl, rfl⟩
theorem sminI (sd sa sb : BitVec 6) : Statement (Instr.sminI sd sa sb) := ⟨rfl, rfl, rfl⟩
theorem smaxI (sd sa sb : BitVec 6) : Statement (Instr.smaxI sd sa sb) := ⟨rfl, rfl, rfl⟩
theorem sminN (sd sa sb : BitVec 6) : Statement (Instr.sminN sd sa sb) := ⟨rfl, rfl, rfl⟩
theorem smaxN (sd sa sb : BitVec 6) : Statement (Instr.smaxN sd sa sb) := ⟨rfl, rfl, rfl⟩
theorem sceq (sd sa sb : BitVec 6) : Statement (Instr.sceq sd sa sb) := ⟨rfl, rfl, rfl⟩
theorem scne (sd sa sb : BitVec 6) : Statement (Instr.scne sd sa sb) := ⟨rfl, rfl, rfl⟩
theorem scltI (sd sa sb : BitVec 6) : Statement (Instr.scltI sd sa sb) := ⟨rfl, rfl, rfl⟩
theorem scltN (sd sa sb : BitVec 6) : Statement (Instr.scltN sd sa sb) := ⟨rfl, rfl, rfl⟩
theorem scleI (sd sa sb : BitVec 6) : Statement (Instr.scleI sd sa sb) := ⟨rfl, rfl, rfl⟩
theorem scleN (sd sa sb : BitVec 6) : Statement (Instr.scleN sd sa sb) := ⟨rfl, rfl, rfl⟩
theorem spopc (sd sa : BitVec 6) : Statement (Instr.spopc sd sa) := ⟨rfl, rfl, rfl⟩
theorem sclz (sd sa : BitVec 6) : Statement (Instr.sclz sd sa) := ⟨rfl, rfl, rfl⟩
theorem sctz (sd sa : BitVec 6) : Statement (Instr.sctz sd sa) := ⟨rfl, rfl, rfl⟩
theorem saddi (sd sa : BitVec 6) (imm : BitVec 14) : Statement (Instr.saddi sd sa imm) := ⟨rfl, rfl, rfl⟩
theorem sandi (sd sa : BitVec 6) (imm : BitVec 14) : Statement (Instr.sandi sd sa imm) := ⟨rfl, rfl, rfl⟩
theorem sori (sd sa : BitVec 6) (imm : BitVec 14) : Statement (Instr.sori sd sa imm) := ⟨rfl, rfl, rfl⟩
theorem sxori (sd sa : BitVec 6) (imm : BitVec 14) : Statement (Instr.sxori sd sa imm) := ⟨rfl, rfl, rfl⟩
theorem sshli (sd sa : BitVec 6) (n : BitVec 6) : Statement (Instr.sshli sd sa n) := ⟨rfl, rfl, rfl⟩
theorem sshri (sd sa : BitVec 6) (n : BitVec 6) : Statement (Instr.sshri sd sa n) := ⟨rfl, rfl, rfl⟩
theorem ssrai (sd sa : BitVec 6) (n : BitVec 6) : Statement (Instr.ssrai sd sa n) := ⟨rfl, rfl, rfl⟩
theorem sli (sd : BitVec 6) (imm : BitVec 20) : Statement (Instr.sli sd imm) := ⟨rfl, rfl, rfl⟩
theorem slui (sd : BitVec 6) (imm : BitVec 20) : Statement (Instr.slui sd imm) := ⟨rfl, rfl, rfl⟩
theorem scmpi (sd sa : BitVec 6) (cond : BitVec 4) (m : BitVec 10) : Statement (Instr.scmpi sd sa cond m) := ⟨rfl, rfl, rfl⟩
theorem ssel (sd sa sb sc : BitVec 6) : Statement (Instr.ssel sd sa sb sc) := ⟨rfl, rfl, rfl⟩
theorem sldw (sd sa : BitVec 6) (imm : BitVec 14) : Statement (Instr.sldw sd sa imm) := ⟨rfl, rfl, rfl⟩
theorem sldd (sd sa : BitVec 6) (imm : BitVec 14) : Statement (Instr.sldd sd sa imm) := ⟨rfl, rfl, rfl⟩
theorem sstw (sd sa : BitVec 6) (imm : BitVec 14) : Statement (Instr.sstw sd sa imm) := ⟨rfl, rfl, rfl⟩
theorem sstd (sd sa : BitVec 6) (imm : BitVec 14) : Statement (Instr.sstd sd sa imm) := ⟨rfl, rfl, rfl⟩
theorem sldk (sd sa : BitVec 6) (imm : BitVec 14) : Statement (Instr.sldk sd sa imm) := ⟨rfl, rfl, rfl⟩
theorem br (cond : BitVec 4) (sa : BitVec 6) (off : BitVec 16) : Statement (Instr.br cond sa off) := ⟨rfl, rfl, rfl⟩
theorem call (sd : BitVec 6) (imm : BitVec 20) : Statement (Instr.call sd imm) := ⟨rfl, rfl, rfl⟩
theorem jmpr (sd sa : BitVec 6) : Statement (Instr.jmpr sd sa) := ⟨rfl, rfl, rfl⟩
theorem lissue (nm1 : BitVec 4) (index : LIdx) : Statement (Instr.lissue nm1 index) := ⟨rfl, rfl, rfl⟩
theorem lrun (index : LIdx) : Statement (Instr.lrun index) := ⟨rfl, rfl, rfl⟩
theorem lwait : Statement (Instr.lwait) := ⟨rfl, rfl, rfl⟩
theorem smfs (sd : BitVec 6) (id : BitVec 12) : Statement (Instr.smfs sd id) := ⟨rfl, rfl, rfl⟩
theorem smts (sa : BitVec 6) (id : BitVec 12) : Statement (Instr.smts sa id) := ⟨rfl, rfl, rfl⟩
theorem barSync (sa : BitVec 6) (level : BitVec 3) (num : BitVec 4) : Statement (Instr.barSync sa level num) := ⟨rfl, rfl, rfl⟩
theorem barArrive (sa : BitVec 6) (level : BitVec 3) (num : BitVec 4) : Statement (Instr.barArrive sa level num) := ⟨rfl, rfl, rfl⟩
theorem barWait (sa : BitVec 6) (level : BitVec 3) (num : BitVec 4) : Statement (Instr.barWait sa level num) := ⟨rfl, rfl, rfl⟩
theorem yld : Statement (Instr.yld) := ⟨rfl, rfl, rfl⟩
theorem ftest (sd sa : BitVec 6) : Statement (Instr.ftest sd sa) := ⟨rfl, rfl, rfl⟩
theorem fcancel (sa : BitVec 6) : Statement (Instr.fcancel sa) := ⟨rfl, rfl, rfl⟩
theorem fpass (sd sa : BitVec 6) : Statement (Instr.fpass sd sa) := ⟨rfl, rfl, rfl⟩
theorem copy (sa : BitVec 6) (tok : BitVec 3) : Statement (Instr.copy sa tok) := ⟨rfl, rfl, rfl⟩
theorem copymm (sa : BitVec 6) (tile : BitVec 4) (tok : BitVec 3) : Statement (Instr.copymm sa tile tok) := ⟨rfl, rfl, rfl⟩
theorem fixline (sa : BitVec 6) (chan : BitVec 1) (tok : BitVec 3) : Statement (Instr.fixline sa chan tok) := ⟨rfl, rfl, rfl⟩
theorem taglk (sd sa : BitVec 6) : Statement (Instr.taglk sd sa) := ⟨rfl, rfl, rfl⟩
theorem tagset (sd sa : BitVec 6) : Statement (Instr.tagset sd sa) := ⟨rfl, rfl, rfl⟩
theorem taginv (sd sa : BitVec 6) : Statement (Instr.taginv sd sa) := ⟨rfl, rfl, rfl⟩
theorem satom (sd sa sb : BitVec 6) (space : BitVec 1) (opn : BitVec 3) (ret : BitVec 1) (typ : BitVec 3) : Statement (Instr.satom sd sa sb space opn ret typ) := ⟨rfl, rfl, rfl⟩
theorem fenceAcq (scope : BitVec 3) : Statement (Instr.fenceAcq scope) := ⟨rfl, rfl, rfl⟩
theorem fenceRel (scope : BitVec 3) : Statement (Instr.fenceRel scope) := ⟨rfl, rfl, rfl⟩
theorem fenceAcqrel (scope : BitVec 3) : Statement (Instr.fenceAcqrel scope) := ⟨rfl, rfl, rfl⟩
theorem fenceAll (scope : BitVec 3) : Statement (Instr.fenceAll scope) := ⟨rfl, rfl, rfl⟩
theorem tlwait (sd sa sb : BitVec 6) : Statement (Instr.tlwait sd sa sb) := ⟨rfl, rfl, rfl⟩
theorem tladv (sd sa : BitVec 6) : Statement (Instr.tladv sd sa) := ⟨rfl, rfl, rfl⟩
theorem dcor (sd sa : BitVec 6) : Statement (Instr.dcor sd sa) := ⟨rfl, rfl, rfl⟩
theorem pkq (sd sa : BitVec 6) : Statement (Instr.pkq sd sa) := ⟨rfl, rfl, rfl⟩
theorem nmop (sd sa : BitVec 6) : Statement (Instr.nmop sd sa) := ⟨rfl, rfl, rfl⟩
theorem spg (sd sa : BitVec 6) : Statement (Instr.spg sd sa) := ⟨rfl, rfl, rfl⟩
theorem kick (sd sa : BitVec 6) : Statement (Instr.kick sd sa) := ⟨rfl, rfl, rfl⟩
theorem trap (code : BitVec 14) : Statement (Instr.trap code) := ⟨rfl, rfl, rfl⟩
theorem eret : Statement (Instr.eret) := ⟨rfl, rfl, rfl⟩
theorem sysAsidbase (sd sa : BitVec 6) : Statement (Instr.sysAsidbase sd sa) := ⟨rfl, rfl, rfl⟩
theorem sysGenstep (sd sa : BitVec 6) : Statement (Instr.sysGenstep sd sa) := ⟨rfl, rfl, rfl⟩
theorem sysTinv (sd sa : BitVec 6) : Statement (Instr.sysTinv sd sa) := ⟨rfl, rfl, rfl⟩
theorem sysTinvall (sd sa : BitVec 6) : Statement (Instr.sysTinvall sd sa) := ⟨rfl, rfl, rfl⟩
theorem endGroup : Statement (Instr.endGroup) := ⟨rfl, rfl, rfl⟩
theorem sltag (sd sa : BitVec 6) : Statement (Instr.sltag sd sa) := ⟨rfl, rfl, rfl⟩
theorem sltagMem (sd sa : BitVec 6) : Statement (Instr.sltagMem sd sa) := ⟨rfl, rfl, rfl⟩
theorem sltagSp (sd sa : BitVec 6) : Statement (Instr.sltagSp sd sa) := ⟨rfl, rfl, rfl⟩
theorem vadd (w : LWord) : Statement (Instr.vadd w) := ⟨rfl, rfl, rfl⟩
theorem vsub (w : LWord) : Statement (Instr.vsub w) := ⟨rfl, rfl, rfl⟩
theorem vmul (w : LWord) : Statement (Instr.vmul w) := ⟨rfl, rfl, rfl⟩
theorem vmulh (w : LWord) : Statement (Instr.vmulh w) := ⟨rfl, rfl, rfl⟩
theorem vmad (w : LWord) : Statement (Instr.vmad w) := ⟨rfl, rfl, rfl⟩
theorem vand (w : LWord) : Statement (Instr.vand w) := ⟨rfl, rfl, rfl⟩
theorem vor (w : LWord) : Statement (Instr.vor w) := ⟨rfl, rfl, rfl⟩
theorem vxor (w : LWord) : Statement (Instr.vxor w) := ⟨rfl, rfl, rfl⟩
theorem vshl (w : LWord) : Statement (Instr.vshl w) := ⟨rfl, rfl, rfl⟩
theorem vshr (w : LWord) : Statement (Instr.vshr w) := ⟨rfl, rfl, rfl⟩
theorem vsra (w : LWord) : Statement (Instr.vsra w) := ⟨rfl, rfl, rfl⟩
theorem vmin (w : LWord) : Statement (Instr.vmin w) := ⟨rfl, rfl, rfl⟩
theorem vmax (w : LWord) : Statement (Instr.vmax w) := ⟨rfl, rfl, rfl⟩
theorem vcmp (w : LWord) : Statement (Instr.vcmp w) := ⟨rfl, rfl, rfl⟩
theorem vsel (w : LWord) : Statement (Instr.vsel w) := ⟨rfl, rfl, rfl⟩
theorem vmovi (w : LWord) : Statement (Instr.vmovi w) := ⟨rfl, rfl, rfl⟩
theorem fadd (w : LWord) : Statement (Instr.fadd w) := ⟨rfl, rfl, rfl⟩
theorem fsub (w : LWord) : Statement (Instr.fsub w) := ⟨rfl, rfl, rfl⟩
theorem fmul (w : LWord) : Statement (Instr.fmul w) := ⟨rfl, rfl, rfl⟩
theorem ffma (w : LWord) : Statement (Instr.ffma w) := ⟨rfl, rfl, rfl⟩
theorem fmin (w : LWord) : Statement (Instr.fmin w) := ⟨rfl, rfl, rfl⟩
theorem fmax (w : LWord) : Statement (Instr.fmax w) := ⟨rfl, rfl, rfl⟩
theorem fcmp (w : LWord) : Statement (Instr.fcmp w) := ⟨rfl, rfl, rfl⟩
theorem frcp (w : LWord) : Statement (Instr.frcp w) := ⟨rfl, rfl, rfl⟩
theorem frsq (w : LWord) : Statement (Instr.frsq w) := ⟨rfl, rfl, rfl⟩
theorem fsqrt (w : LWord) : Statement (Instr.fsqrt w) := ⟨rfl, rfl, rfl⟩
theorem fexp2 (w : LWord) : Statement (Instr.fexp2 w) := ⟨rfl, rfl, rfl⟩
theorem flog2 (w : LWord) : Statement (Instr.flog2 w) := ⟨rfl, rfl, rfl⟩
theorem vcvt (w : LWord) : Statement (Instr.vcvt w) := ⟨rfl, rfl, rfl⟩
theorem vqnt (w : LWord) : Statement (Instr.vqnt w) := ⟨rfl, rfl, rfl⟩
theorem vdq (w : LWord) : Statement (Instr.vdq w) := ⟨rfl, rfl, rfl⟩
theorem vhad (w : LWord) : Statement (Instr.vhad w) := ⟨rfl, rfl, rfl⟩
theorem vrng (w : LWord) : Statement (Instr.vrng w) := ⟨rfl, rfl, rfl⟩
theorem vshf (w : LWord) : Statement (Instr.vshf w) := ⟨rfl, rfl, rfl⟩
theorem vred (w : LWord) : Statement (Instr.vred w) := ⟨rfl, rfl, rfl⟩
theorem vscan (w : LWord) : Statement (Instr.vscan w) := ⟨rfl, rfl, rfl⟩
theorem vbal (w : LWord) : Statement (Instr.vbal w) := ⟨rfl, rfl, rfl⟩
theorem vxts (w : LWord) : Statement (Instr.vxts w) := ⟨rfl, rfl, rfl⟩
theorem vld (w : LWord) : Statement (Instr.vld w) := ⟨rfl, rfl, rfl⟩
theorem vst (w : LWord) : Statement (Instr.vst w) := ⟨rfl, rfl, rfl⟩
theorem vlds (w : LWord) : Statement (Instr.vlds w) := ⟨rfl, rfl, rfl⟩
theorem vsts (w : LWord) : Statement (Instr.vsts w) := ⟨rfl, rfl, rfl⟩
theorem vatom (w : LWord) : Statement (Instr.vatom w) := ⟨rfl, rfl, rfl⟩
theorem vrds (w : LWord) : Statement (Instr.vrds w) := ⟨rfl, rfl, rfl⟩
theorem lbr (w : LbrWord) : Statement (Instr.lbr w) := ⟨rfl, rfl, rfl⟩
theorem lend (w : LWord) : Statement (Instr.lend w) := ⟨rfl, rfl, rfl⟩
theorem lmask (w : LWord) : Statement (Instr.lmask w) := ⟨rfl, rfl, rfl⟩
theorem vprop (w : LWord) : Statement (Instr.vprop w) := ⟨rfl, rfl, rfl⟩
theorem vtag (w : LWord) : Statement (Instr.vtag w) := ⟨rfl, rfl, rfl⟩
theorem dacc (w : LWord) : Statement (Instr.dacc w) := ⟨rfl, rfl, rfl⟩
theorem dsum (w : LWord) : Statement (Instr.dsum w) := ⟨rfl, rfl, rfl⟩
theorem dapply (w : LWord) : Statement (Instr.dapply w) := ⟨rfl, rfl, rfl⟩
theorem mma (w : LWord) : Statement (Instr.mma w) := ⟨rfl, rfl, rfl⟩
theorem mzero (w : LWord) : Statement (Instr.mzero w) := ⟨rfl, rfl, rfl⟩
theorem mrda (w : LWord) : Statement (Instr.mrda w) := ⟨rfl, rfl, rfl⟩
theorem mwra (w : LWord) : Statement (Instr.mwra w) := ⟨rfl, rfl, rfl⟩
theorem mtld (w : LWord) : Statement (Instr.mtld w) := ⟨rfl, rfl, rfl⟩
theorem mspl (w : LWord) : Statement (Instr.mspl w) := ⟨rfl, rfl, rfl⟩
theorem mfil (w : LWord) : Statement (Instr.mfil w) := ⟨rfl, rfl, rfl⟩
theorem genbeg (w : GenbegWord) : Statement (Instr.genbeg w) := ⟨rfl, rfl, rfl⟩
theorem yield (w : LWord) : Statement (Instr.yield w) := ⟨rfl, rfl, rfl⟩
theorem gstep (w : LWord) : Statement (Instr.gstep w) := ⟨rfl, rfl, rfl⟩
theorem cpop (w : LWord) : Statement (Instr.cpop w) := ⟨rfl, rfl, rfl⟩
theorem genend (w : LWord) : Statement (Instr.genend w) := ⟨rfl, rfl, rfl⟩
theorem loadPerforms (g : GroupKey) (k : Nat) : Statement (Instr.loadPerforms g k) := ⟨rfl, rfl, rfl⟩
theorem writeLeaves (g : GroupKey) (k : Nat) : Statement (Instr.writeLeaves g k) := ⟨rfl, rfl, rfl⟩
theorem writeDrains (g : GroupKey) (kind : PKind) (k : Nat) : Statement (Instr.writeDrains g kind k) := ⟨rfl, rfl, rfl⟩
theorem corePointDrains (k : Nat) : Statement (Instr.corePointDrains k) := ⟨rfl, rfl, rfl⟩
theorem homePerforms (k : Nat) : Statement (Instr.homePerforms k) := ⟨rfl, rfl, rfl⟩
theorem placePerforms (g : GroupKey) (k : Nat) : Statement (Instr.placePerforms g k) := ⟨rfl, rfl, rfl⟩
theorem markerPerforms (g : GroupKey) (k : Nat) : Statement (Instr.markerPerforms g k) := ⟨rfl, rfl, rfl⟩
theorem tableWalk (core asid gen : Nat) (va : Word) : Statement (Instr.tableWalk core asid gen va) := ⟨rfl, rfl, rfl⟩
theorem copyEngineStep (cmd k : Nat) (reading : Bool) : Statement (Instr.copyEngineStep cmd k reading) := ⟨rfl, rfl, rfl⟩
theorem copyCompletes (cmd : Nat) : Statement (Instr.copyCompletes cmd) := ⟨rfl, rfl, rfl⟩
theorem copymmFollowOn (cmd : Nat) : Statement (Instr.copymmFollowOn cmd) := ⟨rfl, rfl, rfl⟩
theorem fixedLineAnchor (cmd : Nat) : Statement (Instr.fixedLineAnchor cmd) := ⟨rfl, rfl, rfl⟩
theorem sparseGatherStep (cmd : Nat) : Statement (Instr.sparseGatherStep cmd) := ⟨rfl, rfl, rfl⟩
theorem engineCommandCompletes (cmd : Nat) : Statement (Instr.engineCommandCompletes cmd) := ⟨rfl, rfl, rfl⟩
theorem stackRecordRead (cmd : Nat) : Statement (Instr.stackRecordRead cmd) := ⟨rfl, rfl, rfl⟩
theorem afterSatisfied (cmd : Nat) : Statement (Instr.afterSatisfied cmd) := ⟨rfl, rfl, rfl⟩
theorem gemvColumnAccess (cmd bank : Nat) : Statement (Instr.gemvColumnAccess cmd bank) := ⟨rfl, rfl, rfl⟩
theorem gemvRowBlockCombine (cmd : Nat) : Statement (Instr.gemvRowBlockCombine cmd) := ⟨rfl, rfl, rfl⟩
theorem allBankSliceEnd (cmd : Nat) : Statement (Instr.allBankSliceEnd cmd) := ⟨rfl, rfl, rfl⟩
theorem adamElementUpdate (cmd : Nat) : Statement (Instr.adamElementUpdate cmd) := ⟨rfl, rfl, rfl⟩
theorem dcorPass (p : PassStep) : Statement (Instr.dcorPass p) := ⟨rfl, rfl, rfl⟩
theorem dcorExternWait (cmd : Nat) : Statement (Instr.dcorExternWait cmd) := ⟨rfl, rfl, rfl⟩
theorem dcorDeadlineExpiry (cmd : Nat) : Statement (Instr.dcorDeadlineExpiry cmd) := ⟨rfl, rfl, rfl⟩
theorem pkqQuery (cmd : Nat) : Statement (Instr.pkqQuery cmd) := ⟨rfl, rfl, rfl⟩
theorem pkqScatter (cmd : Nat) : Statement (Instr.pkqScatter cmd) := ⟨rfl, rfl, rfl⟩
theorem kickRegisterWrite (slot : Nat) (patch : Word) : Statement (Instr.kickRegisterWrite slot patch) := ⟨rfl, rfl, rfl⟩
theorem taskAdmit (task : Nat) : Statement (Instr.taskAdmit task) := ⟨rfl, rfl, rfl⟩
theorem bindLaunch (rec : Nat) : Statement (Instr.bindLaunch rec) := ⟨rfl, rfl, rfl⟩
theorem bindRestore (rec : Nat) : Statement (Instr.bindRestore rec) := ⟨rfl, rfl, rfl⟩
theorem bindSave (rec : Nat) : Statement (Instr.bindSave rec) := ⟨rfl, rfl, rfl⟩
theorem memberMessageDelivery (k : Nat) : Statement (Instr.memberMessageDelivery k) := ⟨rfl, rfl, rfl⟩
theorem starvationBound (g : GroupKey) : Statement (Instr.starvationBound g) := ⟨rfl, rfl, rfl⟩
theorem rowTest (core e : Nat) (lasting : Bool) : Statement (Instr.rowTest core e lasting) := ⟨rfl, rfl, rfl⟩
theorem dramRowTest (q e : Nat) (lasting : Bool) : Statement (Instr.dramRowTest q e lasting) := ⟨rfl, rfl, rfl⟩
theorem hostMemRead (addr size : Nat) : Statement (Instr.hostMemRead addr size) := ⟨rfl, rfl, rfl⟩
theorem hostMemWrite (addr : Nat) (bytes : List Byte) (poison : Bool) : Statement (Instr.hostMemWrite addr bytes poison) := ⟨rfl, rfl, rfl⟩
theorem hostAtomic (addr size : Nat) (opn typ : BitVec 3) (data cmp : Word) : Statement (Instr.hostAtomic addr size opn typ data cmp) := ⟨rfl, rfl, rfl⟩
theorem hostChanWrite (set : Nat) (anchor : Word) : Statement (Instr.hostChanWrite set anchor) := ⟨rfl, rfl, rfl⟩
theorem errorLogFree (q e : Nat) : Statement (Instr.errorLogFree q e) := ⟨rfl, rfl, rfl⟩
theorem linkStatusClear (g : Nat) (ones : Word) : Statement (Instr.linkStatusClear g ones) := ⟨rfl, rfl, rfl⟩
theorem registerWrite (off size : Nat) (v : Word) : Statement (Instr.registerWrite off size v) := ⟨rfl, rfl, rfl⟩
theorem svcAttest : Statement (Instr.svcAttest) := ⟨rfl, rfl, rfl⟩
theorem svcConditionReport : Statement (Instr.svcConditionReport) := ⟨rfl, rfl, rfl⟩
theorem svcReadConfig : Statement (Instr.svcReadConfig) := ⟨rfl, rfl, rfl⟩
theorem svcReadAmendment (arg : BitVec 32) : Statement (Instr.svcReadAmendment arg) := ⟨rfl, rfl, rfl⟩
theorem svcBadOperation (op : BitVec 8) : Statement (Instr.svcBadOperation op) := ⟨rfl, rfl, rfl⟩
theorem svcCommandDone : Statement (Instr.svcCommandDone) := ⟨rfl, rfl, rfl⟩
theorem groupFlitReceive (rg dir : Nat) (flits : List RailFlit) : Statement (Instr.groupFlitReceive rg dir flits) := ⟨rfl, rfl, rfl⟩
theorem nakReceive (rg dir : Nat) (nseq : BitVec 8) : Statement (Instr.nakReceive rg dir nseq) := ⟨rfl, rfl, rfl⟩
theorem laneFailure (rg rail : Nat) : Statement (Instr.laneFailure rg rail) := ⟨rfl, rfl, rfl⟩
theorem repairPauseEnd (rg rail : Nat) : Statement (Instr.repairPauseEnd rg rail) := ⟨rfl, rfl, rfl⟩
theorem railLost (rg rail : Nat) : Statement (Instr.railLost rg rail) := ⟨rfl, rfl, rfl⟩
theorem remoteRequest (src : Nat) (num : BitVec 16) (r : RemoteReq) : Statement (Instr.remoteRequest src num r) := ⟨rfl, rfl, rfl⟩
theorem remoteResponse (k : Nat) (data : Word) (prop poison : Bool) : Statement (Instr.remoteResponse k data prop poison) := ⟨rfl, rfl, rfl⟩
theorem targetUnreachable (dev : Nat) : Statement (Instr.targetUnreachable dev) := ⟨rfl, rfl, rfl⟩
theorem releaseMessage (dev : Nat) (stream : BitVec 32) : Statement (Instr.releaseMessage dev stream) := ⟨rfl, rfl, rfl⟩
theorem powerOn : Statement (Instr.powerOn) := ⟨rfl, rfl, rfl⟩
theorem leafIndexWritten : Statement (Instr.leafIndexWritten) := ⟨rfl, rfl, rfl⟩
theorem wearAmendmentWrite : Statement (Instr.wearAmendmentWrite) := ⟨rfl, rfl, rfl⟩
theorem powerLoss : Statement (Instr.powerLoss) := ⟨rfl, rfl, rfl⟩
theorem guardBandStep (q : Nat) (kind : WearKind) (index : Nat) (wear : BitVec 16) (mark : Bool) : Statement (Instr.guardBandStep q kind index wear mark) := ⟨rfl, rfl, rfl⟩
theorem droopResponse (q : Nat) (kind : WearKind) (index : Nat) : Statement (Instr.droopResponse q kind index) := ⟨rfl, rfl, rfl⟩
theorem notAnInstruction (lane : Bool) (w : BitVec 96) : Statement (Instr.notAnInstruction lane w) := ⟨rfl, rfl, rfl⟩
theorem softError (array core addr : Nat) (bits : Word) : Statement (Instr.softError array core addr bits) := ⟨rfl, rfl, rfl⟩
theorem hostCxlCompletion (k : Nat) : Statement (Instr.hostCxlCompletion k) := ⟨rfl, rfl, rfl⟩

end Sys2Proof.Laws.OneEncoding
end

