-- ==== Sys2Proof/Tests/Slice0.lean ====
section
/-! SUPPORT. Tests: ill-formed terms, words of the spec's encodings, single steps, and a witness for each statement's hypotheses. -/

namespace Sys2Proof.Tests

open Machine
set_option Elab.async false

/-! ### Ill-formed terms -/

/-- A lane word of zeros but for its type. -/
def lw (ty : BitVec 5) : LWord :=
  { vd := 0, va := 0, vb := 0, vc := 0, ty := ty, rm := 0, sat := 0, pn := 0, pk := 0, wt := 0, tg := 0, bk := 0, ck := 0, mod8 := 0, imm := 0 }

theorem test_wf_scmpi_condition : (Instr.scmpi 1 2 10 0).wf = false ∧ (Instr.scmpi 1 2 9 0).wf = true := by decide
theorem test_wf_branch_condition : (Instr.br 7 1 0).wf = false ∧ (Instr.br 0 1 0).wf = false ∧ (Instr.br 0 0 0).wf = true ∧ (Instr.br 6 1 0).wf = true := by decide
theorem test_wf_barrier_level : (Instr.barSync 0 5 0).wf = false ∧ (Instr.barArrive 0 5 0).wf = false ∧ (Instr.barWait 0 5 0).wf = false := by decide
theorem test_wf_satom : (Instr.satom 1 2 3 0 0 1 5).wf = false ∧ (Instr.satom 1 2 3 0 7 1 2).wf = false ∧ (Instr.satom 1 2 3 0 0 1 4).wf = false ∧
    (Instr.satom 1 2 3 0 5 0 2).wf = false ∧ (Instr.satom 1 2 3 0 0 0 2).wf = false ∧ (Instr.satom 0 2 3 0 0 0 2).wf = true := by decide
theorem test_wf_fence_scope : (Instr.fenceAcq 5).wf = false ∧ (Instr.fenceRel 6).wf = false ∧ (Instr.fenceAcqrel 7).wf = false ∧ (Instr.fenceAll 5).wf = false := by decide
theorem test_wf_lbr_tag : (Instr.lbr ⟨0, 0, 0, 0, 2, 0⟩).wf = false ∧ (Instr.lbr ⟨0, 0, 0, 0, 1, 0⟩).wf = true := by decide
theorem test_wf_genbeg : (Instr.genbeg ⟨0, 0, 2, 31, 0, 0, 0⟩).wf = false ∧ (Instr.genbeg ⟨0, 1, 0, 31, 0, 0, 0⟩).wf = false ∧
    (Instr.genbeg ⟨0, 1, 1, 31, 0, 0, 0⟩).wf = false ∧ (Instr.genbeg ⟨0, 1, 2, 31, 33, 0, 0⟩).wf = false ∧ (Instr.genbeg ⟨0, 1, 2, 31, 32, 0, 0⟩).wf = true := by decide
theorem test_wf_common : (Instr.vadd { lw 2 with rm := 7 }).wf = false ∧ (Instr.vadd { lw 2 with sat := 3 }).wf = false ∧ (Instr.vadd { lw 2 with tg := 3 }).wf = false ∧
    (Instr.vadd { lw 2 with bk := 3 }).wf = false ∧ (Instr.vmad { lw 2 with ck := 3 }).wf = false ∧ (Instr.vmad { lw 2 with bk := 2, ck := 2 }).wf = false ∧
    (Instr.vadd (lw 2)).wf = true := by decide
theorem test_wf_type : (Instr.vadd (lw 10)).wf = false ∧ (Instr.fadd (lw 2)).wf = false ∧ (Instr.frcp (lw 11)).wf = false ∧ (Instr.vcmp (lw 0)).wf = false := by decide
theorem test_wf_unused_operand : (Instr.vadd { lw 2 with vc := 1 }).wf = false ∧ (Instr.frcp { lw 10 with vb := 1 }).wf = false ∧ (Instr.vmovi { lw 2 with va := 1 }).wf = false := by decide
theorem test_wf_scalar_field : (Instr.vadd { lw 2 with bk := 1, vb := 64 }).wf = false ∧ (Instr.vadd { lw 2 with bk := 1, vb := 63 }).wf = true := by decide
theorem test_wf_predicate_field : (Instr.vcmp (lw 2)).wf = false ∧ (Instr.vcmp { lw 2 with vd := 8 }).wf = false ∧ (Instr.vcmp { lw 2 with vd := 7 }).wf = true := by decide
theorem test_wf_mod8 : (Instr.vcmp { lw 2 with vd := 1, mod8 := 6 }).wf = false ∧ (Instr.vadd { lw 2 with mod8 := 1 }).wf = false ∧
    (Instr.vadd { lw 2 with mod8 := 15, sat := 2 }).wf = true := by decide
theorem test_wf_immediate : (Instr.vadd { lw 2 with imm := 1 }).wf = false ∧ (Instr.fadd { lw 10 with bk := 2, imm := 0x10000 }).wf = false ∧
    (Instr.fadd { lw 10 with bk := 2, imm := 0xFFFF }).wf = true := by decide
theorem test_wf_pairs : (Instr.vadd { lw 3 with vd := 1 }).wf = false ∧ (Instr.vadd { lw 3 with vd := 254 }).wf = true ∧ (Instr.mwra { lw 10 with va := 225 }).wf = false := by decide
theorem test_wf_tiles : (Instr.mzero { lw 0 with vd := 16 }).wf = false ∧ (Instr.mzero { lw 0 with vd := 15, mod8 := 1 }).wf = false ∧ (Instr.mzero { lw 0 with vd := 15 }).wf = true := by decide
theorem test_wf_fixed_accumulator : (Instr.dacc { lw 10 with vd := 4 }).wf = false ∧ (Instr.dacc { lw 10 with vd := 3 }).wf = true ∧ (Instr.dapply { lw 10 with tg := 1 }).wf = false := by decide
theorem test_wf_atomic : (Instr.vatom { lw 10 with mod8 := 0x00 }).wf = false ∧ (Instr.vrds { lw 2 with mod8 := 0x60 }).wf = false ∧ (Instr.vatom { lw 2 with mod8 := 0x60 }).wf = true := by decide
theorem test_wf_conversion : (Instr.vcvt { lw 6 with mod8 := 0x42, rm := 1 }).wf = false ∧ (Instr.vcvt { lw 10 with mod8 := 31 }).wf = false := by decide
theorem test_wf_predication : (Instr.mzero { lw 0 with pk := 1 }).wf = false ∧ (Instr.lend { lw 0 with pn := 1 }).wf = false ∧ (Instr.cpop { lw 0 with mod8 := 4 }).wf = false := by decide

/-! ### Words that the spec writes out -/

/-- R155, R156, R176, and the tables of the chapter on encoding. -/
theorem test_decode_scalar_formats : (decodeScalar 0x04304200).toOption = some (.sadd 3 1 2) ∧ (decodeScalar 0x4089FFFD).toOption = some (.br 2 9 0xFFFD) ∧
    (decodeScalar 0x58400001).toOption = some (.smfs 4 1) ∧ (decodeScalar 0x4C400003).toOption = some (.lissue 1 3) ∧ (decodeScalar 0x08000000).toOption = some (.saddi 0 0 0) := by decide
/-- R166. -/
theorem test_decode_immediates : (decodeScalar 0x1C400000).toOption = some (.sli 4 0) ∧ (decodeScalar 0x204ABCDE).toOption = some (.slui 4 0xABCDE) ∧
    (decodeScalar 0x24604BFB).toOption = some (.scmpi 6 1 2 0x3FB) ∧ (decodeScalar 0x18514003).toOption = some (.sshli 5 5 3) := by decide
/-- R171, R175, R178. -/
theorem test_decode_control : (decodeScalar 0x47F0000A).toOption = some (.call 63 10) ∧ (decodeScalar 0x480FC000).toOption = some (.jmpr 0 63) ∧
    (decodeScalar 0x5C024002).toOption = some (.smts 9 2) ∧ (decodeScalar 0x60000803).toOption = some (.barSync 0 1 3) := by decide
/-- R184, R188 to R190, R196, R199. -/
theorem test_decode_commands : (decodeScalar 0x74010002).toOption = some (.copy 4 2) ∧ (decodeScalar 0x78010011).toOption = some (.copymm 4 2 1) ∧
    (decodeScalar 0x7C010001).toOption = some (.fixline 4 0 1) ∧ (decodeScalar 0xA9410000).toOption = some (.spg 20 4) ∧ (decodeScalar 0x71550000).toOption = some (.fpass 21 20) ∧
    (decodeScalar 0x94018700).toOption = some (.tlwait 0 6 7) ∧ (decodeScalar 0x98014000).toOption = some (.tladv 0 5) := by decide
/-- R207, R208, R210, R212, R213. -/
theorem test_decode_system : (decodeScalar 0x8090C000).toOption = some (.taglk 9 3) ∧ (decodeScalar 0x8C808509).toOption = some (.satom 8 2 5 0 0 1 1) ∧
    (decodeScalar 0x9000000D).toOption = some (.fenceRel 3) ∧ (decodeScalar 0x9000000F).toOption = some (.fenceAll 3) ∧ (decodeScalar 0xB0000012).toOption = some (.trap 0x12) ∧
    (decodeScalar 0xB4000000).toOption = some .eret := by decide
/-- R151. -/
theorem test_decode_refused : (decodeScalar 0).toOption = none ∧ (decodeScalar 0x00000001).toOption = none ∧ (decodeScalar 0xC4000000).toOption = none ∧
    (decodeScalar 0xFC000000).toOption = none ∧ (decodeLane 0).toOption = none ∧ (decodeLane 0x410000000000000000000000).toOption = none := by decide

/-- The lane words of the spec's chapters on integers, floats, memory, control, tags, accumulators, matrices and generators. -/
theorem test_decode_lane_arith : (decodeLane 0x110301020051000000000000).toOption = some (.fadd { lw 10 with vd := 3, va := 1, vb := 2, rm := 1 }) ∧
    (decodeLane 0x100800000010000080000001).toOption = some (.vmovi { lw 2 with vd := 8, bk := 2, imm := 1 }) ∧
    (decodeLane 0x020707000010000080000001).toOption = some (.vsub { lw 2 with vd := 7, va := 7, bk := 2, imm := 1 }) ∧
    (decodeLane 0x0E0109000010000080000000).toOption = some (.vcmp { lw 2 with vd := 1, va := 9, bk := 2 }) ∧
    (decodeLane 0x070000000010200000000000).toOption = some (.vor { lw 2 with pn := 1 }) := by decide
theorem test_decode_lane_numbers : (decodeLane 0x170201000050000080200000).toOption = some (.fcmp { lw 10 with vd := 2, va := 1, bk := 2, mod8 := 2 }) ∧
    (decodeLane 0x1D0A14000050000000900000).toOption = some (.vcvt { lw 10 with vd := 10, va := 20, mod8 := 9 }) ∧
    (decodeLane 0x1E0C0A000071000080003F80).toOption = some (.vqnt { lw 14 with vd := 12, va := 10, rm := 1, bk := 2, imm := 0x3F80 }) ∧
    (decodeLane 0x1F0E0C000071000080003F80).toOption = some (.vdq { lw 14 with vd := 14, va := 12, rm := 1, bk := 2, imm := 0x3F80 }) ∧
    (decodeLane 0x140301080051082460004000).toOption = some (.ffma { lw 10 with vd := 3, va := 1, vb := 8, rm := 1, pk := 2, wt := 9, bk := 1, ck := 2, imm := 0x4000 }) := by decide
theorem test_decode_lane_memory : (decodeLane 0x280002070410000000000000).toOption = some (.vst { lw 2 with va := 2, vb := 7, vc := 4 }) ∧
    (decodeLane 0x2B0103000010000026000002).toOption = some (.vatom { lw 2 with vd := 1, va := 3, mod8 := 0x60, ck := 2, imm := 2 }) ∧
    (decodeLane 0x2B0204000010100060000001).toOption = some (.vatom { lw 2 with vd := 2, va := 4, pk := 4, bk := 1, ck := 2, imm := 1 }) := by decide
theorem test_decode_lane_control : (decodeLane 0x2D0000100000080000000005).toOption = some (.lbr ⟨4, 0, 2, 0, 0, 5⟩) ∧ (decodeLane 0x2E0000000000000000000000).toOption = some (.lend (lw 0)) ∧
    (decodeLane 0x320001020350000000100000).toOption = some (.dacc { lw 10 with va := 1, vb := 2, vc := 3, mod8 := 1 }) ∧
    (decodeLane 0x330400000050000000400000).toOption = some (.dsum { lw 10 with vd := 4, mod8 := 4 }) ∧
    (decodeLane 0x340200080050000040100000).toOption = some (.dapply { lw 10 with vd := 2, vb := 8, bk := 1, mod8 := 1 }) := by decide
theorem test_decode_matrix_and_generator : (decodeLane 0x350010050048000040000000).toOption = some (.mma { lw 9 with va := 16, vb := 5, bk := 1 }) ∧
    (decodeLane 0x360000000000000000000000).toOption = some (.mzero (lw 0)) ∧ (decodeLane 0x3C00003D87C0000000000016).toOption = some (.genbeg ⟨15, 1, 2, 31, 0, 0, 22⟩) ∧
    (decodeLane 0x3D0002000000080000000000).toOption = some (.yield { lw 0 with va := 2, pk := 2 }) ∧ (decodeLane 0x3E000000000C000000000000).toOption = none ∧
    (decodeLane 0x3E00000000000C0000000000).toOption = some (.gstep { lw 0 with pk := 3 }) ∧ (decodeLane 0x3F0000000000000000000000).toOption = some (.cpop (lw 0)) ∧
    (decodeLane 0x400000000000000000000000).toOption = some (.genend (lw 0)) ∧ (decodeLane 0x3C00005181C100000000001E).toOption = some (.genbeg ⟨20, 1, 2, 7, 4, 0, 30⟩) := by decide

/-! ### Witnesses: states and operands that meet the hypotheses of the statements -/

/-- A placed group that runs a program. -/
def tst : State := placeProgram State.reset
/-- The same with these scalar registers. -/
def sst (l : Store Word) : State := tst.upG (fun g => { g with r := { g.r with sreg := l } })
/-- The same with a proposal in these scalar registers. -/
def sstTag (l : Store Word) (t : Store Bool) : State := (sst l).upG (fun g => { g with r := { g.r with stag := t } })

/-- A part of the next state; nothing of a fault or a refusal. -/
def after {α : Type} (o : Host.Outcome State Fault Refusal) (f : State → α) : Option α :=
  match o with
  | .next t => some (f t)
  | _ => none
/-- ScalarArithmetic: −2^63 by −1, the shift by 64 and the zero divisor. -/
theorem witness_ScalarArithmetic : ∃ (s : State) (d a b : BitVec 6), ScalarReady s [a.toNat, b.toNat] [d.toNat] ∧ ScalarReady s [a.toNat] [d.toNat] ∧
    ((scalarIssued s [a.toNat, b.toNat]).g.sval a.toNat).toInt = -2 ^ 63 ∧ ((scalarIssued s [a.toNat, b.toNat]).g.sval b.toNat).toInt = -1 := by
  refine ⟨sst [(1, 0x8000000000000000), (2, 0xFFFFFFFFFFFFFFFF)], 3, 1, 2, ?_⟩; unfold ScalarReady ScalarIssues; decide +kernel
theorem witness_ScalarArithmetic_zero : ∃ (s : State) (d a b : BitVec 6), ScalarIssues s [a.toNat, b.toNat] [d.toNat] ∧
    badScalar s.g [a.toNat, b.toNat] = none ∧ (scalarIssued s [a.toNat, b.toNat]).g.sval b.toNat = 0 ∧ s.g.lanesDone = true := by
  refine ⟨sst [(1, 7)], 3, 1, 2, ?_⟩; unfold ScalarIssues; decide +kernel
theorem witness_ImmediateForms : ∃ (s : State) (d a b c : BitVec 6) (cond : BitVec 4), ScalarReady s [a.toNat] [d.toNat] ∧ cond.toNat = 9 ∧
    ScalarReady s [] [d.toNat] ∧ ScalarReady s [d.toNat] [d.toNat] ∧ ScalarReady s [c.toNat, a.toNat, b.toNat] [d.toNat] := by
  refine ⟨sst [(1, 5)], 63, 1, 2, 0, 9, ?_⟩; unfold ScalarReady ScalarIssues; decide +kernel
/-- ScalarFrame: a division, and a destination s0. -/
theorem witness_ScalarFrame : ∃ s : State, aluNames (.sdivI 0 1 2) = some ([1, 2], 0, some 2) ∧ RegsOk s.g.r ∧ s.errs.latent = [] ∧ ScalarReady s [1, 2] [0] ∧
    (scalarIssued s [1, 2]).g.sval 2 ≠ 0 := by
  refine ⟨sst [(1, 7), (2, 3)], ?_⟩; unfold RegsOk ScalarReady ScalarIssues; decide +kernel

/-- A load of a word at home, an engine command of the group, and a write of it, as the statements below vary them. -/
def entry0 : Entry :=
  { kind := .load, pk := .r, addr := 0x40002000, size := 8, va := 0x2000, wr := [], prop := false, poison := false, opn := 0, typ := 2, data := 0,
    cmp := 0, lane := 0, lw := false, member := none, late := none }
def cmd0 : Cmd :=
  { id := 1, kind := .nmop, owner := tst.g.key, place := tst.g.place, asid := 1, gen := 0, priv := false, cap := Caps.reset, addr := 0x2000, img := 0,
    recProp := false, tok := 0, reg := none, ctx := none, num := 0, stage := .running, stat := 0, cause := 0, value := 0, faddr := 0,
    poisoned := false, mailed := false, entered := 0, since := 0, pr := Prog.zero }
def write0 : Write :=
  { grp := tst.g.key, core := 0, pk := .r, va := 0x2000, wr := [(0x40002000, 7)], prop := false, poison := false, member := none }

/-- The group at another program counter, in another mode (TRAPC.LVL), and in deterministic mode. -/
def sAt (pc : Word) (s : State) : State := s.upG (fun g => g.setPc pc)
def sLvl (n : Nat) (s : State) : State := s.upG (fun g => { g with sp := { g.sp with trapc := BitVec.ofNat 64 (n * 256) } })
def sDet (s : State) : State := s.upG (fun g => { g with cap := { g.cap with mode := 0x21 } })
/-- With n LISSUE runs outstanding that have no word left. -/
def sRuns (n : Nat) (s : State) : State :=
  s.upG (fun g => { g with ln := { g.ln with runs := List.replicate n ⟨false, true, 0, 0, 0, g.cap⟩ } })

/-- A load that waits, whose access came back. -/
def waitingLoad (poison : Bool) (i : Instr) : State :=
  tst.upG (fun g => { g with qs := { g.qs with pendS := some ⟨i, 1, [⟨0, 0xFFFFFFFF, false, poison, false, 0x1000⟩]⟩ } })
/-- A word placed at the program counter, and at the place of the next lane word. -/
def atPc (s : State) (w : Nat) : State := { placeCode s s.g.pc 4 w with turns := [.scalar] }
def atLane (s : State) (w : Nat) : State := { placeCode (s.upG placedRun) (s.upG placedRun).g.lcbNow 12 w with turns := [.lane false] }

theorem witness_Step_fetch : ∃ (s : State) (pc : Word) (x : Xlat), pc.toNat % 4 = 0 ∧
    translate s s.g.place.coreNo s.g.sp.asid.toNat s.g.sp.gen.toNat s.g.priv .fetch pc = .ok x ∧ homePoison s x.pa = false :=
  ⟨tst, 0x1000, _, by decide, rfl, by decide +kernel⟩
theorem witness_Step_scalar : ∃ (s : State) (n : Nat) (i : Instr), s.svc.powered = true ∧ (takeTurn s).1 = .scalar ∧
    (let s1 := armFocus (countPassed (takeTurn s).2)
     canIssue s1 = true ∧ s1.g.met = none ∧ s1.g.qs.pendS = none ∧ (fetchCode (touchCode s1 s1.g.pc 4) (touchCode s1 s1.g.pc 4).g (touchCode s1 s1.g.pc 4).g.pc 4).toOption = some n ∧
     (decodeScalarBytes (leBytes 4 n)).toOption = some (i, [])) :=
  ⟨atPc tst 0x04304200, 0x04304200, .sadd 3 1 2, by decide +kernel⟩
/-- A cause that the stream has met, while a run goes on and after it. -/
theorem witness_Step_met : ∀ n ∈ [0, 1], let s := ({ sRuns n tst with turns := [.scalar] } : State).upG (fun g => { g with met := some ⟨0x15, 0, false⟩ })
    s.svc.powered = true ∧ (takeTurn s).1 = .scalar ∧ canIssue (armFocus (countPassed (takeTurn s).2)) = true ∧
    (armFocus (countPassed (takeTurn s).2)).g.met = some ⟨0x15, 0, false⟩ ∧ s.g.lanesDone = decide (n = 0) := by decide +kernel
/-- Words that decode to nothing: of opcode 0x31, and the word of zeros. -/
theorem witness_Step_illegal : ∃ (s z : State), ∀ x ∈ [(s, 0xC4000000), (z, 0)],
    x.1.svc.powered = true ∧ (takeTurn x.1).1 = .scalar ∧
    (let s1 := armFocus (countPassed (takeTurn x.1).2)
     let s2 := touchCode s1 s1.g.pc 4
     canIssue s1 = true ∧ s1.g.met = none ∧ s1.g.qs.pendS = none ∧ (fetchCode s2 s2.g s2.g.pc 4).toOption = some x.2 ∧ x.2 < 2 ^ 32 ∧
     (decodeScalarBytes (leBytes 4 x.2)).toOption = none ∧ s2.g.lanesDone = true ∧ s2.g.qs.pendS = none) :=
  ⟨atPc tst 0xC4000000, atPc tst 0, by decide +kernel⟩
theorem witness_Step_lane : ∃ (s : State) (k : Bool) (w : BitVec 96) (i : Instr), s.svc.powered = true ∧ (takeTurn s).1 = .lane false ∧
    (let s1 := armFocus (countPassed (takeTurn s).2)
     let x := settleLane 17 (s1.upG Group.startRun)
     let s2 := onSlot x.1 k
     let s3 := touchCode s2 (s2.g.lcbNow + BitVec.ofNat 64 (12 * (laneCtx s2.g).idx.toNat)) 12
     canIssue s1 = true ∧ s1.g.qs.pendL = none ∧ s1.g.ln.mword = none ∧ laneStop x.1 x.2 = none ∧ pickSlot x.1.g false = some k ∧
     (fetchLane s3 s3.g (laneCtx s2.g).idx).toOption = some w ∧ (decodeLaneBytes (leBytes 12 w.toNat)).toOption = some (i, [])) :=
  ⟨atLane tst 0x110301020051000000000000, false, 0x110301020051000000000000, .fadd { lw 10 with vd := 3, va := 1, vb := 2, rm := 1 },
    by decide +kernel⟩
/-- A word of a stream that waits, and an MMA between two steps. -/
theorem witness_Step_waits : (∀ s ∈ [waitingLoad false (.sldw 3 1 0)], s.svc.powered = true ∧ (takeTurn s).1 = .scalar ∧ (armFocus (countPassed (takeTurn s).2)).g.met = none ∧
      (armFocus (countPassed (takeTurn s).2)).g.qs.pendS.isSome = true ∧ canIssue (armFocus (countPassed (takeTurn s).2)) = true) ∧
    (let s := ({ tst with turns := [.lane false] } : State).upG (fun g => { placedRun g with ln := { (placedRun g).ln with mword := some (0, lw 9) } })
     (takeTurn s).1 = .lane false ∧ canIssue (armFocus (countPassed (takeTurn s).2)) = true ∧ (armFocus (countPassed (takeTurn s).2)).g.qs.pendL = none ∧
     (armFocus (countPassed (takeTurn s).2)).g.ln.mword = some (0, lw 9)) := by decide +kernel
/-- A load that is out: it stands in the issue queue behind an acquire. -/
def sOut (i : Instr) : State :=
  tst.upG (fun g => { g with qs := { g.qs with pendS := some ⟨i, 1, []⟩, iq := [{ entry0 with kind := .fence true false false 0 }, { entry0 with size := 4 }] } })
theorem witness_StreamsGoAhead : (∀ i ∈ [Instr.sldw 3 1 0, .sldd 3 1 0, .satom 3 1 2 0 0 1 1, .sltagMem 3 1, .sltagSp 3 1], RegsOk (sOut i).g.r ∧ canIssue (sOut i) = true ∧
      (sOut i).g.qs.pendS = some ⟨i, 1, []⟩ ∧ awaited (sOut i) false = [{ entry0 with size := 4 }] ∧ failsNow (sOut i) { entry0 with size := 4 } = false) ∧
    (takeTurn { sOut (.sldw 3 1 0) with turns := [.ahead false] }).1 = .ahead false ∧ (sOut (.sldw 3 1 0)).svc.powered = true ∧
    ({ entry0 with late := some (.sreg 3 true) } : Entry).late = some (.sreg 3 true) ∧ entry0.kind = .load ∧
    ({ entry0 with late := some (.mark 3) } : Entry).late = some (.mark 3) := by
  unfold RegsOk; decide +kernel
/-- A load of a poisoned byte that is out, of each stream. -/
def sPoisoned (lane : Bool) : State :=
  ({ sOut (.sldw 3 1 0) with upoison := [(0x40002000, true)] } : State).upG (fun g => { g with qs := { g.qs with
    pendL := if lane then some ⟨.vld (lw 2), 1, []⟩ else none, iq := [{ entry0 with lw := lane }] } })
theorem witness_StreamsGoAhead_fails : ∀ lane ∈ [false, true], let s := sPoisoned lane
    (if lane then s.g.qs.pendL else s.g.qs.pendS).isSome = true ∧ (awaited s lane).any (failsNow s) = true := by decide +kernel
/-- A lane word that names v3 in lane 0, which a load has still to write. -/
theorem witness_StreamsGoAhead_lane : let w : LWord := { lw 2 with vd := 3, va := 1, vb := 2 }
    let s := (tst.upG placedRun).upG (fun g => { g with qs := { g.qs with lateV := [96] } })
    (Instr.vadd w).general = some (0x01, w) ∧ s.g.qs.pendL = none ∧ tokensBusy s.g w.wt = false ∧
    issueOk (laneBegun s).g (ctxOf s) 0x01 (laneRegs 0x01 w) (laneTiles 0x01 w) = true ∧ lateHit (namesOf 0x01 w) s.g (ctxOf s) = true := by decide +kernel
/-- The scalar stream goes past its load, whose register is busy. -/
theorem test_ahead : (goAhead (sOut (.sldw 3 1 0)) false).g.qs.pendS = none ∧ (goAhead (sOut (.sldw 3 1 0)) false).g.fut 3 = .busy ∧
    (goAhead (sOut (.sldw 3 1 0)) false).g.qs.iq.map (·.late) = [none, some (.sreg 3 false)] := by decide +kernel
/-- A load that its stream has gone past, and poison that comes to its unit. -/
def sPassed : State := tst.upG (fun g => { g with qs := { g.qs with iq := [{ entry0 with size := 4, late := some (.sreg 3 false) }] } })
def sPassedBy : State := { sPassed with upoison := [(0x40002000, true)] }
theorem witness_StreamsGoAhead_chance :
    allBankGate sPassed none .scalar (.next (pace sPassed .scalar sPassedBy)) = .next sPassedBy ∧
    lastChance sPassed (endStopped (fireFocus sPassedBy)) = some (tst.g.key, 0) :=
  ⟨congrArg Host.Outcome.next (by decide +kernel), by decide +kernel⟩
/-- The load is performed first, and the turn comes next. -/
theorem test_chance : (match finish sPassed none .scalar (.next sPassedBy) with
    | .next u => u.g.qs.iq.isEmpty && u.g.fut 3 = .none && u.turns = [.scalar] && u.upoison.isEmpty | _ => false) = true := by decide +kernel
theorem witness_Step_event : ∃ (s off : State), s.svc.powered = true ∧ (takeTurn s).1 = .event .powerLoss ∧ Instr.isEvent .powerLoss = true ∧
    off.svc.powered = false ∧ (takeTurn off).1 = .event .powerOn ∧ (takeTurn { off with turns := [] }).1 ≠ .event .powerOn :=
  ⟨{ tst with turns := [.event .powerLoss] }, { tst with turns := [.event .powerOn], svc := { tst.svc with powered := false } }, by decide +kernel⟩
/-- A slow turn of an engine, and one of a stream, which cuts no step of an engine. -/
theorem witness_Step_slow : ∀ u ∈ [Turn.event (.pkqQuery 1), .scalar], (takeTurn { tst with turns := [.slow u] }).1 = .slow u ∧ tst.svc.powered = true ∧
    stepCmd (Turn.slow .scalar).plain = none := by decide +kernel
theorem witness_Step_finish : (∀ g ∈ tst.groups, ∀ e ∈ g.qs.iq, e.late = none) ∧ gvHolders tst none = [] ∧ tst.barred = [] ∧ tst.early = [] ∧ tst.errs.inj = [] ∧ (∀ x ∈ tst.tasks, ∀ c, x.phase ≠ .stopped c) ∧
    ∀ r ∈ tst.links.rg, r.d0.queue = [] ∧ r.d1.queue = [] := by
  refine ⟨by decide +kernel, by decide +kernel, rfl, rfl, by decide, ?_, by decide⟩; intro x hx c; simp [tst, placeProgram, State.reset] at hx; subst hx; simp [placedTask]

theorem witness_LoadResults : ∃ t u : Target, (sst [(1, 0xFF8)]).hold = false ∧ ScalarReady (sst [(1, 0xFF8)]) [1] [3] ∧ Quiet (sst [(1, 0xFF8)]) ∧ (sst [(1, 0xFF8)]).quiet = true ∧
    scalarTarget (scalarIssued (sst [(1, 0xFF8)]) [1]) .load 0x1000 4 = .ok t ∧ scalarTarget (scalarIssued (sst [(1, 0xFF8)]) [1]) .load 0x1000 8 = .ok u ∧
    ∀ x ∈ [t, u], Reaches (scalarIssued (sst [(1, 0xFF8)]) [1]) x.addr ∧ x.member = none ∧
      (List.range 8).all (fun i => !viewPoison (scalarIssued (sst [(1, 0xFF8)]) [1]) (scalarIssued (sst [(1, 0xFF8)]) [1]).g x.pk (x.addr + i)) = true :=
  ⟨_, _, rfl, by unfold ScalarReady ScalarIssues; decide +kernel, by unfold Quiet; decide +kernel, by decide +kernel, rfl, rfl, by unfold Reaches; decide +kernel⟩
/-- In a slow turn. -/
theorem witness_LoadResults_slow : let s : State := { sst [(1, 0xFF8)] with hold := true }
    ∃ t u : Target, ScalarReady s [1] [3] ∧ s.hold = true ∧ scalarTarget (scalarIssued s [1]) .load 0x1000 4 = .ok t ∧
      scalarTarget (scalarIssued s [1]) .load 0x1000 8 = .ok u :=
  ⟨_, _, by unfold ScalarReady ScalarIssues; decide +kernel, rfl, rfl, rfl⟩
theorem witness_LoadResults_waiting : ∀ b ∈ [false, true], ∀ i ∈ [Instr.sldw 3 1 0, .sldd 3 1 0], ∃ p r, (waitingLoad b i).g.qs.pendS = some p ∧ p.got = [r] ∧
    p.need = 1 ∧ r.down = false ∧ r.poison = b ∧ p.w = i ∧ (waitingLoad b i).g.lanesDone = true := by
  intro b hb i hi; exact ⟨_, _, rfl, rfl, rfl, rfl, rfl, rfl, rfl⟩
theorem witness_StoreEnters : ∃ t u : Target, ScalarReady (sst [(1, 0x1000)]) [2, 1] [] ∧
    scalarTarget (scalarIssued (sst [(1, 0x1000)]) [2, 1]) .store 0x1000 4 = .ok t ∧ scalarTarget (scalarIssued (sst [(1, 0x1000)]) [2, 1]) .store 0x1000 8 = .ok u :=
  ⟨_, _, by unfold ScalarReady ScalarIssues; decide +kernel, rfl, rfl⟩
/-- ALIGN at an address that is one too high, PAGE at the first address of space 1, PROT past the end of the scratchpad window. -/
theorem witness_AddressTraps : ∃ s a p : State, ∀ x ∈ [(s, 0x1001), (a, 2 ^ 60), (p, 15 * 2 ^ 60 + 2 ^ 24)],
    ScalarIssues x.1 [1] [3] ∧ ScalarIssues x.1 [3, 1] [] ∧ x.1.g.lanesDone = true ∧ ((scalarIssued x.1 [1]).g.sval 1).toNat = x.2 := by
  refine ⟨sst [(1, 0x1001)], sst [(1, 0x1000000000000000)], sst [(1, 0xF000000001000000)], ?_⟩; unfold ScalarIssues; decide +kernel
/-- Arguments: the last eight bytes of the block, one past them, and an address that is not aligned. -/
theorem witness_Arguments : ∃ s : State, ∀ x ∈ [(1, 8), (2, 16), (4, 4)], ScalarReady s [x.1] [3] ∧ s.g.lanesDone = true ∧ s.g.sp.args.length = 16 ∧
    ((scalarIssued s [x.1]).g.sval x.1).toNat = x.2 := by
  refine ⟨(sst [(1, 8), (2, 16), (4, 4)]).upG (fun g => { g with sp := { g.sp with args := List.replicate 16 0xAB } }), ?_⟩
  unfold ScalarReady ScalarIssues; decide +kernel
theorem witness_Sltag : (sst [(1, 0x1000)]).hold = false ∧ (sst [(1, 0x801000)]).hold = false ∧ ScalarReady (sst [(1, 0x1000)]) [1] [3] ∧ ScalarReady (sst [(1, 0x801000)]) [1] [3] ∧ Quiet (sst [(1, 0x801000)]) ∧ Quiet (sst [(1, 0x1000)]) ∧ (sst [(1, 0x801000)]).quiet = true ∧ (sst [(1, 0x1000)]).quiet = true ∧
    (globalTarget (scalarIssued (sst [(1, 0x1000)]) [1]) .load 0x1000).toOption.any (fun x => (isLocal x.addr || isDie x.addr) && !noRoute (scalarIssued (sst [(1, 0x1000)]) [1]) 0 x.addr && routeRoom (scalarIssued (sst [(1, 0x1000)]) [1]) 0 x.addr && x.member.isNone) = true ∧
    (spTarget (scalarIssued (sst [(1, 0x801000)]) [1]) 1 0x801000).toOption.any (fun x => (isLocal x.addr || isDie x.addr) && !noRoute (scalarIssued (sst [(1, 0x801000)]) [1]) 0 x.addr && routeRoom (scalarIssued (sst [(1, 0x801000)]) [1]) 0 x.addr && x.member.isNone) = true := by
  unfold ScalarReady ScalarIssues Quiet; decide +kernel
theorem witness_Atomics : ∃ t : Target, satomTarget (scalarIssued (sst [(1, 0x1000)]) [1, 2]) 0 1 0x1000 4 = .ok t ∧ satomTarget (scalarIssued (sst [(1, 0x1000)]) [1, 2]) 0 0 0x1000 4 = .ok t ∧
    ScalarReady (sst [(1, 0x1000)]) [1, 2] [] ∧ ScalarReady (sst [(1, 0x1000)]) [1, 2] [3] ∧ Quiet (sst [(1, 0x1000)]) ∧ (sst [(1, 0x1000)]).quiet = true ∧
    Reaches (scalarIssued (sst [(1, 0x1000)]) [1, 2]) t.addr ∧ t.member = none ∧
    (sst [(1, 0x1000)]).hold = false ∧ (let e := { t.entry .atomic 4 with opn := 0, typ := 0, data := 0, cmp := 0, prop := false }
     let s1 := scalarIssued (sst [(1, 0x1000)]) [1, 2]
     (performAtomic (crossing s1 s1.g.place.q e) e).2.poison = false) :=
  ⟨_, rfl, rfl, by unfold ScalarReady ScalarIssues; decide +kernel, by unfold ScalarReady ScalarIssues; decide +kernel, by unfold Quiet; decide +kernel,
    by decide +kernel, by unfold Reaches; decide +kernel, by decide +kernel, rfl, by decide +kernel⟩
/-- The extremes of the operands, and the home side of an atomic, with and without poison. -/
theorem witness_Atomics_home : ∃ (s z : State) (e : Entry), (∀ x ∈ [s, z], StoresOk x ∧ e.typ ≤ 4 ∧ e.addr % atomWidth e.typ = 0) ∧
    homePoison (settle s) e.addr = false ∧ homePoison (settle z) e.addr = true ∧ (0 : Nat) < 2 ^ 32 ∧ 2 ^ 64 - 1 < 2 ^ 64 := by
  refine ⟨tst, { tst with upoison := [(0x40002000, true)] },
    { entry0 with kind := .atomic, va := 0, prop := true, data := 5 }, ?_⟩
  unfold StoresOk Memory.wf; decide +kernel

/-- BR: taken and not taken, with a proposal, to a target that is not aligned, and to 2^60. -/
theorem witness_Branches : (∀ s ∈ [sst [(1, 5)], sstTag [(1, 5)] [(1, true)], sAt 0x1002 tst, sAt 0x0FFFFFFFFFFFFFFC tst], ScalarReady s [1] [] ∧ s.g.lanesDone = true) ∧
    (scalarIssued (sst [(1, 5)]) [1]).g.stag 1 = false ∧ (scalarIssued (sstTag [(1, 5)] [(1, true)]) [1]).g.stag 1 = true ∧
    ((scalarIssued (sst [(1, 5)]) [1]).g.sval 1).toInt = 5 ∧
    (BitVec.ofInt 64 ((0x0FFFFFFFFFFFFFFC : Word).toNat + 4 * (1 : BitVec 16).toInt)).toNat = 2 ^ 60 ∧
    (BitVec.ofInt 64 ((0x1002 : Word).toNat + 4 * (0xFFFF : BitVec 16).toInt)).toNat % 4 = 2 := by
  unfold ScalarReady ScalarIssues; decide +kernel
theorem witness_Call : ScalarReady tst [] [63] ∧ (BitVec.ofInt 64 ((scalarIssued tst []).g.pc.toNat + 4 * (0xFFC00 : BitVec 20).toInt)).toNat = 0 := by
  unfold ScalarReady ScalarIssues; decide +kernel
theorem witness_Jmpr : ∀ x ∈ [(sst [(1, 0x0FFFFFFFFFFFFFFC)], 0, false), (sst [(1, 2)], 2, false), (sst [(1, 0x1000000000000000)], 0, false), (sstTag [(1, 8)] [(1, true)], 0, true)],
    ScalarReady x.1 [1] [63] ∧ x.1.g.lanesDone = true ∧ ((scalarIssued x.1 [1]).g.sval 1).toNat % 4 = x.2.1 ∧ (scalarIssued x.1 [1]).g.stag 1 = x.2.2 := by
  unfold ScalarReady ScalarIssues; decide +kernel
/-- Runs: three and four outstanding, of them one whose loads alone are out; the last word of the section, and one past it. -/
theorem witness_RunWords : (∀ n ∈ [0, 3, 4], ScalarReady (sRuns n tst) [] [] ∧ (scalarIssued (sRuns n tst) []).g.ln.runs.length + (scalarIssued (sRuns n tst) []).g.ln.late.length = n) ∧
    tst.g.lanesDone = true ∧ (let s := (sRuns 3 tst).upG (fun g => { g with ln := { g.ln with late := [[96]] } })
     ScalarReady s [] [] ∧ (scalarIssued s []).g.ln.runs.length + (scalarIssued s []).g.ln.late.length = 4) ∧
    (0x3FFFF1 : LIdx).toNat + (14 : BitVec 4).toNat < 2 ^ 22 ∧ 2 ^ 22 ≤ (0x3FFFF1 : LIdx).toNat + (15 : BitVec 4).toNat := by
  unfold ScalarReady ScalarIssues; decide +kernel

/-- A task of one group that declared its group barriers, in the phase given, with the arrivals given; last is the group's LAST + 1. -/
def sBar (arr : List GroupKey) (phase last : Nat) : State :=
  let s := tst.upG (fun g => { g with barLast := sset 0 g.barLast (barKey 0 1) last })
  { s with tasks := s.tasks.map (fun t => { t with bars := [{ barOf 0 1 tst.g.key with phase := phase, arr := arr }] }) }
theorem witness_Barriers : ∀ x ∈ [(sBar [] 0 0, true), (sBar [] 1 1, true), (sBar [tst.g.key] 0 1, true), (sBar [tst.g.key] 1 0, true)],
    ScalarReady x.1 [0] [] ∧ x.1.g.lanesDone = true ∧ releaseOk (scalarIssued x.1 [0]) (scalarIssued x.1 [0]).g (barScope 0) = x.2 ∧
    (barCheck (scalarIssued x.1 [0]) 0 0 1).toOption.any (fun y => decide (y.2.2 = 1)) = true := by
  unfold ScalarReady ScalarIssues; decide +kernel
/-- A store that has not left keeps the arrival waiting. -/
theorem witness_Barriers_release : ScalarReady ((sBar [] 0 0).upG (fun g => g.addIq [{ entry0 with kind := .store }])) [0] [] ∧
    releaseOk ((sBar [] 0 0).upG (fun g => g.addIq [{ entry0 with kind := .store }])) ((sBar [] 0 0).upG (fun g => g.addIq [{ entry0 with kind := .store }])).g (barScope 0) = false := by
  unfold ScalarReady ScalarIssues; decide +kernel
theorem witness_Barriers_refused : ScalarIssues (sstTag [(1, 1)] [(1, true)]) [1] [] ∧ ScalarIssues (sst [(1, 2)]) [1] [] ∧ tst.g.lanesDone = true ∧
    badScalar (sst [(1, 2)]).g [1] = none ∧ (scalarIssued (sst [(1, 2)]) [1]).g.stag 1 = false ∧ ((scalarIssued (sst [(1, 2)]) [1]).g.sval 1 + BitVec.ofNat 64 0).toNat = 2 ∧
    ((scalarIssued (sst [(1, 2)]) [1]).findTask tst.g.key.task).isSome = true ∧ (scalarIssued (sst [(1, 2)]) [1]).g.det = false := by
  unfold ScalarIssues; decide +kernel

/-- A second group of the same core, which is ready; a group of class 0, in slot 15, takes no part. -/
def mate (n : Nat) : Machine.Group := { (sDet tst).g with key := ⟨1, 0, 0, n⟩, place := { tst.g.place with slot := n } }
def sMates : State := sDet { tst with rest := [mate 2, mate 1, mate 15] }
theorem witness_Yield : ScalarReady tst [] [] ∧ tst.g.det = false ∧ ScalarReady (sDet tst) [] [] ∧ (sDet tst).g.det = true ∧ ScalarReady sMates [] [] ∧
    (scalarIssued sMates []).rest.filter (fun g => (scalarIssued sMates []).ready g && g.det && decide (g.place.slot ≠ 15) && g.place.coreNo = 0) = [mate 2, mate 1] ∧
    waveIndex tst.g.key < waveIndex (mate 1).key ∧ waveIndex (mate 1).key < waveIndex (mate 2).key := by
  unfold ScalarReady ScalarIssues; decide +kernel
/-- END: at its first step, with and without a run left, at the third level, at its last step, and with an open loop, also where a run goes on. -/
theorem witness_End : ∀ x ∈ [(tst, true, 0, false), (sRuns 1 tst, false, 0, false), (tst.upG (fun g => { g with endStep := 3 }), true, 3, false),
      (tst.upG (fun g => { g with endStep := 6 }), true, 6, false),
      (tst.upG (fun g => { g with ln := { g.ln with gl := { g.ln.gl with body := 1 } } }), true, 0, true),
      ((sRuns 1 tst).upG (fun g => { g with ln := { g.ln with gl := { g.ln.gl with body := 1 } } }), false, 0, true)],
    ScalarReady x.1 [] [] ∧ x.1.g.lanesDone = x.2.1 ∧ (scalarIssued x.1 []).g.tokensDone = true ∧ (scalarIssued x.1 []).g.endStep = x.2.2.1 ∧
    (scalarIssued x.1 []).g.ln.gl.isOpen = x.2.2.2 ∧ drained (scalarIssued x.1 []) (scalarIssued x.1 []).g = true ∧ windowsFree (scalarIssued x.1 []) = true := by
  unfold ScalarReady ScalarIssues; decide +kernel
theorem witness_End_busy : ScalarReady ((tst.upG (fun g => { g with endStep := 6 })).upG (fun g => g.addIq [entry0])) [] [] ∧
    drained (tst.upG (fun g => g.addIq [entry0])) (tst.upG (fun g => g.addIq [entry0])).g = false := by
  unfold ScalarReady ScalarIssues; decide +kernel

/-- A vector block at virtual 0x3000: PENTRY 0x2000, PLCB 0x4000, and, if user, UENTRY 0x5000 and ULCB 0x6000. -/
def sVec (user : Bool) (s : State) : State :=
  { s.upG (fun g => { g with sp := { g.sp with vbase := 0x3000 } }) with
    mem := ssetMany 0 s.mem (placeBytes 0x40003000 8 0x2000 ++ placeBytes 0x40003008 8 0x4000 ++
      (if user then placeBytes 0x40003010 8 0x5000 ++ placeBytes 0x40003018 8 0x6000 else [])) }
/-- The group's own area at virtual 0x100000, which a cached translation maps. -/
def sCtx (s : State) : State :=
  { s.upG (fun g => { g with sp := { g.sp with ctxaddr := 0x100000, bivbase := 0x180000 } }) with tlb := [⟨false, 0, 1, 0, 0, 1, 0x140000004000001F⟩] }
/-- That translation is used whatever memory holds. -/
theorem ownPlace_ctx (u : State) (g : Machine.Group) (acc : Acc) (va : Word) (hc : g.place.coreNo = 0) (ha : g.sp.asid = 1) (hg : g.sp.gen = 0)
    (ht : u.tlb = [⟨false, 0, 1, 0, 0, 1, 0x140000004000001F⟩]) (hacc : acc ∈ [Acc.load, Acc.store]) (hva : va.toNat < 2 ^ 30) :
    ∃ x, ownPlace u g acc va = some x ∧ x.pa = 0x40000000 + va.toNat := by
  have hf : tlbFind u 0 1 0 va.toNat = some (1, 0x140000004000001F) := by
    simp [tlbFind, ht, pageBits]; omega
  have hp : bits 0x140000004000001F 51 16 * 2 ^ 16 + va.toNat % 2 ^ pageBits 1 = 0x40000000 + va.toNat := by
    simp [pageBits, bits]; omega
  have hm : isMmio (0x40000000 + va.toNat) = false ∧ isPeer (0x40000000 + va.toNat) = false := by
    have : (0x40000000 + va.toNat) / 2 ^ 48 = 0 := by omega
    constructor <;> (simp only [isMmio, isPeer, region, this]; simp)
  have hl : translate u 0 1 0 true acc va = checkLeaf u 1 0 true acc 1 0x140000004000001F va.toNat := by
    unfold Machine.translate; rw [if_neg (by omega), hf]
  have hb : ∀ n, n ∈ [2, 3] → bit1 0x140000004000001F n = true := by decide
  have h56 : bit1 0x140000004000001F 56 = false := by decide
  unfold ownPlace
  rw [hc, ha, hg, show (1 : Word).toNat = 1 from rfl, show (0 : Word).toNat = 0 from rfl, hl]
  simp only [List.mem_cons, List.not_mem_nil, or_false] at hacc
  rcases hacc with rfl | rfl <;>
  · simp only [checkLeaf, hb 2 (by simp), hb 3 (by simp), h56, hp]
    simp [hm.1, hm.2]
theorem frameAt_ctx (s : State) (hc : s.g.place.coreNo = 0) (ha : s.g.sp.asid = 1) (hg : s.g.sp.gen = 0) (hx : s.g.sp.ctxaddr = 0x100000)
    (ht : s.tlb = [⟨false, 0, 1, 0, 0, 1, 0x140000004000001F⟩]) (lvl : Nat) (hl : lvl = 1 ∨ lvl = 2) : FrameAt s lvl (0x40140000 + 0xC00 * (lvl - 1)) := by
  refine ⟨by omega, by omega, fun u hu _ _ _ _ o ho acc hacc => ?_⟩
  have hv : (frameAddr s.g lvl o).toNat = 0x140000 + 0xC00 * (lvl - 1) + o := by
    unfold frameAddr; rw [hx, BitVec.toNat_add, BitVec.toNat_ofNat, show (0x100000 : Word).toNat = 0x100000 from rfl]; omega
  obtain ⟨x, h1, h2⟩ := ownPlace_ctx u s.g acc (frameAddr s.g lvl o) hc ha hg (hu.trans ht) hacc (by omega)
  exact ⟨x, h1, by rw [h2, hv]; omega⟩
def sTrap (b : Bool) (n : Nat) : State := sCtx (sVec b (sLvl n tst))
theorem witness_TrapEntry : ScalarIssues (sVec true tst) [] [] ∧ (sVec true tst).g.lanesDone = true ∧ ∀ n ∈ [0, 1], ∀ b ∈ [false, true],
    (sTrap b n).g.lvl = n ∧ (sTrap b n).quiet = true ∧ ownWrites (sTrap b n) (sTrap b n).g = [] ∧
    readVector (sTrap b n) (sTrap b n).g = some (0x2000, 0x4000, if b then 0x5000 else 0, if b then 0x6000 else 0) := by
  unfold ScalarIssues; decide +kernel
theorem witness_TrapEntry_stores : ∀ n ∈ [0, 1], ∀ b ∈ [false, true], StoresOk (sTrap b n) := by unfold StoresOk Memory.wf; decide +kernel
theorem witness_TrapEntry_frame : ∀ n ∈ [0, 1], ∀ b ∈ [false, true], ∀ lvl ∈ [1, 2], FrameAt (sTrap b n) lvl (0x40140000 + 0xC00 * (lvl - 1)) := by
  intro n _ b _ lvl hl
  simp only [List.mem_cons, List.not_mem_nil, or_false] at hl
  exact frameAt_ctx _ rfl rfl rfl rfl rfl lvl hl
/-- A group whose paths, stack and run queue are in use. -/
def sBusy : State := (sTrap true 0).upG (fun g => { g with ln := { g.ln with
  l0 := some ⟨7, 3, false⟩, l1 := some ⟨9, 0x80000000, true⟩, stack := [⟨5, 0, false, false, true, 0, 0x80000003⟩]
  runs := [⟨true, true, 2, 0, 0, g.cap⟩, ⟨false, false, 3, 3, 16, g.cap⟩] } })
def trp : Trap := ⟨0x14, 0x12, false⟩
/-- An entry from it writes a frame, from which a return restores it. -/
theorem witness_TrapReturn_frame : trp.cause < 256 ∧ (takeTrap sBusy trp ⟨false, false, 0, 0, 0⟩ 0x1004).g.lvl = 1 ∧
    HoldsFrame (frameBytes (takeTrap sBusy trp ⟨false, false, 0, 0, 0⟩ 0x1004) (takeTrap sBusy trp ⟨false, false, 0, 0, 0⟩ 0x1004).g 1) sBusy.g := by
  unfold HoldsFrame; decide +kernel
theorem witness_TrapReturn_fits : FrameFits sBusy.g := by
  refine ⟨by decide, by decide, by decide, fun r hr => ?_, by decide, by decide⟩
  have hs : ∀ j, sget 0 r.cap.shape j &&& definedBits 0x010 = sget 0 r.cap.shape j := by
    have : r.cap.shape = [] := by revert r; decide
    intro j; simp [this, sget]
  have hq : (if r.lrun then r.left = 0 else 1 ≤ r.left ∧ r.first.toNat ≤ r.next.toNat ∧ r.next.toNat + r.left ≤ r.first.toNat + 16) ∧
      r.cap.mode &&& definedBits 0x000 = r.cap.mode ∧ r.cap.rgn &&& definedBits 0x009 = r.cap.rgn ∧
      r.cap.drange &&& definedBits 0x00A = r.cap.drange ∧ r.cap.dctl &&& definedBits 0x00D = r.cap.dctl := by
    clear hs; revert r; decide
  exact ⟨hq.1, hq.2.1, hq.2.2.1, hq.2.2.2.1, hq.2.2.2.2, hs⟩
/-- ERET: outside a handler, with a run left, with a write of the frame under way, with poison in the frame, and clean. -/
def held0 : Held := ⟨0x1004, none, none, false, false, false⟩
def sHeld (n : Nat) : State := (sTrap true n).upG (fun g => { g with held1 := some held0, held2 := some held0 })
theorem witness_TrapReturn : ScalarReady tst [] [] ∧ tst.g.lvl = 0 ∧ tst.g.lanesDone = true ∧ ScalarReady (sRuns 1 (sLvl 2 tst)) [] [] ∧ (sRuns 1 (sLvl 2 tst)).g.lanesDone = false ∧
    ∀ n ∈ [1, 2], ∀ x ∈ [(sHeld n, false, false), ((sHeld n).upG (fun g => g.addIq [{ entry0 with kind := .store, wr := [(0x40140000 + 0xC00 * (n - 1), 1)] }]), true, false),
        ({ sHeld n with upoison := [(0x40140000 + 0xC00 * (n - 1) + 0x580, true)] }, false, true)],
      ScalarReady x.1 [] [] ∧ x.1.quiet = true ∧ (scalarIssued x.1 []).g.lvl = n ∧ (scalarIssued x.1 []).g.lanesDone = true ∧
      frameBusy (scalarIssued x.1 []) (scalarIssued x.1 []).g n = x.2.1 ∧ (framePoison (scalarIssued x.1 []) (scalarIssued x.1 []).g n).isSome = x.2.2 ∧
      (if n = 1 then (scalarIssued x.1 []).g.held1 else (scalarIssued x.1 []).g.held2) = some held0 := by
  unfold ScalarReady ScalarIssues; decide +kernel
theorem witness_Restart : tst.g.lvl = 0 ∧ bit1 (0x1001 : Word).toNat 0 = true ∧ bits tst.g.sp.trapc.toNat 13 12 < 2 ∧
    bits (tst.upG (fun g => { g with sp := { g.sp with trapc := 0x1000 } })).g.sp.trapc.toNat 13 12 = 1 ∧
    (sLvl 2 tst).g.lvl = 2 ∧ readVector tst tst.g = none ∧ (sLvl 1 tst).g.lvl = 1 ∧ readVector (sLvl 1 tst) (sLvl 1 tst).g = none ∧
    tst.quiet = true ∧ (sLvl 1 tst).quiet = true ∧ ∀ s ∈ [tst, sLvl 1 tst, sLvl 2 tst], (s.findTask s.g.key.task).isSome = true := by decide +kernel

/-- SMFS and SMTS: MODE in user mode, TRAPC in the privileged mode, ids between the parts of the table, CYC in deterministic mode, a proposal,
STATUS with a run left. -/
theorem witness_SpecialRegisterMoves : ScalarReady tst [] [3] ∧ ScalarReady (sLvl 2 tst) [] [3] ∧ (sLvl 2 tst).g.lvl = 2 ∧ tst.g.lvl = 0 ∧ tst.g.det = false ∧
    ScalarReady (sDet tst) [] [3] ∧ (sDet tst).g.det = true ∧ tst.g.lanesDone = true ∧ ScalarReady (sRuns 1 tst) [] [3] ∧ (sRuns 1 tst).g.lanesDone = false ∧
    ScalarReady (sst [(1, 0x41)]) [1] [] ∧ ScalarReady (sstTag [(1, 1)] [(1, true)]) [1] [] := by
  unfold ScalarReady ScalarIssues; decide +kernel
theorem witness_SpecialRegisterMoves_ids : srListed 0 = true ∧ srReadOnly 0 = false ∧
    srRefuses (scalarIssued (sst [(1, 1)]) [1]) 0 1 = false ∧ srReadOnly 5 = true ∧ srRefuses (scalarIssued (sst [(1, 5)]) [1]) 14 5 = true ∧ srListed 14 = true ∧ srReadOnly 14 = false ∧ srRefuses tst 14 4 = false ∧
    srListed 8 = true ∧ srReadOnly 8 = false ∧ srRefuses tst 8 1 = false ∧ srListed 1 = true ∧ srListed 0x13 = true ∧ srListed 0x2F = true ∧ srListed 0x107 = true ∧
    srReadOnly 1 = false ∧ srRefuses (sRuns 1 tst) 1 0 = false ∧ ScalarReady (sRuns 1 tst) [1] [] ∧ (sRuns 1 tst).g.lanesDone = false := by
  unfold ScalarReady ScalarIssues; decide +kernel
theorem witness_SpecialRegisterReadBack : swf 0 tst.g.cap.shape = true ∧ swf 0 tst.g.cap.bnd = true ∧ swf 0 tst.errs.inj = true ∧
    swf 0 tst.errs.coreLog = true := by decide

/-- Register s4 in a future state, and a command of the group. -/
def sFut (f : RegFut) (s : State) : State := s.upG (fun g => g.setFut 4 f)
def cmdOf (k : CmdKind) (st : CStage) : Cmd := { cmd0 with id := 1, kind := k, stage := st, reg := some 4 }
theorem witness_Futures : ∀ f ∈ [RegFut.pending 1, .resolved 9 2 0, .none], ScalarReady (sFut f tst) [] [3] ∧ ScalarReady (sFut f tst) [] [] ∧ swf RegFut.none (sFut f tst).g.r.fut = true ∧
    scoreboardHolds (sFut f tst) [4] [3] = false ∧ scoreboardHolds (sFut f tst) [4] [3, 4] = false ∧ scoreboardHolds (sFut f tst) [4] [4] = false ∧
    (scalarIssued (sFut f tst) []).g.fut 4 = f ∧ (scalarIssued (sFut f tst) []).g.fut 3 ≠ .busy ∧ (scalarIssued (sFut f tst) []).g.stag 4 = false ∧
    (scalarIssued (sFut f tst) []).g.det = false ∧ (sFut f tst).g.lanesDone = true := by
  unfold ScalarReady ScalarIssues; decide +kernel
/-- Deterministic mode; a command that runs, of three kinds; a run that writes the register. -/
theorem witness_Futures_det : ScalarReady (sFut (.pending 1) (sDet tst)) [] [3] ∧ ScalarReady (sFut (.pending 1) (sDet tst)) [] [] ∧ (sDet tst).g.det = true ∧
    scoreboardHolds (sFut (.pending 1) (sDet tst)) [4] [3] = false ∧ scoreboardHolds (sFut (.pending 1) (sDet tst)) [4] [4] = false ∧
    ∀ c ∈ [cmdOf .nmop .running, cmdOf .dcor .running, { cmdOf .dcor .running with pr := { Prog.zero with flag := true } }],
      let s : State := { sFut (.pending 1) tst with cmds := [c] }
      (scalarIssued s []).findCmd 1 = some c ∧ c.kind ≠ .kick ∧ c.stage ≠ .issued ∧ c.stage ≠ .draining ∧ c.stage ≠ .stopping ∧ ScalarReady s [] [] := by
  unfold ScalarReady ScalarIssues; decide +kernel
theorem witness_Futures_use : ScalarIssues (sFut (.pending 1) tst) [] [4] ∧ (sFut (.pending 1) tst).g.lanesDone = true ∧ (sFut (.pending 1) tst).g.fut 4 = .pending 1 ∧
    (sFut .busy tst).g.blocked 4 = true ∧ ScalarReady (sFut (.resolved 9 2 0) tst) [4, 2] [3] ∧ RegsOk (sFut (.resolved 9 2 0) tst).g.r ∧
    (sFut (.resolved 9 2 0) tst).g.fut 4 = .resolved 9 2 0 ∧
    scoreboardHolds ((atLane tst 0x110301020051000000000000).upG (fun g => { g with ln := { g.ln with runs := [⟨true, true, 0, 0, 0, g.cap⟩] } })) [] [] = false := by
  unfold ScalarReady ScalarIssues RegsOk; decide +kernel

def keyT : GroupKey := ⟨1, 0, 0, 0⟩
/-- The group's own context of TLADV has the identifier 0x1000000000000000, that of retired groups 0. -/
theorem witness_Timelines : (∀ x ∈ [(0x1000000000000000, 0, true), (0x1000000000000000, 1, true), (0x2000000000000000, 0, true), (0x7000000000000000, 0, false), (0, 1, true)],
    ScalarReady (sst [(1, BitVec.ofNat 64 x.1), (2, BitVec.ofNat 64 x.2.1)]) [1, 2] [3] ∧ tlOk placedTask x.1 = x.2.2) ∧ tst.findTask tst.g.key.task = some placedTask ∧ tst.g.lanesDone = true ∧
    tlValue placedTask 0x1000000000000000 = 0 ∧ ScalarReady (sst [(1, 7)]) [1] [3] ∧ ScalarReady (sstTag [(1, 7)] [(1, true)]) [1] [3] ∧ tlKind 0 = 0 ∧ tlGroup 1 0 = tst.g.key ∧
    (scalarIssued (sstTag [(1, 7)] [(1, true)]) [1]).g.stag 1 = true := by
  unfold ScalarReady ScalarIssues; decide +kernel
/-- The counter of a retired group, short of n; and a TLWAIT that waits, before and after its counter is there. -/
theorem witness_Timelines_waits : (let t : Task := { placedTask with launched := [], retired := [keyT] }
      tlOk t 0 = true ∧ tlKind 0 = 0 ∧ tlGroup t.id 0 ∈ t.retired ∧ tlValue t 0 < 5 ∧ ({ sst [(2, 5)] with tasks := [t] } : State).findTask 1 = some t) ∧
    ∀ n ∈ [0, 3], let s := (sst [(2, BitVec.ofNat 64 n)]).upG (fun g => { g with qs := { g.qs with pendS := some ⟨.tlwait 3 1 2, 1, []⟩ } })
      s.findTask s.g.key.task = some placedTask ∧ tlValue placedTask (s.g.sval 1).toNat = 0 ∧ (s.g.sval 2).toNat = n := by decide +kernel
theorem witness_Fences : ScalarReady tst [] [] ∧ (∀ x ∈ (scalarIssued tst []).links.dropped, x.1 ≠ tst.g.key) ∧
    droppedOf { tst with links := { tst.links with dropped := [(tst.g.key, 0x1000)] } } tst.g.key = some 0x1000 ∧
    ScalarIssues { tst with links := { tst.links with dropped := [(tst.g.key, 0x1000)] } } [] [] ∧ tst.g.lanesDone = true ∧
    (let s := sRuns 1 { tst with links := { tst.links with dropped := [(tst.g.key, 0x1000)] } }
     ScalarIssues s [] [] ∧ s.g.lanesDone = false ∧ droppedOf (scalarIssued s []) s.g.key = some 0x1000) := by
  unfold ScalarReady ScalarIssues; decide +kernel

/-- A scratchpad of two slots whose entries are as given. -/
def sTags (e0 e1 : Nat) (v : Word) : State := setTagEntry (setTagEntry ((sst [(1, v)]).upG (fun g => { g with place := { g.place with spSlots := 2 } })) 0 e0) 1 e1
theorem witness_TagTable : ∀ x ∈ [(2 * 2 ^ 48 + 5, 0), (2 ^ 48 + 5, 0), (0, 2 ^ 48 + 5), (0, 2 * 2 ^ 48 + 6), (2 ^ 48 + 6, 2 * 2 ^ 48 + 7), (0, 0)],
    ScalarReady (sTags x.1 x.2 5) [1] [3] ∧ (scalarIssued (sTags x.1 x.2 5) [1]).g.stag 1 = false ∧ (scalarIssued (sTags x.1 x.2 5) [1]).g.place.spSlots = 2 ∧
    entSt (tagEntry (scalarIssued (sTags x.1 x.2 5) [1]) 0) = x.1 / 2 ^ 48 ∧ entSt (tagEntry (scalarIssued (sTags x.1 x.2 5) [1]) 1) = x.2 / 2 ^ 48 := by
  unfold ScalarReady ScalarIssues; decide +kernel
theorem witness_TagTable_slot : tagSlot (scalarIssued (sTags (2 ^ 48 + 5) 0 0x800400) [1]) 0x800400 = some 1 ∧ tagSlot (scalarIssued (sTags 0 0 0x800800) [1]) 0x800800 = none ∧
    releaseOk (sTags (2 ^ 48 + 5) 0 0x800000) (sTags (2 ^ 48 + 5) 0 0x800000).g 1 = true ∧ (sTags 0 0 0x800800).g.lanesDone = true ∧ ScalarReady (sTags 0 0 0x800800) [1] [3] := by
  unfold ScalarReady ScalarIssues; decide +kernel

theorem witness_SystemWords : ∀ x ∈ [(sLvl 2 (sst [(1, 0x80000)]), true), (sLvl 2 (sst [(1, 0x40000)]), true), (sLvl 2 (sst [(1, 0x10000000000000)]), true), ({ sLvl 2 (sst [(1, 1)]) with rest := [tst.g.addIq [entry0]] }, false)],
    ScalarReady x.1 [1] [3] ∧ (scalarIssued x.1 [1]).g.lvl = 2 ∧ drained (scalarIssued x.1 [1]) (scalarIssued x.1 [1]).g = true ∧ x.1.g.lanesDone = true ∧
    asidQuiet (scalarIssued x.1 [1]) (((scalarIssued x.1 [1]).g.sval 1).toNat % 2 ^ 16) = x.2 := by
  unfold ScalarReady ScalarIssues; decide +kernel
/-- In user mode, and a base that is not aligned in both modes. -/
theorem witness_SystemWords_user : ∀ x ∈ [(tst, 0), (sst [(1, 1)], 1), (sLvl 2 (sst [(1, 1)]), 1)], ScalarIssues x.1 [1] [3] ∧ x.1.g.lanesDone = true ∧
    ((scalarIssued x.1 [1]).g.sval 1).toNat % 2 ^ 19 = x.2 := by unfold ScalarIssues; decide +kernel
theorem witness_SystemWords_mode : tst.g.lvl ≠ 2 := by decide

theorem witness_CommandWords : ScalarReady (sst [(1, 0x2000)]) [1] [] ∧ ScalarReady (sst [(1, 0x2000)]) [1] [3] ∧ ScalarReady (sst [(1, 0x2000)]) [1] [0] ∧ tst.g.place.tmask.getLsbD 15 = true ∧
    (scalarIssued (sst [(1, 0x2000)]) [1]).g.stag 1 = false ∧ copiesOn tst tst.g.place.coreNo < 64 ∧ (∀ k ∈ [0, 1], chanBusy tst k = false) ∧
    (scalarIssued (sst [(1, 0x2000)]) [1]).g.handles < 16 ∧ swf Token.ok tst.g.r.tok = true ∧ swf RegFut.none tst.g.r.fut = true ∧ tst.g.lanesDone = true ∧
    (tst.upG (fun g => { g with r := { g.r with fut := (List.range 16).map (fun n => (n + 32, RegFut.pending n)) } })).g.handles = 16 := by
  unfold ScalarReady ScalarIssues; decide +kernel
theorem witness_CommandWords_refused : ∀ s ∈ [sst [(1, 0x2020)], sst [(1, 0x1000000000000000)], sstTag [(1, 0x2000)] [(1, true)]],
    ScalarIssues s [1] [] ∧ ScalarIssues s [1] [3] ∧ s.g.lanesDone = true := by unfold ScalarIssues; decide +kernel

/-! ### Witnesses: lane words -/

/-- A group whose lane stream stands at the first word, with lanes 0 and 31 active, these lane registers, and these scalar registers. -/
def lst (v : Store Elem) (s : State) : State :=
  (s.upG placedRun).upG (fun g => { g with sp := { g.sp with exmask := 0x80000001 }, r := { g.r with vreg := v } })
/-- Registers v1 and v2 in lanes 0 and 31: the extreme codes of i32, which are ordinary and special f32 codes as well. -/
def vals : Store Elem := [(32, 0x7FFFFFFF), (63, 0x80000000), (64, 0x3F800000), (95, 0xFFFFFFFF)]
def ls : State := lst vals (sst [(1, 0x1000), (2, 0x800000), (3, 8)])

/-- A word issues in a state and its lane loop runs. -/
def loops {α : Type} (op : Nat) (w : LWord) (s : State) (srcs : Machine.Group → LCtx → Nat → List Src) (f : Machine.Group → LCtx → Nat → Option α) : Prop :=
  LaneReady (namesOf op w) s ∧ LoopRuns w (ctxOf s) (laneIssued (namesOf op w) s).g (srcs (laneIssued (namesOf op w) s).g (ctxOf s))
    (srcs (laneIssued (namesOf op w) s).g (ctxOf s)) (f (laneIssued (namesOf op w) s).g (ctxOf s))
def srcsAB (w : LWord) : Machine.Group → LCtx → Nat → List Src := fun _ c l => srcA c w w.ty.toNat l ++ srcB c w w.ty.toNat l

/-- v3 = v1 op v2, wrapping and saturated, and with TG = 1. -/
def w3 (ty : BitVec 5) : LWord := { lw ty with vd := 3, va := 1, vb := 2 }
theorem witness_LaneIntegerResults : ∀ w ∈ [w3 2, { w3 2 with sat := 1 }, { w3 2 with tg := 1 }],
    ∀ x ∈ [(1, fun a b : Int => a + b), (2, fun a b => a - b), (3, fun a b => a * b), (4, fun a b => (a * b).fdiv (2 ^ 32)), (0x0C, min), (0x0D, max)],
    loops x.1 w ls (srcsAB w) (fun g c l => eachSub 2 (fun j => intWritten c w (x.2 (intOf 2 (opA g c w 2 l) j) (intOf 2 (opB g c w 2 l) j)))) := by
  unfold loops LaneReady LaneIssues LoopRuns; decide +kernel
theorem witness_LaneIntegerResults_codes : ∀ x ∈ [(6, fun a b : Nat => a &&& b), (7, fun a b => a ||| b), (8, fun a b => a ^^^ b), (9, fun x y => x * 2 ^ (y % 32)), (10, fun x y => x / 2 ^ (y % 32)),
      (11, fun x y => wrapInt 32 (toSigned 32 x / 2 ^ (y % 32)))],
    loops x.1 (w3 2) ls (srcsAB (w3 2)) (fun g c l => eachSub 2 (fun j => some (x.2 (subOf 2 (opA g c (w3 2) 2 l) j) (subOf 2 (opB g c (w3 2) 2 l) j) % 2 ^ 32, (0 : Flags)))) := by
  unfold loops LaneReady LaneIssues LoopRuns; decide +kernel
theorem witness_LaneIntegerResults_rest :
    loops 0x05 { w3 2 with vc := 1 } ls (fun _ c l => srcA c (w3 2) 2 l ++ srcB c (w3 2) 2 l ++ srcC c { w3 2 with vc := 1 } 2 l)
      (fun g c l => eachSub 2 (fun j => intWritten c (w3 2) (intOf 2 (opA g c (w3 2) 2 l) j * intOf 2 (opB g c (w3 2) 2 l) j + intOf 2 (opC g c { w3 2 with vc := 1 } 2 l) j))) ∧
    loops 0x0F { w3 2 with vc := 1 } ls (fun _ c l => srcsAB (w3 2) ls.g c l ++ [.k 1]) (fun g c l => movedBits c (w3 2) (if (g.pred 1).getLsbD l then opA g c (w3 2) 2 l else opB g c (w3 2) 2 l)) ∧
    loops 0x10 { lw 2 with vd := 3, bk := 2, imm := 7 } ls (fun _ c l => srcB c { lw 2 with vd := 3, bk := 2, imm := 7 } 2 l)
      (fun g c l => movedBits c { lw 2 with vd := 3, bk := 2, imm := 7 } (opB g c { lw 2 with vd := 3, bk := 2, imm := 7 } 2 l)) := by
  unfold loops LaneReady LaneIssues LoopRuns; decide +kernel

def sr6 (c : LCtx) (w : LWord) : Bool := decide (rndMode c w = 6)
theorem witness_LaneFloatResults : ∀ w ∈ [w3 10, { w3 10 with rm := 6 }, { w3 10 with rm := 4, sat := 1 }],
    ∀ f ∈ [fun (_ : Bool) => fun (x y : Val) => addV false x y, fun r x y => addV r x (negV y), fun _ x y => mulV x y],
    loops 0x11 w ls (srcsAB w) (fun g c l => eachSub 10 (fun j => floatWritten c w 10 (drawSR g l j) (f (rndMode c w = 4) (valOf 10 (subOf 10 (opA g c w 10 l) j)) (valOf 10 (subOf 10 (opB g c w 10 l) j))))) := by
  unfold loops LaneReady LaneIssues LoopRuns; decide +kernel
theorem witness_LaneFloatResults_ops : ∀ op ∈ [0x12, 0x13, 0x15, 0x16],
    loops op (w3 10) ls (srcsAB (w3 10)) (fun g c l => eachSub 10 (fun j => satBound c (w3 10) 10 (pickCode 10 true (subOf 10 (opA g c (w3 10) 10 l) j) (subOf 10 (opB g c (w3 10) 10 l) j)))) := by
  unfold loops LaneReady LaneIssues LoopRuns; decide +kernel
theorem witness_LaneFloatResults_fma : loops 0x14 { w3 10 with vc := 2 } ls (fun _ c l => srcsAB (w3 10) ls.g c l ++ srcC c { w3 10 with vc := 2 } 10 l)
    (fun g c l => eachSub 10 (fun j => floatWritten c (w3 10) 10 (drawSR g l j) (fmaV false (valOf 10 (subOf 10 (opA g c (w3 10) 10 l) j)) (valOf 10 (subOf 10 (opB g c (w3 10) 10 l) j))
      (valOf 10 (subOf 10 (opC g c { w3 10 with vc := 2 } 10 l) j))))) := by
  unfold loops LaneReady LaneIssues LoopRuns; decide +kernel
/-- The functions of one operand, at 1.0. -/
theorem witness_LaneFloatResults_functions : ∀ x ∈ [(0x18, RFun.rcp), (0x19, .rsq), (0x1A, .sqrt), (0x1B, .exp2), (0x1C, .log2)],
    loops x.1 { lw 10 with vd := 3, va := 2, pn := 0 } (lst [(64, 0x3F800000)] tst) (fun _ c l => srcA c { lw 10 with vd := 3, va := 2 } 10 l)
      (fun g c l => floatWritten c { lw 10 with vd := 3, va := 2 } 10 (drawSR g l 0) (evalRFun x.2 (valOf 10 (opA g c { lw 10 with vd := 3, va := 2 } 10 l)))) := by
  unfold loops LaneReady LaneIssues LoopRuns; decide +kernel
theorem witness_LaneFloatResults_kept : (0xFF7FFFFF : Nat) < 2 ^ 32 ∧ 0xFF7FFFFF / 2 ^ 23 % 2 ^ 8 ≠ 255 := by decide

theorem witness_LaneConversions_predicates : loops 0x0E { w3 2 with vd := 7, mod8 := 5 } ls (srcsAB (w3 2)) (fun _ _ l => some (l, (0 : Flags))) ∧
    loops 0x17 { w3 10 with vd := 7, mod8 := 5 } ls (srcsAB (w3 10)) (fun _ _ l => some (l, (0 : Flags))) := by
  unfold loops LaneReady LaneIssues LoopRuns; decide +kernel
/-- VCVT of i32 to f32, VDQ of e4m3, VHAD with the operand's sign, VRNG, VQNT to e4m3. -/
theorem witness_LaneConversions : loops 0x1D { lw 10 with vd := 3, va := 1, mod8 := 2 } ls (fun _ c l => srcA c { lw 10 with va := 1 } 2 l)
      (fun g c l => some (convertLane false (rndMode c (lw 10)) (drawSR g l) 2 10 0 (opA g c { lw 10 with va := 1 } 2 l) (opD g c { lw 10 with vd := 3 } 10 l))) ∧
    loops 0x1F { lw 12 with vd := 3, va := 1, bk := 2, imm := 0x3F80 } ls (fun _ c l => Src.v (c.rn 1) l :: srcB c { lw 12 with bk := 2, imm := 0x3F80 } 10 l)
      (fun g c l => floatWritten c (lw 12) 10 (drawSR g l 0) (dequantVal g c { lw 12 with vd := 3, va := 1, bk := 2, imm := 0x3F80 } l)) ∧
    loops 0x21 { lw 6 with vd := 3 } ls (fun _ _ _ => []) (fun g _ l => some (rngBits g 6 l, (0 : Flags))) := by
  unfold loops LaneReady LaneIssues LoopRuns; decide +kernel
theorem witness_LaneConversions_blocks : loops 0x20 { lw 10 with vd := 4, va := 1, vb := 2 } ls (fun _ c _ => (List.range 32).flatMap (fun m => srcA c { lw 10 with va := 1 } 10 m) ++ [.s 2, .s 3])
      (fun g c l => satBound c (lw 10) 10 (hadCode false (pairSigns g 2) (runOf g c { lw 10 with va := 1 }) l)) ∧
    loops 0x1E { lw 12 with vd := 3, va := 1, bk := 2, imm := 0x3F80 } ls (fun _ c l => (quantBlock 12 l).flatMap (fun m => srcA c { lw 12 with va := 1 } 10 m)) (fun _ _ l => some l) := by
  unfold loops LaneReady LaneIssues LoopRuns; decide +kernel
/-- VQNT of the transform, over a divisor in a register: each block reads its own divisors. -/
theorem witness_LaneConversions_transform : loops 0x1E { lw 12 with vd := 3, va := 1, vb := 2, vc := 4, mod8 := 16 } ls
    (fun _ c l => (List.range 32).flatMap (srcA c { lw 12 with va := 1 } 10) ++ (quantBlock 12 l).flatMap (srcB c { lw 12 with vb := 2 } 10) ++ [.s 4, .s 5])
    (fun _ _ l => some l) := by
  unfold loops LaneReady LaneIssues LoopRuns; decide +kernel
theorem witness_LaneCrossResults : loops 0x22 { w3 2 with mod8 := 0 } ls (srcsAB (w3 2)) (fun g c l => some (opA g c (w3 2) 2 (opB g c (w3 2) 6 l % 32), (0 : Flags))) ∧
    loops 0x24 { lw 2 with vd := 3, va := 1 } ls (fun g c l => ((workLanes g c (lw 2)).filter (· ≤ l)).flatMap (fun k => srcA c { lw 2 with va := 1 } 2 k))
      (fun g c l => some (reduceCodes 2 0 false 0 (drawSR g l 0) (((workLanes g c (lw 2)).filter (· ≤ l)).map (opA g c { lw 2 with va := 1 } 2)))) := by
  unfold loops LaneReady LaneIssues LoopRuns; decide +kernel
theorem witness_LaneCrossResults_scalar : loops 0x25 { lw 6 with vd := 3, va := 1, mod8 := 2 } ls (fun _ _ _ => [Src.k 1]) (fun _ _ l => some (l, (0 : Flags))) ∧
    loops 0x23 { lw 2 with vd := 4, va := 1 } ls (fun _ c l => srcA c { lw 2 with va := 1 } 2 l) (fun _ _ l => some l) ∧ ls.g.blocked 4 = false ∧
    loops 0x26 { lw 2 with vd := 4, va := 1, bk := 2, imm := 31 } ls (fun _ c _ => srcA c { lw 2 with va := 1 } 2 31) (fun _ _ l => some l) := by
  unfold loops LaneReady LaneIssues LoopRuns; decide +kernel
theorem witness_LaneElementFrame : RegsOk ls.g.r ∧ loops 0x01 (w3 2) ls (srcsAB (w3 2)) (fun g c l => eachSub 2 (fun j => intWritten c (w3 2) (intOf 2 (opA g c (w3 2) 2 l) j + intOf 2 (opB g c (w3 2) 2 l) j))) := by
  unfold loops LaneReady LaneIssues LoopRuns RegsOk; decide +kernel

/-- No lane active, a busy token, a token with the status FAULT, and a register outside the allocation. -/
def lsNone : State := ls.upG (fun g => { g with sp := { g.sp with exmask := 0 } })
def sTok (n st : Nat) (s : State) : State := s.upG (fun g => g.setTok 7 ⟨n, st, 0x2000, []⟩)
theorem witness_LaneSkips : ∀ x ∈ [(0x01, w3 2), (0x1E, { lw 12 with vd := 3, va := 1, bk := 2 }), (0x27, { lw 2 with vd := 3, va := 1, vb := 2 }), (0x34, { lw 10 with vd := 2, vb := 8, bk := 1, mod8 := 1 }),
      (0x3D, { lw 0 with va := 2 }), (0x23, { lw 2 with vd := 4, va := 1 }), (0x26, { lw 2 with vd := 4, va := 1, bk := 2 })],
    lsNone.g.qs.pendL = none ∧ LaneReady (namesOf x.1 x.2) lsNone ∧ actMask (laneIssued (namesOf x.1 x.2) lsNone).g (ctxOf lsNone) = 0 ∧ (laneIssued (namesOf x.1 x.2) lsNone).g.blocked 4 = false := by
  unfold LaneReady LaneIssues; decide +kernel
theorem witness_LaneChecks : ((sTok 1 0 ls).g.tok 7).count ≠ 0 ∧ (128 : BitVec 8).getLsbD 7 = true ∧ ls.g.qs.pendS = none ∧ ls.g.qs.pendL = none ∧ tokensBusy ls.g 128 = false ∧
    issueOk (laneBegun (ls.upG (fun g => { g with place := { g.place with lregs := 3 } }))).g (ctxOf ls) 0x01 (laneRegs 0x01 (w3 2)) (laneTiles 0x01 (w3 2)) = false ∧
    LaneIssues (namesOf 0x2E { lw 0 with wt := 128 }) (sTok 0 2 ls) ∧ ((sTok 0 2 ls).g.tok 7).status = 2 ∧ ∀ u < 7, ¬ ((128 : BitVec 8).getLsbD u = true ∧ ((sTok 0 2 ls).g.tok u).status = 2) := by
  unfold LaneIssues; decide +kernel

/-- The checks of a memory word come out well in a state, with some places. -/
def reaches (op : Nat) (w : LWord) (sp : Bool) (acc : Acc) (srcs : LCtx → Nat → List Src) (s : State) : Prop :=
  LaneReady (namesOf op w) s ∧ actMask (laneIssued (namesOf op w) s).g (ctxOf s) ≠ 0 ∧
  settledTest (laneIssued (namesOf op w) s).g (ctxOf s) w (lanesOf (actMask (laneIssued (namesOf op w) s).g (ctxOf s))) (srcs (ctxOf s)) = none ∧
  (laneTargets (laneIssued (namesOf op w) s) (ctxOf s) w sp acc (accessSize w.ty.toNat) (workLanes (laneIssued (namesOf op w) s).g (ctxOf s) w)).toOption.any
    (fun ts => decide (ts.map (·.1) = [0, 31])) = true ∧
  badLane (laneIssued (namesOf op w) s).g w (workLanes (laneIssued (namesOf op w) s).g (ctxOf s) w) (srcs (ctxOf s)) = none
/-- Lanes at base s1 or s2 with v9 as offsets, here 0. -/
def wm (b : BitVec 8) : LWord := { lw 2 with vd := 3, va := b, vb := 9 }
theorem witness_LaneReadsMemory : reaches 0x27 (wm 1) false .load (fun c => addrSrcs c (wm 1)) ls ∧ reaches 0x29 (wm 2) true .load (fun c => addrSrcs c (wm 2)) ls ∧
    reaches 0x2B { wm 1 with bk := 1, ck := 2, imm := 1, mod8 := 0x60 } false .atomic (fun c => atomSrcs c { wm 1 with bk := 1, ck := 2, imm := 1, mod8 := 0x60 }) ls := by
  unfold reaches LaneReady LaneIssues; decide +kernel
/-- Its accesses are back, clean, or still out. -/
def laneWait (i : Instr) (need : Nat) (s : State) : State :=
  s.upG (fun g => { g with qs := { g.qs with pendL := some ⟨i, need, [⟨0, 5, false, false, false, 0x1000⟩]⟩ } })
theorem witness_LaneReadsMemory_waiting : ∀ i ∈ [Instr.vld (wm 1), .vlds (wm 2), .vatom { wm 1 with ck := 2, imm := 1, mod8 := 0x60 }], ∀ n ∈ [1, 2],
    ∃ p, (laneWait i n ls).g.qs.pendL = some p ∧ p.w = i ∧ p.done = decide (n = 1) ∧ CameClean (wm 1) p := by
  intro i hi n hn; refine ⟨_, rfl, rfl, ?_, rfl, fun h => absurd h (by decide)⟩
  simp only [List.mem_cons, List.mem_nil_iff, or_false] at hn; rcases hn with rfl | rfl <;> rfl
/-- Accesses at home come back at once; one behind an acquire does not. -/
theorem witness_LaneReadsMemory_starts : (startReads ls true (.vld (wm 1)) [{ entry0 with lw := true }]).g.qs.pendL.any Pend.done = true ∧
    (startReads (ls.upG (fun g => g.addIq [{ entry0 with kind := .fence true false false 0 }])) true (.vld (wm 1)) [{ entry0 with lw := true }]).g.qs.pendL.any (fun p => !p.done) = true := by decide +kernel
theorem witness_LaneStores : reaches 0x28 { wm 1 with vd := 0, vc := 1 } false .store (fun c l => addrSrcs c (wm 1) l ++ srcC c { wm 1 with vc := 1 } 2 l) ls ∧
    reaches 0x2A { wm 2 with vd := 0, vc := 1 } true .store (fun c l => addrSrcs c (wm 2) l ++ srcC c { wm 2 with vc := 1 } 2 l) ls ∧
    (∀ l ∈ [0, 31], (storedBits (laneIssued (namesOf 0x28 { wm 1 with vd := 0, vc := 1 }) ls).g (ctxOf ls) { wm 1 with vd := 0, vc := 1 } l).isSome = true) ∧
    reaches 0x2C { wm 1 with vd := 0, bk := 1, ck := 2, imm := 1, mod8 := 0x60 } false .reduce (fun c => atomSrcs c { wm 1 with vd := 0, bk := 1, ck := 2, imm := 1, mod8 := 0x60 }) ls := by
  unfold reaches LaneReady LaneIssues; decide +kernel
/-- Two stores to one unit that share a place. -/
theorem witness_LaneStores_joined : ∀ e ∈ [{ entry0 with kind := .store, wr := [(0x40002000, 1), (0x40002001, 2)] }, { entry0 with kind := .store, wr := [(0x40002001, 3), (0x4000201F, 4)] }],
    e.kind = .store ∧ e.pk = .r ∧ e.member = none ∧ (∀ p ∈ e.wr, unitOf p.1 = unitOf e.place) ∧ (e.wr.map (·.1)).Pairwise (· < ·) := by decide +kernel

/-- k1 holds lane 0 alone, k2 every lane, k3 none; k4 is a proposal. -/
def lsK : State := ls.upG (fun g => { g with r := { g.r with kreg := [(1, 1), (2, 0xFFFFFFFF)], ktag := [(4, true)] } })
def lsDeep (n : Nat) (s : State) : State := s.upG (fun g => { g with ln := { g.ln with stack := List.replicate (min 16 n) ⟨5, 0, false, false, false, 0, 0xFFFFFFFF⟩, biv := n - 16 } })
theorem witness_LaneBranches : ∀ x ∈ [(lsNone, (0 : BitVec 3), 0), (lsK, 2, 0x80000001), (lsK, 3, 0), (lsK, 1, 1), (lsDeep 255 lsK, 1, 1), (lsDeep 256 lsK, 1, 1), (lsK, 4, 0)],
    LaneReady (namesOnly 0x2D 0 0 x.2.1) x.1 ∧ x.1.g.qs.pendS = none ∧ (ctxOf x.1).path.p = false ∧ (laneIssued (namesOnly 0x2D 0 0 x.2.1) x.1).g.r.bad = [] ∧
    (actMask (laneIssued (namesOnly 0x2D 0 0 x.2.1) x.1).g (ctxOf x.1) &&& predMask (laneIssued (namesOnly 0x2D 0 0 x.2.1) x.1).g 0 x.2.1) = x.2.2 := by
  unfold LaneReady LaneIssues; decide +kernel
/-- A full stack, whose bottom entry has a place in the bivouac area. -/
theorem witness_LaneBranches_spill : let s := lsDeep 18 (sCtx ls)
    StoresOk s ∧ s.quiet = true ∧ s.g.ln.stack.length = 16 ∧ s.g.ln.biv = 2 ∧ s.g.ln.stack.getLast?.isSome = true ∧
    (ownPlace s s.g .store (s.g.sp.bivbase + BitVec.ofNat 64 (16 * s.g.ln.biv))).any (fun x => decide (x.pa = 0x40180020)) = true := by
  unfold StoresOk Memory.wf; decide +kernel
theorem witness_LaneBranches_limits : (laneIssued (namesOnly 0x2D 0) (lsDeep 255 lsK)).g.ln.depth < (laneIssued (namesOnly 0x2D 0) (lsDeep 255 lsK)).g.divLimit ∧
    (laneIssued (namesOnly 0x2D 0) (lsDeep 256 lsK)).g.divLimit ≤ (laneIssued (namesOnly 0x2D 0) (lsDeep 256 lsK)).g.ln.depth ∧
    predTag (laneIssued (namesOnly 0x2D 0) lsK).g 4 = true ∧ (1 : BitVec 32) &&& ~~~ (ctxOf lsK).path.mask = 0 ∧ (lsDeep 16 lsK).g.ln.stack.length ≤ 16 := by decide +kernel
/-- LEND: at the end of a run, in an open loop, with a divergence open. LMASK: with a mask, and with a proposal one. -/
def lsLoop (body : Nat) (popped : Bool) (cairn : List CairnEntry) (s : State) : State :=
  s.upG (fun g => { g with ln := { g.ln with gl := { g.ln.gl with body := body, popped := popped, cairn := cairn, cap := 32, hi := 32, xmask := 0x80000001, gpc := 1, cent := 2, xpc := 3 } } })
theorem witness_LaneEndMask : ∀ x ∈ [(ls, false, 0), (lsLoop 1 false [] ls, true, 0), (lsDeep 1 ls, false, 1)], LaneReady (namesOf 0x2E (lw 0)) x.1 ∧ x.1.g.qs.pendS = none ∧
    ((laneIssued (namesOf 0x2E (lw 0)) x.1).g.ln.gl.isOpen && decide ((laneIssued (namesOf 0x2E (lw 0)) x.1).g.lvl = 0)) = x.2.1 ∧ (laneIssued (namesOf 0x2E (lw 0)) x.1).g.ln.depth = x.2.2 := by
  unfold LaneReady LaneIssues; decide +kernel
theorem witness_LaneMask : ∀ k ∈ [(1, false), (4, true)], LaneReady (namesOf 0x2F { lw 0 with mod8 := 1, va := k.1 }) lsK ∧ lsK.g.qs.pendS = none ∧
    (maskOperand (laneIssued (namesOf 0x2F { lw 0 with mod8 := 1, va := k.1 }) lsK).g { lw 0 with mod8 := 1, va := k.1 }).2.any (Src.tag (laneIssued (namesOf 0x2F { lw 0 with mod8 := 1, va := k.1 }) lsK).g (ctxOf lsK)) = k.2 ∧
    firstBad (laneIssued (namesOf 0x2F { lw 0 with mod8 := 1, va := k.1 }) lsK).g (maskOperand (laneIssued (namesOf 0x2F { lw 0 with mod8 := 1, va := k.1 }) lsK).g { lw 0 with mod8 := 1, va := k.1 }).2 = none := by
  unfold LaneReady LaneIssues; decide +kernel
theorem witness_LaneTags : loops 0x30 { lw 2 with vd := 3, va := 1 } ls (fun _ c l => srcA c { lw 2 with va := 1 } 2 l) (fun _ _ l => some l) ∧
    ∀ w ∈ [{ lw 2 with vd := 1, va := 1 }, { lw 0 with vd := 1, va := 1, mod8 := 1 }, { lw 0 with vd := 1, va := 15, mod8 := 2 }, { lw 0 with vd := 7, mod8 := 3 }],
      loops 0x31 w ls (fun _ _ _ => []) (fun _ _ l => some l) := by
  unfold loops LaneReady LaneIssues LoopRuns; decide +kernel

/-- DACC of a·x at the range's edge: 2^31 · 2^31 − 1 fits the default range of 96 integer bits, f32's largest number does not fit. -/
def wd3 : LWord := { lw 10 with vd := 3, va := 1, vb := 2, vc := 1 }
def ld (v : Store Elem) : State := lst v tst
def accOf (s : State) (l : Nat) : Option DElem :=
  accumulate (rangeI (ctxOf s)) (rangeF (ctxOf s)) (s.g.dElem 3 l) (valOf 10 (opA s.g (ctxOf s) wd3 10 l)) (valOf 10 (opB s.g (ctxOf s) wd3 10 l)) (valOf 10 (opC s.g (ctxOf s) wd3 10 l)) false
theorem witness_Accumulators : (∀ s ∈ [ld [(32, 0x4F000000), (63, 0x3F800000), (64, 0x4F000000), (95, 0x40000000)], ld [(32, 0x3F800000), (63, 0x7F7FFFFF), (64, 0x3F800000), (95, 0x3F800000)]],
      LaneReady (namesOf 0x32 wd3) s ∧ RegsOk s.g.r ∧ s.g.qs.pendS = none ∧ actMask (laneIssued (namesOf 0x32 wd3) s).g (ctxOf s) = 0x80000001 ∧ (laneIssued (namesOf 0x32 wd3) s).g.r.bad = [] ∧
      (accOf s 0).isSome = true) ∧
    (accOf (ld [(32, 0x4F000000), (63, 0x3F800000), (64, 0x4F000000), (95, 0x40000000)]) 31).isSome = true ∧
    accOf (ld [(32, 0x3F800000), (63, 0x7F7FFFFF), (64, 0x3F800000), (95, 0x3F800000)]) 31 = none := by
  unfold LaneReady LaneIssues RegsOk; decide +kernel
theorem witness_Accumulators_exact : (accumulate 4 4 DElem.zero (ofInt 7) (ofInt 1) (ofInt 7) true).isSome = true := by decide +kernel
/-- DSUM of single elements, and of segments of 32, with elements that fit. -/
def lsD : State := ls.upG (fun g => (g.setD 3 0 ⟨5, 9, 3, 4, false⟩).setD 3 31 ⟨-2 ^ 190, 2 ^ 190, 1, 2 ^ 190, true⟩)
theorem witness_Accumulators_sums : ∀ seg ∈ [0, 5], let w : LWord := { lw 10 with vd := 4, va := 3, mod8 := BitVec.ofNat 8 (4 * seg) }
    loops 0x33 w lsD (fun _ _ _ => (([0, 31] : List Nat).filter (fun _ => seg = 5)).map (fun k => Src.d 3 k)) (fun _ _ l => some l) ∧
    fxFits (rangeI (ctxOf lsD)) (rangeF (ctxOf lsD)) (combineD [lsD.g.dElem 3 0, lsD.g.dElem 3 31]).res = true ∧
    fxFits (rangeI (ctxOf lsD)) (rangeF (ctxOf lsD)) (combineD [lsD.g.dElem 3 0, lsD.g.dElem 3 31]).na = true ∧
    fxFits (rangeI (ctxOf lsD)) (rangeF (ctxOf lsD)) (combineD [lsD.g.dElem 3 0, lsD.g.dElem 3 31]).nb = true := by
  unfold loops LaneReady LaneIssues LoopRuns; decide +kernel

/-- DAPPLY outside a pass, and a pass whose record is back, clean or with poison. -/
def wApply : LWord := { lw 10 with vd := 1, vb := 8, bk := 1, mod8 := 1 }
def lsA : State := ls.upG (fun g => g.setS 8 0x3F800000 false)
theorem witness_Applying : LaneReady (namesOf 0x34 wApply) lsA ∧ actMask (laneIssued (namesOf 0x34 wApply) lsA).g (ctxOf lsA) ≠ 0 ∧ dctlEn (ctxOf lsA).cap.dctl = false ∧
    (laneIssued (namesOf 0x34 wApply) lsA).g.r.bad = [] ∧ ∀ l ∈ [0, 31], (srcB (ctxOf lsA) wApply 10 l).any (Src.tag (laneIssued (namesOf 0x34 wApply) lsA).g (ctxOf lsA)) = false ∧
      quantitiesFit (laneIssued (namesOf 0x34 wApply) lsA).g (ctxOf lsA) wApply l = true := by
  unfold LaneReady LaneIssues; decide +kernel
theorem witness_Applying_pass : ∀ b ∈ [false, true], ∃ p, (lsA.upG (fun g => { g with qs := { g.qs with pendL := some ⟨.dapply wApply, 1, [⟨0, 0, false, b, false, 0x800000⟩]⟩ } })).g.qs.pendL = some p ∧
    p.w = .dapply wApply ∧ p.done = true ∧ (firstPoison p.got).isSome = b := by
  intro b hb; refine ⟨_, rfl, rfl, rfl, ?_⟩
  simp only [List.mem_cons, List.mem_nil_iff, or_false] at hb; rcases hb with rfl | rfl <;> rfl
theorem witness_Applying_not : 0 ∈ workLanes lsA.g (laneCtx lsA.g) wApply ∧ (laneCertifies (lsA.upG (fun g => g.setD 0 0 ⟨2 ^ 100, 1, 1, 1, false⟩)).g (laneCtx lsA.g) wApply 0).1 = false ∧
    bits lsA.g.sp.dstat.toNat 2 0 ≠ 1 := by decide +kernel
theorem witness_Applying_certifies : ∀ l ∈ [0, 31], (laneCertifies (lsA.upG (fun g => (g.setD 0 0 ⟨0, 1, 1, 1, false⟩).setD 0 31 ⟨0, 1, 1, 1, false⟩)).g (laneCtx lsA.g) wApply l).1 = true := by decide +kernel

/-- MMA of one term with A in registers, at its first step; one of 33 terms, which has a second step; and a cooperative one. -/
def wMma : LWord := { lw 9 with va := 16, vb := 5, bk := 1 }
def wCl : LWord := { lw 9 with vb := 5, bk := 1, mod8 := 4 }
def sShape (v : Word) (s : State) : State := s.upG (fun g => { g with cap := { g.cap with shape := sset 0 g.cap.shape 0 v }, sp := { g.sp with coord := 0x300000000 } })
/-- The run captures its registers when it is enqueued. -/
def lsM (v : Word) : State := lst [] (sShape v tst)
theorem witness_MatrixWords : ∀ x ∈ [(lsM 0, wMma, false), (lsM 0x20000, wMma, false), (lsM 0x08000000, wCl, true)],
    x.1.g.ln.mgo = false ∧ x.1.g.ln.mstep = 0 ∧ LaneReady (namesOf 0x35 x.2.1) x.1 ∧
    (let c := ctxOf x.1
     let s1 := laneIssued (namesOf 0x35 x.2.1) x.1
     let s2 := touchRegs s1 (mmaReads c (mmaJob s1.g c x.2.1))
     let j := mmaJob s2.g c x.2.1
     mmaDecodeOk s1.g c x.2.1 (mmaJob s1.g c x.2.1) = true ∧ (mmaJob s1.g c x.2.1).tiles.any (tileHeld s1) = false ∧ j.o < 2 ^ 15 ∧ j.inWindows s2.g.place = true ∧
     mmaShapeOk s2.g x.2.1 j = true ∧ firstBad s2.g (mmaSrcs c x.2.1 j) = none ∧ mmaCl x.2.1 = x.2.2) := by
  unfold LaneReady LaneIssues; decide +kernel
/-- A B operand at the offset 1, with lanes of two bytes to an element. -/
theorem witness_MatrixWords_align : let x := (lsM 0).upG (fun g => g.setS 5 1 false)
    LaneReady (namesOf 0x35 wMma) x ∧ x.g.qs.pendS = none ∧ x.g.ln.mgo = false ∧ x.g.ln.mstep = 0 ∧
    (let c := ctxOf x
     let s1 := laneIssued (namesOf 0x35 wMma) x
     let s2 := touchRegs s1 (mmaReads c (mmaJob s1.g c wMma))
     mmaDecodeOk s1.g c wMma (mmaJob s1.g c wMma) = true ∧ (mmaJob s1.g c wMma).tiles.any (tileHeld s1) = false ∧
     (mmaJob s2.g c wMma).o % max 1 ((mmaJob s2.g c wMma).wd / 8) ≠ 0) := by
  unfold LaneReady LaneIssues; decide +kernel
/-- The step k of an MMA may run; its units are clean, or one is poisoned; what it reads is good, or an element is bad. -/
def mmaRuns (c : LCtx) (u : State) (k : Nat) (poison bad : Bool) : Bool :=
  let j := mmaJob u.g c wMma
  let units := j.sectorsFrom k
  let u1 := touchRegs (units.foldl (fun s x => touchUnit s s.g x) (settle u)) (mmaReads c j)
  blockBound u j.aBid && blockBound u j.bBid && sectorsReady { u with homeQ := [] } units && !units.any (homeTag u1) &&
    decide (units.any (homePoison u1) = poison) && decide ((firstBad u1.g (mmaSrcs c wMma j)).isSome = bad)
def sPois (s : State) : State := { s with upoison := [(unitOf (bsPlace s.g.place.bid 0 0), true)] }
def sResume (s : State) : State := s.upG (fun g => { g with ln := { g.ln with slot := g.ln.mslot, mstep := 1, mword := some (0, wMma) } })
/-- An element of result tile 0 is bad. -/
def sBad (s : State) : State := s.upG (fun g => { g with r := { g.r with bad := [(4, 0)] } })
theorem witness_MatrixWords_runs : (∀ s ∈ [lsM 0, lsM 0x20000], (mmaJob s.g (ctxOf s) wMma).o % max 1 ((mmaJob s.g (ctxOf s) wMma).wd / 8) = 0 ∧
      mmaRuns (ctxOf s) (laneIssued (namesOf 0x35 wMma) s) 0 false false = true) ∧
    (∀ b ∈ [false, true], let s := if b then sBad (sResume (lsM 0x20000)) else sResume (lsM 0x20000)
      s.g.ln.mgo = false ∧ s.g.ln.mstep ≠ 0 ∧ s.g.qs.pendS = none ∧ mmaRuns (laneCtx s.g) s 1 false b = true) ∧
    mmaRuns (ctxOf (lsM 0)) (laneIssued (namesOf 0x35 wMma) (sPois (lsM 0))) 0 true false = true := by decide +kernel
theorem witness_MatrixWords_sums : (0xFFFFFFFFFFFF : Nat) < 2 ^ 48 ∧ (2 ^ 47 : Nat) / 2 ^ 37 % 2 ^ 10 ≠ 1023 ∧ (3 : Nat) ≠ 4 := by decide
theorem witness_MatrixWords_arrives : ((lsM 0x08000000).findTask 1).any (fun t => decide ((t.cl ++ t.clGo).any (sameBlock (lsM 0x08000000).g) = false)) = true ∧
    releaseOk (lsM 0x08000000) (lsM 0x08000000).g 2 = true ∧ ([⟨0, 1, [1]⟩, ⟨0, 2, [1]⟩, ⟨0, 3, [2]⟩] : List ClArrival).length = 3 := by decide +kernel
theorem witness_MatrixWords_phase : ∀ v ∈ [[1], [0]], let s := ({ lsM 0 with tasks := [{ placedTask with clGo := [⟨0, 0, v⟩] }] } : State).upG (fun g => { g with ln := { g.ln with mgo := true, mword := some (0, wMma) } })
    let s1 := s.upG (fun g => { g with ln := { g.ln with slot := g.ln.mslot } })
    s.g.ln.mgo = true ∧ s.g.qs.pendS = none ∧ (s1.findTask s1.g.key.task).any (fun t => decide (t.clGo.find? (sameBlock s1.g) = some ⟨0, 0, v⟩)) = true ∧
    mmaRuns (laneCtx s1.g) ((s1.upTask s1.g.key.task (fun t => { t with clGo := t.clGo.filter (fun x => !sameBlock s1.g x) })).upG
      (fun g => { g with ln := { g.ln with mstep := 0, mgo := false, mword := none } })) 0 false false = true := by decide +kernel

theorem witness_TileWords : RegsOk ls.g.r ∧ (ctxOf ls).path.p = false ∧ LaneReady (namesOf 0x36 { lw 0 with vd := 14, mod8 := 1, tg := 1 }) ls ∧
    LaneReady (namesOf 0x38 { lw 7 with vd := 15, va := 16, tg := 1 }) ls ∧
    (wideSrcs (ctxOf ls) 16 (rowRegs 7)).any (Src.tag (laneIssued (namesOf 0x38 { lw 7 with vd := 15, va := 16, tg := 1 }) ls).g (ctxOf ls)) = false ∧
    firstBad (laneIssued (namesOf 0x38 { lw 7 with vd := 15, va := 16, tg := 1 }) ls).g (wideSrcs (ctxOf ls) 16 (rowRegs 7)) = none := by
  unfold LaneReady LaneIssues RegsOk; decide +kernel
theorem witness_TileWords_read : ∀ rm ∈ [0, 6], LaneReady (namesOf 0x37 { lw 10 with vd := 32, va := 15, rm := rm }) ls ∧
    ((lw 10).tg = 1 → (ctxOf ls).path.p = false) ∧ firstBad (laneIssued (namesOf 0x37 { lw 10 with vd := 32, va := 15, rm := rm }) ls).g [.t 15] = none ∧
    ∀ r < 32, ∀ n < 32, (readOut (laneIssued (namesOf 0x37 { lw 10 with vd := 32, va := 15, rm := rm }) ls).g (ctxOf ls) { lw 10 with vd := 32, va := 15, rm := rm } r n).isSome = true := by
  unfold LaneReady LaneIssues; decide +kernel
/-- A frame number of eight bits. -/
theorem witness_TileWords_frame : let s := ls.upG (fun g => g.setS 9 128 false)
    LaneReady (namesOf 0x39 { lw 0 with va := 16, bk := 1, vb := 9 }) s ∧ s.g.qs.pendS = none ∧
    ((laneIssued (namesOf 0x39 { lw 0 with va := 16, bk := 1, vb := 9 }) s).g.sval 9).toNat = 128 := by
  unfold LaneReady LaneIssues; decide +kernel
/-- MTLD to the last frame of the window; MSPL and MFIL at an aligned address of memory and of the scratchpad. -/
theorem witness_TileWords_moves : LaneReady (namesOf 0x39 { lw 0 with va := 16, bk := 2, imm := 127 }) ls ∧ ((127 : BitVec 32).signExtend 64).toNat < ls.g.place.tsFr ∧
    firstBad ls.g (wideSrcs (ctxOf ls) 16 16) = none ∧ LaneReady (namesOf 0x3A { lw 0 with va := 15, vb := 1 }) ls ∧ LaneReady (namesOf 0x3B { lw 0 with vd := 15, vb := 2, mod8 := 128 }) ls ∧
    (spillTargets (laneIssued (namesOf 0x3A { lw 0 with va := 15, vb := 1 }) ls) false .store 0x1000).toOption.isSome = true ∧
    (spillTargets (laneIssued (namesOf 0x3B { lw 0 with vd := 15, vb := 2, mod8 := 128 }) ls) true .load 0x800000).toOption.isSome = true ∧
    firstBad ls.g [.t 15, .s 1] = none ∧ firstBad ls.g [.s 2] = none := by
  unfold LaneReady LaneIssues; decide +kernel
theorem witness_TileWords_fill : ∃ p, (laneWait (.mfil { lw 0 with vd := 15, vb := 2, mod8 := 128 }) 1 ls).g.qs.pendL = some p ∧ p.w = .mfil { lw 0 with vd := 15, vb := 2, mod8 := 128 } ∧ p.done = true ∧
    CameClean { lw 0 with vd := 15, vb := 2, mod8 := 128 } p ∧ (p.got.map (·.lane)).Nodup ∧ RegsOk (laneWait (.mfil { lw 0 with vd := 15, vb := 2, mod8 := 128 }) 1 ls).g.r :=
  ⟨_, rfl, rfl, rfl, ⟨rfl, fun h => absurd h (by decide)⟩, by decide, by unfold RegsOk; decide +kernel⟩
/-- Behind an acquire the accesses of MFIL stay out. -/
theorem witness_TileWords_waits : (startReads (ls.upG (fun g => g.addIq [{ entry0 with kind := .fence true false false 0 }])) true (.mfil { lw 0 with vd := 15, vb := 2, mod8 := 128 }) [{ entry0 with lw := true }]).g.qs.pendL.any
    (fun p => !p.done) = true := by decide +kernel

/-- GENBEG with the largest frames that fit 256 registers, with frames that do not, and where a loop is open. -/
theorem witness_GeneratorWords_opens : ∀ x ∈ [(ls, false, 256), (lsLoop 1 false [] ls, true, 256), (ls.upG (fun g => { g with place := { g.place with lregs := 192 } }), false, 192)], LaneReady (namesOnly 0x3C 0) x.1 ∧ x.1.g.qs.pendS = none ∧
    (laneIssued (namesOnly 0x3C 0) x.1).g.lvl = 0 ∧ (laneIssued (namesOnly 0x3C 0) x.1).g.ln.gl.isOpen = x.2.1 ∧ (laneIssued (namesOnly 0x3C 0) x.1).g.ln.l1 = none ∧ (laneIssued (namesOnly 0x3C 0) x.1).g.ln.depth = 0 ∧
    (laneIssued (namesOnly 0x3C 0) x.1).g.place.lregs = x.2.2 ∧ 64 * (max (3 : BitVec 2).toNat (2 : BitVec 2).toNat + 1) = 256 := by
  unfold LaneReady LaneIssues; decide +kernel
/-- A cairn of n entries. -/
def cairnOf (n : Nat) : List CairnEntry := List.replicate n ⟨[(1, false), (2, true), (0, false), (0, false)]⟩
theorem witness_GeneratorWords_exit : ∀ b ∈ [true, false], let s := (lsLoop 1 false [] ls).upG (fun g => { g with ln := { g.ln with gl := { g.ln.gl with exiting := b } } })
    LaneReady (namesOf 0x40 (lw 0)) s ∧ s.g.qs.pendS = none ∧ (laneIssued (namesOf 0x40 (lw 0)) s).g.ln.gl.exiting = b ∧ (laneIssued (namesOf 0x40 (lw 0)) s).g.lvl = 0 := by
  unfold LaneReady LaneIssues; decide +kernel
/-- YIELD of two lanes: the cairn just holds them, is short by one, or is empty and too small. -/
theorem witness_GeneratorWords_yield : ∀ x ∈ [(30, 32, true), (31, 32, false), (0, 1, false)],
    let s := (lsLoop 1 false (cairnOf x.1) ls).upG (fun g => { g with ln := { g.ln with gl := { g.ln.gl with cap := x.2.1 } } })
    let w : LWord := { lw 0 with va := 1 }
    let g := (laneIssued (namesOf 0x3D w) s).g
    LaneReady (namesOf 0x3D w) s ∧ s.g.qs.pendS = none ∧ actMask g (ctxOf s) ≠ 0 ∧ settledTest g (ctxOf s) w (lanesOf (actMask g (ctxOf s))) (yieldSrcs (ctxOf s) w) = none ∧ g.inStep = true ∧ g.ln.gl.body = 1 ∧
    g.ln.depth = 0 ∧ badLane g w (workLanes g (ctxOf s) w) (yieldSrcs (ctxOf s) w) = none ∧ predTag g w.pk = false ∧
    decide (g.ln.gl.cairn.length + (workLanes g (ctxOf s) w).length * yieldNops w ≤ g.ln.gl.cap) = x.2.2 := by
  unfold LaneReady LaneIssues; decide +kernel
theorem witness_GeneratorWords_step : ∀ x ∈ [(1, false), (2, true), (3, true), (2, false)],
    let s := (lsLoop x.1 x.2 (cairnOf 2) ls).upG (fun g => { g with ln := { g.ln with gl := { g.ln.gl with susp := some ⟨Path.full 1, 1, []⟩ } } })
    let g := (laneIssued (namesOf 0x3E (lw 0)) s).g
    LaneReady (namesOf 0x3E (lw 0)) s ∧ s.g.qs.pendS = none ∧ g.inStep = true ∧ g.ln.depth = 0 ∧ g.ln.gl.body = x.1 ∧ g.ln.gl.popped = x.2 ∧ g.ln.gl.susp.isSome = true := by
  unfold LaneReady LaneIssues; decide +kernel
theorem witness_GeneratorWords_pop : ∀ x ∈ [(2, false, 33), (2, false, 0), (1, false, 0), (2, true, 3)],
    let s := lsLoop x.1 x.2.1 (cairnOf x.2.2) ls
    let g := (laneIssued (namesOf 0x3F { lw 0 with vd := 4, mod8 := 3 }) s).g
    LaneReady (namesOf 0x3F { lw 0 with vd := 4, mod8 := 3 }) s ∧ RegsOk s.g.r ∧ s.g.qs.pendS = none ∧ g.inStep = true ∧ g.ln.gl.body = x.1 ∧ g.ln.gl.popped = x.2.1 ∧ g.r.bad = [] ∧
    ∀ e ∈ g.ln.gl.cairn, e.words.length = 4 := by
  unfold LaneReady LaneIssues RegsOk; decide +kernel
/-- A decision: HI reached, no live lane left with entries, a live lane left, and none of these. -/
theorem witness_GeneratorDecision : ∀ x ∈ [(32, 0, true, false), (1, 0xFFFFFFFF, false, true), (31, 0, false, false), (0, 0xFFFFFFFF, false, false)],
    let l := ((lsLoop 1 false (cairnOf x.1) ls).upG (fun g => { g with ln := { g.ln with gl := { g.ln.gl with done := BitVec.ofNat 32 x.2.1 } } })).g.ln.gl
    decide (l.hi ≤ l.cairn.length) = x.2.2.1 ∧ decide (l.xmask &&& ~~~ l.done = 0 ∧ 0 < l.cairn.length) = x.2.2.2 := by decide +kernel

/-! ### Witnesses: queues, homes and engines -/

/-- The group's issue queue holds one entry. -/
def sIq (e : Entry) : State := tst.upG (fun g => g.addIq [e])
theorem witness_QueueEntriesPerform : ∀ k ∈ [EKind.load, .atomic, .reduce, .store, .fence false true false 4, .fence true true true 0, .tladv 3 4, .command 1],
    ((sIq { entry0 with kind := k }).findGroup keyT).any (fun h => decide (h.qs.iq[0]? = some { entry0 with kind := k }) && canLeave (sIq { entry0 with kind := k }) h 0) = true ∧
    memberReady (sIq entry0) { entry0 with kind := k } = true ∧ bankHeld (sIq entry0) entry0.addr = false ∧ noRoute (sIq entry0) 0 entry0.addr = false ∧
    routeRoom (sIq entry0) 0 entry0.addr = true ∧ isRemote entry0.addr = false ∧
    ((sIq entry0).upGroup keyT (fun h => h.dropIq 0)).findTask 1 = some placedTask ∧ ({ sIq entry0 with cmds := [cmd0] } : State).findCmd 1 = some cmd0 := by decide +kernel
/-- Accesses that their stream has gone past, at a clean and at a poisoned place; a load of host and of peer memory; a noted peer. -/
theorem witness_QueueEntriesPerform_late : (∀ k ∈ [EKind.load, .atomic], ∀ p ∈ [false, true],
      let e : Entry := { entry0 with kind := k, late := some (.sreg 3 false) }
      let s : State := if p then { sIq e with upoison := [(0x40002000, true)] } else sIq e
      (s.findGroup keyT).any (fun h => let u := touchUnit s h e.addr
        canLeave s h 0 && decide (e.heldBack (performLoad u h e) = p) && decide (e.heldBack (performAtomic (crossing u h.place.q e) e).2 = p)) = true) ∧
    (∀ a ∈ [2 * 2 ^ 48, 2 ^ 48 + 5 * 2 ^ 40], let e : Entry := { entry0 with addr := a }
      ((sIq e).findGroup keyT).any (fun h => canLeave (sIq e) h 0) = true ∧ isRemote a = true ∧ bankHeld (sIq e) a = false ∧ noRoute (sIq e) 0 a = false ∧ routeRoom (sIq e) 0 a = true) ∧
    (let s : State := { tst with links := { tst.links with sent := [⟨keyT, 5⟩] } }
     swf 0 s.links.numTo = true ∧ 5 ∉ s.links.down ∧ (s.links.sent.filter (fun x => x.grp = keyT && x.dev = 5)).length ≠ 0) := by decide +kernel

/-- A write at the head of its write queue, to each kind of place. -/
def wAt (pk : PKind) (a : Nat) (m : Option Nat) : Write := { write0 with pk := pk, wr := [(a, 7)], member := m }
def sWq (w : Write) : State := tst.upG (fun g => { g with qs := { g.qs with wq := [w] } })
theorem witness_WritesTravel : ∀ x ∈ [(wAt .r 0x40002000 none, 0), (wAt .u 0x40002000 none, 0), (wAt .s 0x40002000 none, 0), (wAt .r (spPlace 1 0) none, 1), (wAt .r (spPlace 1 0) (some 0), 1),
      (wAt .r (3 * 2 ^ 48) none, 4), (wAt .r (2 * 2 ^ 48) none, 3), (wAt .r (2 ^ 48 + 5 * 2 ^ 40) none, 2)],
    ((sWq x.1).findGroup keyT).any (fun h => decide (drainable x.1.pk (h.qs.wq.filter (fun w => decide ((if w.pk = .sram then .r else w.pk) = (if x.1.pk = .sram then .r else x.1.pk)))) 0 = some x.1)) = true ∧
    noRoute (sWq x.1) 0 x.1.place = false ∧ routeRoom (sWq x.1) 0 x.1.place = true ∧
    [isLocal x.1.place, isDie x.1.place, isPeer x.1.place, isHost x.1.place, isMmio x.1.place].findIdx? id = some x.2 := by decide +kernel
/-- Every bridge down: a write to the next quarter has no route. -/
def sCut (w : Write) : State := { sWq w with links := { tst.links with rg := tst.links.rg.map (fun r => { r with down := true }) } }
theorem witness_WritesTravel_cut : let w := wAt .s (quarterSize + 0x2000) none
    noRoute (sCut w) 0 w.place = true ∧ isLocal w.place = true ∧ ((sCut w).findGroup w.grp).isSome = true ∧ (0 : Nat) ≠ homeQuarter w.place ∧ swf 0 tst.links.numTo = true := by decide +kernel
/-- A write to a peer behind an older one to its unit through another page kind; and every Ulfer rail group down. -/
theorem witness_WritesTravel_older : let a := 2 ^ 48 + 5 * 2 ^ 40
    let w := wAt .u a none
    (∀ o ∈ [false, true], let q := (if o then [wAt .r (a + 4) none] else []) ++ [w]
      (∃ x ∈ q.takeWhile (fun x => decide (x ≠ w)), x.toUnit w.place = true) ↔ o = true) ∧
    drainable .u [w] 0 = some w ∧ isPeer w.place = true ∧ railUp tst 6 = true ∧ railUp (sCut w) 6 = false ∧ railUp (sCut w) 7 = false ∧ railUp (sCut w) 8 = false := by
  decide +kernel
theorem witness_WritesTravel_peer : peerOf (2 ^ 48 + 5 * 2 ^ 40) ∉ tst.links.down ∧ peerRoom tst (2 ^ 48 + 5 * 2 ^ 40) = true ∧
    peerOf (2 ^ 48 + 5 * 2 ^ 40) ∈ ({ tst with links := { tst.links with down := [peerOf (2 ^ 48 + 5 * 2 ^ 40)] } } : State).links.down := by decide +kernel
/-- The oldest write of its core to its unit, and a message to a bound block. -/
theorem witness_WritesTravel_homewards : ({ tst with cp := [{ write0 with core := 1 }, write0] } : State).cp[1]? = some write0 ∧
    (∀ x ∈ [{ write0 with core := 1 }], x.core = write0.core → unitOf x.place ≠ unitOf write0.place) ∧
    ({ tst with msgs := [wAt .sram (spPlace placedGroup.place.bid 0) (some 0)] } : State).msgs[0]? = some (wAt .sram (spPlace placedGroup.place.bid 0) (some 0)) ∧
    noRoute tst 0 write0.place = false ∧ routeRoom tst 0 write0.place = true ∧
    placeOf tst (wAt .sram (spPlace placedGroup.place.bid 0) (some 0)).place ≠ none := by decide +kernel
theorem witness_HomePerforms : StoresOk { tst with homeQ := [wAt .r 0x40003000 none, write0] } ∧ ({ tst with homeQ := [wAt .r 0x40003000 none, write0] } : State).homeQ[1]? = some write0 ∧
    (∀ x ∈ [wAt .r 0x40003000 none, write0], (x.wr.map (·.1)).Nodup ∧ ∀ p ∈ x.wr, unitOf p.1 = unitOf x.place) ∧ unitOf (wAt .r 0x40003000 none).place ≠ unitOf write0.place := by
  unfold StoresOk Memory.wf; decide +kernel
/-- The whole of a unit, and its last byte. -/
theorem witness_HomePerforms_unit : ∀ wr ∈ [placeBytes 0x40002000 64 5, [(0x4000203F, 1)]], wr.head?.map (fun p => unitOf p.1) = some (unitOf 0x40002000) ∧ (∀ p ∈ wr, unitOf p.1 = unitOf 0x40002000) ∧
    StoresOk tst := by unfold StoresOk Memory.wf; decide +kernel

/-- A command of the group with its record in memory at its address. -/
def sCmd (c : Cmd) (n img : Nat) : State := { tst with cmds := [c], mem := ssetMany 0 tst.mem (placeBytes 0x40002000 n img) }
/-- A copy of one row of 32 bytes from the start of the scratchpad to its offset 0x400, and one whose barrier level is reserved. -/
def imgCopy : Nat := 1 + 16 + 0x800000 * 2 ^ 128 + 0x800400 * 2 ^ 192 + 2 ^ 384 + 32 * 2 ^ 416 + 2 ^ 448 + 32 * 2 ^ 480
def cCopy (st : CStage) (img : Nat) : Cmd := { cmd0 with kind := .copy, stage := st, img := img }
theorem witness_Copies_start : ∀ x ∈ [(imgCopy, true), (imgCopy + 3 * 2 ^ 18, false)],
    let s := sCmd (cCopy .queued 0) 64 x.1
    let r := readRecord s (cCopy .queued 0) 64 0
    s.findCmd 1 = some (cCopy .queued 0) ∧ ownerBound s (cCopy .queued 0) = true ∧ r.2.stage = .queued ∧ (copyCheck r.1 r.2 r.2.copyImg).isNone = x.2 := by decide +kernel
def cCopied : Cmd := { cCopy .running imgCopy with pr := { Prog.zero with bufs := [⟨0x800000 / 32, List.replicate 32 7, false, false⟩] } }
theorem witness_Copies_run : ownerBound tst (cCopy .running imgCopy) = true ∧ (copySectors (cCopy .running imgCopy).copyImg)[0]? = some (0x800000 / 32) ∧ findBuf (cCopy .running imgCopy) (0x800000 / 32) = none ∧
    (linPlace (sideWalked tst (cCopy .running imgCopy) 1 0x800000) (cCopy .running imgCopy) 1 .load 0x800000).toOption = some (some (spPlace placedGroup.place.bid 0)) ∧
    (copyUnits imgCopy)[0]? = some (0x800400 / 32) ∧ sget false cCopied.pr.written 0 = false ∧ (unitSectors imgCopy (0x800400 / 32)).all (fun x => (findBuf cCopied x).isSome) = true ∧
    (unitImage cCopied imgCopy (0x800400 / 32)).head? = some (0x800400, 7) ∧
    (linPlace (sideWalked tst cCopied 1 0x800400) cCopied 1 .store 0x800400).toOption = some (some (spPlace placedGroup.place.bid 0x400)) := by decide +kernel
/-- A finished copy, and a COPYMM of tile 0 whose MMA takes A from the tile store. -/
def cMm (st : CStage) : Cmd := { cmd0 with kind := .copymm 0, stage := st, img := 0x350000050048000040000000 * 2 ^ 512, cap := { Caps.reset with shape := [(0, 0x08000000)] } }
theorem witness_Copies_end : ∀ c ∈ [cCopy .draining imgCopy, { cMm .draining with stat := 3 }, cMm .draining],
    (sCmd c 0 0).findCmd 1 = some c ∧ c.stage = .draining ∧ cmdAcked (sCmd c 0 0) c = true ∧ ownerBound (sCmd c 0 0) c = true ∧
    ((sCmd c 0 0).findGroup c.owner).any (fun g => swf Token.ok g.r.tok) = true := by decide +kernel
theorem witness_Copies_follow : ∀ p ∈ [false, true], let s := { sCmd (cMm .followOn) 0 0 with upoison := if p then [(unitOf (bsPlace placedGroup.place.bid 0 0), true)] else [] }
    (ownerGroup s (cMm .followOn)).any (fun g => (followOn (cMm .followOn) 0).any (fun w =>
      let j0 := mmaJob g (followCtx (cMm .followOn)) w
      let s1 := followMet s (cMm .followOn) w j0 0
      let h := (s1.findGroup (cMm .followOn).owner).getD g
      !g.blocked w.vb.toNat && !j0.tiles.any g.tileLate && blockBound s j0.aBid && blockBound s j0.bBid && !mmaCl w &&
      decide ((followBad (asCopied s1 (cMm .followOn).pr) h w (mmaJob h (followCtx (cMm .followOn)) w) 0).isSome = p))) = true := by decide +kernel
/-- The second step of 33 terms, with a good and with a bad element of the result tile. -/
def cMm2 : Cmd := { cMm .followOn with cap := { Caps.reset with shape := [(0, 0x08020000)] }, pr := { Prog.zero with a := 1 } }
theorem witness_Copies_follow_later : ∀ b ∈ [false, true], let s0 := sCmd cMm2 0 0
    let s := if b then s0.upG (fun g => { g with r := { g.r with bad := [(4, 0)] } }) else s0
    cMm2.pr.a ≠ 0 ∧ (ownerGroup s cMm2).any (fun g => (followOn cMm2 0).any (fun w =>
      let j0 := mmaJob g (followCtx cMm2) w
      let s1 := followMet s cMm2 w (followJob cMm2 w g) 1
      let h := (s1.findGroup cMm2.owner).getD g
      let j := followJob cMm2 w h
      !g.blocked w.vb.toNat && !j0.tiles.any g.tileLate && blockBound s j0.aBid && blockBound s j0.bBid && !mmaCl w &&
      decide ((firstBad h (j.tiles.map Src.t)).isSome = b) && !(j.sectorsFrom 1).any (homePoison (asCopied s1 cMm2.pr)))) = true := by decide +kernel
theorem witness_Copies_tiles : swf 0 tst.g.r.tile = true ∧ swf false tst.g.r.ttag = true := by decide
theorem witness_Copies_home : tst.homeQ = [] ∧ swf 0 tst.mem = true ∧ swf 256 ({ Prog.zero with acc := [(0x40002000, 7)] } : Prog).acc = true ∧
    engineStalls (sCmd (cMm .followOn) 0 0) = false := by decide +kernel

/-- Lines: an anchor that is ours, one that is not, and one whose copy is whole, the last of its line or not. -/
def cLine (k : CmdKind) (st : CStage) (img : Nat) : Cmd := { cmd0 with kind := k, stage := st, img := img }
theorem witness_Lines : ∀ k ∈ [CmdKind.fixline 1, .hostLine 0], ∀ x ∈ [(imgCopy, false), (imgCopy + 2 ^ 576, true)],
    let c := cLine k .queued 0
    let r := readRecord (sCmd c 128 x.1) { c with img := 0, recProp := false } 128 0
    (sCmd c 128 x.1).findCmd 1 = some c ∧ ownerBound (sCmd c 128 x.1) c = true ∧ r.2.stage = .queued ∧ anchorBad r.2.img = false ∧ anchorOwn r.2.img = x.2 ∧
    (copyCheck r.1 r.2 r.2.copyImg).isNone = true := by decide +kernel
theorem witness_Lines_end : ∀ n ∈ [0, 0x3000], ∀ f ∈ [false, true], let c := { cLine (.fixline 0) .draining (imgCopy + 2 ^ 576 + n * 2 ^ 512) with pr := { Prog.zero with flag := f } }
    (sCmd c 0 0).findCmd 1 = some c ∧ cmdAcked (sCmd c 0 0) c = true ∧ c.stat ≠ 3 ∧
    (engWrite (copyArrive (completeNum (sCmd c 0 0) c) c c.copyImg true) c (c.addr + 72) (leBytes 8 0) false false).toOption.any (fun s1 => cmdAcked s1 c) = true ∧
    bits c.img 575 512 = n := by decide +kernel
/-- A page of core 0 whose memory is a peer's: what an engine writes there is not performed yet. -/
def sPeer (s : State) : State := { s with tlb := [⟨false, 0, 1, 0, 1, 1, 0x140000000000001F + 2 ^ 48 + 5 * 2 ^ 40⟩] }
theorem witness_Lines_peer : let c := { cLine (.fixline 0) .draining (imgCopy + 2 ^ 576) with addr := 0x40002000 }
    (engWrite (copyArrive (completeNum (sPeer (sCmd c 0 0)) c) c c.copyImg true) c (c.addr + 72) (leBytes 8 0) false false).toOption.any (fun s1 => !cmdAcked s1 c) = true := by decide +kernel
/-- A refused anchor. -/
theorem witness_Lines_refused : ∀ own ∈ [0, 2 ^ 576], let c := cLine (.fixline 1) .queued 0
    let r := readRecord (sCmd c 128 (imgCopy + 3 * 2 ^ 18 + own)) { c with img := 0, recProp := false } 128 0
    r.2.stage = .queued ∧ anchorBad r.2.img = false ∧ (copyCheck r.1 r.2 r.2.copyImg).isSome = true ∧ engineStalls (sCmd c 0 0) = false := by decide +kernel

/-- A gather of one column and one row of e4m3: its header, pointers at 0x2000, columns at 0x3000, values at 0x4000. -/
def imgSpg : Nat := 0x2A + 64 * 2 ^ 16 + 0x2000 * 2 ^ 128 + 0x3000 * 2 ^ 192 + 0x4000 * 2 ^ 256 + 2 ^ 352 + 2 ^ 416 + 12 * 2 ^ 432
def cSpg (st : CStage) (img a b c d : Nat) (f : Bool) : Cmd := { cmd0 with kind := .spg, stage := st, img := img, pr := { Prog.zero with a := a, b := b, c := c, d := d, flag := f } }
theorem witness_Gathers : (let s := sCmd (cSpg .queued 0 0 0 0 0 false) 64 imgSpg
      let r := readRecord s (cSpg .queued 0 0 0 0 0 false) 64 0
      s.findCmd 1 = some (cSpg .queued 0 0 0 0 0 false) ∧ r.2.stage = .queued ∧ headerBad .spg r.2.img = none ∧ spgBad r.2 = none) ∧
    bits imgSpg 383 352 = 1 ∧ bits imgSpg 431 416 = 1 ∧
    (spgRead (sCmd (cSpg .running imgSpg 1 0 0 1 true) 0 0) (cSpg .running imgSpg 1 0 0 1 true) 0x3000 0 4).toOption.any (fun r => !r.2.poison && decide (r.2.nat = 0) &&
      (spgRead r.1 (cSpg .running imgSpg 1 0 0 1 true) 0x4000 0 1).toOption.isSome) = true := by decide +kernel
/-- A gather that clears, one that starts a row, one whose rows are done, one whose columns are not aligned. -/
theorem witness_Gathers_steps : bits (imgSpg + 2 * 2 ^ 192) 255 192 % 4 ≠ 0 ∧ engineStalls (sCmd (cSpg .running imgSpg 0 0 0 0 false) 0 0) = false ∧
    (∀ x ∈ [(0, 0, 0, 0, false), (1, 1, 0, 0, false), (1, 0, 1, 1, true), (1, 0, 0, 1, true)], let c := cSpg .running imgSpg x.1 x.2.1 x.2.2.1 x.2.2.2.1 x.2.2.2.2
      (sCmd c 0 0).findCmd 1 = some c ∧ c.kind = .spg ∧ ownerBound (sCmd c 0 0) c = true) := by decide +kernel
/-- An engine command that has ended, with and without a mailbox, whose register waits. -/
theorem witness_EngineCommandCompletes : ∀ m ∈ [0, 0x3000], let c := { cmd0 with kind := .spg, stage := .draining, img := m * 2 ^ 64, reg := some 4 }
    let s := sFut (.pending 1) (sCmd c 0 0)
    s.findCmd 1 = some c ∧ c.kind.isCopy = false ∧ cmdAcked s c = true ∧ (s.findGroup c.owner).any (fun g => decide (g.fut 4 = .pending c.id) && swf RegFut.none g.r.fut) = true ∧
    bits c.img 127 64 = m ∧ bits c.img 127 64 % 16 = 0 ∧ engineStalls s = false ∧ c.mailed = false ∧
    (engWrite s c (BitVec.ofNat 64 m) (leBytes 8 0 ++ leBytes 8 0) false false).toOption.any (fun s1 => cmdAcked s1 c) = true ∧
    (engWrite (sPeer s) c 0x40003000 (leBytes 8 0 ++ leBytes 8 0) false false).toOption.any (fun s1 => !cmdAcked s1 c) = true := by decide +kernel

/-! ### Witnesses: controllers, launches, the host and the device -/

/-- A GEMV of one row and 16 columns, and an optimiser step. -/
def imgGemv : Nat := 0x29 + 128 * 2 ^ 16 + 2 ^ 256 + 0x20000 * 2 ^ 320 + 0x4000 * 2 ^ 384 + 0x5000 * 2 ^ 448 + 2 ^ 512 + 16 * 2 ^ 544
def cNm (st : CStage) (img : Nat) (f : Bool) : Cmd := { cmd0 with kind := .nmop, stage := st, img := img, pr := { Prog.zero with flag := f } }
theorem witness_StackController_record : (let c := cNm .queued (imgGemv % 2 ^ 128) false
      let s := sCmd c 128 imgGemv
      let r := readRecord s c 128 128
      s.findCmd 1 = some c ∧ (∀ x ∈ earlierOf s c, x.stage ≠ .queued ∧ x.stage ≠ .after) ∧ r.2.stage = .queued ∧ r.2.img = imgGemv ∧ headerBad .nmop r.2.img = none ∧
      (nmopFault r.1 r.2).isNone = true ∧ r.1.quiet = true ∧ (nmopFault (arraysWalked r.1 r.2 (nmopArrays r.2.img)) r.2).isNone = true) := by decide +kernel
theorem witness_StackController_after : ∀ v ∈ [0, 1], let c := cNm .after (imgGemv + 2 ^ 264 + (2 ^ 60) * 2 ^ 128 + v * 2 ^ 192) false
    (sCmd c 0 0).findCmd 1 = some c ∧ (sCmd c 0 0).findTask c.owner.task = some placedTask ∧ bit1 c.img 264 = true ∧ bits c.img 191 128 = 2 ^ 60 ∧ bits c.img 255 192 = v ∧ tlValue placedTask (2 ^ 60) = 0 := by decide +kernel
theorem witness_StackController_gemv : let c := cNm .running imgGemv true
    isGemv c = true ∧ 0 < gvBanks c.img ∧ gvBankDone c 0 = false ∧ sget 0 c.pr.acc (gvCyc 0) < 4096 ∧ swf 0 c.pr.acc = true ∧ sget 0 c.pr.acc (gvPos 0) = 0 ∧
    (∀ b < gvBanks c.img, sget 0 c.pr.acc (gvPos b) = 0 ∧ sget 0 c.pr.acc (gvCyc b) + 16 * gvU c.img ≤ 4096) ∧ (sCmd c 0 0).errs.latent = [] ∧
    (gvLoad (sCmd c 0 0) c 0).toOption.any (fun r => swf 0 r.2.pr.acc && (engRead r.1 r.2 (BitVec.ofNat 64 (nmA imgGemv)) 32).toOption.isSome) = true := by decide +kernel
theorem witness_StackController_combine : let c := { cNm .running imgGemv true with pr := { Prog.zero with flag := true, acc := [(gvPart 0 0, 0x3F800001), (gvPos 0, 16)] } }
    isGemv c = true ∧ swf 0 c.pr.acc = true ∧ (∀ b < gvBanks c.img, gvBankDone c b = true) ∧
    (List.range (gvBanks c.img)).filterMap (fun b => if sget 0 c.pr.acc (gvPart b 0) = 0 then none else some (sget 0 c.pr.acc (gvPart b 0) - 1)) = [0x3F800000] ∧
    (∃ b < gvBanks c.img, sget 0 c.pr.acc (gvPos b) ≠ 0) ∧ (sCmd c 0 0).errs.latent = [] ∧
    (engWriteSpan (sCmd c 0 0) c (nmY c.img) ((List.range (gvRows c)).flatMap (fun ii => leBytes 4 (gvResult c ii))) true (fun _ => false)).2 = none := by decide +kernel
/-- A GEMV holds its banks: a step that has read a byte of one of them; a GEMV that may enter, and one that waits for an older turn. -/
theorem witness_StackController_holds : (let c := cNm .running imgGemv true
      let s := sCmd c 0 0
      c ∈ gvHolders s none ∧ reachesHeld c s { s with seen := [0] } = true) ∧
    (let c := cNm .running imgGemv false
     let s := fun (old : Bool) => ({ sCmd c 0 0 with barred := [⟨c.quarter, tst.g.key, .scalar, old⟩] } : State)
     c.pr.flag = false ∧ (gvEnter (s false) c).isSome = true ∧ ∃ b ∈ (s true).barred, b.q = c.quarter ∧ b.old = true) := by decide +kernel
/-- An optimiser step of one element: g at 0x4000, w at 0x5000, m at 0x6000, v at 0x7000. -/
def cAdam : Cmd := cNm .running (2 * 2 ^ 256 + 0x5000 * 2 ^ 320 + 0x6000 * 2 ^ 384 + 0x7000 * 2 ^ 448 + 0x4000 * 2 ^ 512 + 2 ^ 576) false
theorem witness_StackController_adam : nmOp cAdam.img = 2 ∧ cAdam.kind = .nmop ∧
    (engReadList cAdam 4 [nmG cAdam.img, nmA cAdam.img, nmX cAdam.img, nmY cAdam.img] (sCmd cAdam 0 0)).toOption.any (fun r => r.2.length = 4 &&
      (engWriteSpan r.1 cAdam (nmA cAdam.img) (leBytes 4 7) false (fun _ => false)).2.isNone && (engWriteSpan r.1 cAdam (nmX cAdam.img) (leBytes 4 7) false (fun _ => false)).2.isNone &&
      (engWriteSpan r.1 cAdam (nmY cAdam.img) (leBytes 4 7) false (fun _ => false)).2.isNone) = true := by decide +kernel
/-- The step that the event makes on it goes on to its writes. -/
theorem test_step_adam : after (exec (.adamElementUpdate 1) (sCmd cAdam 0 0)) (fun t => t.cmds.map (fun c => (c.value, c.stage))) = some [(1, .draining)] := by decide +kernel

/-- A DCOR of one row of type f32 with 8 and 8 bits, A at 0x4000, b at 0x5000, x at 0x6000, BX at 0x7000, and d at 0x8000 with CORR = EXTERN. -/
def solve0 (corr : Nat) : Nat := 8 + 8 * 2 ^ 8 + corr * 2 ^ 18 + 0x3F80 * 2 ^ 32 + 2 ^ 64 + 0x3F800000 * 2 ^ 128 * (if corr = 1 then 1 else 0) + 0x4000 * 2 ^ 192 + 4 * 2 ^ 256 + 0x5000 * 2 ^ 448 + 0x6000 * 2 ^ 512 +
  0x7000 * 2 ^ 704 + (if corr = 2 then 0x8000 * 2 ^ 640 + 2 ^ 60 * 2 ^ 768 else 0)
def cDc (corr : Nat) (st : CStage) (p : Prog) : Cmd := { cmd0 with kind := .dcor, stage := st, img := 0x27 + 64 * 2 ^ 16 + 0x9000 * 2 ^ 128, pr := { p with solve := solve0 corr } }
/-- Two in A, nothing elsewhere. -/
def sDc (c : Cmd) : State := { tst with cmds := [c], mem := ssetMany 0 tst.mem (placeBytes 0x40004000 4 0x40000000) }
theorem witness_Solver_reads : ∀ f ∈ [false, true], let c := cDc 1 .running { Prog.zero with flag := f }
    (sDc c).findCmd 1 = some c ∧ c.stage = .running ∧ (c.pr.flag || dcMayBegin (sDc c) c) = true ∧ dcHas c 0 0 = false ∧ c.row 0 = none ∧ dvCsr c.pr.solve = false ∧ swf 0 c.pr.acc = true ∧
    (∀ part ∈ [0, 1, 2], (engReadSpan (sDc c) c (BitVec.ofNat 64 (dcAddr c.pr.solve part 0)) 4).toOption.isSome = true) ∧
    (dcTerms (sDc c) c 0).toOption.any (fun r => (dcFetch r.1 c 0 [0]).toOption.any (fun x => (dcElem x.1 x.2 2 0).toOption.isSome) && decide (r.2.1.map (·.2) = [0]) &&
      (rowSums c.pr.solve 0 (.zero false) (fun _ => .zero false) r.2.1).isSome) = true := by decide +kernel
/-- A CSR matrix of one row with one term: before its pointers are read, and after. -/
def cCsr (acc : Store Nat) : Cmd := { cDc 1 .running { Prog.zero with acc := acc } with
  pr := { Prog.zero with acc := acc, solve := solve0 1 + 2 ^ 16 + 0xA000 * 2 ^ 320 + 0xB000 * 2 ^ 384 } }
theorem witness_Solver_csr : (let c := cCsr []
      (sDc c).findCmd 1 = some c ∧ dcMayBegin (sDc c) c = true ∧ dvCsr c.pr.solve = true ∧ dvN c.pr.solve = 1 ∧
      ∀ i ∈ [0, 1], dcHas c 3 i = false ∧ (engReadSpan (sDc c) c (BitVec.ofNat 64 (dcAddr c.pr.solve 3 i)) 4).toOption.isSome = true) ∧
    (let c := cCsr [(dcKey 3 0, 1), (dcKey 3 1, 5)]
     dcHas c 3 0 = true ∧ dcHas c 3 1 = true ∧ (dcGet c 3 0).nat ≤ 0 ∧ 0 < (dcGet c 3 1).nat ∧
     ∀ part ∈ [1, 4], dcHas c part 0 = false ∧ (engReadSpan (sDc c) c (BitVec.ofNat 64 (dcAddr c.pr.solve part 0)) 4).toOption.isSome = true) := by decide +kernel
/-- The pass may end; JACOBI may correct; the writes go through. -/
def row0D : DRow := ⟨256, 512, 512, 0, false⟩
def cRows (corr : Nat) (st : CStage) : Cmd := cDc corr st { Prog.zero with flag := true, rows := [(0, row0D)], acc := [(dcKey 0 0, 1)] }
theorem witness_Solver_decides : let c := cRows 1 .running
    (sDc c).hold = false ∧ dvR c.pr.solve = 0 ∧ (∀ i < dvN c.pr.solve, (c.row i).isSome = true ∧ dcHas c 0 i = true) ∧ dvDeadline c.pr.solve = 0 ∧ dvG c.pr.solve = 0 ∧ dvMaxp c.pr.solve = 0 ∧
    dvCorr c.pr.solve = 1 ∧ c.pr.rows.any (fun r => r.2.dg = 0) = false ∧ c.pr.prop = false ∧
    (writeElems (sDc c) c (dvX c.pr.solve) (jacobiAll c) true (poisonIn (dcXs c))).2 = none ∧
    (recordPut (sDc c) c 120 (leBytes 24 0 ++ leBytes 24 0) false).2 = none ∧ (recordPut (sDc c) c 112 (leBytes 8 1) false).2 = none := by decide +kernel
theorem witness_Solver_extern : let c := cRows 2 .extern
    (sDc c).findCmd 1 = some c ∧ (sDc c).findTask c.owner.task = some placedTask ∧ dvCbase c.pr.solve + c.pr.d ≤ tlValue placedTask (dvCid c.pr.solve) ∧ dvDeadline c.pr.solve = 0 ∧
    (engReadList c 4 [0x8000] (sDc c)).toOption.any (fun r => !r.2.any (·.poison)) = true ∧ (engReadList c 4 [0x6000] (sDc c)).toOption.isSome = true ∧
    (engReadList c 4 [0x7000] (sDc c)).toOption.isSome = true ∧ (writeElems (sDc c) c (dvX c.pr.solve) [leBytes 4 0] true (fun _ => false)).2 = none ∧
    (recordPut (sDc c) c 112 (leBytes 8 3) false).2 = none := by decide +kernel
/-- The counter that is not reached, and a deadline of 1,024 cycles: how many cycles a step takes is free, so that it has passed once a stretch of
steps takes as many. -/
theorem witness_Solver_waits : let c : Cmd := { cRows 2 .extern with pr := { (cRows 2 .extern).pr with d := 1 } }
    ¬ dvCbase c.pr.solve + c.pr.d ≤ tlValue placedTask (dvCid c.pr.solve) := by decide +kernel
theorem witness_Solver_late (n : Nat) (h : 1024 ≤ cyclesOver 256 0 n) :
    let c : Cmd := { cRows 2 .extern with pr := { (cRows 2 .extern).pr with solve := solve0 2 + 2 ^ 48 } }
    dvDeadline c.pr.solve ≠ 0 ∧ 1024 * dvDeadline c.pr.solve ≤ cyclesOver (256 + hdrQtr c.img) c.since ({ sDc c with tick := n } : State).tick := by
  have h1 : dvDeadline (solve0 2 + 2 ^ 48) = 1 := by decide +kernel
  have h2 : hdrQtr (cRows 2 .extern).img = 0 := by decide +kernel
  have h3 : (cRows 2 .extern).since = 0 := rfl
  exact ⟨fun h0 => absurd (h1.symm.trans h0) (by decide), by
    show 1024 * dvDeadline (solve0 2 + 2 ^ 48) ≤ cyclesOver (256 + hdrQtr (cRows 2 .extern).img) (cRows 2 .extern).since n
    rw [h1, h2, h3]; exact h⟩
theorem witness_Solver_rows : (let v := solve0 1
      toFixed (dvI v) (dvF v) (ofInt 3) = some 768 ∧ fxMul (dvI v) (dvF v) 512 256 = some 512 ∧ toFixed (dvI v) (dvF v) (ofInt 2) = some 512 ∧ toFixed (dvI v) (dvF v) (ofInt 1) = some 256 ∧
      toFixed (dvI v) (dvF v) (ofInt (2 ^ 20)) = none) := by decide +kernel

/-- A PKQ of one query and one key of two elements, one value of one element: Q at 0x4000, V at 0x5000, O at 0x6000, IW at 0x7000. -/
def imgPkq (mode : Nat) : Nat := 0x28 + 64 * 2 ^ 16 + 0x4000 * 2 ^ 128 * (1 - mode) + 0x5000 * 2 ^ 192 + 0x6000 * 2 ^ 256 + 0x7000 * 2 ^ 320 + 2 ^ 384 + 2 * 2 ^ 400 + 2 ^ 410 + 2 ^ 416 + mode * 2 ^ 446
def cPkq (mode : Nat) (st : CStage) : Cmd := { cmd0 with kind := .pkq, stage := st, img := if st = .queued then imgPkq mode % 2 ^ 128 else imgPkq mode }
def tPkq : Task := { placedTask with img := placedNode + 2 ^ 1348, hk := List.replicate 64 0 }
def sPkq (c : Cmd) (img : Nat) : State := { sCmd c 64 img with tasks := [tPkq] }
theorem witness_Queries_start : ∀ m ∈ [0, 1], let c := cPkq m .queued
    let s := sPkq c (imgPkq m)
    let r := readRecord s c 64 128
    s.findCmd 1 = some c ∧ c.kind = .pkq ∧ (∀ x ∈ earlierOf s c, x.stage ≠ .queued) ∧ r.2.stage = .queued ∧ headerBad .pkq r.2.img = none ∧ pkqIllegal r.2.img = false ∧
    pkqMisaligned r.2.img = none ∧ pkHofs r.2.img + 2 * pkNsub r.2.img * pkKw r.2.img ≤ hkLoaded r.1 r.2 := by decide +kernel
theorem witness_Queries_forward : let c := cPkq 0 .running
    let s := sPkq c 0
    bits c.img 447 446 = 0 ∧ scattersDone s c = true ∧ (engReadSpan s c 0x4000 4).toOption.any (fun r => decide (r.2.bytes = List.replicate 4 0)) = true ∧
    pairBest c.img (halfBest c.img tPkq.hk (List.replicate 4 0) 0) (halfBest c.img tPkq.hk (List.replicate 4 0) 1) = [(0, 0)] ∧ rowFault s c .load 0 = none ∧
    (engReadList c 2 [0x5000] s).toOption.isSome = true ∧ (engWriteSpan s c 0x7000 (leBytes 4 0 ++ leBytes 4 0) true (fun _ => false)).2 = none ∧
    (engWriteSpan s c 0x6000 (leBytes 2 0) true (fun _ => false)).2 = none := by decide +kernel
theorem witness_Queries_scatter : let c := cPkq 1 .running
    let s := sPkq c 0
    bits c.img 447 446 = 1 ∧ c.pr.c = 0 ∧ (engReadSpan s c 0x7000 8).toOption.any (fun r => decide (r.2.nat = 0)) = true ∧ rowFault s c .reduce 0 = none ∧
    pkNsub c.img * pkNsub c.img = 1 ∧ (engReadSpan s c 0x6000 2).toOption.isSome = true ∧
    (c.xlat (c.walked s 0x5000) .reduce 0x5000).toOption.any (fun x => !(placeRead (c.walked s 0x5000) c x.pa 2).2.poison) = true := by decide +kernel
/-- An entry in the midst of its row, and one that names a row past the last. -/
theorem witness_Queries_rows : (let c : Cmd := { cPkq 1 .running with img := imgPkq 1 + 2 ^ 430, pr := { Prog.zero with c := 1 } }
      c.pr.c ≠ 0 ∧ pkVw c.img = 2 ∧ (engReadSpan (sPkq c 0) c 0x6002 2).toOption.isSome = true) ∧
    (let c := cPkq 1 .running
     (engReadSpan ({ sPkq c 0 with mem := ssetMany 0 tst.mem (placeBytes 0x40007000 8 1) } : State) c 0x7000 8).toOption.any (fun r => decide (pkNsub c.img * pkNsub c.img ≤ r.2.nat)) = true) ∧
    ([(3, 0), (2, 1)].map (fun (p : Nat × Nat) => p.2)).Nodup := by decide +kernel
/-- One query, and one reduction store, each to its end. -/
theorem test_step_pkq : ∀ m ∈ [0, 1], after (exec (if m = 0 then .pkqQuery 1 else .pkqScatter 1) (sPkq (cPkq m .running) 0)) (fun t => t.cmds.map (fun c => (c.value, c.stage))) =
    some [(1, .draining)] := by decide +kernel

/-- A graph object of one node at virtual 0x8000, and kick slot 63, enabled, whose graph stands there, or where nothing is. -/
def sKick (graph ctl : Nat) : State :=
  { tst with
    mem := ssetMany 0 tst.mem (placeBytes 0x40008000 64 (1 + 2 ^ 32 + 576 * 2 ^ 64) ++ placeBytes 0x40008040 512 placedNode)
    host := { tst.host with kick := ssetMany 0 [] [(252, BitVec.ofNat 64 graph), (253, BitVec.ofNat 64 ctl)] } }
theorem witness_Launch_kick : ∀ x ∈ [(0x8000, true), (0xA000, false)], (sKick x.1 0x50001).svc.ready = true ∧ bit1 (kickReg (sKick x.1 0x50001) 63 1) 18 = true ∧
    (let s := sKick x.1 0x50001
     let s1 := setKickReg s 63 2 (kickReg s 63 2 + 1)
     (acceptReplay s1 (newReplay s1 (some 63) none 1 1 (ctlGen s1 1) 3) false (kickReg s 63 0) 0).toOption.isSome = x.2) := by decide +kernel
theorem witness_Launch_off : State.reset.svc.ready = false ∧ (sKick 0 0).svc.ready = true ∧ bit1 (kickReg (sKick 0 0) 63 1) 18 = false := by decide +kernel
/-- A task that waits, with an argument block of 16 bytes at 0x9000. -/
def tWait : Task := { placedTask with phase := .waiting, img := placedNode + 16 * 2 ^ 1336 + 0x9000 * 2 ^ 1600, launched := [] }
theorem witness_Launch_admit : let s := { tst with tasks := [tWait] }
    let d := dispatchReader tWait.q tWait.asid tWait.gen false
    s.findTask 1 = some tWait ∧ (earlierTasks s tWait).length < 256 ∧ (∀ u ∈ earlierTasks s tWait, dependsOn tWait u = false) ∧ halfKeyRoom s tWait = true ∧ regionTurn s tWait = true ∧
    (dispReads 8 (recKarglen tWait.img / 8) s d (recArgaddr tWait.img)).toOption.any (fun r => decide (r.2.length = 2) && (dispReads 32 (recHklen tWait.img / 32) r.1 d (recHkaddr tWait.img)).toOption.isSome) = true ∧
    ∀ r ∈ s.replays, r.patches = [] := by decide +kernel
/-- A bind record of core 5, slot 1. -/
def recBind (act : Nat) : Nat := act * 2 ^ 350 + 5 * 2 ^ 344 + 2 ^ 338
def tAdm : Task := { placedTask with launched := [] }
theorem witness_Binding_launch : let s := { tst with g := Machine.Group.idle, tasks := [tAdm] }
    bindAct (recBind 1) = 1 ∧ swf 0 s.bindTab = true ∧ launchTask s (recBind 1) = some tAdm ∧ placeFits s (bindPlace (recBind 1) tAdm) tAdm.cls = true ∧
    placeFree s (bindKey (recBind 1) tAdm) (bindPlace (recBind 1) tAdm) = true ∧ clusterTurn tAdm (bindKey (recBind 1) tAdm).cluster = true ∧ firstOfBlock tAdm (bindKey (recBind 1) tAdm) = true := by decide +kernel
/-- The placed group with one slot of scratchpad and 16 lane registers, in core 0, slot 0, its records at 0x100000 and 0x200000, whose
translation is cached; four tasks of class 0 wait for the whole scratchpad of a core, and each quarter has one. -/
def smallNode : Nat := 1 * 2 ^ 1312 + 2 * 2 ^ 1294 + 1 * 2 ^ 1279 + 1 * 2 ^ 1268
def smallTask : Task := { placedTask with img := smallNode }
def sSave (bound : Bool) : State := { tst.upG (fun g => { g with
      place := { g.place with bound := bound, spSlots := 1, tsFr := 0, bsu := 0, lregs := 16, tmask := 0 }, sp := { g.sp with ctxaddr := 0x100000 } }) with
    tlb := [⟨false, 4096, 1, 0, 0, 1, 1 * 2 ^ 60 + 1 * 2 ^ 58 + 0x40000000 + 0x1F⟩]
    svc := { tst.svc with coreCount := if bound then 1 else tst.svc.coreCount }
    tasks := smallTask :: (List.range 4).map (fun i => { placedTask with id := 2 + i, cls := 0, launched := [] }) }
def recSave : Nat := 0x100000 * 2 ^ 448 + 3 * 2 ^ 350 + 0x200000 * 2 ^ 242
theorem witness_Binding_save : bindAct recSave = 3 ∧ (savedBy (sSave true) recSave).any (fun g => decide (g = (sSave true).g)) = true ∧ givesWay (sSave true) (sSave true).g = true ∧
    (∀ h ∈ blockOf (sSave true) (sSave true).g.place.bid, saveReady (sSave true) h = true) ∧ swf 0 (sSave true).bindTab = true := by decide +kernel
/-- The dispatch hardware of quarter 0 holds the translation of the placed group's pages. -/
def Cached (s : State) : Prop := s.tlb = (sSave true).tlb
theorem engWrite_cached (s : State) (h : Cached s) (va : Word) (hv : va.toNat < 2 ^ 30) (l : List Byte) :
    ∃ t, engWrite s (dispatchReader 0 1 0 true) va l false false = .ok t ∧ Cached t := by
  let leaf := 1 * 2 ^ 60 + 1 * 2 ^ 58 + 0x40000000 + 0x1F
  have hf : tlbFind s 4096 1 0 va.toNat = some (1, leaf) := by
    unfold tlbFind
    rw [show s.tlb = [⟨false, 4096, 1, 0, 0, 1, leaf⟩] from h]
    simp [show pageBits 1 = 30 from rfl]; omega
  have hw : Cmd.walked (dispatchReader 0 1 0 true) s va = s := by
    show walkTouched s 4096 1 0 va = s
    unfold walkTouched
    simp [hf]
  have hx : Cmd.xlat (dispatchReader 0 1 0 true) s .store va = .ok ⟨0x40000000 + va.toNat % 2 ^ 30, .r, 1, false, 1, leaf⟩ := by
    show translate s 4096 1 0 true .store va = _
    unfold Machine.translate
    rw [if_neg (by omega), hf]
    have h1 : bits leaf 51 16 = 0x4000 ∧ bits leaf 59 58 = 1 ∧ bits leaf 61 60 = 1 ∧ bit1 leaf 3 = true ∧ bit1 leaf 56 = false ∧ bit1 leaf 57 = false := by decide +kernel
    obtain ⟨h1, h2, h3, h4, h5, h6⟩ := h1
    simp [checkLeaf, h1, h2, h3, h4, h5, h6, show pageBits 1 = 30 from rfl]
  have hu : unreachable s (dispatchReader 0 1 0 true) (0x40000000 + va.toNat % 2 ^ 30) = false := by
    have h1 : region (0x40000000 + va.toNat % 2 ^ 30) = 0 := Nat.div_eq_of_lt (by omega)
    have h2 : homeQuarter (0x40000000 + va.toNat % 2 ^ 30) = 0 := Nat.div_eq_of_lt (by show _ < (_ : Nat); unfold quarterSize; omega)
    show noRoute s 0 _ = false
    generalize 0x40000000 + va.toNat % 2 ^ 30 = a at h1 h2 ⊢
    simp [noRoute, isPeer, isLocal, h1, h2]
  have he : engWrite s (dispatchReader 0 1 0 true) va l false false = .ok (placeWrite s (dispatchReader 0 1 0 true)
      (l.zipIdx.map (fun p => (0x40000000 + va.toNat % 2 ^ 30 + p.2, p.1))) false false) := ?_
  exact ⟨_, he, (placeWrite_tlb _ _ _ _ _).trans h⟩
  unfold engWrite
  dsimp only
  rw [hw, hx]
  dsimp only
  rw [hu]
  rfl
theorem foldl_range {α : Type} (P : α → Prop) (f : α → Nat → α) (l : List Nat) (h : ∀ r, ∀ k ∈ l, P r → P (f r k)) : ∀ r, P r → P (l.foldl f r) := by
  induction l with
  | nil => exact fun _ h => h
  | cons k l ih => exact fun r hr => ih (fun r j hj => h r j (List.mem_cons_of_mem _ hj)) _ (h r k (List.mem_cons_self ..) hr)
theorem dispWrite_cached (s : State) (h : Cached s) (g : Machine.Group) (hq : dispatchReader g.place.q g.sp.asid.toNat g.sp.gen.toNat true = dispatchReader 0 1 0 true)
    (a : Word) (b : List Byte) (hb : a.toNat + b.length < 2 ^ 30) : (dispWrite s g a b).2 = none ∧ Cached (dispWrite s g a b).1 := by
  unfold dispWrite
  dsimp only
  rw [hq]
  refine foldl_range (α := State × Option (Nat × Word)) (fun r => r.2 = none ∧ Cached r.1) _ _ (fun r k hk hr => ?_) (s, none) ⟨rfl, h⟩
  have hk := List.mem_range.mp hk
  rw [hr.1]
  dsimp only
  split
  · exact hr
  · obtain ⟨t, h1, h2⟩ := engWrite_cached r.1 hr.2 (a + BitVec.ofNat 64 (64 * k))
      (by rw [BitVec.toNat_add, BitVec.toNat_ofNat, Nat.mod_eq_of_lt (a := 64 * k) (by omega), Nat.mod_eq_of_lt (by omega)]; omega) ((b.drop (64 * k)).take 64)
    rw [h1]
    exact ⟨rfl, h2⟩
theorem leBytes_length (n : Nat) : ∀ x, (leBytes n x).length = n := by
  induction n with
  | zero => exact fun _ => rfl
  | succ n ih => exact fun x => congrArg (· + 1) (ih (x / 256))
theorem blockBytes_length (s : State) (p : Place) (h1 : p.spSlots = 1) (h2 : (windowPlaces p).length = 1024) : (blockBytes s p).length < 2 ^ 20 := by
  have h3 : (windowSectors p).length ≤ 1024 := h2 ▸ List.length_filter_le _ _
  simp only [blockBytes, List.length_append, List.length_take, List.length_map, leBytes_length, zeroBytes, List.length_replicate, List.length_flatMap, h1, h2, ceilDiv]
  simp only [List.range_succ, List.range_zero, List.nil_append, List.map_cons, List.map_nil, List.sum_cons, List.sum_nil]
  omega
/-- The group at its save. -/
def sReady : State := (replayOf (sendReleases (touchRegsOf (settle (sSave true)) keyT (fun _ _ => true)) keyT) keyT).foldl cancelCopy
  (sendReleases (touchRegsOf (settle (sSave true)) keyT (fun _ _ => true)) keyT)
def gReady : Machine.Group := (sReady.findGroup keyT).getD Machine.Group.idle
theorem sReady_facts : blockOf (sSave true) (sSave true).g.place.bid = [(sSave true).g] ∧ sReady.findGroup keyT = some gReady ∧ Cached sReady ∧
    dispatchReader gReady.place.q gReady.sp.asid.toNat gReady.sp.gen.toNat true = dispatchReader 0 1 0 true ∧
    bindCtx (bindOf sReady recSave (sSave true).g gReady) = 2 ^ 20 ∧ (windowPlaces (sSave true).g.place).length = 1024 := by unfold Cached; decide +kernel
theorem sReady_length : (contextBytes sReady gReady).length < 2 ^ 20 := by decide +kernel
theorem upGroup_tlb (s : State) (k : GroupKey) (f : Machine.Group → Machine.Group) : (s.upGroup k f).tlb = s.tlb := by
  unfold State.upGroup
  split <;> rfl
theorem cached_bound (s t : State) (k : GroupKey) (f : Machine.Group → Machine.Group) (p : Place) (n : Nat) (h : Cached s)
    (ht : t.tlb = ((s.upGroup k f).putBind p n).tlb) : Cached t :=
  (ht.trans (upGroup_tlb s k f)).trans h
/-- A save of one group is its context's write. -/
theorem saveGroups_one (rec : Nat) (named g x : Machine.Group) (s t : State)
    (ht : (replayOf (sendReleases (touchRegsOf s g.key (fun _ _ => true)) g.key) g.key).foldl cancelCopy (sendReleases (touchRegsOf s g.key (fun _ _ => true)) g.key) = t)
    (hx : t.findGroup g.key = some x)
    (hw : (dispWrite t x (x.asSaved (bindOf t rec named x) t.tick ((replayOf t g.key).map (·.id))).sp.ctxaddr (contextBytes t x)).2 = none) :
    ∃ f p n, saveGroups rec named [g] s = some (((dispWrite t x (x.asSaved (bindOf t rec named x) t.tick ((replayOf t g.key).map (·.id))).sp.ctxaddr (contextBytes t x)).1.upGroup g.key f).putBind p n) := by
  unfold saveGroups
  dsimp only
  rw [ht, hx]
  simp only [saveGroups]
  exact ⟨_, _, _, if_neg (by rw [hw]; decide)⟩
/-- A block is saved once its groups are and its windows are written. -/
theorem saveBlock_some (s s1 : State) (g : Machine.Group) (rec : Nat) (hs : saveGroups rec g (blockOf s g.place.bid) (settle s) = some s1)
    (hw : ∀ t, t.tlb = s1.tlb → (dispWrite t g (BitVec.ofNat 64 (bindBlk rec)) (blockBytes t g.place)).2 = none) : (saveBlock s g rec).isSome = true := by
  unfold saveBlock
  dsimp only
  rw [hs]
  dsimp only
  have h1 : (if s1.quiet = true then s1 else (windowSectors g.place).foldl (fun s a => touchBy s 0 a) s1).tlb = s1.tlb := by
    split
    · rfl
    · exact foldl_tlb _ (fun s a => touchBy_tlb s 0 a) _ _
  have h2 := hw _ h1
  generalize dispWrite _ g (BitVec.ofNat 64 (bindBlk rec)) _ = r at h2
  obtain ⟨s3, o⟩ := r
  cases h2
  rfl
theorem witness_Binding_saved : (saveBlock (sSave true) (sSave true).g recSave).isSome = true := by
  obtain ⟨h1, h2, h3, h4, h5, h6⟩ := sReady_facts
  have hl := sReady_length
  obtain ⟨w1, w2⟩ := dispWrite_cached sReady h3 gReady h4 (BitVec.ofNat 64 (bindCtx (bindOf sReady recSave (sSave true).g gReady))) (contextBytes sReady gReady)
    (by rw [h5]; have : (BitVec.ofNat 64 (2 ^ 20)).toNat = 2 ^ 20 := rfl; omega)
  obtain ⟨f, p, n, he⟩ := saveGroups_one recSave (sSave true).g (sSave true).g gReady (settle (sSave true)) sReady rfl h2 w1
  refine saveBlock_some (sSave true) _ (sSave true).g recSave (h1 ▸ he) (fun t ht => ?_)
  exact (dispWrite_cached t (cached_bound _ t _ f p n w2 ht) _ (by decide +kernel) _ _
    (by rw [show (BitVec.ofNat 64 (bindBlk recSave)).toNat = 2 ^ 21 by decide +kernel]; have := blockBytes_length t (sSave true).g.place rfl h6; omega)).1
def recRest : Nat := 0x100000 * 2 ^ 448 + 2 * 2 ^ 350 + 5 * 2 ^ 344 + 2 ^ 338 + 0x200000 * 2 ^ 242
theorem witness_Binding_restore : let g := (sSave false).g
    let p := bindPlace recRest smallTask
    bindAct recRest = 2 ∧ (restoredBy (sSave false) recRest).any (fun h => decide (h = g)) = true ∧ (sSave false).findTask g.key.task = some smallTask ∧
    placeFits (sSave false) p smallTask.cls = true ∧ placeFree (sSave false) g.key p = true ∧ (sSave false).findGroup keyT = some g := by decide +kernel
theorem witness_Binding_restored : (restoreGroup (sSave false) (sSave false).g (bindPlace recRest smallTask) recRest).isSome = true := by decide +kernel
/-- How many cycles a step takes is free: at reset none has passed, and after n steps as many as they take. -/
theorem witness_Starvation : tst.findGroup keyT = some tst.g ∧ tst.ready tst.g = true ∧ tst.g.det = false ∧ cyclesOver tst.g.place.coreNo (tst.tick - tst.g.passed) tst.tick < 64 := by decide +kernel
theorem witness_Starvation_passed (n : Nat) (h : 64 ≤ cyclesOver 0 0 n) :
    let g := { tst.g with passed := n }
    64 ≤ cyclesOver g.place.coreNo (({ tst with tick := n } : State).tick - g.passed) ({ tst with tick := n } : State).tick := by
  have h1 : tst.g.place.coreNo = 0 := by decide +kernel
  have h2 : ({ tst.g with passed := n } : Machine.Group).place.coreNo = 0 := h1
  simpa [h2] using h

/-- HDM decoder 3: host addresses from 2^40, one window of 4 GiB, ASID 1, enabled. -/
def sHdm : State := { tst with host := { tst.host with hdm := ssetMany 0 [] [(24, 0x10000000000), (25, 0x100000000), (26, 0x100000001)] } }
theorem witness_HostAccesses : (hdmOf sHdm (2 ^ 40 + 0x2000) = some 3) ∧ (hdmOf sHdm (2 ^ 40 + 2 ^ 32 - 1) = some 3) ∧
    (engReadSpan sHdm (hdmReader sHdm 3) (hdmVa sHdm 3 (2 ^ 40 + 0x2000)) 64).toOption.isSome = true ∧ (engReadSpan sHdm (hdmReader sHdm 3) (hdmVa sHdm 3 (2 ^ 40 + 2 ^ 32 - 1)) 1).toOption.isSome = false ∧
    (hostPieces sHdm (hdmReader sHdm 3) 4 (hdmVa sHdm 3 (2 ^ 40 + 0x2000)) [1, 2, 3]).toOption.isSome = true ∧
    (hostPieces sHdm (hdmReader sHdm 3) 4 (hdmVa sHdm 3 (2 ^ 40 + 2 ^ 31)) [1, 2, 3]).toOption.isSome = false := by decide +kernel
def out0 (k : EKind) (dev : Option Nat) : OutReq := { grp := keyT, cmd := none, dev := dev, num := 0, entry := { entry0 with kind := k } }
theorem witness_HostAccesses_own : 4 = atomWidth (0 : BitVec 3).toNat ∧ 8 = atomWidth (3 : BitVec 3).toNat ∧ (0x1FF8 : Nat) % 8 = 0 ∧
    ∀ k ∈ [EKind.load, .store], ({ tst with outs := [out0 .store (some 5), out0 k none] } : State).outs[1]? = some (out0 k none) ∧ (out0 k none).dev = none ∧
      (out0 k none).entry.late = none ∧ (out0 k none).entry.wr = [] ∧ (out0 k none).entry.opn ≠ 8 ∧
      ∀ x ∈ [{ out0 .store (some 5) with grp := ⟨9, 0, 0, 0⟩ }], x.grp ≠ (out0 k none).grp ∨ unitOf x.entry.place ≠ unitOf (out0 k none).entry.place := by decide +kernel
def rep0 : Replay := { id := 1, slot := some 63, cmd := none, cls := 1, asid := 1, gen := 0, q := 3, seed := 0, nodes := [], patches := [], stopped := none, ended := false }
theorem witness_HostRegisters : (let mine := ({ tst with replays := [rep0] } : State).replays.filter (fun r => r.slot = some 63)
      (∃ x ∈ mine, x.ended = false) ∧ mine.getLast? = some rep0) ∧ swf 0 tst.host.chan = true ∧ (sget 0 tst.host.chan (4 * 63 + 1)).getLsbD 0 = false ∧
    (∀ x ∈ tst.replays.filter (fun r => r.slot = some 63), x.ended = true) ∧ (0x3F80 : Word).toNat % 128 = 0 ∧
    swf 0 tst.errs.dramLog = true ∧ tst.links.rg[8]? = some RailGroup.reset ∧ swf 0 tst.svc.buf = true ∧ (0x11FFF8 : Nat) = 0x110000 + 0xFFF8 := by decide +kernel

/-- The service core with a command under way, with or without a leaf to sign with, and with its leaves spent. -/
def sSvc (op : Nat) (sign : Option Nat) (leaf : Nat) : State := { tst with svc := { tst.svc with busy := true, op := op, signFor := sign, leafA := some (leaf, 1), leafB := some (leaf, 0) } }
def amd0 : Amend := { seq := 0, units := [], spares := [], block := [], sig := none }
theorem witness_ServiceCore : tst.svc.busy = false ∧ tst.svc.leafBusy = none ∧ tst.svc.signFor = none ∧ leafSpent tst.svc = false ∧ (∀ op ∈ [1, 2, 3, 4], (sSvc op none 0).svc.busy = true ∧ (sSvc op none 0).svc.op = op) ∧
    ({ sSvc 4 none 0 with svc := { (sSvc 4 none 0).svc with amends := [amd0] } } : State).svc.amends.find? (fun a => a.seq = 0) = some amd0 ∧ (sSvc 4 none 0).svc.amends.find? (fun a => a.seq = 0) = none ∧
    (sSvc 1 (some 7) 8).svc.signFor = some 7 ∧ (sSvc 1 none (2 ^ 20)).svc.leafBusy = none ∧ 2 ^ 20 ≤ leafNow (sSvc 1 none (2 ^ 20)).svc ∧ leafSpent (sSvc 1 none (2 ^ 20)).svc = true := by decide +kernel
theorem witness_ServiceCore_power : State.reset.svc.stage = 0 ∧ ({ tst with svc := { tst.svc with leafBusy := some 1 } } : State).svc.leafBusy = some 1 ∧
    ({ tst with svc := { tst.svc with due := true } } : State).svc.due = true ∧ swf 0 tst.svc.guard = true ∧ swf 0 tst.svc.wear = true ∧ WearKind.core ≠ .spareRow := by decide +kernel

/-! A rail flit of kind 0, with the sequence number 0 and its CRC, which each of five, four and three rails bring. -/

theorem crcBit_lt (c : Nat) (b : Bool) (h : c < 2 ^ 32) : crcBit c b < 2 ^ 32 := by
  have h2 : c / 2 < 2 ^ 32 := Nat.lt_of_le_of_lt (Nat.div_le_self c 2) h
  have h3 : (0x82F63B78 : Nat) < 2 ^ 32 := by decide
  unfold crcBit; dsimp only
  by_cases h4 : (if (c % 2 = 1) = (b = true) then 0 else 1) = 1
  · rw [if_pos h4]; exact Nat.xor_lt_two_pow h2 h3
  · rw [if_neg h4]; exact h2
theorem crc32c_lt (n k : Nat) : crc32c n k < 2 ^ 32 := by
  have key : ∀ (l : List Nat) (c : Nat), c < 2 ^ 32 → l.foldl (fun c i => crcBit c (bit1 n i)) c < 2 ^ 32 := by
    intro l
    induction l with
    | nil => intro c h; exact h
    | cons i l ih => intro c h; exact ih _ (crcBit_lt c _ h)
  exact Nat.xor_lt_two_pow (key _ _ (by decide)) (by decide)
/-- The fields of a flit whose only set bits are its CRC. -/
theorem flit_fields (x : Nat) (h : x < 2 ^ 32) : bits (x * 2 ^ 2016) 2047 2016 = x ∧ bits (x * 2 ^ 2016) 2015 0 = 0 ∧ flitKind (x * 2 ^ 2016) = 0 ∧ flitSeq (x * 2 ^ 2016) = 0 := by
  have low : ∀ a b : Nat, a + b ≤ 2016 → x * 2 ^ 2016 / 2 ^ a % 2 ^ b = 0 := by
    intro a b hab
    have e : x * 2 ^ 2016 = x * 2 ^ (2016 - a - b) * 2 ^ b * 2 ^ a := by
      rw [Nat.mul_assoc, Nat.mul_assoc, ← Nat.pow_add, ← Nat.pow_add]; congr 2; omega
    rw [e, Nat.mul_div_cancel _ (Nat.two_pow_pos a), Nat.mul_mod_left]
  refine ⟨?_, low 0 2016 (by decide), low 24 4 (by decide), low 48 16 (by decide)⟩
  show x * 2 ^ 2016 / 2 ^ 2016 % 2 ^ 32 = x
  rw [Nat.mul_div_cancel _ (Nat.two_pow_pos 2016), Nat.mod_eq_of_lt h]
theorem flitOk_of (x : Nat) (h : x < 2 ^ 32) (hx : crc32c 0 2016 = x) : flitOk (x * 2 ^ 2016) = true := by
  obtain ⟨h1, h2, h3, -⟩ := flit_fields x h
  unfold flitOk; rw [h1, h2, h3, hx]; simp
theorem flit_exists : ∃ f : Nat, flitOk f = true ∧ flitKind f = 0 ∧ flitSeq f = 0 :=
  have h := flit_fields (crc32c 0 2016) (crc32c_lt 0 2016)
  ⟨crc32c 0 2016 * 2 ^ 2016, flitOk_of _ (crc32c_lt 0 2016) rfl, h.2.2.1, h.2.2.2⟩
theorem witness_Links_flit : ∃ f : Nat, flitKind f ≤ 1 ∧ tst.svc.ready = true ∧ RailGroup.reset.down = false ∧ ∀ n ∈ [5, 4, 3],
    (goodRails RailGroup.reset (List.replicate n (some f) ++ List.replicate (5 - n) none)).filterMap id = List.replicate n f ∧
    seqAbove (flitSeq f) (RailGroup.reset.dir 1).last = 1 ∧ seqAbove (flitSeq f) 0 ≠ 1 := by
  obtain ⟨f, h1, h2, h3⟩ := flit_exists
  refine ⟨f, by rw [h2]; decide, by decide, rfl, fun n hn => ⟨?_, by rw [h3]; decide, by rw [h3]; decide⟩⟩
  simp only [List.mem_cons, List.mem_nil_iff, or_false] at hn
  rcases hn with rfl | rfl | rfl <;> simp [goodRails, RailGroup.reset, List.range_succ, List.replicate_succ, h1]
/-- A group flit of which nothing arrives asks for the next one; one that shows a duplicate asks for nothing. -/
theorem witness_Links_lost : (goodRails RailGroup.reset []).filterMap id = [] ∧ ((goodRails RailGroup.reset []).take 4).all (·.isNone) = true ∧
    seqAbove 7 7 = 0 ∧ ¬ (2 ≤ seqAbove 6 7 ∧ seqAbove 6 7 < 2 ^ 15) ∧ seqAbove 6 7 ≠ 1 ∧ 2 ≤ seqAbove 9 7 ∧ seqAbove 9 7 < 2 ^ 15 := by decide
def flitS (n : Nat) : GroupFlit := ⟨0, n, 0, 0, 7, []⟩
def rgSent : RailGroup := { RailGroup.reset with d0 := { RailGroup.reset.d0 with txBuf := [flitS 254, flitS 255, flitS 256] } }
theorem witness_Links_nak : tst.svc.ready = true ∧ State.reset.svc.ready = false ∧ (rgSent.dir 0).txBuf.dropWhile (fun f => f.seq % 256 ≠ (255 : BitVec 8).toNat) = [flitS 255, flitS 256] ∧ rgSent.down = false ∧
    (rgSent.dir 0).txBuf.dropWhile (fun f => f.seq % 256 ≠ (1 : BitVec 8).toNat) = [] ∧ RailGroup.reset.lost.getLsbD 4 = false ∧
    State.reset.links.rg[8]? = some RailGroup.reset ∧ [6, 7, 8].find? (fun j => j ≠ 6 && railUp State.reset j) = some 7 ∧ State.reset.links.rg[7]? = some RailGroup.reset ∧
    [6, 7, 8].find? (railUp State.reset) = some 6 := by decide +kernel
/-- Peers: a request with the next number, one performed before, and one out of order; responses to a load and to a store. -/
def srv0 : Served := { src := 5, num := 0, data := [], marks := [] }
def sServed : State := { tst with links := { tst.links with served := [srv0] } }
theorem witness_Peers : sServed.svc.ready = true ∧ (servedOf sServed 5).find? (fun x => x.num = (0 : BitVec 16).toNat) = some srv0 ∧
    (∀ x ∈ servedOf sServed 5, x.num ≠ (1 : BitVec 16).toNat ∧ x.num ≠ (2 : BitVec 16).toNat) ∧ nextFrom sServed 5 = 1 ∧ State.reset.svc.ready = false ∧
    localOk sServed 0x40002000 = true ∧ sServed.errs.latent = [] ∧ swf 0 sServed.mem = true ∧
    ∀ k ∈ [EKind.load, .atomic, .store, .reduce], let o := out0 k (some 5)
      ({ tst with outs := [o] } : State).outs[0]? = some o ∧ o.entry.late = none ∧ o.entry.wr = [] ∧ o.entry.opn ≠ 8 := by decide +kernel

theorem witness_Errors_words : ScalarIssues tst [] [] ∧ tst.g.lanesDone = true ∧ ls.g.qs.pendL = none ∧ ls.g.qs.pendS = none ∧ tokensBusy ls.g ((0xFF000000000000000000000 : BitVec 96).extractLsb' 34 8) = false ∧
    (0x800000000000000 : Word) ≠ 0 := by unfold ScalarIssues; decide +kernel
/-- The last record of a log, pending, of the first and of the last array. -/
def sLog (array : Nat) : State :=
  { tst with errs := { tst.errs with coreLog := [(60, BitVec.ofNat 64 (2 ^ 63 + array * 2 ^ 32))], dramLog := [(6140, BitVec.ofNat 64 (2 ^ 63 + array * 2 ^ 32))] } }
theorem witness_Errors_tests : ∀ x ∈ [(sLog 1, 1), (sLog 0x0B, 0x0B), (sLog 0x10, 0x10)], swf 0 x.1.errs.coreLog = true ∧ swf 0 x.1.errs.dramLog = true ∧
    bit1 (sget 0 x.1.errs.coreLog 60).toNat 63 = true ∧ bits (sget 0 x.1.errs.coreLog 60).toNat 61 60 = 0 ∧ bits (sget 0 x.1.errs.coreLog 60).toNat 39 32 = x.2 ∧
    sget 0 x.1.errs.dramLog 6140 = sget 0 x.1.errs.coreLog 60 := by decide +kernel
theorem witness_Walks : tst.errs.latent = [] ∧ tst.errs.inj = [] ∧ (0x3FFFFFFF : Word).toNat < 2 ^ 60 ∧ (255 : Nat) < 256 ∧ tst.wcache = [] ∧ (walk tst 1 0x3FFFFFFF).toOption.isSome = true ∧
    tst.tlb = [] := by decide +kernel
/-- StepKeepsStores: a step that goes on from a state in canonical form. -/
theorem witness_StepKeepsStores : StoresOk (tst.withFetchWord 32 0x04304200) ∧ ∃ t, step (tst.withFetchWord 32 0x04304200) = .next t := by
  refine ⟨by unfold StoresOk Memory.wf; decide +kernel, ?_⟩
  have h : (match step (tst.withFetchWord 32 0x04304200) with | .next _ => true | _ => false) = true := by decide +kernel
  revert h; cases step (tst.withFetchWord 32 0x04304200) <;> simp
/-- DecodeIsExact and the round trips: a scalar and a lane word that decode and encode, and opcodes that name nothing. -/
theorem witness_Encodings : (Instr.sadd 3 1 2).wf = true ∧ encodeScalar (.sadd 3 1 2) = some 0x04304200 ∧ (Instr.fadd { lw 10 with vd := 3, va := 1, vb := 2, rm := 1 }).wf = true ∧
    encodeLane (.fadd { lw 10 with vd := 3, va := 1, vb := 2, rm := 1 }) = some 0x110301020051000000000000 ∧ 0x31 ≤ ((0xC4000000 : BitVec 32).extractLsb' 26 6).toNat ∧
    ((1 : BitVec 32).extractLsb' 26 6).toNat = 0 ∧ 0x41 ≤ ((0x410000000000000000000000 : BitVec 96).extractLsb' 88 8).toNat ∧ ((1 : BitVec 96).extractLsb' 88 8).toNat = 0 := by decide +kernel

/-! ### Single steps: expected values by hand from the spec's rules -/

def sreg (n : Nat) (i : Instr) (l : Store Word) : Option Word := after (exec i (sst l)) (fun t => t.g.sval n)

/-- R165. The step fetches SADD s3, s1, s2: 2^64 − 1 plus 2 wraps. -/
theorem test_step_sadd : after (step (atPc (sst [(1, 0xFFFFFFFFFFFFFFFF), (2, 2)]) 0x04304200)) (fun t => (t.g.sval 3, t.g.pc)) =
    some (1, tst.g.pc + 4) := by decide +kernel
/-- R165: the shift count is b[5:0]; the products of −1 and −1; −2^63 by −1. -/
theorem test_step_alu : sreg 3 (.sshl 3 1 2) [(1, 3), (2, 0x41)] = some 6 ∧
    sreg 3 (.ssra 3 1 2) [(1, 0x8000000000000000), (2, 63)] = some 0xFFFFFFFFFFFFFFFF ∧
    sreg 3 (.smulhI 3 1 1) [(1, 0xFFFFFFFFFFFFFFFF)] = some 0 ∧ sreg 3 (.smulhN 3 1 1) [(1, 0xFFFFFFFFFFFFFFFF)] = some 0xFFFFFFFFFFFFFFFE ∧
    sreg 3 (.sdivI 3 1 2) [(1, 0x8000000000000000), (2, 0xFFFFFFFFFFFFFFFF)] = some 0x8000000000000000 ∧
    sreg 3 (.sremI 3 1 2) [(1, 0xFFFFFFFFFFFFFFF9), (2, 2)] = some 0xFFFFFFFFFFFFFFFF := by decide +kernel
theorem test_step_compare : sreg 3 (.scltI 3 1 2) [(1, 0xFFFFFFFFFFFFFFFF), (2, 1)] = some 1 ∧ sreg 3 (.scltN 3 1 2) [(1, 0xFFFFFFFFFFFFFFFF), (2, 1)] = some 0 ∧
    sreg 3 (.sminI 3 1 2) [(1, 0xFFFFFFFFFFFFFFFF), (2, 1)] = some 0xFFFFFFFFFFFFFFFF ∧ sreg 3 (.sclz 3 1) [] = some 64 ∧
    sreg 3 (.sctz 3 1) [(1, 8)] = some 3 ∧ sreg 3 (.spopc 3 1) [(1, 0xF0F)] = some 8 := by decide +kernel
/-- R166: the three words of SLUI that the spec works, and a proposal's tag through SSEL. -/
theorem test_step_slui : sreg 4 (.slui 4 0x67890) [(4, 0x000000ABCDE12345)] = some 0x0ABCDE1234567890 ∧ sreg 4 (.sli 4 0x80000) [] = some 0xFFFFFFFFFFF80000 ∧
    sreg 6 (.scmpi 6 1 2 0x3FB) [(1, 0xFFFFFFFFFFFFFFFA)] = some 1 ∧ sreg 6 (.scmpi 6 1 2 0x3FB) [(1, 0xFFFFFFFFFFFFFFFB)] = some 0 := by decide +kernel
theorem test_step_ssel : after (exec (.ssel 3 1 2 5) (sstTag [(1, 7), (2, 9)] [(1, true)])) (fun t => (t.g.sval 3, t.g.stag 3)) = some (9, true) := by decide +kernel
/-- R165: a zero divisor raises INTDIV, and the register keeps its value. -/
theorem test_step_zero_divisor : after (exec (.sdivN 3 1 2) (sVec true (sst [(1, 7), (3, 5)]))) (fun t => (t.g.sval 3, t.g.sp.trappc, t.g.lvl)) = some (5, tst.g.pc, 1) := by decide +kernel
/-- R171: CALL ten words ahead, JMPR through its own link register, BR.nez three words back. -/
theorem test_step_jumps : after (exec (.call 63 10) tst) (fun t => (t.g.sval 63, t.g.pc)) = some (tst.g.pc + 4, tst.g.pc + 40) ∧
    after (exec (.jmpr 5 5) (sst [(5, 0x2000)])) (fun t => (t.g.sval 5, t.g.pc)) = some (tst.g.pc + 4, 0x2000) ∧
    after (exec (.br 2 9 0xFFFD) (sst [(9, 1)])) (fun t => t.g.pc) = some (tst.g.pc - 12) ∧
    after (exec (.br 2 9 0xFFFD) tst) (fun t => t.g.pc) = some (tst.g.pc + 4) := by decide +kernel
/-- R170: the last argument of a block of two. -/
theorem test_step_sldk : after (exec (.sldk 3 0 8) (tst.upG (fun g => { g with sp := { g.sp with args := [1, 0, 0, 0, 0, 0, 0, 0, 0x34, 0x12, 0, 0, 0, 0, 0, 0x80] } })))
    (fun t => t.g.sval 3) = some 0x8000000000001234 := by decide +kernel
/-- R168, R112: SSTW [s1−4], s2 enters the issue queue with its four bytes, lowest first. -/
theorem test_step_sstw : after (exec (.sstw 2 1 0x3FFC) (sst [(1, 0x1004), (2, 0x1122334455667788)])) (fun t => t.g.qs.iq.map (fun e => (e.va, e.wr.map (·.2)))) =
    some [(0x1000, [0x88, 0x77, 0x66, 0x55])] := by decide +kernel
/-- R212: SWTRAP keeps its code in TRAPADDR, and TRAPPC at the next word. -/
theorem test_step_trap : after (exec (.trap 0x12) (sVec true tst)) (fun t => (t.g.sp.trapaddr, t.g.sp.trappc, t.g.lvl, t.g.pc)) =
    some (0x12, tst.g.pc + 4, 1, 0x5000) := by decide +kernel
/-- R176: STATUS is read, and the flags that are written to it stand. -/
theorem test_step_status : after (exec (.smts 9 1) (sst [(9, 0x1F)])) (fun t => t.g.sp.status) = some 0x1F := by decide +kernel

/-! ### Lane words: lanes 0 and 31 of v3 -/

def lres (i : Instr) (v : Store Elem) : Option (Elem × Elem) := after (exec i (lst v tst)) (fun t => (t.g.velem 3 0, t.g.velem 3 31))
/-- Lanes 0 to 31 active, these registers. -/
def lall (v : Store Elem) : State := (lst v tst).upG (fun g => { g with sp := { g.sp with exmask := 0xFFFFFFFF } })
def lanes (n : Nat) (r : Nat) (i : Instr) (v : Store Elem) : Option (List Elem) :=
  after (exec i (lall v)) (fun t => (List.range n).map (fun l => t.g.velem r l))

/-- The step fetches FADD.f32.rne v3, v1, v2: 1.0 and 2.0, then 2^24 + 1 under RNE. -/
theorem test_step_fadd : after (step (atLane (lst [(32, 0x3F800000), (63, 0x4B800000), (64, 0x40000000), (95, 0x3F800000)] tst) 0x110301020051000000000000))
    (fun t => (t.g.velem 3 0, t.g.velem 3 31, t.g.sp.status)) = some (0x40400000, 0x4B800000, 0x10) := by decide +kernel
/-- R220: wrapping, clamping, and the high half of a product. -/
theorem test_step_vadd : lres (.vadd (w3 2)) vals = some (0xBF7FFFFF, 0x7FFFFFFF) ∧ lres (.vadd { w3 2 with sat := 1 }) vals = some (0x7FFFFFFF, 0x80000000) ∧
    lres (.vadd (w3 0)) [(32, 0x80FF7F01), (64, 0x80010101)] = some (0x00008002, 0) ∧ lres (.vmulh (w3 2)) [(32, 0x80000000), (64, 2)] = some (0xFFFFFFFF, 0) := by decide +kernel
theorem test_step_vshift : lres (.vsra (w3 2)) [(32, 0x80000000), (63, 0x80000000), (64, 0x3F), (95, 1)] = some (0xFFFFFFFF, 0xC0000000) ∧
    lres (.vshr (w3 2)) [(32, 0x80000000), (64, 0x3F)] = some (1, 0) ∧ lres (.vsel { w3 2 with vc := 1 }) vals = some (0x3F800000, 0xFFFFFFFF) := by decide +kernel
/-- R221, R226: the predicate keeps the bits of lanes that do not run; −0 is not below +0; a NaN is unordered. -/
theorem test_step_compares : after (exec (.vcmp { w3 2 with vd := 1, mod8 := 4 }) ls) (fun t => t.g.pred 1) = some 1 ∧
    after (exec (.fcmp { w3 10 with vd := 1, mod8 := 2 }) (lst [(32, 0x80000000)] tst)) (fun t => t.g.pred 1) = some 0 ∧
    after (exec (.fcmp { w3 10 with vd := 1, mod8 := 6 }) (lst [(32, 0x7FC00000)] tst)) (fun t => (t.g.pred 1, t.g.sp.status)) = some (1, 0) := by decide +kernel
/-- R225, R224: FMIN of −0 and +0, FFMA with one rounding: (1 + 2^−12)² − (1 + 2^−11). -/
theorem test_step_fmin_ffma : lres (.fmin (w3 10)) [(64, 0x80000000), (95, 0x7FC00000)] = some (0x80000000, 0) ∧
    lres (.ffma { w3 10 with vc := 4 }) [(32, 0x3F800800), (64, 0x3F800800), (128, 0xBF801000)] = some (0x33800000, 0) := by decide +kernel
/-- R58: functions with exact values, and the divisions by zero. -/
theorem test_step_functions : lres (.frcp { lw 10 with vd := 3, va := 1 }) [(32, 0x40800000)] = some (0x3E800000, 0x7F800000) ∧
    lres (.fsqrt { lw 10 with vd := 3, va := 1 }) [(32, 0x40800000), (63, 0x40000000)] = some (0x40000000, 0x3FB504F3) ∧
    lres (.flog2 { lw 10 with vd := 3, va := 1 }) [(32, 0x41000000), (63, 0x3F800000)] = some (0x40400000, 0) := by decide +kernel
theorem test_step_fexp2 : lres (.fexp2 { lw 10 with vd := 3, va := 1 }) [(32, 0x40400000), (63, 0xFF800000)] = some (0x41000000, 0) := by decide +kernel
/-- R229: i32 to f32 rounds; f32 to i32 of 2^31 gives the end of the range with NV. -/
theorem test_step_vcvt : lres (.vcvt { lw 10 with vd := 3, va := 1, mod8 := 2, rm := 1 }) vals = some (0x4F000000, 0xCF000000) ∧
    after (exec (.vcvt { lw 2 with vd := 3, va := 1, mod8 := 10, rm := 3 }) (lst [(32, 0x4F000000), (63, 0xBFC00000)] tst))
      (fun t => (t.g.velem 3 0, t.g.velem 3 31, t.g.sp.status)) = some (0x7FFFFFFF, 0xFFFFFFFF, 0x11) := by decide +kernel
/-- The row that the spec quantises: 1.5, −0.75, 4.5, 9, 2.25, −3, 0.3, 5.25. -/
def row0 : Store Elem := [(320, 0x3FC00000), (321, 0xBF400000), (322, 0x40900000), (323, 0x41100000), (324, 0x40100000), (325, 0xC0400000), (326, 0x3E99999A), (327, 0x40A80000)]
theorem test_step_vqnt : after (exec (.vqnt { lw 14 with vd := 12, va := 10, rm := 1, bk := 2, imm := 0x3F80 }) (lall row0))
    (fun t => (t.g.velem 12 7, t.g.velem 13 0, t.g.velem 13 8, t.g.vtag 12 0, t.g.sp.status)) = some (0x60C37592, 0x70, 0x60, true, 0x18) := by decide +kernel
theorem test_step_vdq : after (exec (.vdq { lw 14 with vd := 14, va := 12, rm := 1, bk := 2, imm := 0x3F80 })
      (lall ((List.range 8).map (fun l => (384 + l, (0x60C37592 : Elem))) ++ (List.range 8).map (fun l => (416 + l, (0x70 : Elem))))))
    (fun t => ((List.range 8).map (t.g.velem 14), t.g.sp.status)) =
    some ([0x3FC00000, 0xBF400000, 0x40900000, 0x41100000, 0x40100000, 0xC0400000, 0, 0x40C00000], 0) := by decide +kernel
/-- R238 to R242. -/
theorem test_step_cross_lane : lres (.vscan { lw 2 with vd := 3, va := 1 }) vals = some (0x7FFFFFFF, 0xFFFFFFFF) ∧
    lanes 3 3 (.vshf { lw 2 with vd := 3, va := 1, bk := 2, imm := 1, mod8 := 4 }) ((List.range 32).map (fun l => (32 + l, BitVec.ofNat 32 (l + 1)))) = some [2, 3, 4] ∧
    after (exec (.vred { lw 2 with vd := 3, va := 1, mod8 := 1 }) ls) (fun t => t.g.sval 3) = some 0xFFFFFFFF80000000 ∧
    after (exec (.vxts { lw 10 with vd := 3, va := 1, bk := 2, imm := 31 }) ls) (fun t => t.g.sval 3) = some 0x80000000 := by decide +kernel
theorem test_step_vbal : after (exec (.vbal { lw 0 with vd := 3, va := 1, mod8 := 2 }) lsK) (fun t => (t.g.velem 3 0, t.g.velem 3 31)) = some (0, 1) := by decide +kernel
/-- R258: RES = 3 − 1·2 in units of 2^−96. -/
theorem test_step_dacc : after (exec (.dacc { lw 2 with vd := 0, va := 1, vb := 2, vc := 4 }) (lst [(32, 1), (64, 2), (128, 3)] tst)) (fun t => ((t.g.dElem 0 0).res, (t.g.dElem 0 0).na, (t.g.dElem 0 0).nx, (t.g.dElem 0 0).nb)) = some (2 ^ 96, 2 ^ 96, 2 ^ 97, 3 * 2 ^ 96) := by decide +kernel
/-- R20, R252: LEND ends the run. -/
theorem test_step_lend : after (exec (.lend (lw 0)) ls) (fun t => t.g.ln.runs.isEmpty) = some true := by decide +kernel

/-! ### Events -/

/-- R358. -/
theorem test_step_power : after (exec .powerLoss tst) (fun t => t.svc.powered) = some false := by decide +kernel

end Sys2Proof.Tests
end

section
/-! SUPPORT. How a scalar word that issues waits or keeps a cause, and what reading its registers leaves alone. -/

namespace Sys2Proof

open Machine

/-! ### Reading registers leaves the lane stream and the queues alone -/

theorem consumes_keep (l : List Nat) : ∀ g : Group, (l.foldl Group.consume g).ln = g.ln ∧ (l.foldl Group.consume g).qs = g.qs := by
  induction l with
  | nil => intro g; exact ⟨rfl, rfl⟩
  | cons n t ih => intro g; rw [List.foldl_cons]; simpa using ih (g.consume n)

@[simp] theorem scalarMet_ln (s : State) (reads : List Nat) : (scalarMet s reads).g.ln = s.g.ln := by
  obtain ⟨e, q, h⟩ := touchRegs_shape s (fun a i => a = 0x02 && reads.contains i)
  unfold scalarMet
  rw [h]

@[simp] theorem scalarMet_qs (s : State) (reads : List Nat) : (scalarMet s reads).g.qs = s.g.qs := by
  obtain ⟨e, q, h⟩ := touchRegs_shape s (fun a i => a = 0x02 && reads.contains i)
  unfold scalarMet
  rw [h]

@[simp] theorem scalarIssued_ln (s : State) (reads : List Nat) : (scalarIssued s reads).g.ln = s.g.ln :=
  (consumes_keep reads _).1.trans (scalarMet_ln s reads)

@[simp] theorem scalarIssued_qs (s : State) (reads : List Nat) : (scalarIssued s reads).g.qs = s.g.qs :=
  (consumes_keep reads _).2.trans (scalarMet_qs s reads)

@[simp] theorem scalarIssued_lanesDone (s : State) (reads : List Nat) : (scalarIssued s reads).g.lanesDone = s.g.lanesDone := by
  unfold Group.lanesDone
  rw [scalarIssued_ln, scalarIssued_qs]

/-- The lanes are done where no run, no waiting word and no late element is left. -/
theorem lanesDone_iff (g : Group) : g.lanesDone = true ↔ g.ln.runs = [] ∧ g.qs.pendL = none ∧ g.qs.lateV = [] := by
  simp [Group.lanesDone, and_assoc]

/-! ### A scalar word without registers -/

theorem scoreboardHolds_nil (s : State) : scoreboardHolds s [] [] = false := by
  unfold scoreboardHolds
  rw [List.any_eq_false]
  intro r _
  simp [runHolds]

/-- A scalar word without registers issues where no word waits before it. -/
theorem scalarIssues_nil {s : State} (h : s.g.qs.pendS = none) : ScalarIssues s [] [] :=
  ⟨h, scoreboardHolds_nil s, fun n hn => by cases hn⟩

/-! ### A scalar word that waits, and one that keeps its cause -/

/-- A scalar word that cannot have its effect yet waits, its registers read. -/
theorem scalarWord_wait {s : State} {reads writes : List Nat} {f : State → SRes} (h : ScalarIssues s reads writes)
    (hf : f (scalarIssued s reads) = .wait) : scalarWord reads writes f s = .next (scalarMet s reads) := by
  rw [scalarWord_issues h, hf]
  cases badScalar s.g reads <;> rfl

/-- A scalar word whose effect raises a trap keeps the cause while runs before it go on (R162). -/
theorem scalarWord_meet {s : State} {reads writes : List Nat} {f : State → SRes} {t : Trap} (h : ScalarIssues s reads writes)
    (hf : f (scalarIssued s reads) = .trap t) (hl : s.g.lanesDone = false) :
    scalarWord reads writes f s = .next ((scalarMet s reads).upG (fun g => g.meet t)) := by
  rw [scalarWord_issues h, hf]
  have hl' := lanesDone_scalarRead s reads
  rw [hl] at hl'
  cases badScalar s.g reads <;> simp [scalarEnd, meetTrap, hl']

/-! ### The future of a register after a write -/

theorem fut_setS_same (g : Group) (n : Nat) (v : Word) (t : Bool) (h : swf RegFut.none g.r.fut = true) : (g.setS n v t).fut n = .none := by
  unfold Group.fut Group.setS
  by_cases hn : n = 0
  · exact if_pos hn
  · simp only [if_neg hn]
    exact sget_sset_same _ _ _ _ h

theorem fut_setS_other (g : Group) (n m : Nat) (v : Word) (t : Bool) (h : swf RegFut.none g.r.fut = true) (hm : m ≠ n) :
    (g.setS n v t).fut m = g.fut m := by
  unfold Group.fut Group.setS
  by_cases hn : n = 0
  · rw [if_pos hn]
  · simp only [if_neg hn]
    rw [sget_sset_ne _ _ _ _ _ h hm]

theorem stag_setS_other (g : Group) (n m : Nat) (v : Word) (t : Bool) (h : swf false g.r.stag = true) (hm : m ≠ n) :
    (g.setS n v t).stag m = g.stag m := by
  unfold Group.stag Group.setS
  by_cases hn : n = 0
  · rw [if_pos hn]
  · simp only [if_neg hn]
    rw [sget_sset_ne _ _ _ _ _ h hm]

theorem fut_setFut_same (g : Group) (n : Nat) (f : RegFut) (h : swf RegFut.none g.r.fut = true) (hn : n ≠ 0) : (g.setFut n f).fut n = f := by
  unfold Group.fut Group.setFut
  simp only [if_neg hn]
  exact sget_sset_same _ _ _ _ h

theorem fut_setFut_other (g : Group) (n m : Nat) (f : RegFut) (h : swf RegFut.none g.r.fut = true) (hm : m ≠ n) :
    (g.setFut n f).fut m = g.fut m := by
  unfold Group.fut Group.setFut
  by_cases hn : n = 0
  · rw [if_pos hn]
  · simp only [if_neg hn]
    rw [sget_sset_ne _ _ _ _ _ h hm]

@[simp] theorem sval_setFut (g : Group) (n m : Nat) (f : RegFut) : (g.setFut n f).sval m = g.sval m := by
  unfold Group.sval Group.setFut
  by_cases hn : n = 0
  · rw [if_pos hn]
  · rw [if_neg hn]

@[simp] theorem stag_setFut (g : Group) (n m : Nat) (f : RegFut) : (g.setFut n f).stag m = g.stag m := by
  unfold Group.stag Group.setFut
  by_cases hn : n = 0
  · rw [if_pos hn]
  · rw [if_neg hn]

theorem setFut_ok (g : Group) (n : Nat) (f : RegFut) (h : RegsOk g.r) : RegsOk (g.setFut n f).r := by
  unfold Group.setFut
  split
  · exact h
  · obtain ⟨h1, h2, h3, h4⟩ := h
    exact ⟨h1, h2, swf_sset _ _ _ _ h3, h4⟩

end Sys2Proof
end

section
/-! PROOFS. LISSUE, LRUN and LWAIT. -/

namespace Sys2Proof

open Machine

/-- Settles O17: each word is one scalar word without operands, whose effect is read off its definition case by case. -/
theorem runWords : Obligations.RunWords := by
  intro s n ix h s1 enq out
  refine ⟨fun hlt => ⟨fun hix => ?_, ?_⟩, fun hge => ⟨fun hix => ?_, ?_⟩, fun hix hl => ?_, ?_⟩
  · show execLissue n ix s = _
    refine scalarWord_done h ?_
    exact (if_neg (by omega)).trans (if_neg (Nat.not_le.mpr hlt))
  · show execLrun ix s = _
    refine scalarWord_done h ?_
    exact if_neg (Nat.not_le.mpr hlt)
  · show execLissue n ix s = _
    refine scalarWord_wait h.1 ?_
    exact (if_neg (by omega)).trans (if_pos hge)
  · show execLrun ix s = _
    refine scalarWord_wait h.1 ?_
    exact if_pos hge
  · show execLissue n ix s = _
    refine scalarWord_trap h.1 ?_ hl
    exact if_pos (by omega)
  · show execLwait s = _
    by_cases hd : s.g.lanesDone = true
    · rw [if_pos ((lanesDone_iff s.g).mp hd)]
      refine scalarWord_done h ?_
      rw [scalarIssued_lanesDone, if_pos hd]
    · rw [if_neg (fun hn => hd ((lanesDone_iff s.g).mpr hn))]
      refine scalarWord_wait h.1 ?_
      rw [scalarIssued_lanesDone, if_neg hd]

end Sys2Proof
end

section
/-! PROOFS. What a turn of the scalar stream and of the lane stream runs. -/

namespace Sys2Proof

open Machine

/-! ### An aligned word lies in one page and in one unit -/

theorem four_dvd_page (level : Nat) : 4 ∣ 2 ^ pageBits level := by
  have h : 2 ≤ pageBits level := by
    unfold pageBits
    split
    · decide
    · split
      · decide
      · split
        · decide
        · decide
  exact Nat.pow_dvd_pow 2 h

/-- What two checks let through. -/
theorem eq_of_checks_ok {α ε : Type} {p q : Prop} [Decidable p] [Decidable q] {e f : ε} {v x : α}
    (h : (if p then Except.error e else if q then Except.error f else Except.ok v) = Except.ok x) : v = x := by
  split at h
  · cases h
  · split at h
    · cases h
    · exact Except.ok.inj h

theorem checkLeaf_pa {s : State} {asid gen : Nat} {priv : Bool} {acc : Acc} {level pte va : Nat} {x : Xlat}
    (h : checkLeaf s asid gen priv acc level pte va = .ok x) : x.pa = bits pte 51 16 * 2 ^ 16 + va % 2 ^ pageBits level := by
  unfold checkLeaf at h
  rw [← eq_of_checks_ok h]

theorem checkLeaf_pa_aligned {s : State} {asid gen : Nat} {priv : Bool} {acc : Acc} {level pte va : Nat} {x : Xlat}
    (hx : checkLeaf s asid gen priv acc level pte va = .ok x) (h : va % 4 = 0) : x.pa % 4 = 0 := by
  rw [checkLeaf_pa hx]
  have hv : va % 2 ^ pageBits level % 4 = 0 := by rw [Nat.mod_mod_of_dvd _ (four_dvd_page level)]; exact h
  omega

/-- A translation keeps the place within four bytes. -/
theorem translate_pa_aligned {s : State} {core asid gen : Nat} {priv : Bool} {acc : Acc} {va : Word} {x : Xlat}
    (hx : translate s core asid gen priv acc va = .ok x) (h : va.toNat % 4 = 0) : x.pa % 4 = 0 := by
  unfold Machine.translate at hx
  split at hx
  · cases hx
  · split at hx
    · exact checkLeaf_pa_aligned hx h
    · split at hx
      · cases hx
      · exact checkLeaf_pa_aligned hx h

theorem unitOf_add {a i : Nat} (ha : a % 4 = 0) (hi : i < 4) : unitOf (a + i) = unitOf a := by
  have hs : unitSize (a + i) = unitSize a := by
    unfold unitSize onDie
    by_cases h : a < 2 ^ 52
    · rw [if_pos h, if_pos (by omega)]
    · rw [if_neg h, if_neg (by omega)]
  have hd : (a + i) / unitSize a = a / unitSize a := by
    unfold unitSize
    split <;> omega
  unfold unitOf
  rw [hs, hd]

theorem homePoison_unit {s : State} {a b : Nat} (h : unitOf a = unitOf b) : homePoison s a = homePoison s b := by
  unfold homePoison
  rw [h]

/-- R12, R141: an aligned word is read from home, in the page and the unit of its first byte. -/
theorem fetchCode_aligned {s : State} {g : Group} {pc : Word} {x : Xlat} (h : pc.toNat % 4 = 0)
    (hx : translate s g.place.coreNo g.sp.asid.toNat g.sp.gen.toNat g.priv .fetch pc = .ok x) (hp : homePoison s x.pa = false) :
    fetchCode s g pc 4 = .ok (homeNat s x.pa 4) := by
  have hpage : ¬ 2 ^ pageBits x.level - pc.toNat % 2 ^ pageBits x.level < 4 := by
    obtain ⟨k, hk⟩ := four_dvd_page x.level
    have hm : pc.toNat % 2 ^ pageBits x.level % 4 = 0 := by rw [Nat.mod_mod_of_dvd _ (four_dvd_page x.level)]; exact h
    have hlt := Nat.mod_lt pc.toNat (Nat.two_pow_pos (pageBits x.level))
    omega
  have hplace : ∀ i ∈ List.range 4, i < 2 ^ pageBits x.level - pc.toNat % 2 ^ pageBits x.level := by
    intro i hi
    have := List.mem_range.mp hi
    omega
  have hclean : (List.range 4).find? (fun i => homePoison s
      (if i < 2 ^ pageBits x.level - pc.toNat % 2 ^ pageBits x.level then x.pa + i
       else x.pa + (i - (2 ^ pageBits x.level - pc.toNat % 2 ^ pageBits x.level)))) = none := by
    rw [List.find?_eq_none]
    intro i hi
    rw [if_pos (hplace i hi), homePoison_unit (unitOf_add (translate_pa_aligned hx h) (List.mem_range.mp hi)), hp]
    decide
  unfold fetchCode
  simp only [hx, hpage, if_false, hclean]
  unfold homeNat
  congr 2
  exact List.map_congr_left (fun i hi => by rw [if_pos (hplace i hi)])

/-! ### The turn of the scalar stream -/

theorem takeTurn_svc (s : State) : (takeTurn s).2.svc = s.svc := by
  unfold takeTurn
  split <;> rfl

/-- What a step comes to once its turn has brought something to run, or an outcome. -/
def endTurn (s : State) (u : Turn) : Next → Out
  | .run i t => finish s (ownCmd i) u (exec i t)
  | .done o => finish s none u o

/-- With power a step is what its turn comes to. -/
theorem step_powered {s : State} (hp : s.svc.powered = true) :
    step s = endTurn (takeTurn s).2 (takeTurn s).1 (nextOf (takeTurn s).1 (takeTurn s).2) := by
  have h : nextPower (takeTurn s).1 (takeTurn s).2 = nextOf (takeTurn s).1 (takeTurn s).2 := by
    unfold nextPower
    rw [takeTurn_svc, if_pos hp]
  exact (congrArg (endTurn (takeTurn s).2 (takeTurn s).1) h)

theorem step_scalar {s : State} (hp : s.svc.powered = true) (ht : (takeTurn s).1 = .scalar) :
    step s = endTurn (takeTurn s).2 (takeTurn s).1 (nextScalar (armFocus (countPassed (takeTurn s).2))) := by
  rw [step_powered hp, ht]
  rfl

theorem step_lane {s : State} {slot : Bool} (hp : s.svc.powered = true) (ht : (takeTurn s).1 = .lane slot) :
    step s = endTurn (takeTurn s).2 (takeTurn s).1 (nextLane (armFocus (countPassed (takeTurn s).2)) slot) := by
  rw [step_powered hp, ht]
  rfl

/-- What a turn of the scalar stream that fetches its word comes to: the word's instruction, or none. -/
theorem nextScalar_fetched {s : State} {n : Nat} (hi : canIssue s = true) (hm : s.g.met = none) (hw : s.g.qs.pendS = none)
    (hf : let t := touchCode s s.g.pc 4; fetchCode t t.g t.g.pc 4 = .ok n) :
    (∀ r, decodeScalarBytes (leBytes 4 n) = .ok r → nextScalar s = runScalar r.1 (touchCode s s.g.pc 4)) ∧
    (∀ e, decodeScalarBytes (leBytes 4 n) = .error e →
      nextScalar s = runScalar (.notAnInstruction false (BitVec.ofNat 96 n)) (touchCode s s.g.pc 4)) := by
  dsimp only at hf
  unfold nextScalar
  rw [hi, hm, hw]
  simp only [Bool.not_true, Bool.false_eq_true, if_false, hf]
  exact ⟨fun r hr => by rw [hr], fun e he => by rw [he]⟩

theorem nextScalar_waits {s : State} {p : Pend} (hi : canIssue s = true) (hm : s.g.met = none) (hw : s.g.qs.pendS = some p) :
    nextScalar s = .run p.w s := by
  unfold nextScalar
  rw [hi, hm, hw]
  rfl

theorem nextScalar_met {s : State} {t : Trap} (hi : canIssue s = true) (hm : s.g.met = some t) :
    nextScalar s = .done (.next (if s.g.lanesDone then scalarTrap s t else s)) := by
  unfold nextScalar
  rw [hi, hm]
  rfl

theorem walksTouched_nil (s : State) : walksTouched s [] = s := by
  unfold walksTouched
  split <;> rfl

/-- R151: a scalar word that is no instruction raises ZEROWORD where it is zero, else ILLEGAL. -/
theorem exec_notAnInstruction_scalar {s : State} {n : Nat} (hn : n < 2 ^ 32) (hl : s.g.lanesDone = true) (hw : s.g.qs.pendS = none) :
    exec (.notAnInstruction false (BitVec.ofNat 96 n)) s = .next (scalarTrap (scalarMet s []) (mkTrap (if n = 0 then 0x02 else 0x01) 0)) := by
  have hz : (BitVec.ofNat 96 n = 0) ↔ n = 0 := by
    constructor
    · intro h
      have := congrArg BitVec.toNat h
      rw [BitVec.toNat_ofNat, Nat.mod_eq_of_lt (by omega)] at this
      exact this
    · rintro rfl; rfl
  show execNotAnInstruction false (BitVec.ofNat 96 n) s = _
  unfold execNotAnInstruction
  rw [if_neg (by decide)]
  refine scalarWord_trap (scalarIssues_nil hw) ?_ hl
  simp only [hz]
  rfl

/-- Settles O8: the fetch by the alignment of a translation, the turns by what the next word of the stream is. -/
theorem stepRunsTheScalarWord : Obligations.StepRunsTheScalarWord := by
  refine ⟨fun s g pc x h hx hp => fetchCode_aligned h hx hp, ?_, ?_, ?_⟩
  · intro s n i hp ht s1 s2 hi hm hw hf hd
    rw [step_scalar hp ht, (nextScalar_fetched hi hm hw hf).1 _ hd]
    rfl
  · intro s hp ht s1
    exact ⟨fun p hi hm hw => by rw [step_scalar hp ht, nextScalar_waits hi hm hw]; rfl,
      fun t hi hm => by rw [step_scalar hp ht, nextScalar_met hi hm]; rfl⟩
  · intro s n e hp ht s1 s2 hi hm hw hf hn hd hl hw2
    rw [step_scalar hp ht, (nextScalar_fetched hi hm hw hf).2 e hd]
    show finish _ _ _ (exec _ (walksTouched s2 [])) = _
    rw [walksTouched_nil, exec_notAnInstruction_scalar hn hl hw2]
    rfl

/-! ### The turn of the lane stream -/

theorem nextLane_waits {s : State} {slot : Bool} {p : Pend} (hi : canIssue s = true) (hw : s.g.qs.pendL = some p) :
    nextLane s slot = .run p.w s := by
  unfold nextLane
  rw [hi, hw]
  rfl

theorem nextLane_mma {s : State} {slot : Bool} {m : LIdx × LWord} (hi : canIssue s = true) (hw : s.g.qs.pendL = none)
    (hm : s.g.ln.mword = some m) : nextLane s slot = .run (.mma m.2) s := by
  unfold nextLane
  rw [hi, hw, hm]
  rfl

/-- The word of the slot that a lane turn picks, once the pops that are due are made. -/
theorem nextLane_slot {s : State} {slot k : Bool} (hi : canIssue s = true) (hw : s.g.qs.pendL = none) (hm : s.g.ln.mword = none)
    (hs : laneStop (settleLane 17 (s.upG Group.startRun)).1 (settleLane 17 (s.upG Group.startRun)).2 = none)
    (hk : pickSlot (settleLane 17 (s.upG Group.startRun)).1.g slot = some k) :
    nextLane s slot = nextWord (onSlot (settleLane 17 (s.upG Group.startRun)).1 k) := by
  unfold nextLane
  rw [hi, hw, hm]
  simp only [Bool.not_true, Bool.false_eq_true, if_false, hs, hk]

theorem nextWord_decoded {s : State} {w : BitVec 96} {i : Instr} {l : List Byte}
    (hf : let t := touchCode s (s.g.lcbNow + BitVec.ofNat 64 (12 * (laneCtx s.g).idx.toNat)) 12
      fetchLane t t.g (laneCtx s.g).idx = .ok w)
    (hd : decodeLaneBytes (leBytes 12 w.toNat) = .ok (i, l)) :
    nextWord s = runLane i (touchCode s (s.g.lcbNow + BitVec.ofNat 64 (12 * (laneCtx s.g).idx.toNat)) 12) := by
  unfold nextWord
  dsimp only at hf ⊢
  rw [hf]
  dsimp only
  rw [hd]

/-- Settles O9: the turn by what the lane stream runs next. -/
theorem stepRunsTheLaneWord : Obligations.StepRunsTheLaneWord := by
  intro s slot hp ht s1 hi
  refine ⟨fun p hw => ?_, fun m hw hm => ?_, ?_⟩
  · rw [step_lane hp ht, nextLane_waits hi hw]
    rfl
  · rw [step_lane hp ht, nextLane_mma hi hw hm]
    rfl
  · intro k w i hw hm x s2 s3 hs hk hf hd
    rw [step_lane hp ht, nextLane_slot hi hw hm hs hk, nextWord_decoded hf hd]
    rfl

end Sys2Proof
end

section
/-! PROOFS. Barrier words, their checks and their phases. -/

namespace Sys2Proof

open Machine

/-! ### The checks of a barrier word -/

theorem levelCount_eq (l : Nat) : levelCount l = [2, 16, 8, 4, 1].getD l 1 := by
  match l with
  | 0 | 1 | 2 | 3 | 4 => rfl
  | _ + 5 => rfl

theorem barCheck_prop {s : State} {a : BitVec 6} {level : BitVec 3} {num : BitVec 4} (h : s.g.stag a.toNat = true) :
    barCheck s a level num = .error (mkTrap cPROPCTL) := by
  unfold barCheck
  dsimp only
  rw [if_pos h]

/-- R27: a barrier that is not declared, of which the group is no member, or a chain outside deterministic mode. -/
theorem barCheck_bad {s : State} {a : BitVec 6} {level : BitVec 3} {num : BitVec 4} {t : Task}
    (hp : s.g.stag a.toNat = false) (ht : s.findTask s.g.key.task = some t)
    (h : let b := (s.g.sval a.toNat + BitVec.ofNat 64 num.toNat).toNat
      [2, 16, 8, 4, 1].getD level.toNat 1 ≤ b ∨ barDeclared t.img level.toNat b = false ∨ barMember t.img level.toNat b s.g.key = false ∨
        (level = 4 ∧ s.g.det = false)) :
    barCheck s a level num =
      .error (mkTrap cBARRIER (BitVec.ofNat 64 (level.toNat * 16 + (s.g.sval a.toNat + BitVec.ofNat 64 num.toNat).toNat))) := by
  have hn : num.zeroExtend 64 = BitVec.ofNat 64 num.toNat := by
    apply BitVec.eq_of_toNat_eq
    simp
  unfold barCheck
  dsimp only at h ⊢
  rw [if_neg (by rw [hp]; decide), ht, hn]
  refine if_pos ?_
  rw [levelCount_eq]
  simpa [or_assoc] using h

/-! ### The wait of a barrier word -/

/-- The wait of a barrier word whose arrival is made: it goes on where the phase has passed, and else holds its stream. -/
theorem barHold_eq (u : State) (w : Instr) (b : Bar) (m : Nat) :
    ((∃ x, u.findTask u.g.key.task = some x ∧ barPassed x b (sget 0 u.g.barLast (barKey b.level m) - 1) = true) →
      barHold u w b m = .ok (u.upG Group.noPendS).advance) ∧
    ((¬ ∃ x, u.findTask u.g.key.task = some x ∧ barPassed x b (sget 0 u.g.barLast (barKey b.level m) - 1) = true) →
      barHold u w b m = .ok (u.upG (fun g => { g with qs := { g.qs with pendS := some ⟨w, 1, []⟩ } }))) := by
  unfold barHold barWaitFor
  dsimp only
  have hf : (u.upG (fun g => { g with qs := { g.qs with pendS := some ⟨w, 1, []⟩ } })).findTask u.g.key.task = u.findTask u.g.key.task := rfl
  refine ⟨?_, fun hno => ?_⟩
  · rintro ⟨x, hx, hp⟩
    simp only [State.upG_g, hf, hx, hp, if_true]
    rfl
  · cases hx : u.findTask u.g.key.task with
    | none => simp only [State.upG_g, hf, hx]
    | some x =>
      have hp : ¬ barPassed x b (sget 0 u.g.barLast (barKey b.level m) - 1) = true := fun h => hno ⟨x, hx, h⟩
      simp only [State.upG_g, hf, hx, hp]
      rfl

/-! ### The words -/

/-- The effect of a barrier word: its checks, and then what it does with the barrier that they give. -/
def barEffect (k : Task → Bar → Nat → State → SRes) (a : BitVec 6) (level : BitVec 3) (num : BitVec 4) (s : State) : SRes :=
  match barCheck s a level num with
  | .error t => .trap t
  | .ok x => k x.1 x.2.1 x.2.2 s

theorem barEffect_ok {k : Task → Bar → Nat → State → SRes} {a : BitVec 6} {level : BitVec 3} {num : BitVec 4} {s : State} {t : Task} {b : Bar}
    {m : Nat} (h : barCheck s a level num = .ok (t, b, m)) : barEffect k a level num s = k t b m s := by
  unfold barEffect; rw [h]

theorem barEffect_error {k : Task → Bar → Nat → State → SRes} {a : BitVec 6} {level : BitVec 3} {num : BitVec 4} {s : State} {t : Trap}
    (h : barCheck s a level num = .error t) : barEffect k a level num s = .trap t := by
  unfold barEffect; rw [h]

/-- The cause of an arrival that is made twice in one phase, or of a wait without one. -/
def barTrap (level : BitVec 3) (n : Nat) : Trap := mkTrap cBARRIER (BitVec.ofNat 64 (level.toNat * 16 + n))

/-- An arrival that goes on as k says: not twice in one phase, and once its release may perform. -/
def arriveThen (level : BitVec 3) (k : State → Bar → Nat → SRes) (t : Task) (b : Bar) (n : Nat) (s : State) : SRes :=
  if (findBar t b).arr.contains s.g.key then .trap (barTrap level n)
  else if !releaseOk s s.g (barScope level.toNat) then .wait
  else k (makeArrival s t b n) b n

/-- The wait for the phase of the last arrival. -/
def waitLast (level : BitVec 3) (w : Instr) (_ : Task) (b : Bar) (n : Nat) (s : State) : SRes :=
  if sget 0 s.g.barLast (barKey b.level n) = 0 then .trap (barTrap level n) else barHold s w b n

section
variable {s : State} {a : BitVec 6} {level : BitVec 3} {num : BitVec 4}

theorem barArrive_word : exec (.barArrive a level num) s =
    scalarWord [a.toNat] [] (barEffect (arriveThen level (fun u _ _ => .ok u.advance)) a level num) s := by
  show execBarArrive a level num s = _
  refine congrArg (fun f => scalarWord [a.toNat] [] f s) (funext fun u => ?_)
  unfold barEffect
  cases barCheck u a level num with
  | error t => rfl
  | ok x => rfl

theorem barSync_word (h : s.g.qs.pendS = none) : exec (.barSync a level num) s =
    scalarWord [a.toNat] [] (barEffect (arriveThen level (fun u b n => barHold u (.barSync a level num) b n)) a level num) s := by
  show execBarSync a level num s = _
  unfold execBarSync
  generalize s.g.qs.pendS = p at h
  subst h
  refine congrArg (fun f => scalarWord [a.toNat] [] f s) (funext fun u => ?_)
  unfold barEffect
  cases barCheck u a level num with
  | error t => rfl
  | ok x => rfl

theorem barWait_word (h : s.g.qs.pendS = none) : exec (.barWait a level num) s =
    scalarWord [a.toNat] [] (barEffect (waitLast level (.barWait a level num)) a level num) s := by
  show execBarWait a level num s = _
  unfold execBarWait
  generalize s.g.qs.pendS = p at h
  subst h
  refine congrArg (fun f => scalarWord [a.toNat] [] f s) (funext fun u => ?_)
  unfold barEffect
  cases barCheck u a level num with
  | error t => rfl
  | ok x => rfl

/-- R27: what the checks refuse, each barrier word raises. -/
theorem barWord_refused {i : Instr} {t : Trap} (hi : i ∈ [Instr.barSync a level num, .barArrive a level num, .barWait a level num])
    (h : ScalarIssues s [a.toNat] []) (hl : s.g.lanesDone = true) (hc : barCheck (scalarIssued s [a.toNat]) a level num = .error t) :
    TrapsScalar i s [a.toNat] t := by
  have key : ∃ k, exec i s = scalarWord [a.toNat] [] (barEffect k a level num) s := by
    simp only [List.mem_cons, List.not_mem_nil, or_false] at hi
    obtain rfl | rfl | rfl := hi
    · exact ⟨_, barSync_word h.1⟩
    · exact ⟨_, barArrive_word⟩
    · exact ⟨_, barWait_word h.1⟩
  obtain ⟨k, hk⟩ := key
  unfold TrapsScalar
  rw [hk]
  exact scalarWord_trap h (barEffect_error hc) hl

end

/-! ### Phases -/

theorem bar_same_self (b : Bar) : b.same b = true := by simp [Bar.same]

/-- What a task holds for a barrier stands at the same place of the same level. -/
theorem findBar_same (t : Task) (b : Bar) : (findBar t b).same b = true := by
  unfold findBar
  cases h : t.bars.find? (fun x => x.same b) with
  | none => exact bar_same_self b
  | some x => exact List.find?_some (p := fun y : Bar => y.same b) h

theorem completeBar_same (t : Task) (b x : Bar) : (completeBar t b).same x = b.same x := by
  unfold completeBar
  split <;> rfl

theorem findBar_putBar {t : Task} {x b : Bar} (h : x.same b = true) : findBar (putBar t x) b = x := by
  unfold findBar putBar
  simp [h]

/-- After an arrival the task holds the barrier with the arrival counted, its phase completed where it was the last. -/
theorem findBar_arrive (t : Task) (b : Bar) (k : GroupKey) :
    findBar (barArriveGroup t b k) b = completeBar t { findBar t b with arr := (findBar t b).arr ++ [k] } := by
  unfold barArriveGroup
  refine findBar_putBar ?_
  rw [completeBar_same]
  exact findBar_same t b

/-- Every member has arrived, or is gone, and the copies that the task declared have. -/
def LastArrival (t : Task) (x : Bar) (k : GroupKey) : Prop :=
  (∀ m ∈ barMembers t x, m = k ∨ m ∈ x.arr ∨ (x.level, m) ∈ t.gone) ∧ barCopies t.img x.level x.num ≤ x.copies

theorem completeBar_last {t : Task} {x : Bar} {k : GroupKey} (h : LastArrival t x k) :
    completeBar t { x with arr := x.arr ++ [k] } =
      { x with phase := x.phase + 1, arr := [], copies := x.copies - barCopies t.img x.level x.num } := by
  unfold completeBar
  refine (if_pos ?_).trans rfl
  have hm : barMembers t { x with arr := x.arr ++ [k] } = barMembers t x := rfl
  rw [hm]
  simp only [Bool.and_eq_true, List.all_eq_true, Bool.or_eq_true, List.contains_iff_mem, List.mem_append, List.mem_singleton, decide_eq_true_eq]
  refine ⟨⟨fun m hm => ?_, h.2⟩, by simp⟩
  obtain h1 | h1 | h1 := h.1 m hm
  · exact .inl (.inr h1)
  · exact .inl (.inl h1)
  · exact .inr h1

theorem completeBar_open {t : Task} {x : Bar} {k : GroupKey} (h : ¬ LastArrival t x k) :
    completeBar t { x with arr := x.arr ++ [k] } = { x with arr := x.arr ++ [k] } := by
  unfold completeBar
  refine if_neg fun hc => h ?_
  have hm : barMembers t { x with arr := x.arr ++ [k] } = barMembers t x := rfl
  rw [hm] at hc
  simp only [Bool.and_eq_true, List.all_eq_true, Bool.or_eq_true, List.contains_iff_mem, List.mem_append, List.mem_singleton, decide_eq_true_eq] at hc
  refine ⟨fun m hm => ?_, hc.1.2⟩
  obtain (h1 | h1) | h1 := hc.1.1 m hm
  · exact .inr (.inl h1)
  · exact .inl h1
  · exact .inr (.inr h1)

/-- Settles O18: the words through their common checks, the phases through what a task holds for a barrier. -/
theorem barriers : Obligations.Barriers := by
  refine ⟨?_, ?_, ?_⟩
  · intro s a level num t b m h s1 hc holds passes u go
    have hs := h.1.1
    refine ⟨fun hk hr => ?_, fun hk hr => ?_, fun hn => ?_, fun hl => ⟨fun hk => ?_, fun hn => ?_⟩⟩
    · have harr : ∀ k, barEffect (arriveThen level k) a level num s1 = k u b m := by
        intro k
        rw [barEffect_ok hc]
        unfold arriveThen
        rw [if_neg (by simpa using hk), if_neg (by rw [hr]; decide)]
      refine ⟨?_, fun hp => ?_, fun hp => ?_⟩
      · rw [barArrive_word]
        exact scalarWord_done h (harr _)
      · rw [barSync_word hs]
        exact scalarWord_done h ((harr _).trans ((barHold_eq u _ b m).1 hp))
      · rw [barSync_word hs]
        exact scalarWord_done h ((harr _).trans ((barHold_eq u _ b m).2 hp))
    · have hwait : ∀ k, barEffect (arriveThen level k) a level num s1 = .wait := by
        intro k
        rw [barEffect_ok hc]
        unfold arriveThen
        rw [if_neg (by simpa using hk), if_pos (by rw [hr]; decide)]
      exact ⟨by rw [barArrive_word]; exact scalarWord_wait h.1 (hwait _), by rw [barSync_word hs]; exact scalarWord_wait h.1 (hwait _)⟩
    · have hw : barEffect (waitLast level (.barWait a level num)) a level num s1 = barHold s1 (.barWait a level num) b m := by
        rw [barEffect_ok hc]
        exact if_neg hn
      refine ⟨fun hp => ?_, fun hp => ?_⟩
      · rw [barWait_word hs]
        exact scalarWord_done h (hw.trans ((barHold_eq s1 _ b m).1 hp))
      · rw [barWait_word hs]
        exact scalarWord_done h (hw.trans ((barHold_eq s1 _ b m).2 hp))
    · have htrap : ∀ k, barEffect (arriveThen level k) a level num s1 = .trap (barTrap level m) := by
        intro k
        rw [barEffect_ok hc]
        exact if_pos (by simpa using hk)
      exact ⟨by unfold TrapsScalar; rw [barArrive_word]; exact scalarWord_trap h.1 (htrap _) hl,
        by unfold TrapsScalar; rw [barSync_word hs]; exact scalarWord_trap h.1 (htrap _) hl⟩
    · unfold TrapsScalar
      rw [barWait_word hs]
      refine scalarWord_trap h.1 ?_ hl
      rw [barEffect_ok hc]
      exact if_pos hn
  · intro s a level num i hi h hl s1 b
    exact ⟨fun hp => barWord_refused hi h hl (barCheck_prop hp), fun t _ hp ht hbad => barWord_refused hi h hl (barCheck_bad hp ht hbad)⟩
  · intro t b k x y last
    refine ⟨fun h => ?_, fun h => ?_⟩
    · have hy : y = _ := (findBar_arrive t b k).trans (completeBar_last h)
      rw [hy]
      exact ⟨rfl, rfl, rfl⟩
    · have hy : y = _ := (findBar_arrive t b k).trans (completeBar_open h)
      rw [hy]
      exact ⟨rfl, rfl, rfl⟩

end Sys2Proof
end

section
/-! PROOFS. SMFS and SMTS. -/

namespace Sys2Proof

open Machine

/-! ### The identifier of a special register -/

/-- R151, R175: an identifier that the group may name and that the table lists raises nothing. -/
theorem srIdTrap_none {s : State} {id : Nat} (hp : id < 0x100 ∨ s.g.lvl = 2) (hl : srListed id = true) : srIdTrap s id = none := by
  unfold srIdTrap Group.priv
  rw [if_neg (by simp; omega), if_neg (by simp [hl])]

theorem srIdTrap_priv {s : State} {id : Nat} (hn : 0x100 ≤ id) (hp : s.g.lvl ≠ 2) : srIdTrap s id = some (mkTrap cPRIV) := by
  unfold srIdTrap Group.priv
  exact if_pos (by simp [hn, hp])

theorem srIdTrap_unlisted {s : State} {id : Nat} (hp : id < 0x100 ∨ s.g.lvl = 2) (hl : srListed id = false) :
    srIdTrap s id = some (mkTrap cILLEGAL) := by
  unfold srIdTrap Group.priv
  rw [if_neg (by simp; omega), if_pos (by simp [hl])]

/-- A field of 12 bits is a numeral where its value is. -/
theorem id_eq_iff {id : BitVec 12} (n : Nat) (hn : n < 2 ^ 12) : id = BitVec.ofNat 12 n ↔ id.toNat = n := by
  rw [← BitVec.toNat_inj, BitVec.toNat_ofNat, Nat.mod_eq_of_lt hn]

/-! ### The effects of the two words -/

/-- R175: what an SMFS does once its identifier may be named. -/
def smfsEffect (sd : BitVec 6) (id : BitVec 12) (s : State) : SRes :=
  if id.toNat = 5 ∧ s.g.det then .trap (mkTrap cDETVIOL)
  else if srWaits id.toNat && !s.g.lanesDone then .wait
  else guardDst s sd.toNat (.ok (s.putS sd.toNat (srRead s id.toNat) (decide (id.toNat = 8) && s.g.cap.lscaleTag)))

/-- R175: what an SMTS of a value does once its identifier may be named. -/
def smtsEffect (sa : BitVec 6) (id : BitVec 12) (s : State) : SRes :=
  if id.toNat = 0x00C ∧ s.g.lanesDone = false then .wait
  else if srReadOnly id.toNat || srRefuses s id.toNat (s.g.sval sa.toNat).toNat then .trap (mkTrap cILLEGAL)
  else if s.g.stag sa.toNat ∧ id.toNat ≠ 8 then .trap (mkTrap cPROPCTL)
  else if srWaits id.toNat && !s.g.lanesDone then .wait
  else .ok ((srWrite s id.toNat (s.g.sval sa.toNat) (s.g.stag sa.toNat)).advance)

/-- The word that reads a special register: the trap of its identifier, or else its effect. -/
def srWord (k : State → SRes) (id : BitVec 12) (s : State) : SRes := (srIdTrap s id.toNat).elim (k s) .trap

theorem smfs_word (sd : BitVec 6) (id : BitVec 12) (s : State) :
    exec (.smfs sd id) s = scalarWord [] [sd.toNat] (srWord (smfsEffect sd id) id) s := by
  show execSmfs sd id s = _
  refine congrArg (fun f => scalarWord [] [sd.toNat] f s) (funext fun u => ?_)
  unfold srWord smfsEffect
  cases srIdTrap u id.toNat with
  | some t => rfl
  | none =>
    have h5 : id = 5 ↔ id.toNat = 5 := id_eq_iff 5 (by decide)
    have h8 : id = 8 ↔ id.toNat = 8 := id_eq_iff 8 (by decide)
    simp only [Option.elim, h5, h8]

theorem smts_word (sa : BitVec 6) (id : BitVec 12) (s : State) :
    exec (.smts sa id) s = scalarWord [sa.toNat] [] (srWord (smtsEffect sa id) id) s := by
  show execSmts sa id s = _
  refine congrArg (fun f => scalarWord [sa.toNat] [] f s) (funext fun u => ?_)
  unfold srWord smtsEffect
  cases srIdTrap u id.toNat with
  | some t => rfl
  | none =>
    have hC : id = 12#12 ↔ id.toNat = 0x00C := id_eq_iff 0x00C (by decide)
    have h8 : id = 8#12 ↔ id.toNat = 8 := id_eq_iff 8 (by decide)
    simp [hC, h8]

theorem srWord_named {s : State} {k : State → SRes} {id : BitVec 12} (hp : id.toNat < 0x100 ∨ s.g.lvl = 2)
    (hl : srListed id.toNat = true) : srWord k id s = k s := by
  unfold srWord; rw [srIdTrap_none hp hl]; rfl

/-! ### What each word comes to -/

section
variable {s : State} {d : BitVec 6} {id : BitVec 12}

/-- R17: an SMFS outside the causes of deterministic mode reads its register, once the runs are finished where it waits for them. -/
theorem smfsEffect_reads (hd : id.toNat ≠ 5 ∨ s.g.det = false) (hw : srWaits id.toNat = false ∨ s.g.lanesDone = true) (hb : s.g.blocked d.toNat = false) :
    smfsEffect d id s = .ok (s.putS d.toNat (srRead s id.toNat) (decide (id.toNat = 8) && s.g.cap.lscaleTag)) := by
  unfold smfsEffect
  rw [if_neg (by rcases hd with h | h <;> simp [h]), if_neg (by rcases hw with h | h <;> simp [h])]
  exact guardDst_free hb

theorem smfsEffect_waits (hd : id.toNat ≠ 5 ∨ s.g.det = false) (hw : srWaits id.toNat = true) (hl : s.g.lanesDone = false) :
    smfsEffect d id s = .wait := by
  unfold smfsEffect
  rw [if_neg (by rcases hd with h | h <;> simp [h]), if_pos (by simp [hw, hl])]

theorem smtsEffect_writes (ho : srReadOnly id.toNat = false) (hr : srRefuses s id.toNat (s.g.sval d.toNat).toNat = false)
    (ht : s.g.stag d.toNat = false ∨ id.toNat = 8) (hw : srWaits id.toNat = false ∨ s.g.lanesDone = true) :
    smtsEffect d id s = .ok (srWrite s id.toNat (s.g.sval d.toNat) (s.g.stag d.toNat)).advance := by
  unfold smtsEffect
  have hc : ¬ (id.toNat = 0x00C ∧ s.g.lanesDone = false) := by
    rintro ⟨hn, hl⟩
    rw [hn, hl] at hw
    exact absurd hw (by decide)
  rw [if_neg hc, if_neg (by simp [ho, hr]), if_neg (by rcases ht with h | h <;> simp [h]),
    if_neg (by rcases hw with h | h <;> simp [h])]

theorem smtsEffect_waits (ho : srReadOnly id.toNat = false) (hr : srRefuses s id.toNat (s.g.sval d.toNat).toNat = false)
    (ht : s.g.stag d.toNat = false ∨ id.toNat = 8) (hw : srWaits id.toNat = true) (hl : s.g.lanesDone = false) :
    smtsEffect d id s = .wait := by
  unfold smtsEffect
  by_cases hc : id.toNat = 0x00C
  · exact if_pos ⟨hc, hl⟩
  · rw [if_neg (fun h => hc h.1), if_neg (by simp [ho, hr]), if_neg (by rcases ht with h | h <;> simp [h]), if_pos (by simp [hw, hl])]

theorem smtsEffect_illegal (hl : s.g.lanesDone = true) (hr : srReadOnly id.toNat = true ∨ srRefuses s id.toNat (s.g.sval d.toNat).toNat = true) :
    smtsEffect d id s = .trap (mkTrap cILLEGAL) := by
  unfold smtsEffect
  rw [if_neg (by simp [hl]), if_pos (by rcases hr with h | h <;> simp [h])]

theorem smtsEffect_proposal (hl : s.g.lanesDone = true) (ho : srReadOnly id.toNat = false)
    (hr : srRefuses s id.toNat (s.g.sval d.toNat).toNat = false) (ht : s.g.stag d.toNat = true) (hn : id.toNat ≠ 8) :
    smtsEffect d id s = .trap (mkTrap cPROPCTL) := by
  unfold smtsEffect
  rw [if_neg (by simp [hl]), if_neg (by simp [ho, hr]), if_pos ⟨ht, hn⟩]

end

theorem srWaits_eq (n : Nat) : srWaits n = decide (n ∈ [0x001, 0x002, 0x00B, 0x00C, 0x00E]) := by
  unfold srWaits
  rw [List.contains_eq_mem]

/-- Settles O23: the trap of the identifier, and then the branches of each word's effect. -/
theorem specialRegisterMoves : Obligations.SpecialRegisterMoves := by
  refine ⟨?_, ?_⟩
  · intro s d id s1 n listed waits
    have hlisted : srListed n = listed := rfl
    have hwaits : srWaits n = waits := srWaits_eq n
    refine ⟨fun h hp hl hd => ⟨fun hw => ?_, fun hw hdone => ?_⟩, fun h hdone => ⟨fun hn hp => ?_, fun hp hl => ?_, fun hn hdet => ?_⟩⟩
    · unfold PutsScalar
      rw [smfs_word]
      exact scalarWord_done h ((srWord_named hp (hlisted.trans hl)).trans
        (smfsEffect_reads hd (by rwa [hwaits]) (h.2.2 _ (List.mem_singleton_self _))))
    · rw [smfs_word]
      exact scalarWord_wait h.1 ((srWord_named hp (hlisted.trans hl)).trans (smfsEffect_waits hd (by rwa [hwaits]) hdone))
    · unfold TrapsScalar
      rw [smfs_word]
      refine scalarWord_trap h ?_ hdone
      unfold srWord
      rw [srIdTrap_priv hn hp]
      rfl
    · unfold TrapsScalar
      rw [smfs_word]
      refine scalarWord_trap h ?_ hdone
      unfold srWord
      rw [srIdTrap_unlisted hp (hlisted.trans hl)]
      rfl
    · unfold TrapsScalar
      rw [smfs_word]
      exact scalarWord_trap h ((srWord_named (.inl (by omega)) (by rw [show id.toNat = 5 from hn]; decide)).trans (if_pos ⟨hn, hdet⟩)) hdone
  · intro s a id s1 n v waits hp hl
    have hwaits : srWaits n = waits := srWaits_eq n
    have named : srWord (smtsEffect a id) id s1 = smtsEffect a id s1 := srWord_named hp hl
    refine ⟨fun h ho hr ht => ⟨fun hw => ?_, fun hw hdone => ?_⟩, fun h hn hdone => ?_, fun h hdone => ⟨fun hr => ?_, fun ho hr ht hn => ?_⟩⟩
    · rw [smts_word]
      exact scalarWord_done h (named.trans (smtsEffect_writes ho hr ht (by rwa [hwaits])))
    · rw [smts_word]
      exact scalarWord_wait h.1 (named.trans (smtsEffect_waits ho hr ht (by rwa [hwaits]) hdone))
    · rw [smts_word]
      exact scalarWord_wait h.1 (named.trans (if_pos ⟨hn, hdone⟩))
    all_goals
      have hdone1 : s1.g.lanesDone = true := (scalarIssued_lanesDone s _).trans hdone
      unfold TrapsScalar
      rw [smts_word]
    · exact scalarWord_trap h (named.trans (smtsEffect_illegal hdone1 hr)) hdone
    · exact scalarWord_trap h (named.trans (smtsEffect_proposal hdone1 ho hr ht hn)) hdone

end Sys2Proof
end

section
/-! PROOFS. FTEST, FPASS, FCANCEL and registers that hold handles. -/

namespace Sys2Proof

open Machine

/-! ### The futures of the state in which a word has its effect -/

theorem scalarMet_fut (s : State) (reads : List Nat) (n : Nat) : (scalarMet s reads).g.fut n = s.g.fut n := by
  obtain ⟨-, -, -, -, -, hf⟩ := touchRegs_same s (fun a i => a = 0x02 && reads.contains i)
  unfold scalarMet Group.fut
  rw [hf]

theorem scalarIssued_nil_fut (s : State) (n : Nat) : (scalarIssued s []).g.fut n = s.g.fut n := scalarMet_fut s [] n

theorem scalarMet_regsOk {s : State} {reads : List Nat} (h : RegsOk s.g.r) : RegsOk (scalarMet s reads).g.r := by
  obtain ⟨e, q, he⟩ := touchRegs_shape s (fun a i => a = 0x02 && reads.contains i)
  unfold scalarMet
  rw [he]
  exact h

theorem scalarIssued_nil_swf {s : State} (h : swf RegFut.none s.g.r.fut = true) : swf RegFut.none (scalarIssued s []).g.r.fut = true := by
  obtain ⟨e, q, he⟩ := touchRegs_shape s (fun a i => a = 0x02 && ([] : List Nat).contains i)
  unfold scalarIssued scalarMet
  rw [he]
  exact h

theorem consume_regsOk {g : Group} {n : Nat} (h : RegsOk g.r) : RegsOk (g.consume n).r := by
  unfold Group.consume
  split
  · exact setS_ok _ _ _ _ h
  · exact h

/-- R181: a read of a register whose command has ended takes its completion word, settled, and leaves no handle. -/
theorem consume_resolved {g : Group} {n : Nat} {w : Word} {k x : Nat} (h : g.fut n = .resolved w k x) : g.consume n = g.setS n w false := by
  unfold Group.consume
  rw [h]

/-- A read of another register leaves a register as it is. -/
theorem consume_other {g : Group} {n m : Nat} (h : RegsOk g.r) (hm : m ≠ n) :
    (g.consume n).sval m = g.sval m ∧ (g.consume n).stag m = g.stag m ∧ (g.consume n).fut m = g.fut m := by
  unfold Group.consume
  split
  · exact ⟨sval_setS_other _ _ _ _ _ h hm, stag_setS_other _ _ _ _ _ h.2.1 hm, fut_setS_other _ _ _ _ _ h.2.2.1 hm⟩
  · exact ⟨rfl, rfl, rfl⟩

/-- R181: a word that would write a register whose command still runs raises FUTURE. -/
theorem guardDst_pending {s : State} {n c : Nat} {k : SRes} (h : s.g.fut n = .pending c) : guardDst s n k = .trap (mkTrap cFUTURE) := by
  unfold guardDst
  rw [h]

/-- R181: a scalar word that reads a register whose command still runs waits. -/
theorem scalarWord_blocked {s : State} {reads writes : List Nat} {f : State → SRes} {n : Nat} (hn : n ∈ reads) (h : s.g.blocked n = true) :
    scalarWord reads writes f s = .next s := by
  have hany : reads.any s.g.blocked = true := List.any_eq_true.mpr ⟨n, hn, h⟩
  unfold scalarWord
  exact if_pos (by simp [hany])

/-! ### Words on handle registers -/

section
variable {s : State} {peeks writes : List Nat} {f : State → SRes}

theorem handleWordOf_free (h : scoreboardHolds s peeks writes = false) : handleWordOf peeks writes f s = scalarWord [] [] f s := by
  unfold handleWordOf
  exact if_neg (by rw [h]; decide)

theorem handleWordOf_held (h : scoreboardHolds s peeks writes = true) : handleWordOf peeks writes f s = .next s := by
  unfold handleWordOf
  exact if_pos h

/-- A handle word that nothing holds has its own effect, of no ordinary read. -/
theorem handleWordOf_done {t : State} (hs : ScalarReady s [] []) (h : scoreboardHolds s peeks writes = false)
    (hf : f (scalarIssued s []) = .ok t) : handleWordOf peeks writes f s = .next t :=
  (handleWordOf_free h).trans (scalarWord_done hs hf)

theorem handleWordOf_trap {t : Trap} (hs : s.g.qs.pendS = none) (h : scoreboardHolds s peeks writes = false)
    (hf : f (scalarIssued s []) = .trap t) (hl : s.g.lanesDone = true) :
    handleWordOf peeks writes f s = .next (scalarTrap (scalarMet s []) t) :=
  (handleWordOf_free h).trans (scalarWord_trap (scalarIssues_nil hs) hf hl)

theorem scalarReady_nil {d : List Nat} (h : ScalarReady s [] d) : ScalarReady s [] [] :=
  ⟨scalarIssues_nil h.1.1, h.2.1, fun n hn => by cases hn⟩

end

/-- R335: FTEST and FCANCEL are of the causes of deterministic mode. -/
theorem futCheck_det {s : State} {a : BitVec 6} (h : s.g.det = true) : futCheck s true a = some (mkTrap cDETVIOL) := by
  unfold futCheck
  exact if_pos (by rw [h]; decide)

/-- R184: a handle, or a register that is settled, passes the checks. -/
theorem futCheck_none {s : State} {b : Bool} {a : BitVec 6} (hd : b = false ∨ s.g.det = false)
    (h : s.g.fut a.toNat ≠ .none ∨ s.g.stag a.toNat = false) : futCheck s b a = none := by
  unfold futCheck
  rw [if_neg (by rcases hd with h | h <;> simp [h]), if_neg (by rcases h with h | h <;> simp [h])]

/-! ### FTEST and FPASS -/

/-- What FTEST writes: 0 while the command runs. -/
theorem ftest_puts {s : State} {d a : BitVec 6} {v : Word} (h : ScalarReady s [] [d.toNat]) (hb : scoreboardHolds s [a.toNat] [d.toNat] = false)
    (hd : (scalarIssued s []).g.det = false)
    (hf : (v = 0 ∧ ∃ c, (scalarIssued s []).g.fut a.toNat = .pending c) ∨ (v = 1 ∧ ∃ w n x, (scalarIssued s []).g.fut a.toNat = .resolved w n x) ∨
      (v = 1 ∧ (scalarIssued s []).g.fut a.toNat = .none ∧ (scalarIssued s []).g.stag a.toNat = false)) :
    PutsScalar (.ftest d a) s [] d v false := by
  have hfree := h.2.2 _ (List.mem_singleton_self d.toNat)
  show execFtest d a s = _
  refine handleWordOf_done (scalarReady_nil h) hb ?_
  obtain ⟨rfl, c, hc⟩ | ⟨rfl, w, n, x, hc⟩ | ⟨rfl, hc, ht⟩ := hf
  · rw [futCheck_none (.inr hd) (.inl (by rw [hc]; simp))]
    dsimp only
    rw [hc]
    exact guardDst_free hfree
  · rw [futCheck_none (.inr hd) (.inl (by rw [hc]; simp))]
    dsimp only
    rw [hc]
    exact guardDst_free hfree
  · rw [futCheck_none (.inr hd) (.inr ht)]
    dsimp only
    rw [hc]
    exact guardDst_free hfree

/-- R181: a word waits for the access that has still to write its register. -/
def unlessBusy (k : SRes) : RegFut → SRes
  | .busy => .wait
  | _ => k

theorem unlessBusy_of_ne {k : SRes} {f : RegFut} (h : f ≠ .busy) : unlessBusy k f = k := by
  cases f with
  | busy => exact absurd rfl h
  | none => rfl
  | pending c => rfl
  | resolved w n x => rfl

/-- R184: FPASS gives up the handle for a number, in a register in which no access is out. -/
def passEffect (d a : BitVec 6) (n : Nat) (s : State) : SRes :=
  unlessBusy (.ok ((s.upG (fun g => g.setS a.toNat 0 false)).putS d.toNat (BitVec.ofNat 64 n) false)) ((s.g.setS a.toNat 0 false).fut d.toNat)

theorem passEffect_passes {s : State} {d a : BitVec 6} {n : Nat} (hw : swf RegFut.none s.g.r.fut = true) (hd : s.g.fut d.toNat ≠ .busy) :
    passEffect d a n s = .ok ((s.upG (fun g => g.setS a.toNat 0 false)).putS d.toNat (BitVec.ofNat 64 n) false) := by
  unfold passEffect
  refine unlessBusy_of_ne ?_
  by_cases h : d.toNat = a.toNat
  · rw [h, fut_setS_same _ _ _ _ hw]
    simp
  · rwa [fut_setS_other _ _ _ _ _ hw h]

/-- R181, R184: the state once a command's handle is given up. -/
def dropHandle (s : State) (c : Nat) : State := s.upCmd c (fun k => { k with reg := none })

/-- R184: what FPASS does with the future of its handle register. -/
def fpassEffect (d a : BitVec 6) (s : State) : RegFut → SRes
  | .none => .trap (mkTrap cFUTURE)
  | .busy => .wait
  | .resolved _ n _ => passEffect d a n s
  | .pending c => (s.findCmd c).elim .wait fun k => if k.stage = .issued then .wait else passEffect d a k.num (dropHandle s c)

theorem fpassEffect_pending {s : State} {d a : BitVec 6} {c : Nat} {k : Cmd} (hk : s.findCmd c = some k) (h : k.stage ≠ .issued) :
    fpassEffect d a s (.pending c) = passEffect d a k.num (dropHandle s c) := by
  simp only [fpassEffect, hk, Option.elim, if_neg h]

theorem fpass_word (d a : BitVec 6) (s : State) : exec (.fpass d a) s =
    handleWordOf [a.toNat] [d.toNat, a.toNat] (fun s => (futCheck s false a).elim (fpassEffect d a s (s.g.fut a.toNat)) .trap) s := by
  show execFpass d a s = _
  refine congrArg (fun f => handleWordOf [a.toNat] [d.toNat, a.toNat] f s) (funext fun u => ?_)
  cases futCheck u false a with
  | some t => rfl
  | none =>
    cases hf : u.g.fut a.toNat with
    | none => simp only [Option.elim, fpassEffect]
    | busy => simp only [Option.elim, fpassEffect]
    | resolved w n x =>
      simp only [Option.elim, fpassEffect, passEffect, State.upG_g]
      cases (u.g.setS a.toNat 0 false).fut d.toNat <;> rfl
    | pending c =>
      simp only [Option.elim, fpassEffect, passEffect, State.upG_g]
      cases hk : u.findCmd c with
      | none => rfl
      | some k =>
        simp only [dropHandle, State.upCmd_g]
        cases (u.g.setS a.toNat 0 false).fut d.toNat <;> rfl

/-- FPASS of a register that passes its checks comes to what the future of that register says. -/
theorem fpass_done {s t : State} {d a : BitVec 6} (h : ScalarReady s [] []) (hb : scoreboardHolds s [a.toNat] [d.toNat, a.toNat] = false)
    (hc : futCheck (scalarIssued s []) false a = none)
    (hf : fpassEffect d a (scalarIssued s []) ((scalarIssued s []).g.fut a.toNat) = .ok t) : exec (.fpass d a) s = .next t := by
  rw [fpass_word]
  refine handleWordOf_done h hb ?_
  rw [hc]
  exact hf

/-! ### FCANCEL -/

/-- R127, R184: what the request to stop does to a command that runs and is no KICK. -/
theorem stopCommand_running {s : State} {c : Nat} {k : Cmd} (hk : s.findCmd c = some k) (hn : k.kind ≠ .kick) (h1 : k.stage ≠ .issued)
    (h2 : k.stage ≠ .draining) (h3 : k.stage ≠ .stopping) :
    stopCommand s c = if k.kind = .dcor ∧ k.pr.flag = true then s.upCmd c (fun k => { k with stage := .stopping })
      else s.upCmd c (fun k => k.finish 2 0 k.value 0) := by
  unfold stopCommand
  rw [hk]
  dsimp only
  cases hst : k.stage with
  | issued => exact absurd hst h1
  | draining => exact absurd hst h2
  | stopping => exact absurd hst h3
  | queued => exact if_neg hn
  | after => exact if_neg hn
  | running => exact if_neg hn
  | extern => exact if_neg hn
  | followOn => exact if_neg hn

/-- R184: what FCANCEL does with the future of its handle register. -/
def fcancelEffect (s : State) : RegFut → SRes
  | .none => .trap (mkTrap cFUTURE)
  | .busy => .wait
  | .resolved .. => .ok s.advance
  | .pending c => .ok (stopCommand s c)

theorem fcancel_word (a : BitVec 6) (s : State) : exec (.fcancel a) s =
    handleWordOf [a.toNat] [a.toNat] (fun s => (futCheck s true a).elim (fcancelEffect s (s.g.fut a.toNat)) .trap) s := by
  show execFcancel a s = _
  refine congrArg (fun f => handleWordOf [a.toNat] [a.toNat] f s) (funext fun u => ?_)
  cases futCheck u true a with
  | some t => rfl
  | none => cases u.g.fut a.toNat <;> rfl

theorem fcancel_done {s t : State} {a : BitVec 6} (h : ScalarReady s [] []) (hb : scoreboardHolds s [a.toNat] [a.toNat] = false)
    (hc : futCheck (scalarIssued s []) true a = none)
    (hf : fcancelEffect (scalarIssued s []) ((scalarIssued s []).g.fut a.toNat) = .ok t) : exec (.fcancel a) s = .next t := by
  rw [fcancel_word]
  refine handleWordOf_done h hb ?_
  rw [hc]
  exact hf

/-! ### Ordinary words and handles -/

/-- R181: SADD of a register whose command has ended takes its completion word, and leaves that in the register with no handle. -/
theorem sadd_takes {s : State} {d a b : BitVec 6} {w : Word} {n x : Nat} (h : ScalarReady s [a.toNat, b.toNat] [d.toNat]) (hr : RegsOk s.g.r)
    (hf : s.g.fut a.toNat = .resolved w n x) (hab : a.toNat ≠ b.toNat) (hda : a.toNat ≠ d.toNat) :
    ∃ t, exec (.sadd d a b) s = .next t ∧ t.g.sval a.toNat = w ∧ t.g.stag a.toNat = false ∧ t.g.fut a.toNat = .none := by
  have ha : a.toNat ≠ 0 := by
    intro h0
    unfold Group.fut at hf
    rw [if_pos h0] at hf
    cases hf
  let g := (scalarMet s [a.toNat, b.toNat]).g
  have hg : RegsOk g.r := scalarMet_regsOk hr
  have hgf : g.fut a.toNat = .resolved w n x := (scalarMet_fut s _ _).trans hf
  have h1 : RegsOk (g.setS a.toNat w false).r := setS_ok _ _ _ _ hg
  have hs1 : (scalarIssued s [a.toNat, b.toNat]).g = (g.setS a.toNat w false).consume b.toNat := by
    show (g.consume a.toNat).consume b.toNat = _
    rw [consume_resolved hgf]
  have h2 : RegsOk ((g.setS a.toNat w false).consume b.toNat).r := consume_regsOk h1
  obtain ⟨hv, ht, hf2⟩ := consume_other (n := b.toNat) h1 hab
  refine ⟨_, aluRR_done _ h, ?_, ?_, ?_⟩
  · show (Group.setS _ _ _ _).sval _ = _
    rw [hs1, sval_setS_other _ _ _ _ _ h2 hda, hv, sval_setS_same _ _ _ _ hg ha]
  · show (Group.setS _ _ _ _).stag _ = _
    rw [hs1, stag_setS_other _ _ _ _ _ h2.2.1 hda, ht, stag_setS_same _ _ _ _ hg ha]
  · show (Group.setS _ _ _ _).fut _ = _
    rw [hs1, fut_setS_other _ _ _ _ _ h2.2.2.1 hda, hf2, fut_setS_same _ _ _ _ hg.2.2.1]

/-- Settles O25: each word through the checks on its handle register and the case of that register's future. -/
theorem futureWords : Obligations.FutureWords := by
  refine ⟨?_, ⟨?_, ?_, ?_⟩, ?_⟩
  · intro s d a hw s1 f tests passes
    have hw1 : swf RegFut.none s1.g.r.fut = true := scalarIssued_nil_swf hw
    refine ⟨fun ht hd => ⟨fun c hf => ?_, fun w n x hf => ?_, fun hf hs => ?_⟩, fun ht hd hl => ?_, fun hb => handleWordOf_held hb, ?_⟩
    · exact ftest_puts ht.1 ht.2 hd (.inl ⟨rfl, c, hf⟩)
    · exact ftest_puts ht.1 ht.2 hd (.inr (.inl ⟨rfl, w, n, x, hf⟩))
    · exact ftest_puts ht.1 ht.2 hd (.inr (.inr ⟨rfl, hf, hs⟩))
    · show execFtest d a s = _
      refine handleWordOf_trap ht.1.1.1 ht.2 ?_ hl
      rw [futCheck_det hd]
      rfl
    · rintro ⟨hr, hb, hd⟩
      refine ⟨fun w n x hf => ?_, fun c k hf hk hst => ?_, fun hf hs hl => ?_⟩
      · refine fpass_done hr hb (futCheck_none (.inl rfl) (.inl (by rw [show s1.g.fut a.toNat = _ from hf]; simp))) ?_
        rw [show s1.g.fut a.toNat = _ from hf]
        exact passEffect_passes hw1 hd
      · refine fpass_done hr hb (futCheck_none (.inl rfl) (.inl (by rw [show s1.g.fut a.toNat = _ from hf]; simp))) ?_
        rw [show s1.g.fut a.toNat = _ from hf]
        exact (fpassEffect_pending hk hst).trans (passEffect_passes hw1 hd)
      · unfold TrapsScalar
        rw [fpass_word]
        refine handleWordOf_trap hr.1.1 hb ?_ hl
        rw [futCheck_none (.inl rfl) (.inr hs), show s1.g.fut a.toNat = _ from hf]
        rfl
  · intro s d imm c h hl hf
    show execSli d imm s = _
    exact scalarWord_trap h (guardDst_pending ((scalarIssued_nil_fut s _).trans hf)) hl
  · intro s d a b i hi hbl
    have key : ∃ f, exec i s = aluRR f d a b s := by
      simp only [List.mem_cons, List.not_mem_nil, or_false] at hi
      obtain rfl | rfl | rfl | rfl := hi
      · exact ⟨fun a b => a + b, rfl⟩
      · exact ⟨fun a b => a - b, rfl⟩
      · exact ⟨fun a b => a * b, rfl⟩
      · exact ⟨fun a b => if a = b then 1 else 0, rfl⟩
    obtain ⟨f, hf⟩ := key
    rw [hf]
    rcases hbl with h | h
    · exact scalarWord_blocked (by simp) h
    · exact scalarWord_blocked (by simp) h
  · intro s d a b w n x h hr hf hab hda
    exact sadd_takes h hr hf (BitVec.toNat_ne.mp hab) (BitVec.toNat_ne.mp hda).symm
  · intro s a hr hb s1 f
    refine ⟨fun hd hl => ?_, fun hd => ⟨fun w n x hf => ?_, fun c k hf hk hn h1 h2 h3 => ?_, fun hf hs hl => ?_⟩⟩
    · unfold TrapsScalar
      rw [fcancel_word]
      refine handleWordOf_trap hr.1.1 hb ?_ hl
      rw [futCheck_det hd]
      rfl
    · refine fcancel_done hr hb (futCheck_none (.inr hd) (.inl (by rw [show s1.g.fut a.toNat = _ from hf]; simp))) ?_
      rw [show s1.g.fut a.toNat = _ from hf]
      rfl
    · refine fcancel_done hr hb (futCheck_none (.inr hd) (.inl (by rw [show s1.g.fut a.toNat = _ from hf]; simp))) ?_
      rw [show s1.g.fut a.toNat = _ from hf]
      exact congrArg SRes.ok (stopCommand_running hk hn h1 h2 h3)
    · unfold TrapsScalar
      rw [fcancel_word]
      refine handleWordOf_trap hr.1.1 hb ?_ hl
      rw [futCheck_none (.inr hd) (.inr hs), show s1.g.fut a.toNat = _ from hf]
      rfl

end Sys2Proof
end

section
/-! PROOFS. YLD, and END with its arrivals. -/

namespace Sys2Proof

open Machine

/-! ### The group that a yield goes to -/

/-- The member of two with the lesser wave index, the first where both have the same. -/
def lesserWave : Option Group → Group → Option Group
  | none, g => some g
  | some x, g => if waveIndex g.key < waveIndex x.key then some g else some x

theorem leastWave_eq (l : List Group) : leastWave l = l.foldl lesserWave none := by
  unfold leastWave
  refine congrArg (fun f => l.foldl f none) (funext fun b => funext fun g => ?_)
  cases b <;> rfl

/-- A group that comes below every other one of a list is what the choice among them ends with, as long as none met before is its equal. -/
theorem foldl_lesserWave {h : Group} : ∀ (l : List Group) (b : Option Group),
    (∀ g ∈ l, waveIndex h.key ≤ waveIndex g.key ∧ (waveIndex g.key ≠ waveIndex h.key ∨ g = h)) →
    (∀ x, b = some x → waveIndex h.key < waveIndex x.key ∨ x = h) → (h ∈ l ∨ b = some h) → l.foldl lesserWave b = some h := by
  intro l
  induction l with
  | nil =>
    intro b _ _ hm
    rcases hm with hm | hm
    · cases hm
    · exact hm
  | cons g t ih =>
    intro b hl hb hm
    obtain ⟨hg, hgt⟩ := List.forall_mem_cons.mp hl
    rw [List.foldl_cons]
    by_cases hgh : g = h
    · subst hgh
      have : lesserWave b g = some g := by
        cases b with
        | none => rfl
        | some x =>
          rcases hb x rfl with hx | hx
          · exact if_pos hx
          · rw [hx]
            exact if_neg (Nat.lt_irrefl _)
      exact ih _ hgt (fun x hx => .inr (by rw [this] at hx; exact (Option.some.inj hx).symm)) (.inr this)
    · have hlt : waveIndex h.key < waveIndex g.key := by
        rcases hg.2 with h1 | h1
        · omega
        · exact absurd h1 hgh
      refine ih _ hgt ?_ ?_
      · intro x hx
        cases b with
        | none => exact .inl (by rw [← Option.some.inj hx]; exact hlt)
        | some y =>
          have hx' : (if waveIndex g.key < waveIndex y.key then some g else some y) = some x := hx
          by_cases hgy : waveIndex g.key < waveIndex y.key
          · rw [if_pos hgy] at hx'
            exact .inl (by rw [← Option.some.inj hx']; exact hlt)
          · rw [if_neg hgy] at hx'
            rw [← Option.some.inj hx']
            exact hb y rfl
      · rcases hm with hm | hm
        · exact .inl ((List.mem_cons.mp hm).resolve_left (fun he => hgh he.symm))
        · refine .inr ?_
          rw [hm]
          exact if_neg (by omega)

theorem leastWave_least {l : List Group} {h : Group} (hm : h ∈ l)
    (hl : ∀ g ∈ l, waveIndex h.key ≤ waveIndex g.key ∧ (waveIndex g.key ≠ waveIndex h.key ∨ g = h)) : leastWave l = some h := by
  rw [leastWave_eq]
  exact foldl_lesserWave l none hl (fun x hx => by cases hx) (.inl hm)

/-- R179: the group that a yield goes to: the next above in the order of wave indices, or else the lowest. -/
def yieldTarget (s : State) : Option Group :=
  (leastWave ((coreMates s).filter (fun g => waveIndex g.key > waveIndex s.g.key))).or (leastWave (coreMates s))

theorem yld_word (s : State) : exec .yld s =
    scalarWord [] [] (fun s => if !s.g.det then .ok s.advance else .ok ((yieldTarget s).elim s.advance (yieldTo s.advance))) s := by
  show execYld s = _
  refine congrArg (fun f => scalarWord [] [] f s) (funext fun u => ?_)
  by_cases hd : (!u.g.det) = true
  · simp only [hd, if_true]
  · simp only [hd]
    unfold yieldTarget
    cases leastWave ((coreMates u).filter (fun g => waveIndex g.key > waveIndex u.g.key)) with
    | some g => rfl
    | none =>
      cases leastWave (coreMates u) with
      | some g => rfl
      | none => rfl

theorem yieldTarget_none {s : State} (h : coreMates s = []) : yieldTarget s = none := by
  unfold yieldTarget
  rw [h]
  rfl

/-- Where one mate stands alone at its wave index, next above the group, or lowest with none above, the yield goes to it. -/
theorem yieldTarget_some {s : State} {h : Group} (hm : h ∈ coreMates s)
    (hu : ∀ g ∈ coreMates s, waveIndex g.key ≠ waveIndex h.key ∨ g = h)
    (hw : (waveIndex s.g.key < waveIndex h.key ∧ ∀ g ∈ coreMates s, waveIndex s.g.key < waveIndex g.key → waveIndex h.key ≤ waveIndex g.key) ∨
      (∀ g ∈ coreMates s, waveIndex g.key ≤ waveIndex s.g.key ∧ waveIndex h.key ≤ waveIndex g.key)) : yieldTarget s = some h := by
  unfold yieldTarget
  rcases hw with ⟨hlt, hleast⟩ | hlow
  · rw [leastWave_least (h := h) (List.mem_filter.mpr ⟨hm, by simpa using hlt⟩)]
    · rfl
    · intro g hg
      obtain ⟨hg1, hg2⟩ := List.mem_filter.mp hg
      exact ⟨hleast g hg1 (by simpa using hg2), hu g hg1⟩
  · have habove : (coreMates s).filter (fun g => waveIndex g.key > waveIndex s.g.key) = [] := by
      rw [List.filter_eq_nil_iff]
      intro g hg
      have := (hlow g hg).1
      simpa using this
    rw [habove, leastWave_least hm (fun g hg => ⟨(hlow g hg).2, hu g hg⟩)]
    rfl

/-! ### The arrivals of END -/

@[simp] theorem goneAt_id (t : Task) (level : Nat) (k : GroupKey) : (goneAt t level k).id = t.id := rfl

/-- The state once the arrival of a level is made. -/
def arriveLevel (s : State) : State :=
  (s.upG (fun g => { g with endStep := g.endStep + 1 })).upTask s.g.key.task (fun t => goneAt t (s.g.endStep - 1) s.g.key)

theorem endArrivals_next {n : Nat} {s : State} (hl : s.g.endStep - 1 ≤ 4) (hr : releaseOk s s.g (barScope (s.g.endStep - 1)) = true) :
    endArrivals (n + 1) s = endArrivals n (arriveLevel s) :=
  if_pos (by simp [hl, hr])

theorem endArrivals_stop {n : Nat} {s : State} (h : ¬ (s.g.endStep - 1 ≤ 4 ∧ releaseOk s s.g (barScope (s.g.endStep - 1)) = true)) :
    endArrivals (n + 1) s = s :=
  if_neg (by simpa using h)

/-- The arrivals of END change how far it has come and the tasks; whether a release may perform does not depend on those. -/
theorem arriveLevel_releaseOk (s : State) (scope : Nat) : releaseOk (arriveLevel s) (arriveLevel s).g scope = releaseOk s s.g scope := rfl

/-- What the arrivals of END leave: those of the levels from l up to n are made, in order. -/
def Arrived (s u : State) (l n : Nat) : Prop :=
  u.g = { s.g with endStep := n + 1 } ∧ u.rest = s.rest ∧ u.mem = s.mem ∧
  u.tasks = s.tasks.map (fun t => if t.id = s.g.key.task then (List.range' l (n - l)).foldl (fun t l => goneAt t l s.g.key) t else t)

theorem arrived_refl {s : State} {l : Nat} (h : s.g.endStep = l + 1) : Arrived s s l l := by
  refine ⟨?_, rfl, rfl, ?_⟩
  · rw [← h]
  · rw [Nat.sub_self]
    simp

theorem arrived_step {s u : State} {l n : Nat} (h : s.g.endStep = l + 1) (hn : l + 1 ≤ n) (hu : Arrived (arriveLevel s) u (l + 1) n) :
    Arrived s u l n := by
  obtain ⟨hg, hrest, hmem, htasks⟩ := hu
  refine ⟨hg, hrest, hmem, htasks.trans ?_⟩
  have hl : s.g.endStep - 1 = l := by omega
  have hrange : List.range' l (n - l) = l :: List.range' (l + 1) (n - (l + 1)) := by
    rw [show n - l = (n - (l + 1)) + 1 by omega]
    rfl
  show (s.tasks.map _).map _ = _
  rw [List.map_map, hl, hrange]
  refine List.map_congr_left fun t _ => ?_
  by_cases ht : t.id = s.g.key.task
  · have hk : (arriveLevel s).g.key = s.g.key := rfl
    simp [ht, hk]
  · have hk : (arriveLevel s).g.key = s.g.key := rfl
    simp [ht, hk]

/-- R26, R30, R116: from level l on, END makes arrivals until the release of a level may not perform, or the five levels are done. -/
theorem endArrivals_spec : ∀ (f : Nat) (s : State) (l : Nat), s.g.endStep = l + 1 → l ≤ 5 → 5 ≤ l + f →
    ∃ n, l ≤ n ∧ n ≤ 5 ∧ (∀ i, l ≤ i → i < n → releaseOk s s.g (barScope i) = true) ∧
      (n < 5 → releaseOk s s.g (barScope n) = false) ∧ Arrived s (endArrivals f s) l n := by
  intro f
  induction f with
  | zero =>
    intro s l he hl hf
    exact ⟨l, Nat.le_refl l, hl, fun i h1 h2 => absurd h2 (by omega), fun h => absurd h (by omega), arrived_refl he⟩
  | succ f ih =>
    intro s l he hl hf
    have hlev : s.g.endStep - 1 = l := by omega
    by_cases hgo : l ≤ 4 ∧ releaseOk s s.g (barScope l) = true
    · rw [endArrivals_next (by omega) (by rw [hlev]; exact hgo.2)]
      obtain ⟨n, h1, h2, h3, h4, h5⟩ := ih (arriveLevel s) (l + 1) (by show s.g.endStep + 1 = _; omega) (by omega) (by omega)
      refine ⟨n, by omega, h2, fun i hi hin => ?_, fun h => ?_, arrived_step he h1 h5⟩
      · by_cases hil : i = l
        · rw [hil]
          exact hgo.2
        · rw [← arriveLevel_releaseOk]
          exact h3 i (by omega) hin
      · rw [← arriveLevel_releaseOk]
        exact h4 h
    · rw [endArrivals_stop (by rw [hlev]; exact hgo)]
      refine ⟨l, Nat.le_refl l, hl, fun i h1 h2 => absurd h2 (by omega), fun h => ?_, arrived_refl he⟩
      exact Bool.eq_false_iff.mpr fun hr => hgo ⟨by omega, hr⟩

/-! ### The release of the slot -/

theorem endReplay_links (s : State) (r : Replay) : (endReplay s r).links = s.links := by
  unfold endReplay
  cases r.cmd <;> cases r.slot <;> rfl

theorem checkReplay_links (s : State) (r : Nat) : (checkReplay s r).links = s.links := by
  unfold checkReplay
  split
  · rfl
  · split
    · exact endReplay_links ..
    · rfl

theorem checkTask_links (s : State) (t : Nat) : (checkTask s t).links = s.links := by
  unfold checkTask
  split
  · rfl
  · split
    · exact checkReplay_links ..
    · rfl

/-- R358: what the group had sent is covered by the release messages of its retirement. -/
theorem releaseSlot_sent {s : State} : ∀ x ∈ (releaseSlot s).links.sent, x.grp ≠ s.g.key := by
  have h : ∃ l : List _, (releaseSlot s).links.sent = l.filter (fun x => x.grp ≠ s.g.key) := by
    unfold releaseSlot
    dsimp only
    rw [checkTask_links]
    exact ⟨_, rfl⟩
  obtain ⟨l, hl⟩ := h
  intro x hx
  rw [hl] at hx
  simpa using (List.mem_filter.mp hx).2

/-! ### END -/

/-- R180: what END does, by how far its retirement has come. -/
def endEffect (s : State) : SRes :=
  if s.g.endStep = 0 then
    if s.g.ln.gl.isOpen then .trap (mkTrap cCAIRN)
    else if s.g.lanesDone && s.g.tokensDone then .ok (endArrivals 5 (s.upG (fun g => { g with endStep := 1 })))
    else .wait
  else if s.g.endStep ≤ 5 then .ok (endArrivals 5 s)
  else if drained s s.g && windowsFree s then .ok (releaseSlot s)
  else .wait

theorem endGroup_word (s : State) : exec .endGroup s = scalarWord [] [] endEffect s := rfl

theorem endEffect_arrives {s : State} (h5 : s.g.endStep ≤ 5)
    (h0 : s.g.endStep = 0 → s.g.ln.gl.isOpen = false ∧ s.g.lanesDone = true ∧ s.g.tokensDone = true) :
    ∃ u n, endEffect s = .ok u ∧ s.g.endStep - 1 ≤ n ∧ n ≤ 5 ∧
      (∀ l, s.g.endStep - 1 ≤ l → l < n → releaseOk s s.g (barScope l) = true) ∧ (n < 5 → releaseOk s s.g (barScope n) = false) ∧
      Arrived s u (s.g.endStep - 1) n := by
  unfold endEffect
  by_cases he : s.g.endStep = 0
  · obtain ⟨hopen, hlanes, htok⟩ := h0 he
    rw [if_pos he, if_neg (by rw [hopen]; decide), if_pos (by rw [hlanes, htok]; decide)]
    obtain ⟨n, h1, h2, h3, h4, h5⟩ := endArrivals_spec 5 (s.upG (fun g => { g with endStep := 1 })) 0 rfl (by omega) (by omega)
    rw [he]
    exact ⟨_, n, rfl, h1, h2, h3, h4, h5⟩
  · rw [if_neg he, if_pos h5]
    obtain ⟨n, h1, h2, h3, h4, h5⟩ := endArrivals_spec 5 s (s.g.endStep - 1) (by omega) (by omega) (by omega)
    exact ⟨_, n, rfl, h1, h2, h3, h4, h5⟩

/-- R135, R180: with its arrivals made, END waits until the group's accesses have performed, and then gives up the slot. -/
theorem endEffect_late {s : State} (h : 6 ≤ s.g.endStep) :
    endEffect s = if drained s s.g && windowsFree s then .ok (releaseSlot s) else .wait := by
  unfold endEffect
  rw [if_neg (by omega), if_neg (by omega)]

/-- Settles O19: YLD through the group that it goes to, END by how far it has come. -/
theorem yieldAndEnd : Obligations.YieldAndEnd := by
  refine ⟨?_, ?_⟩
  · intro s h s1 mates
    have hmates : coreMates s1 = mates := rfl
    refine ⟨fun hd => ?_, fun hd hm => ?_, fun hd g hg hu hw => ?_⟩ <;> rw [yld_word] <;> refine scalarWord_done h ?_
    · exact if_pos (by rw [show (scalarIssued s []).g.det = false from hd]; rfl)
    · refine (if_neg (by rw [show (scalarIssued s []).g.det = true from hd]; decide)).trans ?_
      rw [yieldTarget_none (hmates.trans hm)]
      rfl
    · refine (if_neg (by rw [show (scalarIssued s []).g.det = true from hd]; decide)).trans ?_
      rw [yieldTarget_some (s := scalarIssued s []) hg hu hw]
      rfl
  · intro s h s1 first
    refine ⟨fun h5 h0 => ?_, fun h0 hopen hdone => ?_, fun h6 => ⟨fun hd hw => ⟨?_, releaseSlot_sent⟩, fun hno => ?_⟩,
      fun h0 hopen => ⟨fun hl => ?_, fun hl => ?_⟩⟩
    · obtain ⟨u, n, hu, h1, h2, h3, h4, hg, hrest, hmem, htasks⟩ := endEffect_arrives (s := s1) h5 h0
      exact ⟨u, n, scalarWord_done h hu, h1, h2, h3, h4, hg, hrest, hmem, htasks⟩
    · rw [endGroup_word]
      refine scalarWord_wait h.1 ?_
      exact (if_pos h0).trans ((if_neg (by rw [hopen]; decide)).trans (if_neg (by rw [hdone]; decide)))
    · rw [endGroup_word]
      refine scalarWord_done h ?_
      exact (endEffect_late h6).trans (if_pos (by rw [hd, hw]; decide))
    · rw [endGroup_word]
      refine scalarWord_wait h.1 ?_
      exact (endEffect_late h6).trans (if_neg (by rw [hno]; decide))
    · unfold TrapsScalar
      rw [endGroup_word]
      exact scalarWord_trap h.1 ((if_pos h0).trans (if_pos hopen)) hl
    · rw [endGroup_word]
      exact scalarWord_meet h.1 ((if_pos h0).trans (if_pos hopen)) hl

end Sys2Proof
end

section
/-! PROOFS. Lane words without active lanes, and the checks of lane words at issue. -/

namespace Sys2Proof

open Machine

/-! ### Words that loop over lanes have no effect where no lane is active -/

/-- A lane word, as it runs while nothing of the lane stream waits, that has no effect where no lane is active (R33). -/
def Skips (op : Nat) (w : LWord) (x : State → Out) : Prop :=
  ∀ s, s.g.qs.pendL = none → ∃ f, x s = laneWord op w f s ∧ ∀ c u, actMask u.g c = 0 → f c u = .skip

theorem Skips.done {op : Nat} {w : LWord} {x : State → Out} (hx : Skips op w x) {s : State} (h : LaneIssues (namesOf op w) s)
    (ha : actMask (laneIssued (namesOf op w) s).g (ctxOf s) = 0) : x s = .next (laneDone (ctxOf s) (laneRead (namesOf op w) s)) := by
  obtain ⟨f, hf, hskip⟩ := hx s h.1
  rw [hf]
  exact (laneIssue_issues h f).trans (by rw [hskip _ _ ha]; rfl)

section
variable {op ty r n : Nat} {w : LWord} {marked draws sp : Bool} {c : LCtx} {s : State} {srcs tests : Nat → List Src}

theorem elementWord_skip {f : Nat → Option Rounded} (h : actMask s.g c = 0) : elementWord w ty srcs marked draws f c s = .skip := by
  unfold elementWord
  exact laneLoop_skip h

theorem crossWord_skip {f : Nat → Option Rounded} (h : actMask s.g c = 0) : crossWord w ty srcs marked draws f c s = .skip := by
  unfold crossWord
  exact laneLoop_skip h

theorem predWord_skip {tagOf : Nat → Bool} {f : Nat → Bool × Flags} (h : actMask s.g c = 0) : predWord w srcs tagOf f c s = .skip := by
  unfold predWord
  exact if_pos h

theorem memoryWord_skip {acc : Acc} {z : Nat} {k : List (Nat × Target) → LRes} (h : actMask s.g c = 0) :
    memoryWord w sp acc z srcs k c s = .skip := by
  unfold memoryWord
  exact if_pos h

/-- A word of the general layout with an effect that skips. -/
theorem laneWord_skips {f : LCtx → State → LRes} (h : ∀ c u, actMask u.g c = 0 → f c u = .skip) : Skips op w (laneWord op w f) :=
  fun _ _ => ⟨f, rfl, h⟩

/-- A word that waits for what it reads runs its first issue while nothing waits. -/
theorem waitingWord_skips {i : Instr} {k : LCtx → Pend → State → LRes} {f : LCtx → State → LRes}
    (h : ∀ c u, actMask u.g c = 0 → f c u = .skip) : Skips op w (waitingWord i k (laneWord op w f)) := by
  intro s hp
  refine ⟨f, ?_, h⟩
  unfold waitingWord
  rw [hp]

theorem intWord_skips (f : Int → Int → Int) : Skips op w (intWord op w f) := laneWord_skips fun _ _ => elementWord_skip
theorem codeWord_skips (f : Nat → Nat → Nat → Nat) : Skips op w (codeWord op w f) := laneWord_skips fun _ _ => elementWord_skip
theorem floatWord_skips (f : Bool → Val → Val → Val × Flags) : Skips op w (floatWord op w f) := laneWord_skips fun _ _ => elementWord_skip
theorem pickWord_skips {b : Bool} : Skips op w (pickWord op b w) := laneWord_skips fun _ _ => elementWord_skip
theorem funWord_skips (f : RFun) : Skips op w (funWord op f w) := laneWord_skips fun _ _ => elementWord_skip
theorem loadWord_skips {i : Instr} : Skips op w (loadWord op sp i w) := waitingWord_skips fun _ _ => memoryWord_skip
theorem storeWord_skips : Skips op w (storeWord op sp w) := laneWord_skips fun _ _ => memoryWord_skip

end

/-- The integer words that loop over lanes, with their opcodes (R220 to R222). -/
def integerWords (w : LWord) : List (Nat × Instr) :=
  [(0x01, .vadd w), (0x02, .vsub w), (0x03, .vmul w), (0x04, .vmulh w), (0x05, .vmad w), (0x06, .vand w), (0x07, .vor w),
    (0x08, .vxor w), (0x09, .vshl w), (0x0A, .vshr w), (0x0B, .vsra w), (0x0C, .vmin w), (0x0D, .vmax w), (0x0E, .vcmp w),
    (0x0F, .vsel w), (0x10, .vmovi w)]

theorem integerWords_skip (w : LWord) : ∀ p ∈ integerWords w, Skips p.1 w (exec p.2) := by
  unfold integerWords
  simp only [List.forall_mem_cons]
  refine ⟨?_, ?_, ?_, ?_, ?_, ?_, ?_, ?_, ?_, ?_, ?_, ?_, ?_, ?_, ?_, ?_, nofun⟩
  · exact show Skips _ w (execVadd w) from intWord_skips (fun a b => a + b)
  · exact show Skips _ w (execVsub w) from intWord_skips (fun a b => a - b)
  · exact show Skips _ w (execVmul w) from intWord_skips (fun a b => a * b)
  · exact show Skips _ w (execVmulh w) from intWord_skips (fun a b => (a * b).fdiv (2 ^ tyWidth w.ty.toNat))
  · exact show Skips _ w (execVmad w) from laneWord_skips fun _ _ => elementWord_skip
  · exact show Skips _ w (execVand w) from codeWord_skips (fun _ a b => a &&& b)
  · exact show Skips _ w (execVor w) from codeWord_skips (fun _ a b => a ||| b)
  · exact show Skips _ w (execVxor w) from codeWord_skips (fun _ a b => a ^^^ b)
  · exact show Skips _ w (execVshl w) from codeWord_skips shlCode
  · exact show Skips _ w (execVshr w) from codeWord_skips shrCode
  · exact show Skips _ w (execVsra w) from codeWord_skips sraCode
  · exact show Skips _ w (execVmin w) from intWord_skips min
  · exact show Skips _ w (execVmax w) from intWord_skips max
  · exact show Skips _ w (execVcmp w) from laneWord_skips fun _ _ => predWord_skip
  · exact show Skips _ w (execVsel w) from laneWord_skips fun _ _ => elementWord_skip
  · exact show Skips _ w (execVmovi w) from laneWord_skips fun _ _ => elementWord_skip

/-- The floating-point words (R224 to R227). -/
def floatWords (w : LWord) : List (Nat × Instr) :=
  [(0x11, .fadd w), (0x12, .fsub w), (0x13, .fmul w), (0x14, .ffma w), (0x15, .fmin w), (0x16, .fmax w), (0x17, .fcmp w),
    (0x18, .frcp w), (0x19, .frsq w), (0x1A, .fsqrt w), (0x1B, .fexp2 w), (0x1C, .flog2 w)]

theorem floatWords_skip (w : LWord) : ∀ p ∈ floatWords w, Skips p.1 w (exec p.2) := by
  unfold floatWords
  simp only [List.forall_mem_cons]
  refine ⟨?_, ?_, ?_, ?_, ?_, ?_, ?_, ?_, ?_, ?_, ?_, ?_, nofun⟩
  · exact show Skips _ w (execFadd w) from floatWord_skips addV
  · exact show Skips _ w (execFsub w) from floatWord_skips (fun d a b => addV d a (negV b))
  · exact show Skips _ w (execFmul w) from floatWord_skips (fun _ a b => mulV a b)
  · exact show Skips _ w (execFfma w) from laneWord_skips fun _ _ => elementWord_skip
  · exact show Skips _ w (execFmin w) from pickWord_skips
  · exact show Skips _ w (execFmax w) from pickWord_skips
  · exact show Skips _ w (execFcmp w) from laneWord_skips fun _ _ => predWord_skip
  · exact show Skips _ w (execFrcp w) from funWord_skips .rcp
  · exact show Skips _ w (execFrsq w) from funWord_skips .rsq
  · exact show Skips _ w (execFsqrt w) from funWord_skips .sqrt
  · exact show Skips _ w (execFexp2 w) from funWord_skips .exp2
  · exact show Skips _ w (execFlog2 w) from funWord_skips .log2

/-- Conversions, draws and cross-lane words (R228 to R241). -/
def exchangeWords (w : LWord) : List (Nat × Instr) :=
  [(0x1D, .vcvt w), (0x1E, .vqnt w), (0x1F, .vdq w), (0x20, .vhad w), (0x21, .vrng w), (0x22, .vshf w), (0x24, .vscan w),
    (0x25, .vbal w)]

theorem exchangeWords_skip (w : LWord) : ∀ p ∈ exchangeWords w, Skips p.1 w (exec p.2) := by
  unfold exchangeWords
  simp only [List.forall_mem_cons]
  refine ⟨?_, ?_, ?_, ?_, ?_, ?_, ?_, ?_, nofun⟩
  · exact show Skips _ w (execVcvt w) from laneWord_skips fun _ _ => elementWord_skip
  · exact show Skips _ w (execVqnt w) from laneWord_skips fun _ _ => laneLoop_skip
  · exact show Skips _ w (execVdq w) from laneWord_skips fun _ _ => elementWord_skip
  · exact show Skips _ w (execVhad w) from laneWord_skips fun _ _ => elementWord_skip
  · exact show Skips _ w (execVrng w) from laneWord_skips fun _ _ => elementWord_skip
  · exact show Skips _ w (execVshf w) from laneWord_skips fun _ _ => crossWord_skip
  · exact show Skips _ w (execVscan w) from laneWord_skips fun _ _ => crossWord_skip
  · exact show Skips _ w (execVbal w) from laneWord_skips fun _ _ => crossWord_skip

/-- Memory words, tags, accumulators, applying and YIELD. -/
def effectWords (w : LWord) : List (Nat × Instr) :=
  [(0x27, .vld w), (0x28, .vst w), (0x29, .vlds w), (0x2A, .vsts w), (0x2B, .vatom w), (0x2C, .vrds w), (0x30, .vprop w),
    (0x31, .vtag w), (0x32, .dacc w), (0x33, .dsum w), (0x34, .dapply w), (0x3D, .yield w)]

theorem effectWords_skip (w : LWord) : ∀ p ∈ effectWords w, Skips p.1 w (exec p.2) := by
  unfold effectWords
  simp only [List.forall_mem_cons]
  refine ⟨?_, ?_, ?_, ?_, ?_, ?_, ?_, ?_, ?_, ?_, ?_, ?_, nofun⟩
  · exact show Skips _ w (execVld w) from loadWord_skips
  · exact show Skips _ w (execVst w) from storeWord_skips
  · exact show Skips _ w (execVlds w) from loadWord_skips
  · exact show Skips _ w (execVsts w) from storeWord_skips
  · exact show Skips _ w (execVatom w) from waitingWord_skips fun _ _ => memoryWord_skip
  · exact show Skips _ w (execVrds w) from laneWord_skips fun _ _ => memoryWord_skip
  · exact show Skips _ w (execVprop w) from laneWord_skips fun _ _ => laneLoop_skip
  · exact show Skips _ w (execVtag w) from laneWord_skips fun _ _ h => if_pos h
  · exact show Skips _ w (execDacc w) from laneWord_skips fun _ _ h => if_pos h
  · exact show Skips _ w (execDsum w) from laneWord_skips fun _ _ h => if_pos h
  · exact show Skips _ w (execDapply w) from waitingWord_skips fun _ _ h => if_pos h
  · exact show Skips _ w (execYield w) from laneWord_skips fun _ _ h => if_pos h

theorem loopWords_skip (w : LWord) :
    ∀ p ∈ integerWords w ++ (floatWords w ++ (exchangeWords w ++ effectWords w)), Skips p.1 w (exec p.2) :=
  List.forall_mem_append.mpr ⟨integerWords_skip w, List.forall_mem_append.mpr ⟨floatWords_skip w,
    List.forall_mem_append.mpr ⟨exchangeWords_skip w, effectWords_skip w⟩⟩⟩

/-! ### VRED and VXTS without active lanes -/

theorem toScalar_idle {w : LWord} {srcs : Nat → List Src} {marked draws : Bool} {idle : Word} {value : List Nat → Word × Flags} {c : LCtx}
    {s : State} (ha : actMask s.g c = 0) (ht : lateToken s.g w.wt = none) (hb : s.g.blocked w.vd.toNat = false) :
    toScalar w srcs marked idle value draws c s = .ok (s.upG (fun g => g.setS w.vd.toNat idle false)) := by
  unfold toScalar
  refine (if_pos ha).trans ?_
  rw [withTokens_none ht, scalarDst_free hb]
  rfl

/-! ### The checks at issue -/

theorem tokensBusy_of {g : Group} {wt : BitVec 8} {t : Nat} (ht : t < 8) (hw : wt.getLsbD t = true) (hc : (g.tok t).count ≠ 0) :
    tokensBusy g wt = true := by
  unfold tokensBusy
  rw [List.any_eq_true]
  exact ⟨t, List.mem_range.mpr ht, by simp [hw, hc]⟩

/-- R194: the lowest token that a word names and whose status is FAULT is the one that it raises. -/
theorem lateToken_lowest {g : Group} {wt : BitVec 8} {t : Nat} (ht : t < 8) (hw : wt.getLsbD t = true) (hs : (g.tok t).status = 2)
    (hl : ∀ u < t, ¬ (wt.getLsbD u = true ∧ (g.tok u).status = 2)) : lateToken g wt = some (mkTrap cTOKEN (g.tok t).faddr) := by
  have hf : (List.range 8).find? (fun i => wt.getLsbD i && (g.tok i).status = 2) = some t := by
    rw [List.find?_range_eq_some]
    refine ⟨by simp [hw, hs], List.mem_range.mpr ht, fun u hu => ?_⟩
    refine (Bool.not_eq_true' _).mpr (Bool.eq_false_iff.mpr fun hp => hl u hu ?_)
    obtain ⟨h1, h2⟩ := Bool.and_eq_true_iff.mp hp
    exact ⟨h1, of_decide_eq_true h2⟩
  unfold lateToken
  rw [hf]
  rfl

theorem accWaiting_none {g : Group} (h : g.qs.pendS = none) : g.accWaiting = false := by
  unfold Group.accWaiting
  rw [h]
  rfl

section
variable {op : Nat} {w : LWord} {f : LCtx → State → LRes} {s : State}

theorem laneWord_busy (h : tokensBusy s.g w.wt = true) : laneWord op w f s = .next s := by
  unfold laneWord laneIssue
  exact if_pos (by rw [show (namesOf op w).wt = w.wt from rfl, h, Bool.or_true])

/-- R10, R14: a word that fails its checks of class 1 is ILLEGAL. -/
theorem laneWord_illegal (hp : s.g.qs.pendL = none) (hs : s.g.qs.pendS = none) (ht : tokensBusy s.g w.wt = false)
    (ho : issueOk (laneBegun s).g (ctxOf s) op (laneRegs op w) (laneTiles op w) = false) :
    laneWord op w f s =
      .next (takeTrap (laneBegun s) (mkTrap cILLEGAL) ⟨true, (ctxOf s).slot, (ctxOf s).idx, 0, (ctxOf s).cap.rgn⟩ s.g.pc) := by
  unfold laneWord laneIssue
  refine (if_neg (by rw [show (namesOf op w).wt = w.wt from rfl, hp, ht]; decide)).trans ?_
  refine (if_pos (Bool.not_eq_true' _ |>.mpr ho)).trans ?_
  have ha : (s.upG Group.startRun).g.accWaiting = false := accWaiting_none hs
  exact congrArg Host.Outcome.next (if_neg (by rw [ha]; decide))

theorem laneRead_keeps (n : LaneNames) (s : State) : (laneRead n s).g.qs = s.g.qs ∧ (laneRead n s).g.pc = s.g.pc := by
  obtain ⟨e, q, h⟩ := touchRegs_shape (laneBegun s) (readsElem n (laneBegun s).g (ctxOf s))
  unfold laneRead
  rw [h]
  exact ⟨rfl, rfl⟩

/-- A lane word that issues and raises a trap takes it at once where no scalar access waits. -/
theorem laneWord_trap {t : Trap} {lane : Nat} (h : LaneIssues (namesOf op w) s) (hs : s.g.qs.pendS = none)
    (hf : f (ctxOf s) (laneIssued (namesOf op w) s) = .trap t lane) :
    laneWord op w f s =
      .next (takeTrap (laneRead (namesOf op w) s) t ⟨true, (ctxOf s).slot, (ctxOf s).idx, lane, (ctxOf s).cap.rgn⟩ s.g.pc) := by
  refine (laneIssue_issues h f).trans ?_
  rw [hf]
  obtain ⟨hq, hpc⟩ := laneRead_keeps (namesOf op w) s
  have ha : (laneRead (namesOf op w) s).g.accWaiting = false := accWaiting_none (by rw [hq]; exact hs)
  show Host.Outcome.next (laneTrap _ _ _ _ _) = _
  unfold laneTrap
  rw [if_neg (by rw [ha]; decide), hpc]

end

/-- A word of the general layout, whatever its effect. -/
def LaneShaped (op : Nat) (w : LWord) (x : State → Out) : Prop := ∃ f, x = laneWord op w f

theorem laneWord_shaped {op : Nat} {w : LWord} {f : LCtx → State → LRes} : LaneShaped op w (laneWord op w f) := ⟨f, rfl⟩

theorem intWord_shaped {op : Nat} {w : LWord} (f : Int → Int → Int) : LaneShaped op w (intWord op w f) := laneWord_shaped

theorem floatWord_shaped {op : Nat} {w : LWord} (f : Bool → Val → Val → Val × Flags) : LaneShaped op w (floatWord op w f) :=
  laneWord_shaped

/-- The four words for which the checks are stated. -/
theorem checkedWords_shaped (w : LWord) :
    ∀ p ∈ [(0x01, Instr.vadd w), (0x11, .fadd w), (0x2E, .lend w), (0x36, .mzero w)], LaneShaped p.1 w (exec p.2) := by
  simp only [List.forall_mem_cons]
  refine ⟨?_, ?_, ?_, ?_, nofun⟩
  · exact show LaneShaped _ w (execVadd w) from intWord_shaped (fun a b => a + b)
  · exact show LaneShaped _ w (execFadd w) from floatWord_shaped addV
  · exact show LaneShaped _ w (execLend w) from laneWord_shaped
  · exact show LaneShaped _ w (execMzero w) from laneWord_shaped

/-- R194: LEND begins with its tokens. -/
theorem lend_token {w : LWord} {s : State} {t : Trap} (h : LaneIssues (namesOf 0x2E w) s) (hs : s.g.qs.pendS = none)
    (ht : lateToken s.g w.wt = some t) :
    exec (.lend w) s =
      .next (takeTrap (laneRead (namesOf 0x2E w) s) t ⟨true, (ctxOf s).slot, (ctxOf s).idx, 0, (ctxOf s).cap.rgn⟩ s.g.pc) := by
  show execLend w s = _
  refine laneWord_trap h hs ?_
  unfold withTokens
  rw [lateToken_laneIssued, ht]

/-- Settles O35: the words that loop over lanes by their shared shapes, the checks at issue by those of every lane word. -/
theorem laneSkipsAndChecks : Obligations.LaneSkipsAndChecks := by
  refine ⟨⟨?_, ?_⟩, ?_⟩
  · intro w s op i hi h ha
    exact (loopWords_skip w (op, i) hi).done h ha
  · intro w s op i idle hi s1 h ha hb
    simp only [List.mem_cons, List.not_mem_nil, or_false, Prod.mk.injEq] at hi
    obtain ⟨rfl, rfl, rfl⟩ | ⟨rfl, rfl, rfl⟩ := hi
    · show execVred w s = _
      exact laneWord_ok h (toScalar_idle ha (by rw [lateToken_laneIssued]; exact h.2) hb)
    · show execVxts w s = _
      exact laneWord_ok h (toScalar_idle ha (by rw [lateToken_laneIssued]; exact h.2) hb)
  · intro w s op i hi c trap
    obtain ⟨f, hf⟩ := checkedWords_shaped w (op, i) hi
    refine ⟨fun t ht hw hc => ?_, fun hp hs ht ho => ?_, fun t hop h hs ht hw hst hl => ?_⟩
    · exact (congrFun hf s).trans (laneWord_busy (tokensBusy_of ht hw hc))
    · exact (congrFun hf s).trans (laneWord_illegal hp hs ht ho)
    · subst hop
      have hi' : i = .lend w := by simpa using hi
      subst hi'
      exact lend_token h hs (lateToken_lowest ht hw hst hl)

end Sys2Proof
end

section
/-! PROOFS. Streams that go on past an access. -/

namespace Sys2Proof

open Machine

/-! ### The scalar stream goes on past its access -/

/-- An access of a stream is marked once the stream has gone past it. -/
def markedLate (lw : Bool) (dst : Entry → Option LateDst) (e : Entry) : Entry :=
  if e.kind.isRead && e.lw = lw && e.late.isNone then { e with late := dst e } else e

theorem markLate_iq (s : State) (lw : Bool) (dst : Entry → Option LateDst) :
    (markLate s lw dst).g.qs.iq = s.g.qs.iq.map (markedLate lw dst) := rfl

theorem markedLate_access (lw : Bool) (dst : Entry → Option LateDst) (e : Entry) :
    ((markedLate lw dst e).kind, (markedLate lw dst e).addr, (markedLate lw dst e).size) = (e.kind, e.addr, e.size) := by
  unfold markedLate
  split <;> rfl

/-- No read of the stream is left without a mark. -/
theorem markedLate_isSome {lw : Bool} {d : LateDst} {e : Entry} (hk : (markedLate lw (fun _ => some d) e).kind.isRead = true)
    (hl : (markedLate lw (fun _ => some d) e).lw = lw) : (markedLate lw (fun _ => some d) e).late.isSome = true := by
  unfold markedLate at hk hl ⊢
  by_cases hc : (e.kind.isRead && e.lw = lw && e.late.isNone) = true
  · rw [if_pos hc]
    rfl
  · rw [if_neg hc] at hk hl ⊢
    simpa [hk, hl, Option.isSome_iff_ne_none] using hc

/-- A scalar stream that goes on past its access: the word is behind it, its register busy, its accesses marked. -/
def passScalar (s : State) (n : Nat) (d : LateDst) : State :=
  (markLate s false (fun _ => some d)).upG (fun g => (g.noPendS.setFut n .busy).setPc ((g.noPendS.setFut n .busy).pc + 4))

theorem passScalar_qs (s : State) (n : Nat) (d : LateDst) :
    (passScalar s n d).g.qs = { s.g.qs with pendS := none, iq := s.g.qs.iq.map (markedLate false (fun _ => some d)) } :=
  Group.setFut_qs _ _ _

theorem any_fails_false {s : State} {lw : Bool} (h : ∀ e ∈ awaited s lw, failsNow s e = false) : (awaited s lw).any (failsNow s) = false := by
  rw [List.any_eq_false]
  intro e he
  rw [h e he]
  decide

theorem goAhead_passes {s : State} {p : Pend} {n : Nat} {d : LateDst} (hi : canIssue s = true) (hp : s.g.qs.pendS = some p)
    (hd : aheadDst s.g p.w = some (n, d)) (hg : p.got = []) (hf : ∀ e ∈ awaited s false, failsNow s e = false) :
    goAhead s false = passScalar s n d := by
  unfold goAhead aheadScalar
  rw [hi, hp]
  simp only [Bool.not_true, Bool.false_eq_true, if_false, hd, hg, List.isEmpty_nil, any_fails_false hf, Bool.or_self]
  rfl

/-- The register of an access that the stream may go past: that of a load, an atomic that returns or an SLTAG. -/
theorem aheadDst_named {g : Group} {i : Instr} {d a : BitVec 6} {k : BitVec 14} {sp : BitVec 1} {opn typ : BitVec 3}
    (h : i ∈ [Instr.sldw d a k, .sldd d a k, .satom d a b sp opn 1 typ, .sltagMem d a, .sltagSp d a]) :
    ∃ x, aheadDst g i = some (d.toNat, x) := by
  simp only [List.mem_cons, List.not_mem_nil, or_false] at h
  obtain rfl | rfl | rfl | rfl | rfl := h
  · exact ⟨.sreg d.toNat (g.stag a.toNat), rfl⟩
  · exact ⟨.sreg d.toNat (g.stag a.toNat), rfl⟩
  · exact ⟨.sreg d.toNat (g.stag a.toNat), rfl⟩
  · exact ⟨.mark d.toNat, rfl⟩
  · exact ⟨.mark d.toNat, rfl⟩

/-- R331: a stream stays at an access that would trap if it were performed now. -/
theorem goAhead_stays {s : State} {lane : Bool} {p : Pend} (hp : (if lane then s.g.qs.pendL else s.g.qs.pendS) = some p)
    (hf : ∃ e ∈ awaited s lane, failsNow s e = true) : goAhead s lane = s := by
  have hany : (awaited s lane).any (failsNow s) = true := List.any_eq_true.mpr hf
  unfold goAhead
  split
  · rfl
  · cases lane with
    | true =>
      have hp' : s.g.qs.pendL = some p := hp
      show aheadLane s = s
      unfold aheadLane
      rw [hp']
      exact if_pos (by rw [hany, Bool.or_true])
    | false =>
      have hp' : s.g.qs.pendS = some p := hp
      show aheadScalar s = s
      unfold aheadScalar
      rw [hp']
      dsimp only
      cases aheadDst s.g p.w with
      | none => rfl
      | some x => exact if_pos (by rw [hany, Bool.or_true])

/-! ### The access gives its value when it performs -/

/-- A register that takes what a late access returns holds it, with no handle, and nothing else changes. -/
theorem lateReg_written {g : Group} {n : Nat} (v : Word) (t : Bool) (h : RegsOk g.r) (hn : n ≠ 0) :
    let x := (g.setFut n .none).setS n v t
    x.sval n = v ∧ x.stag n = t ∧ x.fut n = .none ∧ x.pc = g.pc ∧ x.qs = g.qs ∧
      ∀ m, m ≠ n → x.sval m = g.sval m ∧ x.stag m = g.stag m ∧ x.fut m = g.fut m := by
  have h1 : RegsOk (g.setFut n .none).r := setFut_ok g n _ h
  refine ⟨sval_setS_same _ _ _ _ h1 hn, stag_setS_same _ _ _ _ h1 hn, fut_setS_same _ _ _ _ h1.2.2.1, by simp, by simp, fun m hm => ⟨?_, ?_, ?_⟩⟩
  · rw [sval_setS_other _ _ _ _ _ h1 hm, sval_setFut]
  · rw [stag_setS_other _ _ _ _ _ h1.2.1 hm, stag_setFut]
  · rw [fut_setS_other _ _ _ _ _ h1.2.2.1 hm, fut_setFut_other _ _ _ _ h.2.2.1 hm]

theorem answer_late {g : Group} {e : Entry} {r : LaneRes} {d : LateDst} (h : e.late = some d) : g.answer e r = g.putLate e d r := by
  unfold Group.answer
  rw [h]

/-- R168: a load of 4 bytes is sign-extended. -/
theorem scalarVal_load {e : Entry} (h : e.kind = .load) (v : Word) :
    e.scalarVal v = if e.size = 4 then BitVec.ofInt 64 (v.setWidth 32).toInt else v := by
  unfold Entry.scalarVal
  by_cases h4 : e.size = 4
  · rw [if_pos (by simp [h, h4]), if_pos h4]
    rfl
  · rw [if_neg (by simp [h, h4]), if_neg h4]

/-! ### A lane word waits for a register that is late -/

theorem laneWord_late {op : Nat} {w : LWord} {f : LCtx → State → LRes} {s : State} (hp : s.g.qs.pendL = none)
    (ht : tokensBusy s.g w.wt = false) (ho : issueOk (laneBegun s).g (ctxOf s) op (laneRegs op w) (laneTiles op w) = true)
    (hl : lateHit (namesOf op w) s.g (ctxOf s) = true) : laneWord op w f s = .next s := by
  have hh : laneHeld (namesOf op w) (ctxOf s) s = true := by
    unfold laneHeld
    rw [hl, Bool.or_true, Bool.true_or]
  unfold laneWord laneIssue
  refine (if_neg (by rw [show (namesOf op w).wt = w.wt from rfl, hp, ht]; decide)).trans ?_
  refine (if_neg ?_).trans (if_pos hh)
  rw [Bool.not_eq_true', Bool.not_eq_false]
  exact ho

/-- The five words for which the wait is stated are among those that loop over lanes. -/
theorem waits_of_general {i : Instr} {op : Nat} {w : LWord} (hg : i.general = some (op, w))
    (hi : i ∈ [Instr.vadd w, .vmul w, .fadd w, .vst w, .vld w]) :
    (op, i) ∈ integerWords w ++ (floatWords w ++ (exchangeWords w ++ effectWords w)) := by
  simp only [List.mem_cons, List.not_mem_nil, or_false] at hi
  obtain rfl | rfl | rfl | rfl | rfl := hi <;>
    obtain ⟨rfl, -⟩ := Prod.mk.inj (Option.some.inj hg) <;>
    simp [integerWords, floatWords, exchangeWords, effectWords]

/-! ### The end of a step -/

/-- R331: where a late access would trap after a step, it is performed before it, and the turn of the step comes next. -/
theorem finish_lastChance {s t u : State} {own : Option Nat} {turn : Turn} {key : GroupKey} {k : Nat}
    (ha : allBankGate s own turn (.next (pace s turn t)) = .next u) (hl : lastChance s (endStopped (fireFocus u)) = some (key, k)) :
    finish s own turn (.next t) = .next { flushLinks (leaveRead s key k) with turns := turn :: s.turns, seen := [], hold := false } := by
  unfold finish
  dsimp only
  rw [ha]
  dsimp only
  rw [hl]

/-- Settles O10: the turn that goes ahead, what it does and leaves, and what a late access writes. -/
theorem streamsGoAhead : Obligations.StreamsGoAhead := by
  refine ⟨?_, ?_, ?_, ?_, ?_, ?_, ?_⟩
  · intro s lane hp ht
    rw [step_powered hp, ht]
    rfl
  · intro s d a b k sp opn typ p hr hi hp hw hg hf t
    obtain ⟨x, hx⟩ := aheadDst_named (g := s.g) hw
    have ht : t = passScalar s d.toNat x := goAhead_passes hi hp hx hg hf
    rw [ht]
    refine ⟨?_, ?_, fun hd => ?_, fun n hn => ?_, fun n => ⟨?_, ?_⟩, rfl, ?_, ?_, fun y => rfl⟩
    · exact congrArg (· + 4) (Group.setFut_pc _ _ _)
    · rw [passScalar_qs]
    · exact fut_setFut_same _ _ _ hr.2.2.1 (fun h0 => hd (BitVec.eq_of_toNat_eq h0))
    · exact fut_setFut_other _ _ _ _ hr.2.2.1 hn
    · exact sval_setFut _ _ _ _
    · exact stag_setFut _ _ _ _
    · rw [passScalar_qs]
      exact List.map_map.trans (List.map_congr_left fun e _ => markedLate_access _ _ e)
    · intro e he hk hl
      rw [passScalar_qs] at he
      obtain ⟨e0, -, rfl⟩ := List.mem_map.mp he
      exact markedLate_isSome hk hl
  · intro s p lane hp hf
    exact goAhead_stays hp hf
  · intro g e r n t hr hn hl hk h
    have hh : h = (g.setFut n .none).setS n (e.scalarVal r.val) (r.prop || t) := answer_late hl
    rw [hh, ← scalarVal_load hk]
    exact lateReg_written _ _ hr hn
  · intro g e r n hr hn hl h
    have hh : h = (g.setFut n .none).setS n ((if r.prop then 1 else 0) + (if r.poison then 2 else 0)) false := answer_late hl
    rw [hh]
    exact lateReg_written _ _ hr hn
  · intro s i op w hg hi hp ht ho hl
    obtain ⟨f, hf, -⟩ := loopWords_skip w (op, i) (waits_of_general hg hi) s hp
    exact hf.trans (laneWord_late hp ht ho hl)
  · intro s t u own turn key k ha hl
    exact finish_lastChance ha hl

end Sys2Proof
end

section
/-! PROOFS. LBR: a byte outside the spilled entry that changes. -/

namespace Sys2Proof

open Machine

/-- A stack entry without a displaced path. -/
def plainDiv : DivEntry := ⟨0, 0, false, false, false, 0, 0⟩

/-- A write of two bytes to one place, which has arrived at its home and is not performed yet. -/
def doubledWrite : Write := ⟨GroupKey.zero, 0, .r, 0, [(0x100, 1), (0x100, 2)], false, false, none⟩

/-- A group with a full stack, whose bivouac area is mapped to the start of DRAM by a cached translation, and that write at home. -/
def spillState : State :=
  { State.reset with
    g := { Group.idle with ln := { LaneCtl.empty with stack := List.replicate 16 plainDiv } }
    tlb := [⟨false, 0, 0, 0, 0, 1, 8⟩]
    homeQ := [doubledWrite] }

theorem spillState_storesOk : StoresOk spillState := ⟨rfl, rfl, rfl, rfl⟩

/-- The bottom entry goes to the place 0. -/
theorem spillState_place : ownPlace spillState spillState.g .store (spillState.g.sp.bivbase + BitVec.ofNat 64 (16 * spillState.g.ln.biv)) =
    some ⟨0, .s, 0, false, 1, 8⟩ := by decide +kernel

/-- A read at home finds the first byte that the write lists for the place. -/
theorem spillState_before : homeByte spillState 0x100 = 1 := by decide +kernel

/-- The spill performs the write, whose last byte stays. -/
theorem spillState_after : homeByte (spillDiv spillState) 0x100 = 2 := by decide +kernel

/-- Refutes O38: the spill of a full stack first performs the writes that have arrived at home. Where such a write lists a place twice, a read
of the place finds the first of the two bytes before and the last of them after, though the place lies outside the spilled entry. -/
theorem not_laneBranches : ¬ Obligations.LaneBranches := by
  rintro ⟨-, -, hspill⟩
  obtain ⟨-, -, -, hplace⟩ := hspill spillState (by decide)
  obtain ⟨-, hframe⟩ := hplace plainDiv _ spillState_storesOk rfl rfl rfl spillState_place
  have hsame := hframe 0x100 (.inr (by decide))
  rw [spillState_before, spillState_after] at hsame
  exact absurd hsame (by decide)

end Sys2Proof
end

section
/-! PROOFS. A save that writes to another slot than that of the group which it names. -/

namespace Sys2Proof

open Machine

/-! ### The length of a saved context -/

theorem length_leBytes (n v : Nat) : (leBytes n v).length = n := by
  induction n generalizing v with
  | zero => rfl
  | succ n ih => exact congrArg (· + 1) (ih (v / 256))

theorem length_zeroBytes (n : Nat) : (zeroBytes n).length = n := List.length_replicate

theorem trapBytes_length (p : Specials) : (trapBytes p).length = 64 := by
  unfold trapBytes
  simp only [List.length_append, List.length_flatMap, length_leBytes, length_zeroBytes, List.map_const', List.sum_replicate_nat,
    List.length_cons, List.length_nil]

theorem stackBytes_length (l : LaneCtl) : (stackBytes l).length = 256 := by
  unfold stackBytes
  simp only [List.length_flatMap, length_leBytes, List.map_const', List.sum_replicate_nat, List.length_range]

theorem queueBytes_length {l : LaneCtl} (h : l.runs = []) : (queueBytes l).length = 1024 := by
  unfold queueBytes
  simp only [h, List.getElem?_nil, List.length_flatMap, length_zeroBytes, List.map_const', List.sum_replicate_nat, List.length_range]

/-- The record of a group without a run, a cairn, a tile, a lane register and a copy under way. -/
theorem contextBytes_length {s : State} {g : Group} (hc : g.ln.gl.cairn = []) (hr : g.ln.runs = []) (ht : g.place.tmask = 0)
    (hl : g.place.lregs = 0) (hq : replayOf s g.key = []) : (contextBytes s g).length = 20480 := by
  have hm : (maskTiles g.place.tmask).length = 0 := by rw [ht]; rfl
  unfold contextBytes
  simp only [List.length_append, List.length_flatMap, length_leBytes, length_zeroBytes, List.map_const', List.sum_replicate_nat,
    List.length_range, List.length_cons, List.length_nil, trapBytes_length, stackBytes_length, queueBytes_length hr]
  simp only [hc, List.getElem?_nil, length_zeroBytes, hm, hl, hq, List.map_const', List.sum_replicate_nat, List.length_range,
    List.filter_nil, List.map_nil, List.sum_nil]
  rfl

/-! ### Writes to the MMIO space are dropped -/

theorem fst_of_mem_sset {α : Type} [DecidableEq α] {d : α} {a : Nat} {v : α} {x : Nat × α} :
    ∀ {m : Store α}, x ∈ sset d m a v → x.1 = a ∨ ∃ y ∈ m, y.1 = x.1 := by
  intro m
  induction m with
  | nil =>
    intro h
    unfold sset at h
    split at h
    · cases h
    · exact .inl (by rw [List.mem_singleton.mp h])
  | cons p t ih =>
    intro h
    unfold sset at h
    have old : x ∈ p :: t → x.1 = a ∨ ∃ y ∈ p :: t, y.1 = x.1 := fun h => .inr ⟨x, h, rfl⟩
    have new : ∀ l, (∀ y ∈ l, y ∈ p :: t) → x ∈ (a, v) :: l → x.1 = a ∨ ∃ y ∈ p :: t, y.1 = x.1 := by
      intro l hl h
      rcases List.mem_cons.mp h with rfl | h
      · exact .inl rfl
      · exact old (hl _ h)
    split at h
    · split at h
      · exact old (List.mem_cons_of_mem _ h)
      · exact new t (fun y hy => List.mem_cons_of_mem _ hy) h
    · split at h
      · split at h
        · exact old h
        · exact new (p :: t) (fun y hy => hy) h
      · rcases List.mem_cons.mp h with rfl | h
        · exact old List.mem_cons_self
        · rcases ih h with h | ⟨y, hy, he⟩
          · exact .inl h
          · exact .inr ⟨y, List.mem_cons_of_mem _ hy, he⟩

theorem fst_of_mem_ssetMany {α : Type} [DecidableEq α] {d : α} {x : Nat × α} :
    ∀ (l : List (Nat × α)) {m : Store α}, x ∈ ssetMany d m l → (∃ y ∈ l, y.1 = x.1) ∨ ∃ y ∈ m, y.1 = x.1 := by
  intro l
  induction l with
  | nil => intro m h; exact .inr ⟨x, h, rfl⟩
  | cons p t ih =>
    intro m h
    rcases ih h with ⟨y, hy, he⟩ | ⟨y, hy, he⟩
    · exact .inl ⟨y, List.mem_cons_of_mem _ hy, he⟩
    · rcases fst_of_mem_sset hy with h1 | ⟨z, hz, h2⟩
      · exact .inl ⟨p, List.mem_cons_self, h1.symm.trans he⟩
      · exact .inr ⟨z, hz, h2.trans he⟩

/-- The pieces of a write lie at places that it writes. -/
theorem fst_of_mem_byUnit {l : List (Nat × Byte)} {u : List (Nat × Byte)} {p : Nat × Byte} (hu : u ∈ byUnit l) (hp : p ∈ u) :
    ∃ q ∈ l, q.1 = p.1 := by
  have key : ∀ (n : Nat) (l : List (Nat × Byte)), u ∈ byUnitFuel n l → ∃ q ∈ l, q.1 = p.1 := by
    intro n
    induction n with
    | zero => intro l h; cases h
    | succ n ih =>
      intro l h
      cases l with
      | nil => cases h
      | cons q t =>
        rcases List.mem_cons.mp h with rfl | h
        · obtain ⟨y, hy, rfl⟩ := List.mem_map.mp hp
          rcases fst_of_mem_ssetMany _ hy with ⟨z, hz, he⟩ | ⟨z, hz, -⟩
          · obtain ⟨x, hx, rfl⟩ := List.mem_map.mp hz
            rcases List.mem_cons.mp hx with rfl | hx
            · exact ⟨x, List.mem_cons_self, he⟩
            · exact ⟨x, List.mem_cons_of_mem _ (List.mem_filter.mp hx).1, he⟩
          · cases hz
        · obtain ⟨x, hx, he⟩ := ih _ h
          exact ⟨x, List.mem_cons_of_mem _ (List.mem_filter.mp hx).1, he⟩
  exact key _ _ hu

theorem placeWrite_mmio {s : State} {c : Cmd} {wr : List (Nat × Byte)} {prop poison : Bool} (h : ∀ p ∈ wr, isMmio p.1 = true) :
    placeWrite s c wr prop poison = s := by
  unfold placeWrite
  refine List.foldlRecOn (motive := fun t => t = s) _ _ rfl ?_
  rintro t rfl u hu
  cases u with
  | nil => rfl
  | cons p v =>
    obtain ⟨q, hq, he⟩ := fst_of_mem_byUnit hu List.mem_cons_self
    exact if_pos (he ▸ h q hq)

/-- A translation of the dispatch hardware: the first GiB of space 0 is mapped, writable, to the MMIO space. -/
def mmioEntry : TlbEntry := ⟨false, 4096, 0, 0, 0, 1, 3 * 2 ^ 48 + 8⟩

/-- The device finds that translation alone, and no error waits. -/
def DropsWrites (s : State) : Prop := s.tlb = [mmioEntry] ∧ s.quiet = true

/-- The reader of the dispatch hardware for space 0 in quarter 0. -/
def reader : Cmd := dispatchReader 0 0 0 true

theorem reader_xlat {s : State} (h : s.tlb = [mmioEntry]) {va : Word} (hv : va.toNat < 2 ^ 30) :
    reader.xlat s .store va = .ok ⟨3 * 2 ^ 48 + va.toNat, .s, 0, false, 1, 3 * 2 ^ 48 + 8⟩ := by
  have hf : tlbFind s 4096 0 0 va.toNat = some (1, 3 * 2 ^ 48 + 8) := by
    unfold tlbFind
    rw [h]
    have hp : va.toNat / 2 ^ pageBits 1 = 0 := Nat.div_eq_of_lt hv
    simp [mmioEntry, hp]
  show Machine.translate s 4096 0 0 true .store va = _
  unfold Machine.translate
  rw [if_neg (by omega), hf]
  have hp : va.toNat % 2 ^ pageBits 1 = va.toNat := Nat.mod_eq_of_lt hv
  show checkLeaf s 0 0 true .store 1 (3 * 2 ^ 48 + 8) va.toNat = _
  have hframe : bits (3 * 2 ^ 48 + 8) 51 16 * 2 ^ 16 = 3 * 2 ^ 48 := by decide
  have hwrite : bit1 (3 * 2 ^ 48 + 8) 3 = true := by decide
  have hstale : bit1 (3 * 2 ^ 48 + 8) 56 = false := by decide
  have htdef : bit1 (3 * 2 ^ 48 + 8) 57 = false := by decide
  have hatom : bits (3 * 2 ^ 48 + 8) 59 58 = 0 := by decide
  have hkind : bits (3 * 2 ^ 48 + 8) 61 60 = 0 := by decide
  unfold checkLeaf
  simp only [hp, hframe, hwrite, hstale, htdef, hatom, hkind, Bool.not_true, Bool.false_and, Bool.or_self, Bool.false_eq_true, if_false]

theorem isMmio_offset {n : Nat} (h : n < 2 ^ 31) : isMmio (3 * 2 ^ 48 + n) = true := by
  unfold isMmio onDie region
  simp only [Bool.and_eq_true, decide_eq_true_eq]
  omega

theorem unreachable_mmio {s : State} {c : Cmd} {n : Nat} (h : n < 2 ^ 31) : unreachable s c (3 * 2 ^ 48 + n) = false := by
  have hr : region (3 * 2 ^ 48 + n) = 3 := by
    unfold region
    omega
  unfold unreachable noRoute isPeer isLocal
  rw [hr]
  simp

/-- R346: a write of the dispatch hardware there changes nothing. -/
theorem engWrite_dropped {s : State} (h : DropsWrites s) {va : Word} (hv : va.toNat < 2 ^ 30) {l : List Byte} (hl : l.length ≤ 64) :
    engWrite s reader va l false false = .ok s := by
  have hw : reader.walked s va = s := by
    unfold Cmd.walked walkTouched
    exact if_pos (by rw [h.2, Bool.true_or, Bool.true_or])
  unfold engWrite
  rw [hw]
  dsimp only
  rw [reader_xlat h.1 hv]
  refine (if_neg (by rw [unreachable_mmio (by omega)]; decide)).trans (congrArg Except.ok (placeWrite_mmio ?_))
  intro p hp
  obtain ⟨x, hx, rfl⟩ := List.mem_map.mp hp
  have hlt : x.2 < l.length := by simpa using (List.mem_zipIdx hx).2.1
  show isMmio (3 * 2 ^ 48 + va.toNat + x.2) = true
  rw [Nat.add_assoc]
  exact isMmio_offset (by omega)

/-- Bytes that the dispatch hardware writes there are dropped. -/
theorem dispWrite_dropped {s : State} (h : DropsWrites s) {g : Group} (hg : dispatchReader g.place.q g.sp.asid.toNat g.sp.gen.toNat true = reader)
    {b : List Byte} (hb : b.length ≤ 2 ^ 20) : dispWrite s g 0 b = (s, none) := by
  unfold dispWrite
  rw [hg]
  dsimp only
  refine List.foldlRecOn (motive := fun r => r = (s, none)) _ _ rfl ?_
  rintro r rfl k hk
  have hk : k < b.length / 64 + 1 := List.mem_range.mp hk
  have hv : ((0 : Word) + BitVec.ofNat 64 (64 * k)).toNat < 2 ^ 30 := by
    show (0#64 + BitVec.ofNat 64 (64 * k)).toNat < 2 ^ 30
    rw [BitVec.zero_add, BitVec.toNat_ofNat]
    omega
  have hw := engWrite_dropped h hv (l := (b.drop (64 * k)).take 64) (by rw [List.length_take]; omega)
  dsimp only
  rw [hw]
  split
  · rfl
  · rfl

/-! ### The save of a block of one group -/

theorem sendReleases_none {s : State} {k : GroupKey} (h : s.links.sent = []) : sendReleases s k = s := by
  have hl : { s.links with sent := [] } = s.links := by rw [← h]
  unfold sendReleases
  dsimp only
  rw [h]
  show { s with links := { s.links with sent := s.links.sent.filter _ } } = s
  rw [h]
  show { s with links := { s.links with sent := [] } } = s
  rw [hl]

/-- The reads of the save meet no error in the group that has the focus. -/
theorem touchRegsOf_none {s : State} {k : GroupKey} {p : Nat → Nat → Bool} (hk : s.g.key = k) (h : s.errs.latent = []) :
    touchRegsOf s k p = s := by
  unfold touchRegsOf
  split
  · rfl
  · exact (if_pos hk).trans (touchRegs_none s p h)

/-- R324: a group without copies, whose context is written without an effect on the state, is saved in the group that its key finds. -/
theorem saveGroups_single {s : State} {rec : Nat} {g h : Group} (hk : s.g.key = g.key) (hsent : s.links.sent = []) (hlat : s.errs.latent = [])
    (hcopies : replayOf s g.key = []) (hf : s.findGroup g.key = some h) (hh : h.key = g.key)
    (hw : dispWrite s h (BitVec.ofNat 64 (bindCtx rec)) (contextBytes s h) = (s, none)) :
    saveGroups rec g [g] s =
      some ((s.upGroup g.key (fun _ => h.asSaved rec s.tick [])).putBind h.place (setBits rec 352 350 3)) := by
  have hrec : bindOf s rec g h = rec := if_pos hh
  have hctx : (h.asSaved rec s.tick []).sp.ctxaddr = BitVec.ofNat 64 (bindCtx rec) := rfl
  unfold saveGroups
  dsimp only
  rw [touchRegsOf_none hk hlat, sendReleases_none hsent, hcopies]
  dsimp only [List.foldl_nil, List.map_nil]
  rw [hf]
  dsimp only
  simp only [hcopies, hrec, List.map_nil, hctx, hw, Option.isSome_none, Bool.false_eq_true, if_false, saveGroups]

/-- A block is saved once its groups are, and its windows are written. -/
theorem saveBlock_of {s s1 : State} {rec : Nat} {g : Group} (hs : saveGroups rec g (blockOf s g.place.bid) (settle s) = some s1)
    (hq : s1.quiet = true) (hw : dispWrite s1 g (BitVec.ofNat 64 (bindBlk rec)) (blockBytes s1 g.place) = (s1, none)) :
    ∃ u, saveBlock s g rec = some u ∧ u.bindTab = s1.bindTab := by
  unfold saveBlock
  dsimp only
  rw [hs]
  dsimp only
  rw [if_pos hq, hw]
  exact ⟨_, rfl, rfl⟩

/-! ### The save of one of two groups with one key -/

/-- The key that two groups of this state have. -/
def twinKey : GroupKey := ⟨1, 0, 0, 0⟩

/-- An admitted task of one group, which holds tile 0. -/
def twinTask (id cls : Nat) : Task :=
  { newTask id ⟨0, none, none, cls, 0, 0, 0, 0, [], [], none, false⟩ 0 (2 ^ 1312 + 2 ^ 2576) with phase := .admitted }

/-- The group that stands in slot 1. -/
def boundTwin : Group := { Group.idle with key := twinKey, place := { Place.none with slot := 1, bound := true, bid := 7, tmask := 1 } }

/-- The group that the focus keeps with the same key, without a slot. -/
def freeTwin : Group := { Group.idle with key := twinKey }

/-- Both groups, and a task of class 0 that waits for the tile of the one. -/
def twinState : State :=
  { State.reset with g := freeTwin, rest := [boundTwin], tasks := [twinTask 1 1, twinTask 2 0], tlb := [mmioEntry] }

/-- The record that asks for the save of the group in slot 1: ACT 3, SLOT 1, its addresses 0. -/
def twinRec : Nat := 3 * 2 ^ 350 + 2 ^ 338

theorem twinRec_act : bindAct twinRec = 3 := by decide +kernel
theorem twinState_savedBy : savedBy twinState twinRec = some boundTwin := by decide +kernel
theorem twinState_givesWay : givesWay twinState boundTwin = true := by decide +kernel
theorem twinState_block : blockOf twinState 7 = [boundTwin] := by decide +kernel
theorem twinState_ready : ∀ h ∈ blockOf twinState boundTwin.place.bid, saveReady twinState h = true := by decide +kernel

/-- The state once the context is written: it is the free group that the save has found under the key, and its slot that the tables name. -/
def savedTwins : State :=
  (twinState.upGroup boundTwin.key (fun _ => freeTwin.asSaved twinRec twinState.tick [])).putBind freeTwin.place (setBits twinRec 352 350 3)

theorem twinState_found : twinState.findGroup boundTwin.key = some freeTwin := by decide +kernel
theorem twinRec_addresses : BitVec.ofNat 64 (bindCtx twinRec) = 0 ∧ BitVec.ofNat 64 (bindBlk twinRec) = 0 := by decide +kernel

/-- Every write of the dispatch hardware for these groups is dropped. -/
theorem twins_reader : dispatchReader freeTwin.place.q freeTwin.sp.asid.toNat freeTwin.sp.gen.toNat true = reader ∧
    dispatchReader boundTwin.place.q boundTwin.sp.asid.toNat boundTwin.sp.gen.toNat true = reader := by decide +kernel

theorem twinState_saveGroups : saveGroups twinRec boundTwin [boundTwin] twinState = some savedTwins := by
  refine saveGroups_single rfl rfl rfl rfl twinState_found rfl ?_
  rw [twinRec_addresses.1]
  refine dispWrite_dropped ⟨rfl, rfl⟩ twins_reader.1 ?_
  rw [contextBytes_length rfl rfl rfl rfl rfl]
  decide

theorem twinState_saveBlock : ∃ u, saveBlock twinState boundTwin twinRec = some u ∧ u.bindTab = savedTwins.bindTab := by
  refine saveBlock_of ?_ rfl ?_
  · rw [show blockOf twinState boundTwin.place.bid = [boundTwin] from twinState_block]
    exact twinState_saveGroups
  · rw [twinRec_addresses.2]
    exact dispWrite_dropped ⟨rfl, rfl⟩ twins_reader.2 (by decide +kernel)

/-- The slot of the group that the record names has no record. -/
theorem savedTwins_slot : sget 0 savedTwins.bindTab (slotKey boundTwin.place) = 0 := by decide +kernel

/-- Refutes O54: the save of a group looks the group up by its key. Where another group without a slot stands before it under the same key, the
slot tables take the record at the place of that one, and the slot of the group that the record names keeps an empty entry. -/
theorem not_launchAndBinding : ¬ Obligations.LaunchAndBinding := by
  rintro ⟨-, ⟨-, hsave, -⟩, -⟩
  obtain ⟨u, hu, hslots⟩ := twinState_saveBlock
  obtain ⟨-, -, hbind⟩ := hsave twinState u twinRec boundTwin twinRec_act twinState_savedBy twinState_givesWay twinState_ready hu
  have hact := hbind rfl
  rw [hslots, savedTwins_slot] at hact
  exact absurd hact (by decide +kernel)

end Sys2Proof
end

section
/-! PROOFS. Words across lanes. -/

namespace Sys2Proof

open Machine

/-! ### The lanes of a mask below a lane -/

/-- The lanes of a mask cut below a lane are those of the mask that lie below it (R241). -/
theorem lanesOf_below (W : BitVec 32) (l : Nat) : lanesOf (W &&& BitVec.ofNat 32 (2 ^ l - 1)) = (lanesOf W).filter (fun k => k < l) := by
  unfold lanesOf
  rw [List.filter_filter]
  refine List.filter_congr fun k hk => ?_
  have hcut : (BitVec.ofNat 32 (2 ^ l - 1)).getLsbD k = decide (k < l) := by
    rw [BitVec.getLsbD_ofNat, Nat.testBit_two_pow_sub_one, decide_eq_true (List.mem_range.mp hk), Bool.true_and]
  rw [BitVec.getLsbD_and, hcut, Bool.and_comm]

/-- R241: the three values of a ballot. -/
theorem vbal_result (w : LWord) :
    ElementResult 0x25 (.vbal w) w 6 true (fun _ _ _ => if w.va = 0 then [] else [Src.k w.va.toNat]) (fun _ => false) (fun _ => false)
      (fun g c l => some (if w.mod8 = 0 then (ballot g c w).toNat else if w.mod8 = 1 then (lanesOf (ballot g c w)).length
        else ((lanesOf (ballot g c w)).filter (fun k => k < l)).length, 0)) := by
  simp only [← lanesOf_below]
  exact crossWord_result fun _ => rfl

/-- Settles O33: each word is a cross-lane loop or a reduction to a scalar register; for VBAL the cut ballot is counted lane by lane. -/
theorem laneCrossResults : Obligations.LaneCrossResults := by
  intro w ty o sr from_ below n
  refine ⟨?vshf, ?vscan, vbal_result w, ?vred, ?vxts⟩
  case vshf => exact crossWord_result fun _ => rfl
  case vscan => exact crossWord_result fun _ => rfl
  case vred => exact toScalar_result fun _ => rfl
  case vxts => exact toScalar_result fun _ => rfl

end Sys2Proof
end

section
/-! PROOFS. Lane words that read memory. -/

namespace Sys2Proof

open Machine

/-- R244: the address of a lane as one sum of signed numbers, taken to 64 bits. -/
theorem laneAddr_signed (g : Machine.Group) (c : LCtx) (w : LWord) (z l : Nat) :
    laneAddr g c w z l = BitVec.ofInt 64 ((g.sval w.va.toNat).toInt + (BitVec.ofNat 32 (opB g c w 6 l)).toInt * z +
      (if w.ck = 2 then 0 else w.imm.toInt)) := by
  have hd : BitVec.ofInt 64 (if w.ck = 2 then 0 else w.imm.toInt) = if w.ck = 2 then 0 else w.imm.signExtend 64 :=
    apply_ite (BitVec.ofInt 64) ..
  unfold laneAddr
  rw [BitVec.ofInt_add, BitVec.ofInt_add, BitVec.ofInt_mul, BitVec.ofInt_toInt, BitVec.ofInt_natCast, hd]
  rfl

/-! ### Waiting words -/

section
variable {i : Instr} {k : LCtx → Pend → State → LRes} {first : State → Out} {s : State} {p : Pend}

theorem waitingWord_out (hp : s.g.qs.pendL = some p) (hd : p.done = false) : waitingWord i k first s = .next s := by
  unfold waitingWord
  rw [hp]
  exact if_neg fun h => by simp [hd] at h

theorem waitingWord_back (hp : s.g.qs.pendL = some p) (hi : p.w = i) (hd : p.done = true) :
    waitingWord i k first s = laneEnd s (laneCtx s.g) (k (laneCtx s.g) p s) := by
  unfold waitingWord
  rw [hp]
  exact if_pos ⟨hi, hd⟩

theorem waitingWord_first (hp : s.g.qs.pendL = none) : waitingWord i k first s = first s := by
  unfold waitingWord
  rw [hp]

theorem readsDone_out {k : Pend → State → LRes} (hp : s.g.qs.pendL = some p) (hd : p.done = false) : readsDone s k = .hold s := by
  unfold readsDone
  rw [hp]
  exact if_neg (by rw [hd]; decide)

theorem readsDone_back {k : Pend → State → LRes} (hp : s.g.qs.pendL = some p) (hd : p.done = true) : readsDone s k = k p s := by
  unfold readsDone
  rw [hp]
  exact if_pos hd

end

/-! ### What a word writes once its accesses are back -/

theorem finishReads_clean {w : LWord} {p : Pend} {lanes : List Nat} {value : Nat → Option (List Elem × Bool)} {c : LCtx} {s : State}
    (h : CameClean w p) : finishReads w (c.rn w.vd.toNat) (regCount w.ty.toNat) p lanes value c s = .ok (readsWritten w lanes value c s) := by
  obtain ⟨hpoison, hsettled⟩ := h
  have hp : ¬ (w.tg = 1 ∧ p.got.any (·.prop) = true) := by
    rintro ⟨htg, hany⟩
    obtain ⟨r, hr, hprop⟩ := List.any_eq_true.mp hany
    exact Bool.false_ne_true ((hsettled htg r hr).symm.trans hprop)
  unfold finishReads
  dsimp only
  rw [if_neg hp, hpoison]
  rfl

/-! ### The first issue -/

/-- A memory word whose checks come out well goes on with the places of its lanes. -/
theorem memoryWord_runs {w : LWord} {sp : Bool} {acc : Acc} {z : Nat} {srcs : Nat → List Src} {k : List (Nat × Target) → LRes} {c : LCtx}
    {s : State} {ts : List (Nat × Target)} (h : MemRuns w sp acc z srcs c s ts) (ht : lateToken s.g w.wt = none) :
    memoryWord w sp acc z srcs k c s = k ts := by
  obtain ⟨hact, hsettled, htargets, hbad⟩ := h
  simp only [workLanes] at htargets hbad
  unfold memoryWord
  dsimp only
  rw [if_neg hact, hsettled, htargets]
  dsimp only
  rw [ht, hbad]

/-- A word that enters its accesses when it issues, waits for them, and then writes what they return. -/
theorem readsMemory_of {op : Nat} {i : Instr} {w : LWord} {sp : Bool} {acc : Acc} {srcs : LCtx → Nat → List Src}
    {entries : Machine.Group → LCtx → List (Nat × Target) → List Entry} {lanes : Machine.Group → LCtx → Pend → List Nat}
    {value : Machine.Group → LCtx → Pend → Nat → Option (List Elem × Bool)} {finish : LCtx → Pend → State → LRes}
    (hexec : ∀ s, exec i s = waitingWord i finish (laneWord op w (fun c s => memoryWord w sp acc (accessSize w.ty.toNat) (srcs c)
      (fun ts => readsDone (startReads s true i (entries s.g c ts)) (finish c)) c s)) s)
    (hfinish : ∀ c p s, finish c p s = finishReads w (c.rn w.vd.toNat) (regCount w.ty.toNat) p (lanes s.g c p) (value s.g c p) c s) :
    ReadsMemory op i w sp acc srcs entries lanes value := by
  constructor
  · intro s p hp hi
    refine ⟨fun hd => ?_, fun hd hclean => ?_⟩
    · rw [hexec, waitingWord_out hp hd]
    · rw [hexec, waitingWord_back hp hi hd, hfinish, finishReads_clean hclean]
      rfl
  · intro s ts hr c s1 hruns u p hp
    have ht : lateToken s1.g w.wt = none := (lateToken_laneIssued _ s _).trans hr.2
    have heff : exec i s = laneEnd (laneRead (namesOf op w) s) c (readsDone u (finish c)) := by
      rw [hexec, waitingWord_first hr.1.1, laneWord_ready hr, memoryWord_runs hruns ht]
    refine ⟨fun hd => ?_, fun hd hclean => ?_⟩
    · rw [heff, readsDone_out hp hd]
      rfl
    · rw [heff, readsDone_back hp hd, hfinish, finishReads_clean hclean]
      rfl

/-- Settles O36: the address in signed numbers, and the shared shape of the words that wait for what they read. -/
theorem laneReadsMemory : Obligations.LaneReadsMemory := by
  refine ⟨laneAddr_signed, fun w => ⟨?vld, ?vlds, ?vatom⟩⟩
  case vld => exact readsMemory_of (finish := finishLoad w) (fun _ => rfl) (fun _ _ _ => rfl)
  case vlds => exact readsMemory_of (finish := finishLoad w) (fun _ => rfl) (fun _ _ _ => rfl)
  case vatom => exact readsMemory_of (finish := finishAtom w) (fun _ => rfl) (fun _ _ _ => rfl)

end Sys2Proof
end
